-- ==== Sys2Proof/Word.lean ====
section
/-!
DEFINITION. The words of HUFFCORE: bytes, bits, symbols and node ids (spec/00_scope.md R7, spec/10_state.md R16 and R21).
-/

namespace Sys2Proof

/-- The unit of every stream, of the command word and of a symbol: 8 bits (R7 `SYM_W`, R40, R60). -/
abbrev Byte := BitVec 8

/-- A symbol is a byte value (R9). -/
abbrev Symbol := Byte

/-- One bit of a code or of the payload; `false` is 0 and `true` is 1 (R8). -/
abbrev Bit := Bool

/-- A node id, `ID_W` bits holding 0 to 510: 0 to 255 are the leaves, 256 to 510 the internal nodes (R7, R16, R21). -/
abbrev NodeId := Fin 511

/-- The leaf whose id is the symbol (R16). -/
def leafId (s : Symbol) : NodeId := ⟨s.toNat, Nat.lt_trans s.isLt (by decide)⟩

/-- The internal node number `k` in creation order: id `256 + k` (R16). -/
def innerId (k : Fin 255) : NodeId := ⟨256 + k.val, by omega⟩

end Sys2Proof
end

