-- ==== Sys2Proof/Config.lean ====
section
/-!
DEFINITION. What is fixed for the hardware (spec/00_scope.md R7) and the one free value the spec leaves open (spec/60_exceptions.md R184).
The count width `CNT_W` is a parameter of the hardware that R7 lets a model take as an argument: it stands in State, so
that a statement about every state covers every width; its default and its range stand here.
-/

namespace Sys2Proof.Config

/-- `CNT_W` as this hardware takes it (R7): 32 bits. -/
def cntWDefault : Nat := 32

/-- The least and the greatest `CNT_W` (R7). -/
def cntWMin : Nat := 1
def cntWMax : Nat := 56

/-- `MAXCNT = 2^CNT_W - 1` (R7). -/
def maxCntOf (cntW : Nat) : Nat := 2 ^ cntW - 1

/-- `HDR_BYTES`, the bytes of the header of the encoded stream (R7). -/
def hdrBytes : Nat := 8

/-- `MAXLEN`, the longest code in bits (R7). -/
def maxLen : Nat := 255

/-- FREE VALUE (assumption 3). The contents of a sink that was held when an error was raised are unspecified from
then on: "a model treats `Q.data` as an arbitrary byte sequence (a draw), and no claim may depend on it" (R184).
The arguments are the number of the raise (a counter in State) and the sink's port number (R40). It has no body. -/
opaque unspecifiedSink : Nat → Nat → List Byte

end Sys2Proof.Config
end

