-- ==== Sys2Proof/Syntax.lean ====
section
/-!
DEFINITION. The fourteen commands of HUFFCORE, one constructor for each row of spec/opcode_table.json (spec/30_encoding.md R61).
-/

namespace Sys2Proof

/-- A command. No command has an operand or an immediate field (R60, R62): each is its mnemonic. -/
inductive Instr where
  /-- `NOP` 0x00, R82. -/
  | nop
  /-- `CLEAR` 0x01, R83. -/
  | clear
  /-- `SCAN` 0x10, R100. -/
  | scan
  /-- `PERSIST` 0x11, R102. -/
  | persist
  /-- `LOAD` 0x12, R104. -/
  | load
  /-- `BUILD` 0x20, R120. -/
  | build
  /-- `DERIVE` 0x21, R130. -/
  | derive
  /-- `WRHDR` 0x30, R141. -/
  | wrhdr
  /-- `EMIT` 0x31, R142. -/
  | emit
  /-- `FLUSH` 0x32, R144. -/
  | flush
  /-- `RDHDR` 0x33, R161. -/
  | rdhdr
  /-- `WALK` 0x34, R162. -/
  | walk
  /-- `ENCODE` 0x40, R150. -/
  | encode
  /-- `DECODE` 0x41, R170. -/
  | decode
  deriving DecidableEq, Repr

end Sys2Proof
end

