-- ==== Sys2Proof/WellFormed.lean ====
section
/-!
DEFINITION. What a well-formed command and a legal parameter are. A command has no operand (spec/30_encoding.md R62), so every
command is well formed; the one check is on the parameter `CNT_W` (spec/00_scope.md R7).
-/

namespace Sys2Proof

/-- Every command of R61 is well formed: "No command carries an immediate or an operand field" (R62). -/
def Instr.wellFormed : Instr → Bool
  | .nop | .clear | .scan | .persist | .load | .build | .derive => true
  | .wrhdr | .emit | .flush | .rdhdr | .walk | .encode | .decode => true

/-- `1 <= CNT_W <= 56` (R7). -/
def cntWOk (cntW : Nat) : Bool := decide (Config.cntWMin ≤ cntW) && decide (cntW ≤ Config.cntWMax)

end Sys2Proof
end

