-- ==== Sys2Proof/Decode.lean ====
section
/-!
DEFINITION. The command word (spec/30_encoding.md R60, R61, R63): the opcode table, the decoder, total on any bytes and
rejecting by name, and the encoder.
-/

namespace Sys2Proof

/-- The two fields of the one command format C (R60): `grp` is bits 7 to 4, `fn` is bits 3 to 0. -/
def groupOf (v : Byte) : BitVec 4 := v.extractLsb' 4 4
def functionOf (v : Byte) : BitVec 4 := v.extractLsb' 0 4

/-- A row of the opcode table: the bits compared, their values, and the command they stand for (R61). -/
structure OpcodeRow where
  mask  : Byte
  value : Byte
  instr : Instr
  deriving DecidableEq, Repr

/-- The opcode table of R61; every row compares all 8 bits (mask 0xFF). -/
def opcodeTable : List OpcodeRow :=
  [ ⟨0xFF, 0x00, .nop⟩, ⟨0xFF, 0x01, .clear⟩,
    ⟨0xFF, 0x10, .scan⟩, ⟨0xFF, 0x11, .persist⟩, ⟨0xFF, 0x12, .load⟩,
    ⟨0xFF, 0x20, .build⟩, ⟨0xFF, 0x21, .derive⟩,
    ⟨0xFF, 0x30, .wrhdr⟩, ⟨0xFF, 0x31, .emit⟩, ⟨0xFF, 0x32, .flush⟩,
    ⟨0xFF, 0x33, .rdhdr⟩, ⟨0xFF, 0x34, .walk⟩,
    ⟨0xFF, 0x40, .encode⟩, ⟨0xFF, 0x41, .decode⟩ ]

/-- Whether a byte is the row's opcode (R61). -/
def OpcodeRow.covers (r : OpcodeRow) (v : Byte) : Bool := v &&& r.mask == r.value

/-- Why bytes are no command. -/
inductive DecodeError where
  /-- No byte to decode: every command is one byte (R60). -/
  | noByte
  /-- One of the 242 reserved values (R63). -/
  | reserved (v : Byte)
  deriving DecidableEq, Repr

/-- The command a byte stands for, or the reserved value (R61, R63). -/
def decodeByte (v : Byte) : Except DecodeError Instr :=
  match opcodeTable.find? (·.covers v) with
  | some r => .ok r.instr
  | none => .error (.reserved v)

/-- The first command of a byte sequence and the bytes after it; a command is one byte (R60, R64). -/
def decode : List Byte → Except DecodeError (Instr × List Byte)
  | [] => .error .noByte
  | v :: rest => (decodeByte v).map (·, rest)

/-- The opcode of a command, from the table of R61. -/
def opcode : Instr → Byte
  | .nop => 0x00
  | .clear => 0x01
  | .scan => 0x10
  | .persist => 0x11
  | .load => 0x12
  | .build => 0x20
  | .derive => 0x21
  | .wrhdr => 0x30
  | .emit => 0x31
  | .flush => 0x32
  | .rdhdr => 0x33
  | .walk => 0x34
  | .encode => 0x40
  | .decode => 0x41

/-- The bytes of a command: its opcode (R60, R65). -/
def encode (i : Instr) : List Byte := [opcode i]

/-- The bytes of a program: "the sequence of bytes the host writes to `CMD`" (R65). -/
def encodeProgram (is : List Instr) : List Byte := is.flatMap encode

/-- The bytes of a word of `nbits` bits, bit 0 the least significant bit of the first byte. -/
def tableWordBytes (nbits w : Nat) : List Byte :=
  (List.range (nbits / 8)).map fun k => BitVec.ofNat 8 (w / 2 ^ (8 * k))

/-- What the decoder reads from the bits of an opcode-table row. -/
def decodeTableWord (nbits w : Nat) : Option Instr :=
  match decode (tableWordBytes nbits w) with
  | .ok (i, _) => some i
  | .error _ => none

end Sys2Proof
end

