-- ==== Sys2Proof/Machine/State.lean ====
section
/-!
DEFINITION. The state of HUFFCORE as plain data (spec/10_state.md R10 to R35), the streams behind its ports (spec/20_memory.md R40, R41),
what the host has in hand (spec/70_reset_and_hazards.md R203, R204), the reasons a step can stop, and the state after reset.
-/

namespace Sys2Proof.Machine

/-- `PHASE` (R25). Its reserved values 8 to 14 are "never taken by any rule" and have no constructor. -/
inductive Phase where
  | idle | table | persisted | built | derived | hdr | streamed | done | fault
  deriving DecidableEq, Repr

/-- `MODE` (R26), the direction of the session. Its reserved value 3 is never taken and has no constructor. -/
inductive Mode where
  | none | enc | dec
  deriving DecidableEq, Repr

/-- The six error kinds (R180). -/
inductive ErrorKind where
  | ioError | formatError | truncatedStreamError | internalInvariantError | capacityError | illegalCommand
  deriving DecidableEq, Repr

/-- The read ports (R40). -/
inductive SourcePort where
  | src | fsrc | esrc
  deriving DecidableEq, Repr

/-- The write ports (R40). -/
inductive SinkPort where
  | fsink | esink | osink
  deriving DecidableEq, Repr

/-- A source stream (R41): its bytes and its cursor. `fails` is the environment's answer to R47, "a free Boolean per
access (a draw)": whether the next access to this port fails, then the one after it, and so on; an access that the list
does not reach does not fail (assumption 2). -/
structure Source where
  data  : List Byte
  pos   : Nat
  fails : List Bool
  deriving DecidableEq, Repr

/-- A sink stream (R41): its bytes; `fails` as for a source. -/
structure Sink where
  data  : List Byte
  fails : List Bool
  deriving DecidableEq, Repr

/-- What the host does to the block between two commands (R33, R203, R204, R200). -/
inductive HostMove where
  /-- Write a byte to a host register; a write to register 0 (`CMD`) executes a command (R33, R80). -/
  | write (reg : Nat) (value : Byte)
  /-- Read a host register (R33). -/
  | read (reg : Nat)
  /-- The reset input (R200, R201). -/
  | reset
  /-- Bind a source port to a stream of these bytes (R203), whose accesses the environment will answer so (R47). -/
  | bindSource (port : SourcePort) (data : List Byte) (fails : List Bool)
  /-- Bind a sink port to a stream that holds these bytes (R203), whose accesses the environment will answer so (R47). -/
  | bindSink (port : SinkPort) (data : List Byte) (fails : List Bool)
  deriving DecidableEq, Repr

/-- Why the machine stops. Each is a point to which the spec gives no effect because it shows that no rule reaches it;
none is an error of the hardware (an error of R180 is a next state, R183). All are safe: the model stops. -/
inductive Fault where
  /-- Raised by `getByte` and `putByte`: an access to a port that is not held. "No rule calls `Get` on a port that is
  not held" (R43), and the same for `Put` (R44). Safe. -/
  | portNotHeld
  /-- Raised by `extractMin` (`BUILD`): no bit of `NODE_ACT` is set. "It is called only when at least one bit of
  `NODE_ACT` is set" (R121). Safe. -/
  | extractFromEmpty
  /-- Raised by `mergeStep` (`BUILD`): `NEXT_ID` is not the id of an internal node (R17, R19, R55). Safe. -/
  | nodeStoreFull
  /-- Raised by `BUILD`: after the merges `NODE_ACT` does not have exactly one bit set, so "the one id with
  `NODE_ACT[id] = 1`" (R120) does not exist. Safe. -/
  | rootNotUnique
  /-- Raised by `DERIVE`: a path of the tree passes 255 internal nodes, which no tree does (R7, R130, R133). Safe. -/
  | pathTooLong
  /-- Raised by the loops over a source: the loop has run more often than the source had unread bytes. `getByte`
  makes this impossible in every state (Sys2Proof/Laws). Safe. -/
  | loopBound
  deriving DecidableEq, Repr

/-- Why the model gives no meaning. -/
inductive Refusal where
  /-- Answered by `exec` alone, for an instruction that has no meaning yet, by its mnemonic. Safe. -/
  | notModelled (mnemonic : String)
  /-- Answered by the host move `bindSource` or `bindSink` on a port the core holds: "the model gives the host no move
  that changes a held stream" (R57, R204). Safe. -/
  | streamHeld
  deriving DecidableEq, Repr

/-- The state. -/
structure State where
  /-- MODEL: the parameter `CNT_W` of this instance (R7), constant in every step. -/
  cntW      : Nat
  /-- `FT_PRES[0..255]` (R11). -/
  ftPres    : Vector Bool 256
  /-- `FT_CNT[0..255]`, `CNT_W` bits each (R12). -/
  ftCnt     : Vector Nat 256
  /-- `NSYMS`, 9 bits (R13). -/
  nsyms     : BitVec 9
  /-- `TOTAL`, `CNT_W` bits (R14). -/
  total     : Nat
  /-- `NODE_W[0..510]`, `CNT_W` bits each (R16). -/
  nodeW     : Vector Nat 511
  /-- `NODE_L[256..510]`, entry `k` for the internal node `256 + k` (R17). -/
  nodeL     : Vector NodeId 255
  /-- `NODE_R[256..510]`, entry `k` for the internal node `256 + k` (R17). -/
  nodeR     : Vector NodeId 255
  /-- `NODE_ACT[0..510]` (R18). -/
  nodeAct   : Vector Bool 511
  /-- `NEXT_ID`, 10 bits (R19). -/
  nextId    : BitVec 10
  /-- `ROOT`, `ID_W` bits (R20). -/
  root      : NodeId
  /-- `TREE_VALID` (R20). -/
  treeValid : Bool
  /-- `CODE_LEN[0..255]`, `LEN_W` bits each (R22). -/
  codeLen   : Vector (BitVec 8) 256
  /-- `CODE_BITS[0..255]`, 255 bits each (R22). -/
  codeBits  : Vector (BitVec 255) 256
  /-- `CT_VALID` (R23). -/
  ctValid   : Bool
  /-- `HDR_BITS`, 64 bits (R24). -/
  hdrBits   : BitVec 64
  /-- `PHASE` (R25). -/
  phase     : Phase
  /-- `MODE` (R26). -/
  mode      : Mode
  /-- `CUR`, `ID_W` bits (R27). -/
  cur       : NodeId
  /-- `PORT_HELD`, bit `p` for port number `p` (R29). -/
  portHeld  : BitVec 6
  /-- `ERR`; `none` is the code 0 (R30, R180). -/
  err       : Option ErrorKind
  /-- `ERR_CMD`, 8 bits (R30). -/
  errCmd    : Byte
  /-- `BW_ACC`, 8 bits (R31). -/
  bwAcc     : Byte
  /-- `BW_N`, 3 bits (R31). -/
  bwN       : Fin 8
  /-- `BW_TOTAL`, 64 bits (R31). -/
  bwTotal   : BitVec 64
  /-- `BR_BUF`, 8 bits (R31). -/
  brBuf     : Byte
  /-- `BR_LEFT`, range 0 to 8 (R31). -/
  brLeft    : Fin 9
  /-- `BR_TOTAL`, 64 bits (R31). -/
  brTotal   : BitVec 64
  /-- The stream of port 0, `SRC` (R34, R40). -/
  src       : Source
  /-- The stream of port 1, `FSINK` (R34, R40). -/
  fsink     : Sink
  /-- The stream of port 2, `ESINK` (R34, R40). -/
  esink     : Sink
  /-- The stream of port 3, `FSRC` (R34, R40). -/
  fsrc      : Source
  /-- The stream of port 4, `ESRC` (R34, R40). -/
  esrc      : Source
  /-- The stream of port 5, `OSINK` (R34, R40). -/
  osink     : Sink
  /-- MODEL: the number of errors raised so far, the argument of the free value `Config.unspecifiedSink` (R184). -/
  raises    : Nat
  /-- MODEL: what the host will do next, first first (R33, R203, R204). -/
  hostMoves : List HostMove
  /-- MODEL: what the host's last register read returned (R33). -/
  readData  : BitVec 64
  deriving DecidableEq, Repr

/-- A source that holds no bytes, at its start, with no failing access. -/
def Source.empty : Source := ⟨[], 0, []⟩

/-- A sink that holds no bytes, with no failing access. -/
def Sink.empty : Sink := ⟨[], []⟩

/-- The state right after reset: every register and store of the core at the value of the table of R35. The six
streams, the host's moves, the last read and the number of raises are the model's own (assumption 4); `CNT_W` is the
default of R7. -/
def State.reset : State where
  cntW      := Config.cntWDefault
  ftPres    := Vector.replicate 256 false
  ftCnt     := Vector.replicate 256 0
  nsyms     := 0
  total     := 0
  nodeW     := Vector.replicate 511 0
  nodeL     := Vector.replicate 255 0
  nodeR     := Vector.replicate 255 0
  nodeAct   := Vector.replicate 511 false
  nextId    := 256
  root      := 0
  treeValid := false
  codeLen   := Vector.replicate 256 0
  codeBits  := Vector.replicate 256 0
  ctValid   := false
  hdrBits   := 0
  phase     := .idle
  mode      := .none
  cur       := 0
  portHeld  := 0
  err       := none
  errCmd    := 0
  bwAcc     := 0
  bwN       := 0
  bwTotal   := 0
  brBuf     := 0
  brLeft    := 0
  brTotal   := 0
  src       := .empty
  fsink     := .empty
  esink     := .empty
  fsrc      := .empty
  esrc      := .empty
  osink     := .empty
  raises    := 0
  hostMoves := []
  readData  := 0

end Sys2Proof.Machine
end

