-- ==== Sys2Proof/Machine/Operands.lean ====
section
/-!
DEFINITION. The numbers that commands assemble from pieces (spec/30_encoding.md R62): the symbol and the count of a frequency line
(R72, R73, spec/42_freqtable.md R103), the header's big-endian count (R71, spec/20_memory.md R46), single bits of a register
(spec/20_memory.md R48) and the layout of a code in `CODE_BITS` (spec/10_state.md R22).
-/

namespace Sys2Proof.Machine

/-! ### Characters of the frequency record (R70; ASCII, assumption 6) -/

def chZero : Byte := 0x30
def chOne : Byte := 0x31
def chNine : Byte := 0x39
def chColon : Byte := 0x3A
def chLF : Byte := 0x0A

/-- The character of a binary digit (R72). -/
def binChar (b : Bit) : Byte := if b then chOne else chZero

/-- `bin8`: the symbol's value as 8 binary characters, most significant digit first (R72). -/
def bin8 (s : Symbol) : List Byte :=
  (List.range 8).map fun i => binChar (s.getLsbD (7 - i))

/-- The digit a character of the symbol field spells; the end of the stream spells none (R104). -/
def binDigit? : Option Byte → Option Bit
  | none => none
  | some c => if c = chZero then some false else if c = chOne then some true else none

/-- The digit a character of the count field spells (R104: `'0' <= c <= '9'`). -/
def decDigit? (c : Byte) : Option Nat :=
  if chZero ≤ c ∧ c ≤ chNine then some (c.toNat - chZero.toNat) else none

/-- The character of a decimal digit below 10 (R103). -/
def decChar (d : Nat) : Byte := BitVec.ofNat 8 (0x30 + d)

/-- The decimal digits of `n`, most significant first, put before `acc`: the remainders of the repeated division by 10
(R103). The first argument bounds the number of digits. -/
def decimalDigits : Nat → Nat → List Byte → List Byte
  | 0, _, acc => acc
  | fuel + 1, n, acc =>
    if n < 10 then decChar n :: acc
    else decimalDigits fuel (n / 10) (decChar (n % 10) :: acc)

/-- `decimal(n)`: the shortest decimal form of `n`, `0` for 0 (R103). -/
def decimal (n : Nat) : List Byte := decimalDigits (n + 1) n []

/-- One line of the frequency record: `bin8 ':' count LF` (R70). -/
def recordLine (s : Symbol) (n : Nat) : List Byte :=
  bin8 s ++ [chColon] ++ decimal n ++ [chLF]

/-! ### Multi-byte values (R46) -/

/-- The `n` bytes of `v`, most significant first. -/
def bytesBE (n v : Nat) : List Byte :=
  (List.range n).map fun k => BitVec.ofNat 8 (v / 2 ^ (8 * (n - 1 - k)))

/-! ### Bits of a register (R8, R48) -/

/-- `v[i] <- b`. -/
def setBit {w : Nat} (v : BitVec w) (i : Nat) (b : Bit) : BitVec w :=
  (v &&& ~~~ BitVec.twoPow w i) ||| (if b then BitVec.twoPow w i else 0)

/-! ### Codes (R22, R130) -/

/-- A register of `CODE_BITS` that holds the path `p` left-aligned: bit `254 - i` is `p[i]`, the rest 0 (R22). The first
argument is the position of the first bit of `p`. -/
def placeCode : Nat → List Bit → BitVec 255 → BitVec 255
  | _, [], v => v
  | i, b :: p, v => placeCode (i + 1) p (setBit v (254 - i) b)

/-- The code of length `n` that a register of `CODE_BITS` holds: `c_i = CODE_BITS[s][254 - i]` (R22). -/
def takeCode (n : Nat) (v : BitVec 255) : List Bit :=
  (List.range n).map fun i => v.getLsbD (254 - i)

/-! ### Indices -/

/-- The symbols 0 to 255 in ascending order (R8: `for s in 0..255`). -/
def allSymbols : List Symbol := (List.range 256).map (BitVec.ofNat 8)

/-- The indices of a store of bits at which the bit is set, in the order of the indices. -/
def setIndices {ι : Type} (ids : List ι) (bits : List Bool) : List ι := ((ids.zip bits).filter (·.2)).map (·.1)

/-- The store whose entry `i` is `f i`. -/
def tabulate {α : Type} (n : Nat) (f : Fin n → α) : Vector α n := ⟨((List.finRange n).map f).toArray, by simp⟩

/-- The symbol of a leaf id, `id[7:0]` (R21). -/
def symbolOf (id : NodeId) : Symbol := BitVec.ofNat 8 id.val

/-- The test "is a Leaf" (R21). -/
def isLeaf (id : NodeId) : Bool := decide (id.val < 256)

end Sys2Proof.Machine
end

