-- ==== Sys2Proof/Machine/Flags.lean ====
section
/-!
DEFINITION. The codes of the enumerated registers (spec/10_state.md R25, R26, spec/60_exceptions.md R180), the bits of `PORT_HELD` (R29), the
packed host registers (R33) and the legality of a command (spec/40_control.md R80, R81). There are no arithmetic condition
codes (R28).
-/

namespace Sys2Proof.Machine

/-- The value of `PHASE` (R25). -/
def Phase.code : Phase → BitVec 4
  | .idle => 0
  | .table => 1
  | .persisted => 2
  | .built => 3
  | .derived => 4
  | .hdr => 5
  | .streamed => 6
  | .done => 7
  | .fault => 15

/-- The value of `MODE` (R26). -/
def Mode.code : Mode → BitVec 2
  | .none => 0
  | .enc => 1
  | .dec => 2

/-- The code of an error (R180). -/
def ErrorKind.code : ErrorKind → BitVec 3
  | .ioError => 1
  | .formatError => 2
  | .truncatedStreamError => 3
  | .internalInvariantError => 4
  | .capacityError => 5
  | .illegalCommand => 6

/-- The value of `ERR`: 0 where there is no error (R30, R180). -/
def errCode : Option ErrorKind → BitVec 3
  | none => 0
  | some e => e.code

/-! ### Ports (R29, R40) -/

/-- The number of a source port (R40). -/
def SourcePort.num : SourcePort → Nat
  | .src => 0
  | .fsrc => 3
  | .esrc => 4

/-- The number of a sink port (R40). -/
def SinkPort.num : SinkPort → Nat
  | .fsink => 1
  | .esink => 2
  | .osink => 5

/-- `PORT_HELD[p]` (R29). -/
def State.held (s : State) (p : Nat) : Bool := s.portHeld.getLsbD p

/-- `PORT_HELD[p] <- 1` (R42). -/
def State.hold (s : State) (p : Nat) : State := { s with portHeld := setBit s.portHeld p true }

/-! ### The host registers (R33) -/

/-- `STATUS`: `[3:0]` `PHASE`, `[5:4]` `MODE`, `[6]` `TREE_VALID`, `[7]` `CT_VALID`, `[13:8]` `PORT_HELD`, `[15:14]` 0. -/
def State.status (s : State) : BitVec 16 :=
  0#2 ++ s.portHeld ++ BitVec.ofBool s.ctValid ++ BitVec.ofBool s.treeValid ++ s.mode.code ++ s.phase.code

/-- `ERRREG`: `[2:0]` `ERR`, `[7:3]` 0, `[15:8]` `ERR_CMD`. -/
def State.errReg (s : State) : BitVec 16 := s.errCmd ++ 0#5 ++ errCode s.err

/-- The value a read of a host register returns, widened with zeros. `CMD` and the registers that do not exist read
0, and `ROOT` reads 0 where there is no tree (R33). -/
def State.hostRegister (s : State) : Nat → BitVec 64
  | 1 => s.status.setWidth 64
  | 2 => s.errReg.setWidth 64
  | 3 => s.nsyms.setWidth 64
  | 4 => BitVec.ofNat 64 s.total
  | 5 => s.hdrBits
  | 6 => if s.treeValid then BitVec.ofNat 64 s.root.val else 0
  | 7 => s.bwTotal
  | 8 => s.brTotal
  | _ => 0

/-! ### Legality (R80, R81, R84) -/

/-- The four commands that are not ignored in phase `FAULT` (R80, R84). -/
def runsInFault : Instr → Bool
  | .nop | .clear | .encode | .decode => true
  | .scan | .persist | .load | .build | .derive | .wrhdr | .emit | .flush | .rdhdr | .walk => false

/-- The column "legal when" of R81. -/
def legal (s : State) : Instr → Bool
  | .nop => true
  | .clear => true
  | .scan => s.phase == .idle
  | .load => s.phase == .idle
  | .persist => s.phase == .table && s.mode == .enc
  | .build => (s.phase == .persisted && s.mode == .enc) || (s.phase == .table && s.mode == .dec)
  | .derive => s.phase == .built && s.mode == .enc
  | .wrhdr => s.mode == .enc && (s.phase == .derived || (s.phase == .persisted && s.nsyms == 0))
  | .emit => s.phase == .hdr && s.mode == .enc
  | .flush => s.phase == .streamed
  | .rdhdr => s.mode == .dec && (s.phase == .built || (s.phase == .table && s.nsyms == 0))
  | .walk => s.phase == .hdr && s.mode == .dec
  | .encode => true
  | .decode => true

end Sys2Proof.Machine
end

