-- ==== Sys2Proof/Machine/Ops.lean ====
section
/-!
DEFINITION. The shared operations: entries of the stores, the port primitives (spec/20_memory.md R42 to R47), raising an error and the way
out of it (spec/60_exceptions.md R183, R184, R186), clearing the core (spec/10_state.md R35), and the execution of one
command (spec/40_control.md R80, R85).
-/

namespace Sys2Proof.Machine

/-! ### Entries of the stores -/

/-- Entry `b` of a store indexed by symbol (R55). -/
def atSym {α : Type} (v : Vector α 256) (b : Symbol) : α := v[b.toNat]'b.isLt

/-- The store with entry `b` written. -/
def putSym {α : Type} (v : Vector α 256) (b : Symbol) (x : α) : Vector α 256 := v.set b.toNat x b.isLt

/-- The symbols `s` with `FT_PRES[s] = 1`, ascending (R11). -/
def State.presentSymbols (s : State) : List Symbol := setIndices allSymbols s.ftPres.toList

/-- Entry `id` of a child store, indexed 256 to 510 (R17). A leaf has no entry; no rule asks for one (R55), and the model
answers the leaf itself (assumption 8). -/
def childAt (v : Vector NodeId 255) (id : NodeId) : NodeId :=
  if h : 256 ≤ id.val then v[id.val - 256]'(by omega) else id

/-- `NODE_L[id]` and `NODE_R[id]` (R17). -/
def State.left (s : State) (id : NodeId) : NodeId := childAt s.nodeL id
def State.right (s : State) (id : NodeId) : NodeId := childAt s.nodeR id

/-- `MAXCNT` of this instance (R7). -/
def State.maxCnt (s : State) : Nat := Config.maxCntOf s.cntW

/-! ### Streams -/

/-- The stream of a source port (R40). -/
def State.source (s : State) : SourcePort → Source
  | .src => s.src
  | .fsrc => s.fsrc
  | .esrc => s.esrc

/-- The state with the stream of a source port written. -/
def State.setSource (s : State) (p : SourcePort) (st : Source) : State :=
  match p with
  | .src => { s with src := st }
  | .fsrc => { s with fsrc := st }
  | .esrc => { s with esrc := st }

/-- The stream of a sink port (R40). -/
def State.sink (s : State) : SinkPort → Sink
  | .fsink => s.fsink
  | .esink => s.esink
  | .osink => s.osink

/-- The state with the stream of a sink port written. -/
def State.setSink (s : State) (q : SinkPort) (st : Sink) : State :=
  match q with
  | .fsink => { s with fsink := st }
  | .esink => { s with esink := st }
  | .osink => { s with osink := st }

/-- The bytes of a source that have not been read (R41). -/
def Source.unread (st : Source) : Nat := st.data.length - st.pos

/-- Whether the environment fails the next access (R47). -/
def failsNext (fails : List Bool) : Bool := fails.headD false

/-! ### Procedures

A procedure of the spec's pseudocode is a function of the state that ends with a result or stops; where it stops, the
state is the one at the stop: "a `raise` abandons the rest" (R8) and every state change made before it has happened (R184). -/

/-- Why a procedure stops. -/
inductive Stop where
  /-- The pseudocode executes `raise e` (R183). -/
  | raised (e : ErrorKind)
  /-- The spec gives no effect. -/
  | stuck (f : Fault)
  deriving DecidableEq, Repr

/-- A procedure. -/
abbrev Proc (α : Type) := EStateM Stop State α

/-- `Open(P)` for a source (R42): a failing access raises `IoError`; otherwise the port is held and its cursor is 0. -/
def openSource (p : SourcePort) : Proc Unit := fun s =>
  let st := s.source p
  if failsNext st.fails then
    .error (.raised .ioError) (s.setSource p { st with fails := st.fails.tail })
  else
    .ok () ((s.setSource p { st with pos := 0, fails := st.fails.tail }).hold p.num)

/-- `Open(Q)` for a sink (R42): a failing access raises `IoError`; otherwise the port is held and its stream is empty. -/
def openSink (q : SinkPort) : Proc Unit := fun s =>
  let st := s.sink q
  if failsNext st.fails then
    .error (.raised .ioError) (s.setSink q { st with fails := st.fails.tail })
  else
    .ok () ((s.setSink q { st with data := [], fails := st.fails.tail }).hold q.num)

/-- `Get(P)` (R43): the byte at the cursor, or `none` for `EOF`. -/
def getByte (p : SourcePort) : Proc (Option Byte) := fun s =>
  let st := s.source p
  if !s.held p.num then .error (.stuck .portNotHeld) s
  else if failsNext st.fails then
    .error (.raised .ioError) (s.setSource p { st with fails := st.fails.tail })
  else
    match st.data[st.pos]? with
    | some b => .ok (some b) (s.setSource p { st with pos := st.pos + 1, fails := st.fails.tail })
    | none => .ok none (s.setSource p { st with fails := st.fails.tail })

/-- `Put(Q, b)` (R44). -/
def putByte (q : SinkPort) (b : Byte) : Proc Unit := fun s =>
  let st := s.sink q
  if !s.held q.num then .error (.stuck .portNotHeld) s
  else if failsNext st.fails then
    .error (.raised .ioError) (s.setSink q { st with fails := st.fails.tail })
  else
    .ok () (s.setSink q { data := st.data ++ [b], fails := st.fails.tail })

/-- `Put` of each byte of a list, in order. -/
def putBytes (q : SinkPort) : List Byte → Proc Unit
  | [] => pure ()
  | b :: bs => do
    putByte q b
    putBytes q bs

/-- `MemWrite(Q, n, v)` (R46): `n` bytes, most significant first. -/
def memWrite (q : SinkPort) (n v : Nat) : Proc Unit := putBytes q (bytesBE n v)

/-- `MemRead(P, n)` after bytes of value `acc` (R46): up to `n` reads, `none` for `EOF` at the first that answers it. -/
def memReadFrom (p : SourcePort) : Nat → Nat → Proc (Option Nat)
  | 0, acc => pure (some acc)
  | n + 1, acc => do
    match ← getByte p with
    | none => pure none
    | some b => memReadFrom p n (256 * acc + b.toNat)

/-- `MemRead(P, n)` (R46). -/
def memRead (p : SourcePort) (n : Nat) : Proc (Option Nat) := memReadFrom p n 0

/-- The loop "`r <- Get(P)`; if `r = EOF` exit; `f(r)`" of R100 and R142. The first argument is the number of unread
bytes when the loop starts. -/
def forEachByte (p : SourcePort) (f : Byte → Proc Unit) : Nat → Proc Unit
  | 0 => do
    match ← getByte p with
    | none => pure ()
    | some _ => throw (.stuck .loopBound)
  | n + 1 => do
    match ← getByte p with
    | none => pure ()
    | some b => do
      f b
      forEachByte p f n

/-- `ReleaseAll()` (R45). -/
def State.releaseAll (s : State) : State := { s with portHeld := 0 }

/-- `PHASE <- v` (R8: this hardware's `pc <- target`). -/
def State.enter (s : State) (v : Phase) : State := { s with phase := v }

/-- `MODE <- v`. -/
def State.setMode (s : State) (v : Mode) : State := { s with mode := v }

/-- `HDR_BITS <- v` (R24). -/
def State.setHdr (s : State) (v : BitVec 64) : State := { s with hdrBits := v }

/-- The end of a session without error (R144, R162): every port released, phase `DONE`. -/
def State.endSession (s : State) : State := s.releaseAll.enter .done

/-! ### Errors -/

/-- The contents of a held sink become unspecified; a sink that is not held is untouched (R183, R184). -/
def State.spoilSink (s : State) (q : SinkPort) : State :=
  if s.held q.num then
    s.setSink q { s.sink q with data := Config.unspecifiedSink s.raises q.num }
  else s

/-- `raise E` (R183), for the command whose opcode is `cmd` (`CUR_CMD`): the error and the command are recorded, every held
sink becomes unspecified, every port is released, and the phase is `FAULT`. -/
def State.raiseError (s : State) (e : ErrorKind) (cmd : Byte) : State :=
  let s' := ((s.spoilSink .fsink).spoilSink .esink).spoilSink .osink
  { s'.releaseAll with err := some e, errCmd := cmd, phase := .fault, raises := s.raises + 1 }

/-- Every register and store of the core at its reset value, the streams untouched (R35, R83, R200, R201). It is the way out of
`FAULT` (R186). -/
def State.cleared (s : State) : State :=
  { State.reset with
    cntW := s.cntW
    src := s.src, fsink := s.fsink, esink := s.esink, fsrc := s.fsrc, esrc := s.esrc, osink := s.osink
    raises := s.raises, hostMoves := s.hostMoves, readData := s.readData }

/-! ### Commands -/

/-- The answer of a step of this machine. -/
abbrev Answer := Host.Outcome State Fault Refusal

/-- The answer to a command whose opcode is `cmd` and whose procedure ended so: an error is raised (R183). -/
def finish (cmd : Byte) : EStateM.Result Stop State Unit → Answer
  | .ok _ s => .next s
  | .error (.raised e) s => .next (s.raiseError e cmd)
  | .error (.stuck f) _ => .fault f

/-- One primitive command (R80): ignored in `FAULT` (R84), `IllegalCommand` where it is not legal (R81), and its procedure
otherwise. -/
def runCommand (i : Instr) (body : Proc Unit) (s : State) : Answer :=
  if s.phase = .fault ∧ runsInFault i = false then .next s
  else if legal s i = false then .next (s.raiseError .illegalCommand (opcode i))
  else finish (opcode i) (body s)

/-- A write of a reserved value to `CMD` (R63, R80): ignored in `FAULT`, otherwise `IllegalCommand`. -/
def reservedCommand (v : Byte) (s : State) : Answer :=
  if s.phase = .fault then .next s else .next (s.raiseError .illegalCommand v)

/-- The next step of a composite (R85): "After a step that leaves `PHASE = FAULT` the remaining steps are not executed." -/
def andThen (r : Answer) (f : State → Answer) : Answer :=
  match r with
  | .next s => if s.phase = .fault then .next s else f s
  | .fault e => .fault e
  | .refused e => .refused e

end Sys2Proof.Machine
end

