-- ==== Sys2Proof/Machine/BitIO.lean ====
section
/-!
DEFINITION. The bit writer and the bit reader (spec/41_bitio.md R90 to R94).
-/

namespace Sys2Proof.Machine

/-- `ResetBW()` (R90). -/
def State.resetBW (s : State) : State := { s with bwAcc := 0, bwN := 0, bwTotal := 0 }

/-- `ResetBR()` (R90). -/
def State.resetBR (s : State) : State := { s with brBuf := 0, brLeft := 0, brTotal := 0 }

/-! ### Writing -/

/-- `BW_ACC[7 - BW_N] <- b` and `BW_TOTAL <- BW_TOTAL + 1` (R91). -/
def State.placeBit (s : State) (b : Bit) : State :=
  { s with bwAcc := setBit s.bwAcc (7 - s.bwN.val) b, bwTotal := s.bwTotal + 1 }

/-- `BW_ACC <- 0` and `BW_N <- 0`, after a byte has left (R91, R92). -/
def State.emptyAcc (s : State) : State := { s with bwAcc := 0, bwN := 0 }

/-- `BW_N <- BW_N + 1` (R91). -/
def State.countBit (s : State) : State := { s with bwN := s.bwN + 1 }

/-- `Put(ESINK, BW_ACC)`, and the bit writer starts a new byte (R91, R92). -/
def putAcc : Proc Unit := do
  putByte .esink (← get).bwAcc
  modify State.emptyAcc

/-- `PutBit(b)` (R91). -/
def putBit (b : Bit) : Proc Unit := do
  modify (·.placeBit b)
  if (← get).bwN = 7 then putAcc else modify State.countBit

/-- `FlushBits()` (R92). -/
def flushBits : Proc Unit := do
  if (← get).bwN = 0 then pure () else putAcc

/-- `PutBit` of each bit of a list, in order. -/
def putBits : List Bit → Proc Unit
  | [] => pure ()
  | b :: bs => do
    putBit b
    putBits bs

/-- The code of a symbol (R22). -/
def State.codeOf (s : State) (b : Symbol) : List Bit :=
  takeCode (atSym s.codeLen b).toNat (atSym s.codeBits b)

/-- `PutCode(s)` (R93). -/
def putCode (b : Symbol) : Proc Unit := do
  putBits ((← get).codeOf b)

/-! ### Reading -/

/-- `BR_BUF <- r` and `BR_LEFT <- 8` (R94). -/
def State.loadByte (s : State) (r : Byte) : State := { s with brBuf := r, brLeft := 8 }

/-- `BR_LEFT <- BR_LEFT - 1` and `BR_TOTAL <- BR_TOTAL + 1` (R94). -/
def State.dropBit (s : State) : State := { s with brLeft := s.brLeft - 1, brTotal := s.brTotal + 1 }

/-- The first part of `GetBit()`: a byte is fetched where none of the last one is left (R94). -/
def fetchByte : Proc Unit := do
  if (← get).brLeft = 0 then
    match ← getByte .esrc with
    | none => throw (.raised .truncatedStreamError)
    | some r => modify (·.loadByte r)
  else pure ()

/-- `GetBit()` (R94). -/
def getBit : Proc Bit := do
  fetchByte
  let s ← get
  set s.dropBit
  pure (s.brBuf.getLsbD (s.brLeft.val - 1))

end Sys2Proof.Machine
end

