-- ==== Sys2Proof/Machine/Control.lean ====
section
/-!
DEFINITION. The control commands `NOP` and `CLEAR` (spec/40_control.md R82, R83).
-/

namespace Sys2Proof.Machine

/-- `NOP` (R82): "nothing is read or written". -/
def execNop (s : State) : Answer := runCommand .nop (pure ()) s

/-- `CLEAR` (R83). -/
def execClear (s : State) : Answer := runCommand .clear (modify State.cleared) s

end Sys2Proof.Machine
end

