-- ==== Sys2Proof/Machine/FreqTable.lean ====
section
/-!
DEFINITION. The frequency counter: `SCAN`, `PERSIST` and `LOAD` (spec/42_freqtable.md R100 to R105).
-/

namespace Sys2Proof.Machine

/-! ### SCAN -/

/-- The table after one more byte `b` of the source (R101): a key that is not present becomes one, and is counted. -/
def State.countByte (s : State) (b : Symbol) : State :=
  { s with
    ftPres := putSym s.ftPres b true
    nsyms := if atSym s.ftPres b then s.nsyms else s.nsyms + 1
    ftCnt := putSym s.ftCnt b (atSym s.ftCnt b + 1)
    total := s.total + 1 }

/-- `ScanStep(s)` (R101). -/
def scanStep (b : Symbol) : Proc Unit := do
  let s ← get
  if s.total = s.maxCnt then throw (.raised .capacityError)
  else set (s.countByte b)

/-- The procedure of `SCAN` (R100). -/
def scanBody : Proc Unit := do
  modify (·.setMode .enc)
  openSource .src
  forEachByte .src scanStep (← get).src.unread
  modify (·.enter .table)

/-- `SCAN` (R100). -/
def execScan (s : State) : Answer := runCommand .scan scanBody s

/-! ### PERSIST -/

/-- One line of the record for each symbol of the list, in order (R102). -/
def persistLines : List Symbol → Proc Unit
  | [] => pure ()
  | b :: bs => do
    putBytes .fsink (recordLine b (atSym (← get).ftCnt b))
    persistLines bs

/-- The procedure of `PERSIST` (R102): a line for each present symbol, ascending (R74). -/
def persistBody : Proc Unit := do
  openSink .fsink
  persistLines (← get).presentSymbols
  modify (·.enter .persisted)

/-- `PERSIST` (R102). -/
def execPersist (s : State) : Answer := runCommand .persist persistBody s

/-! ### LOAD -/

/-- The table with a new key `b` of count `n` (R105). -/
def State.enterKey (s : State) (b : Symbol) (n : Nat) : State :=
  { s with
    ftPres := putSym s.ftPres b true
    ftCnt := putSym s.ftCnt b n
    nsyms := s.nsyms + 1
    total := s.total + n }

/-- `LoadEntry(sym, n)` (R105). -/
def loadEntry (b : Symbol) (n : Nat) : Proc Unit := do
  let s ← get
  if atSym s.ftPres b then throw (.raised .formatError)
  else if s.total + n > s.maxCnt then throw (.raised .capacityError)
  else set (s.enterKey b n)

/-- The symbol field (R104): `c` is its next character, `k` more follow, and the characters before spell `sym`. -/
def loadSymbol : Nat → Option Byte → Nat → Proc Nat
  | 0, c, sym =>
    match binDigit? c with
    | none => throw (.raised .formatError)
    | some d => pure (2 * sym + d.toNat)
  | k + 1, c, sym =>
    match binDigit? c with
    | none => throw (.raised .formatError)
    | some d => do loadSymbol k (← getByte .fsrc) (2 * sym + d.toNat)

/-- The separator (R104). -/
def loadColon : Proc Unit := do
  if (← getByte .fsrc) = some chColon then pure () else throw (.raised .formatError)

/-- The count field (R104) after `ndig` digits of value `n`. The first argument bounds the characters read: the unread
bytes and the end of the stream. -/
def loadCount : Nat → Nat → Nat → Proc Nat
  | 0, _, _ => throw (.stuck .loopBound)
  | fuel + 1, n, ndig => do
    match ← getByte .fsrc with
    | none => throw (.raised .formatError)
    | some c =>
      match decDigit? c with
      | some d => do
        if 10 * n + d > (← get).maxCnt then throw (.raised .capacityError)
        else loadCount fuel (10 * n + d) (ndig + 1)
      | none =>
        if c = chLF ∧ ndig ≠ 0 then pure n else throw (.raised .formatError)

/-- One line of the record whose first character `c` has been read (R104). -/
def loadLine (c : Byte) : Proc Unit := do
  let sym ← loadSymbol 7 (some c) 0
  loadColon
  let n ← loadCount ((← get).fsrc.unread + 1) 0 0
  loadEntry (BitVec.ofNat 8 sym) n

/-- The lines of the record up to its end (R104). The first argument bounds the lines: each takes a byte. -/
def loadLines : Nat → Proc Unit
  | 0 => throw (.stuck .loopBound)
  | fuel + 1 => do
    match ← getByte .fsrc with
    | none => pure ()
    | some c => do
      loadLine c
      loadLines fuel

/-- The procedure of `LOAD` (R104). -/
def loadBody : Proc Unit := do
  modify (·.setMode .dec)
  openSource .fsrc
  loadLines ((← get).fsrc.unread + 1)
  modify (·.enter .table)

/-- `LOAD` (R104). -/
def execLoad (s : State) : Answer := runCommand .load loadBody s

end Sys2Proof.Machine
end

