-- ==== Sys2Proof/Machine/TreeBuilder.lean ====
section
/-!
DEFINITION. The tree builder: `BUILD` (spec/43_treebuilder.md R120 to R125).
-/

namespace Sys2Proof.Machine

/-- Node `x` comes before node `y` (R122): the lighter first, and at equal weight the smaller id. -/
def State.before (s : State) (x y : NodeId) : Bool :=
  decide (s.nodeW[x] < s.nodeW[y]) || (s.nodeW[x] == s.nodeW[y] && decide (x < y))

/-- The ids of the working collection, ascending (R18). -/
def State.activeIds (s : State) : List NodeId := setIndices (List.finRange 511) s.nodeAct.toList

/-- The id of a list that comes first in the order of R122. -/
def State.leastOf (s : State) : List NodeId → Option NodeId
  | [] => none
  | x :: xs => some (xs.foldl (fun m y => if s.before y m then y else m) x)

/-- `NODE_ACT[m] <- 0` (R121). -/
def State.deactivate (s : State) (m : NodeId) : State :=
  { s with nodeAct := s.nodeAct.set m.val false m.isLt }

/-- `ExtractMin()` (R121). -/
def extractMin : Proc NodeId := do
  let s ← get
  match s.leastOf s.activeIds with
  | none => throw (.stuck .extractFromEmpty)
  | some m => do
    set (s.deactivate m)
    pure m

/-- The node `k` in creation order made of `a` and `b`, reinserted (R123). -/
def State.mergeInto (s : State) (k : Fin 255) (a b : NodeId) : State :=
  let id := innerId k
  { s with
    nodeW := s.nodeW.set id.val (s.nodeW[a] + s.nodeW[b]) id.isLt
    nodeL := s.nodeL.set k.val a k.isLt
    nodeR := s.nodeR.set k.val b k.isLt
    nodeAct := s.nodeAct.set id.val true id.isLt
    nextId := s.nextId + 1 }

/-- `MergeStep()` (R123). -/
def mergeStep : Proc Unit := do
  let a ← extractMin
  let b ← extractMin
  let s ← get
  if h : 256 ≤ s.nextId.toNat ∧ s.nextId.toNat < 511 then
    set (s.mergeInto ⟨s.nextId.toNat - 256, by omega⟩ a b)
  else throw (.stuck .nodeStoreFull)

/-- The merge loop of R120: `n` merges. -/
def mergeLoop : Nat → Proc Unit
  | 0 => pure ()
  | n + 1 => do
    mergeStep
    mergeLoop n

/-- `NODE_ACT` after the seed of R120: the present symbols' leaves are active, no other node is. -/
def State.seedActive (s : State) : Vector Bool 511 :=
  ⟨(s.ftPres.toList ++ List.replicate 255 false).toArray, by
    rw [List.size_toArray, List.length_append, Vector.length_toList, List.length_replicate]⟩

/-- `NODE_W` after the seed of R120: the present symbols' leaves weigh their counts, the other nodes as before. -/
def State.seedWeight (s : State) (id : NodeId) : Nat :=
  if h : id.val < 256 then (if s.ftPres[id.val] then s.ftCnt[id.val] else s.nodeW[id]) else s.nodeW[id]

/-- The seed of R120: "one Leaf per table entry", and `NEXT_ID` 256. -/
def State.seeded (s : State) : State :=
  { s with nodeAct := s.seedActive, nodeW := tabulate 511 s.seedWeight, nextId := 256 }

/-- The end of R120: `r` is the root, the tree is valid, and the code table is stale (R23). -/
def State.rootedAt (s : State) (r : NodeId) : State :=
  { s with root := r, treeValid := true, ctValid := false, phase := .built }

/-- `ROOT <- the one id with NODE_ACT[id] = 1`, and the rest of R120. -/
def takeRoot : Proc Unit := do
  let s ← get
  match s.activeIds with
  | [r] => set (s.rootedAt r)
  | _ => throw (.stuck .rootNotUnique)

/-- The procedure of `BUILD` (R120, R125). -/
def buildBody : Proc Unit := do
  if (← get).nsyms = 0 then throw (.raised .internalInvariantError)
  else do
    modify State.seeded
    mergeLoop ((← get).nsyms.toNat - 1)
    takeRoot

/-- `BUILD` (R120). -/
def execBuild (s : State) : Answer := runCommand .build buildBody s

end Sys2Proof.Machine
end

