-- ==== Sys2Proof/Machine/Decoder.lean ====
section
/-!
DEFINITION. The decoder's bitstream commands `RDHDR` and `WALK`, and the composite `DECODE` (spec/46_decoder.md R161 to R170).
-/

namespace Sys2Proof.Machine

/-- The procedure of `RDHDR` (R161). -/
def rdhdrBody : Proc Unit := do
  openSource .esrc
  match ← memRead .esrc Config.hdrBytes with
  | none => throw (.raised .truncatedStreamError)
  | some v => modify fun s => ((s.setHdr (BitVec.ofNat 64 v)).resetBR).enter .hdr

/-- `RDHDR` (R161). -/
def execRdhdr (s : State) : Answer := runCommand .rdhdr rdhdrBody s

/-- `CUR <- id` (R27). -/
def State.moveTo (s : State) (id : NodeId) : State := { s with cur := id }

/-- The child a payload bit leads to, 0 to the left and 1 to the right (R75, R163). -/
def State.stepDown (s : State) (id : NodeId) (b : Bit) : NodeId := if b then s.right id else s.left id

/-- The cursor arrives at a node (R163): at a leaf its symbol is emitted and the cursor returns to the root. -/
def arriveAt (id : NodeId) : Proc Unit := do
  modify (·.moveTo id)
  if isLeaf id then do
    putByte .osink (symbolOf id)
    modify fun s => s.moveTo s.root
  else pure ()

/-- `WalkStep(b)` (R163, R165). -/
def walkStep (b : Bit) : Proc Unit := do
  let s ← get
  if isLeaf s.root then putByte .osink (symbolOf s.root)
  else arriveAt (s.stepDown s.cur b)

/-- The loop of R162: `n` payload bits. Each `GetBit` adds one to `BR_TOTAL` (R94), so `while BR_TOTAL < HDR_BITS` runs
`HDR_BITS - BR_TOTAL` times. -/
def walkLoop : Nat → Proc Unit
  | 0 => pure ()
  | n + 1 => do
    walkStep (← getBit)
    walkLoop n

/-- "Initialize a cursor at the tree root" (R162), where there is a tree. -/
def State.toRoot (s : State) : State := if s.treeValid then s.moveTo s.root else s

/-- The end of the walk (R162, R164). -/
def endWalk : Proc Unit := do
  let s ← get
  if s.treeValid = true ∧ s.cur ≠ s.root then throw (.raised .truncatedStreamError)
  else set s.endSession

/-- The procedure of `WALK` (R162, R164, R166). -/
def walkBody : Proc Unit := do
  let s ← get
  if 0 < s.hdrBits ∧ s.treeValid = false then throw (.raised .internalInvariantError)
  else do
    openSink .osink
    modify State.toRoot
    walkLoop (s.hdrBits.toNat - s.brTotal.toNat)
    endWalk

/-- `WALK` (R162). -/
def execWalk (s : State) : Answer := runCommand .walk walkBody s

/-- `BUILD` where there is a symbol (R170). -/
def buildIfAny (s : State) : Answer :=
  if s.nsyms ≠ 0 then execBuild s else .next s

/-- `DECODE` (R66, R85, R170): its expansion, stopped at the first error. -/
def execDecode (s : State) : Answer :=
  andThen (andThen (andThen (andThen (execClear s) execLoad) buildIfAny) execRdhdr) execWalk

end Sys2Proof.Machine
end

