-- ==== Sys2Proof/Machine/CodeTable.lean ====
section
/-!
DEFINITION. The code-table generator: `DERIVE` (spec/44_codetable.md R130 to R133).
-/

namespace Sys2Proof.Machine

/-- `SetCode(s, p)` (R130). -/
def State.setCode (s : State) (b : Symbol) (p : List Bit) : State :=
  { s with
    codeLen := putSym s.codeLen b (BitVec.ofNat 8 p.length)
    codeBits := putSym s.codeBits b (placeCode 0 p (atSym s.codeBits b)) }

/-- The codes of the leaves beneath node `n`, whose own path is `p`, left before right (R130, R131). Any traversal gives
the same table (R133). The first argument is one more than the internal nodes a path may still pass. -/
def deriveFrom : Nat → NodeId → List Bit → Proc Unit
  | 0, _, _ => throw (.stuck .pathTooLong)
  | fuel + 1, n, p => do
    let s ← get
    if isLeaf n then set (s.setCode (symbolOf n) p)
    else do
      deriveFrom fuel (s.left n) (p ++ [false])
      deriveFrom fuel (s.right n) (p ++ [true])

/-- `CODE_LEN[s] <- 0` and `CODE_BITS[s] <- 0` for every symbol (R130). -/
def State.noCodes (s : State) : State :=
  { s with codeLen := Vector.replicate 256 0, codeBits := Vector.replicate 256 0 }

/-- `CT_VALID <- 1` and `PHASE <- DERIVED` (R130). -/
def State.derived (s : State) : State := { s with ctValid := true, phase := .derived }

/-- The codes of the tree (R130, R132). -/
def deriveCodes : Proc Unit := do
  let s ← get
  if isLeaf s.root then set (s.setCode (symbolOf s.root) [false])
  else deriveFrom (Config.maxLen + 1) s.root []

/-- The procedure of `DERIVE` (R130, R132). -/
def deriveBody : Proc Unit := do
  modify State.noCodes
  deriveCodes
  modify State.derived

/-- `DERIVE` (R130). -/
def execDerive (s : State) : Answer := runCommand .derive deriveBody s

end Sys2Proof.Machine
end

