-- ==== Sys2Proof/Machine/Encoder.lean ====
section
/-!
DEFINITION. The encoder's bitstream commands `WRHDR`, `EMIT` and `FLUSH`, and the composite `ENCODE` (spec/45_encoder.md R141 to R150).
-/

namespace Sys2Proof.Machine

/-- The number of payload bits the table and the codes give (R141): the sum of `FT_CNT[s] * CODE_LEN[s]` over the present
symbols. -/
def State.payloadBits (s : State) : Nat :=
  (s.presentSymbols.map fun b => atSym s.ftCnt b * (atSym s.codeLen b).toNat).sum

/-- The procedure of `WRHDR` (R141). -/
def wrhdrBody : Proc Unit := do
  modify fun s => s.setHdr (BitVec.ofNat 64 s.payloadBits)
  openSink .esink
  memWrite .esink Config.hdrBytes (← get).hdrBits.toNat
  modify fun s => s.resetBW.enter .hdr

/-- `WRHDR` (R141). -/
def execWrhdr (s : State) : Answer := runCommand .wrhdr wrhdrBody s

/-- `EmitStep(s)` (R143). -/
def emitStep (b : Symbol) : Proc Unit := do
  if atSym (← get).codeLen b = 0 then throw (.raised .internalInvariantError)
  else putCode b

/-- The procedure of `EMIT` (R142). -/
def emitBody : Proc Unit := do
  openSource .src
  forEachByte .src emitStep (← get).src.unread
  modify (·.enter .streamed)

/-- `EMIT` (R142). -/
def execEmit (s : State) : Answer := runCommand .emit emitBody s

/-- The procedure of `FLUSH` (R144). -/
def flushBody : Proc Unit := do
  flushBits
  let s ← get
  if s.bwTotal = s.hdrBits then set s.endSession
  else throw (.raised .internalInvariantError)

/-- `FLUSH` (R144). -/
def execFlush (s : State) : Answer := runCommand .flush flushBody s

/-- `BUILD; DERIVE` where there is a symbol (R150). -/
def buildAndDerive (s : State) : Answer :=
  if s.nsyms ≠ 0 then andThen (execBuild s) execDerive else .next s

/-- `ENCODE` (R66, R85, R150): its expansion, stopped at the first error. -/
def execEncode (s : State) : Answer :=
  andThen (andThen (andThen (andThen (andThen (andThen (execClear s) execScan) execPersist) buildAndDerive)
    execWrhdr) execEmit) execFlush

end Sys2Proof.Machine
end

