-- ==== Sys2Proof/Machine/Dispatch.lean ====
section
/-!
DEFINITION. One arm for each command: its meaning (spec/30_encoding.md R61).
-/

namespace Sys2Proof.Machine

def exec (i : Instr) (s : State) : Host.Outcome State Fault Refusal :=
  match i with
  | .nop => Sys2Proof.Machine.execNop s
  | .clear => Sys2Proof.Machine.execClear s
  | .scan => Sys2Proof.Machine.execScan s
  | .persist => Sys2Proof.Machine.execPersist s
  | .load => Sys2Proof.Machine.execLoad s
  | .build => Sys2Proof.Machine.execBuild s
  | .derive => Sys2Proof.Machine.execDerive s
  | .wrhdr => Sys2Proof.Machine.execWrhdr s
  | .emit => Sys2Proof.Machine.execEmit s
  | .flush => Sys2Proof.Machine.execFlush s
  | .rdhdr => Sys2Proof.Machine.execRdhdr s
  | .walk => Sys2Proof.Machine.execWalk s
  | .encode => Sys2Proof.Machine.execEncode s
  | .decode => Sys2Proof.Machine.execDecode s

end Sys2Proof.Machine
end

