-- ==== Sys2Proof/Machine/HostInterface.lean ====
section
/-!
DEFINITION. What the host can do to the block between two commands (spec/10_state.md R33, spec/40_control.md R80,
spec/70_reset_and_hazards.md R200 to R204), and fetching the command of a write to `CMD`.
-/

namespace Sys2Proof.Machine

/-- A write of a byte to `CMD` (R80): the command it stands for is executed, a reserved value is not a command (R63). -/
def writeCmd (v : Byte) (s : State) : Answer :=
  match decode [v] with
  | .ok (i, _) => exec i s
  | .error _ => reservedCommand v s

/-- A write to a host register (R33): a write to any other than `CMD` is ignored. -/
def writeRegister (reg : Nat) (v : Byte) (s : State) : Answer :=
  if reg = 0 then writeCmd v s else .next s

/-- A read of a host register (R33): the value goes to the host, and no state of the core changes. -/
def readRegister (reg : Nat) (s : State) : State := { s with readData := s.hostRegister reg }

/-- A source port is bound to a stream of these bytes (R203); no move changes a held stream (R57, R204). -/
def bindSource (p : SourcePort) (data : List Byte) (fails : List Bool) (s : State) : Answer :=
  if s.held p.num then .refused .streamHeld
  else .next (s.setSource p ⟨data, 0, fails⟩)

/-- A sink port is bound to a stream of these bytes (R203); no move changes a held stream (R57, R204). -/
def bindSink (q : SinkPort) (data : List Byte) (fails : List Bool) (s : State) : Answer :=
  if s.held q.num then .refused .streamHeld
  else .next (s.setSink q ⟨data, fails⟩)

/-- One move of the host. -/
def hostMove (m : HostMove) (s : State) : Answer :=
  match m with
  | .write reg v => writeRegister reg v s
  | .read reg => .next (readRegister reg s)
  | .reset => .next s.cleared
  | .bindSource p data fails => bindSource p data fails s
  | .bindSink q data fails => bindSink q data fails s

/-- The host's next move and the state without it; with none the core waits (R202). -/
def fetchMove (s : State) : Option (HostMove × State) :=
  match s.hostMoves with
  | [] => none
  | m :: ms => some (m, { s with hostMoves := ms })

/-- The next move of the host, or waiting: "does nothing until the host writes `CMD`" (R202). -/
def nextMove (s : State) : Answer :=
  match fetchMove s with
  | none => .next s
  | some (m, s') => hostMove m s'

/-- The state in which the host's next moves are the writes of these bytes to `CMD`, in order (R65). -/
def State.withProgram (s : State) (bytes : List Byte) : State :=
  { s with hostMoves := bytes.map (HostMove.write 0) ++ s.hostMoves }

end Sys2Proof.Machine
end

