-- ==== Sys2Proof/Machine/Step.lean ====
section
/-!
DEFINITION. One step of the machine: the host's next move (spec/40_control.md R80: a write to `CMD` executes one command, atomically and to
completion).
-/

namespace Sys2Proof.Machine

/-- One step. -/
def step (s : State) : Host.Outcome State Fault Refusal := nextMove s

/-- The state in which the next step executes the command of this opcode-table word: the host writes it to `CMD`. -/
def State.withFetchWord (s : State) (nbits w : Nat) : State := s.withProgram (tableWordBytes nbits w)

end Sys2Proof.Machine
end

