-- ==== Sys2Proof/Safety.lean ====
section
/-!
DEFINITION. The terms that claims about the machine use: the environment's premise (spec/20_memory.md R47), the invariants of the table, the
ports, the tree and the session (spec/10_state.md R11 to R31, spec/40_control.md R86), and the formats and paths of the
spec as functions of their data (spec/30_encoding.md R70, R71, spec/44_codetable.md R131, spec/45_encoder.md R151).
-/

namespace Sys2Proof.Machine

/-! ### Premises -/

/-- The environment fails no access of a port with these answers: "no access fails" as a named premise (R47). -/
abbrev neverFails (fails : List Bool) : Prop := ∀ b ∈ fails, b = false

/-- The environment fails no access to any port. -/
abbrev State.noAccessFails (s : State) : Prop :=
  (neverFails s.src.fails ∧ neverFails s.fsrc.fails ∧ neverFails s.esrc.fails) ∧
    neverFails s.fsink.fails ∧ neverFails s.esink.fails ∧ neverFails s.osink.fails

/-- The environment's answers to the accesses of the port of this number (R40, R47). -/
def State.failsOf (s : State) : Nat → List Bool
  | 0 => s.src.fails
  | 1 => s.fsink.fails
  | 2 => s.esink.fails
  | 3 => s.fsrc.fails
  | 4 => s.esrc.fails
  | 5 => s.osink.fails
  | _ => []

/-- Every register and store of the core is at its reset value (R25 `IDLE`, R35). -/
abbrev State.atReset (s : State) : Prop := s.cleared = s

/-! ### Streams -/

/-- `0 <= P.pos <= len(P.data)` (R41). -/
abbrev Source.wf (st : Source) : Prop := st.pos ≤ st.data.length

/-- Every source's cursor lies in its stream (R41). -/
abbrev State.streamsOk (s : State) : Prop := s.src.wf ∧ s.fsrc.wf ∧ s.esrc.wf

/-! ### The frequency table -/

/-- The table's registers agree (R12 to R14): an absent symbol counts 0, `NSYMS` is the number of the present symbols,
`TOTAL` is the sum of the counts, and it is at most `MAXCNT`. -/
structure State.TableOk (s : State) : Prop where
  absent : ∀ b, atSym s.ftPres b = false → atSym s.ftCnt b = 0
  nsyms  : s.nsyms.toNat = s.presentSymbols.length
  total  : s.total = (allSymbols.map (atSym s.ftCnt)).sum
  fits   : s.total ≤ s.maxCnt

/-! ### Ports and phases -/

/-- The ports held in a phase of a session (R29, R40, R81): each command's port is held from its `Open` on, and none is held in
`IDLE`, `DONE` and `FAULT`. -/
def heldIn : Phase → Mode → BitVec 6
  | .table, .enc => 0b000001
  | .persisted, .enc => 0b000011
  | .built, .enc => 0b000011
  | .derived, .enc => 0b000011
  | .hdr, .enc => 0b000111
  | .streamed, .enc => 0b000111
  | .table, .dec => 0b001000
  | .built, .dec => 0b001000
  | .hdr, .dec => 0b011000
  | _, _ => 0

/-- The phases each mode reaches (R25, R26, R81). -/
def phaseOfMode : Phase → Mode → Bool
  | .idle, .none => true
  | .fault, _ => true
  | .table, .enc | .persisted, .enc | .built, .enc | .derived, .enc | .hdr, .enc | .streamed, .enc | .done, .enc => true
  | .table, .dec | .built, .dec | .hdr, .dec | .done, .dec => true
  | _, _ => false

/-- The column "legal when" of R81, with the number of symbols. -/
def legalWhen : Instr → Phase → Mode → Nat → Prop
  | .nop, _, _, _ => True
  | .clear, _, _, _ => True
  | .scan, p, _, _ => p = .idle
  | .load, p, _, _ => p = .idle
  | .persist, p, m, _ => p = .table ∧ m = .enc
  | .build, p, m, _ => (p = .persisted ∧ m = .enc) ∨ (p = .table ∧ m = .dec)
  | .derive, p, m, _ => p = .built ∧ m = .enc
  | .wrhdr, p, m, n => m = .enc ∧ (p = .derived ∨ (p = .persisted ∧ n = 0))
  | .emit, p, m, _ => p = .hdr ∧ m = .enc
  | .flush, p, _, _ => p = .streamed
  | .rdhdr, p, m, n => m = .dec ∧ (p = .built ∨ (p = .table ∧ n = 0))
  | .walk, p, m, _ => p = .hdr ∧ m = .dec
  | .encode, _, _, _ => True
  | .decode, _, _, _ => True

/-- The column "`PHASE` after success" of R81, from the phase before. -/
def phaseAfter : Instr → Phase → Phase
  | .nop, p => p
  | .clear, _ => .idle
  | .scan, _ => .table
  | .load, _ => .table
  | .persist, _ => .persisted
  | .build, _ => .built
  | .derive, _ => .derived
  | .wrhdr, _ => .hdr
  | .emit, _ => .streamed
  | .flush, _ => .done
  | .rdhdr, _ => .hdr
  | .walk, _ => .done
  | .encode, _ => .done
  | .decode, _ => .done

/-- The column "`MODE` after" of R81, from the mode before. -/
def modeAfter : Instr → Mode → Mode
  | .clear, _ => .none
  | .scan, _ => .enc
  | .load, _ => .dec
  | .encode, _ => .enc
  | .decode, _ => .dec
  | .nop, m | .persist, m | .build, m | .derive, m | .wrhdr, m | .emit, m | .flush, m | .rdhdr, m | .walk, m => m

/-- The table of R181: the errors that a primitive command raises where it is legal. -/
def mayRaise : Instr → ErrorKind → Bool
  | .scan, e => e == .ioError || e == .capacityError
  | .persist, e => e == .ioError
  | .load, e => e == .ioError || e == .formatError || e == .capacityError
  | .build, e => e == .internalInvariantError
  | .wrhdr, e => e == .ioError
  | .emit, e => e == .ioError || e == .internalInvariantError
  | .flush, e => e == .ioError || e == .internalInvariantError
  | .rdhdr, e => e == .ioError || e == .truncatedStreamError
  | .walk, e => e == .ioError || e == .truncatedStreamError || e == .internalInvariantError
  | .nop, _ | .clear, _ | .derive, _ | .encode, _ | .decode, _ => false

/-- The steps of a command: a composite's are those of its expansion (R66), a primitive is its own only step. -/
def expansionOf : Instr → List Instr
  | .encode => [.clear, .scan, .persist, .build, .derive, .wrhdr, .emit, .flush]
  | .decode => [.clear, .load, .build, .rdhdr, .walk]
  | .nop => [.nop]
  | .clear => [.clear]
  | .scan => [.scan]
  | .persist => [.persist]
  | .load => [.load]
  | .build => [.build]
  | .derive => [.derive]
  | .wrhdr => [.wrhdr]
  | .emit => [.emit]
  | .flush => [.flush]
  | .rdhdr => [.rdhdr]
  | .walk => [.walk]

/-! ### The tree -/

/-- A child exists before its parent: `NODE_L[id] < id` and `NODE_R[id] < id` (R17). -/
abbrev State.childrenBelow (s : State) : Prop :=
  ∀ k : Fin 255, s.nodeL[k].val < 256 + k.val ∧ s.nodeR[k].val < 256 + k.val

/-- The node that a bit sequence leads to, 0 to the left and 1 to the right (R75). -/
def State.follow (s : State) (n : NodeId) (p : List Bit) : NodeId := p.foldl s.stepDown n

/-- `p` is `path(n, b)` (R131): it leads from `n` to the leaf of `b`, and every node before the leaf is internal. -/
abbrev State.isPath (s : State) (n : NodeId) (p : List Bit) (b : Symbol) : Prop :=
  s.follow n p = leafId b ∧ ∀ i < p.length, isLeaf (s.follow n (p.take i)) = false

/-- The leaves beneath a node, left before right. The first argument is one more than the internal nodes a path may pass. -/
def State.leavesFrom (s : State) : Nat → NodeId → List Symbol
  | 0, _ => []
  | fuel + 1, n =>
    if isLeaf n then [symbolOf n] else s.leavesFrom fuel (s.left n) ++ s.leavesFrom fuel (s.right n)

/-- The leaves of the tree. -/
def State.leaves (s : State) : List Symbol := s.leavesFrom (Config.maxLen + 1) s.root

/-- The tree is one over the present symbols: children exist before their parents, no leaf occurs twice, and "the leaves of the
tree are exactly the `s` with `FT_PRES[s] = 1`" (R17, R131). -/
structure State.TreeOk (s : State) : Prop where
  below    : s.childrenBelow
  distinct : s.leaves.Nodup
  present  : ∀ b, b ∈ s.leaves ↔ atSym s.ftPres b = true

/-! ### The session -/

/-- What holds between commands in every session. -/
structure State.Inv (s : State) : Prop where
  /-- `1 <= CNT_W <= 56` (R7). -/
  width : cntWOk s.cntW = true
  /-- R12 to R14. -/
  table : s.TableOk
  /-- R29: exactly the ports of the phase are held. -/
  ports : s.portHeld = heldIn s.phase s.mode
  /-- R26, R81. -/
  modes : phaseOfMode s.phase s.mode = true
  /-- R17. -/
  below : s.childrenBelow
  /-- R25: in `IDLE` "all state at reset values". -/
  idle  : s.phase = .idle → s.atReset
  /-- R30: there is an error exactly in `FAULT`. -/
  error : s.err.isSome = (s.phase == .fault)
  /-- R30: `ERR_CMD` is 0 where there is no error. -/
  quiet : s.err = none → s.errCmd = 0
  /-- R91: the positions of `BW_ACC` that are not filled are 0. -/
  unfilled : s.phase ≠ .fault → ∀ i, i + s.bwN.val ≤ 7 → s.bwAcc.getLsbD i = false
  /-- R20, R25, R86 (d): a command that needs the tree has one. -/
  tree  : (s.phase = .built ∨ s.phase = .derived → s.treeValid = true) ∧
    (s.phase = .hdr → s.mode = .dec → s.treeValid = true ∨ s.nsyms = 0)
  /-- R23, R25, R86 (c): a command that needs the codes has them. -/
  codes : (s.phase = .derived → s.ctValid = true) ∧
    (s.phase = .hdr ∨ s.phase = .streamed → s.mode = .enc → s.ctValid = true ∨ s.nsyms = 0)

/-! ### Formats -/

/-- The byte whose bits from 7 down are the first bits of a list, filled with zeros (R48, R50). -/
def byteOfBits (bits : List Bit) : Byte :=
  (List.range 8).foldl (fun v i => setBit v (7 - i) (bits.getD i false)) 0

/-- The payload of a sequence of code bits: `ceil(N / 8)` bytes, most significant bit first, zero padded (R71). -/
def payloadOf (bits : List Bit) : List Byte :=
  (List.range ((bits.length + 7) / 8)).map fun k => byteOfBits (bits.drop (8 * k))

/-- The bits of a byte, from bit 7 down to bit 0 (R48). -/
def bitsOfByte (v : Byte) : List Bit := (List.range 8).map fun i => v.getLsbD (7 - i)

/-- The bits that the bit writer has been given since its stream was opened: those in `ESINK` and the pending ones (R32). -/
def State.writtenBits (s : State) : List Bit :=
  s.esink.data.flatMap bitsOfByte ++ (bitsOfByte s.bwAcc).take s.bwN.val

/-- The frequency record of a byte sequence, `freq(S)` (R151): one line for each byte value that occurs, ascending. -/
def recordOf (S : List Byte) : List Byte :=
  (allSymbols.filter (S.contains ·)).flatMap fun b => bin8 b ++ [chColon] ++ decimal (S.count b) ++ [chLF]

/-- The value of a digit string, most significant digit first (R73). -/
def digitsValue (ds : List Byte) : Nat := ds.foldl (fun n d => 10 * n + (d.toNat - 0x30)) 0

/-- Decimal digits, or none (R73). -/
abbrev areDigits (ds : List Byte) : Prop := ∀ d ∈ ds, chZero ≤ d ∧ d ≤ chNine

/-- A count field of the grammar of R70: one or more decimal digits. -/
abbrev isCount (ds : List Byte) : Prop := ds ≠ [] ∧ areDigits ds

/-- A line of the grammar of R70 with this symbol and this count field. -/
def lineOf (l : Symbol × List Byte) : List Byte := bin8 l.1 ++ [chColon] ++ l.2 ++ [chLF]

/-- The lines form a record that `LOAD` accepts on a machine of this `MAXCNT` (R70, R104, R105). -/
structure RecordOk (maxCnt : Nat) (lines : List (Symbol × List Byte)) : Prop where
  counts   : ∀ l ∈ lines, isCount l.2
  distinct : (lines.map (·.1)).Nodup
  fits     : (lines.map fun l => digitsValue l.2).sum ≤ maxCnt

/-! ### Sequences -/

/-- `GetBit` `n` times (R95). -/
def getBits : Nat → Proc (List Bit)
  | 0 => pure []
  | n + 1 => do
    let b ← getBit
    return b :: (← getBits n)

/-- Commands issued one after another as separate writes to `CMD` (R65, R85). -/
def runAll : List Instr → State → Answer
  | [], s => .next s
  | i :: is, s =>
    match exec i s with
    | .next t => runAll is t
    | .fault f => .fault f
    | .refused r => .refused r

end Sys2Proof.Machine
end

