-- ==== Sys2Proof/Certificates/Slice0/Obligations.lean ====
section
/-!
DEFINITION. The statements about HUFFCORE. Each cites the rule of spec/ it formalises, or the sections it rests on; a
docstring that names an assumption says that the clause is the model's choice.
-/

open Sys2Proof Sys2Proof.Machine

/-! ### The command word -/

/-- The fourteen opcodes, written out from the table of spec/30_encoding.md R61, decode to their commands and are their
encodings. -/
def Obligations.SpecOpcodesDecode : Prop :=
  (decode [0x00] = .ok (.nop, []) ∧ encode .nop = [0x00]) ∧
  (decode [0x01] = .ok (.clear, []) ∧ encode .clear = [0x01]) ∧
  (decode [0x10] = .ok (.scan, []) ∧ encode .scan = [0x10]) ∧
  (decode [0x11] = .ok (.persist, []) ∧ encode .persist = [0x11]) ∧
  (decode [0x12] = .ok (.load, []) ∧ encode .load = [0x12]) ∧
  (decode [0x20] = .ok (.build, []) ∧ encode .build = [0x20]) ∧
  (decode [0x21] = .ok (.derive, []) ∧ encode .derive = [0x21]) ∧
  (decode [0x30] = .ok (.wrhdr, []) ∧ encode .wrhdr = [0x30]) ∧
  (decode [0x31] = .ok (.emit, []) ∧ encode .emit = [0x31]) ∧
  (decode [0x32] = .ok (.flush, []) ∧ encode .flush = [0x32]) ∧
  (decode [0x33] = .ok (.rdhdr, []) ∧ encode .rdhdr = [0x33]) ∧
  (decode [0x34] = .ok (.walk, []) ∧ encode .walk = [0x34]) ∧
  (decode [0x40] = .ok (.encode, []) ∧ encode .encode = [0x40]) ∧
  (decode [0x41] = .ok (.decode, []) ∧ encode .decode = [0x41])

/-- R63: every byte that R61 does not list is reserved, there are 242 of them, and writing one to `CMD` raises `IllegalCommand`
in every phase but `FAULT`, where it is ignored; a listed command in a phase where it is not legal is `IllegalCommand` too. -/
def Obligations.ReservedAndIllegalCommandsFault : Prop :=
  ((List.range 256).filter fun n => decodeByte (BitVec.ofNat 8 n) = .error (.reserved (BitVec.ofNat 8 n))).length = 242 ∧
  (∀ v : Byte,
    v ∉ ([0x00, 0x01, 0x10, 0x11, 0x12, 0x20, 0x21, 0x30, 0x31, 0x32, 0x33, 0x34, 0x40, 0x41] : List Byte) →
    decodeByte v = .error (.reserved v) ∧
    ∀ s : State, (s.phase = .fault → writeCmd v s = .next s) ∧
      (s.phase ≠ .fault → writeCmd v s = .next (s.raiseError .illegalCommand v))) ∧
  (∀ (i : Instr) (s : State), s.phase ≠ .fault → ¬ legalWhen i s.phase s.mode s.nsyms.toNat →
    exec i s = .next (s.raiseError .illegalCommand (opcode i)))

/-- Decoding answers a command and the bytes after it exactly where the bytes are that command's encoding followed by
those (spec/30_encoding.md section 1). -/
def Obligations.DecodeMatchesEncode : Prop :=
  ∀ (bytes rest : List Byte) (i : Instr), decode bytes = .ok (i, rest) ↔ bytes = encode i ++ rest

/-- A step runs the command that the host writes next to `CMD`: it is `exec` of the decoded command in the state without
that write; a word of the opcode table placed by `withFetchWord` is such a write (spec/40_control.md section 1; that the host's
writes stand in `hostMoves` is assumption 5). -/
def Obligations.StepRunsTheDecodedCommand : Prop :=
  (∀ (s : State) (v : Byte) (ms : List HostMove) (i : Instr), s.hostMoves = .write 0 v :: ms →
    decode [v] = .ok (i, []) → step s = exec i { s with hostMoves := ms }) ∧
  (∀ (s : State) (v : Byte) (ms : List HostMove), s.hostMoves = .write 0 v :: ms →
    step s = writeCmd v { s with hostMoves := ms }) ∧
  (∀ (i : Instr) (s : State), step (s.withFetchWord 8 (opcode i).toNat) = exec i s)

/-- R81: outside its row's condition a command is `IllegalCommand`, outside `FAULT`; inside it, a command that answers a next
state has the row's phase and mode after it, or it ended in `FAULT` with an error that is not `IllegalCommand`. -/
def Obligations.LegalityTableHolds : Prop :=
  ∀ (i : Instr) (s : State),
    (s.phase ≠ .fault → ¬ legalWhen i s.phase s.mode s.nsyms.toNat →
      exec i s = .next (s.raiseError .illegalCommand (opcode i))) ∧
    (legalWhen i s.phase s.mode s.nsyms.toNat → ∀ t, exec i s = .next t →
      (t.phase = phaseAfter i s.phase ∧ t.mode = modeAfter i s.mode) ∨
      (t.phase = .fault ∧ ∃ e, t.err = some e ∧ e ≠ .illegalCommand))

/-! ### Control -/

/-- R82: `NOP` changes nothing, in every state. -/
def Obligations.NopChangesNothing : Prop := ∀ s : State, exec .nop s = .next s

/-- `CLEAR` puts every register and store of the core at its value after reset and changes no stream, and so does the reset
input (spec/40_control.md R83, spec/70_reset_and_hazards.md R200). The fields that are kept besides the streams, and that the
reset input is a host move, are the model's choice (assumptions 4 and 5). -/
def Obligations.ClearAndResetRestoreTheCore : Prop :=
  ∀ s : State,
    exec .clear s = .next { State.reset with
      cntW := s.cntW
      src := s.src, fsink := s.fsink, esink := s.esink, fsrc := s.fsrc, esrc := s.esrc, osink := s.osink
      raises := s.raises, hostMoves := s.hostMoves, readData := s.readData } ∧
    ∀ ms, s.hostMoves = .reset :: ms → step s = exec .clear { s with hostMoves := ms }

/-- R35: the values of the registers and stores of the core after reset, and after `CLEAR`. -/
def Obligations.ResetValues : Prop :=
  ∀ t : State, (t = State.reset ∨ ∃ s, exec .clear s = .next t) →
    (∀ b, atSym t.ftPres b = false ∧ atSym t.ftCnt b = 0) ∧ t.nsyms = 0 ∧ t.total = 0 ∧
    (∀ id : NodeId, t.nodeW[id] = 0 ∧ t.nodeAct[id] = false) ∧
    (∀ k : Fin 255, t.nodeL[k] = 0 ∧ t.nodeR[k] = 0) ∧
    t.nextId.toNat = 256 ∧ t.root = 0 ∧ t.treeValid = false ∧
    (∀ b, atSym t.codeLen b = 0 ∧ atSym t.codeBits b = 0) ∧ t.ctValid = false ∧ t.hdrBits = 0 ∧
    t.phase = .idle ∧ t.mode = .none ∧ t.cur = 0 ∧ t.portHeld = 0 ∧ t.err = none ∧ t.errCmd = 0 ∧
    t.bwAcc = 0 ∧ t.bwN = 0 ∧ t.bwTotal = 0 ∧ t.brBuf = 0 ∧ t.brLeft = 0 ∧ t.brTotal = 0

/-- R84: in `FAULT` every command but `CLEAR`, `ENCODE` and `DECODE` changes nothing (`NOP` never does), reserved values
included. -/
def Obligations.FaultIgnoresCommands : Prop :=
  ∀ s : State, s.phase = .fault →
    (∀ i ∈ [Instr.nop, .scan, .persist, .load, .build, .derive, .wrhdr, .emit, .flush, .rdhdr, .walk],
      exec i s = .next s) ∧
    ∀ v : Byte, decodeByte v = .error (.reserved v) → writeCmd v s = .next s

/-! ### Errors -/

/-- Raising an error records it and the command, makes every held sink unspecified, releases every port and enters `FAULT`;
nothing else changes (spec/60_exceptions.md R183, R184). That an unspecified content is the free value
`Config.unspecifiedSink` of the raise counter is the model's choice (assumption 3); the statement holds for every value of
the counter. -/
def Obligations.RaiseRecordsAndReleases : Prop :=
  ∀ (s : State) (e : ErrorKind) (cmd : Byte),
    s.raiseError e cmd = { s with
      err := some e, errCmd := cmd, phase := .fault, portHeld := 0, raises := s.raises + 1
      fsink := if s.held 1 then { s.fsink with data := Config.unspecifiedSink s.raises 1 } else s.fsink
      esink := if s.held 2 then { s.esink with data := Config.unspecifiedSink s.raises 2 } else s.esink
      osink := if s.held 5 then { s.osink with data := Config.unspecifiedSink s.raises 5 } else s.osink }

/-- Port failure (spec/20_memory.md R42 to R44, R47, spec/60_exceptions.md sections 1 and 2). (1) Each `Open`, `Get` and `Put` of each port
takes the environment's next answer: a failing access raises `IoError` and changes nothing but that; another one does
what its rule says, and nothing else. (2) A command whose first access fails, in any state where it is legal, ends in
`FAULT` with `IoError`, its own opcode and no port held. (3) Of the answers that any command uses, at any port, none but
the last is a failure; where one is, the command, or the step of a composite, ends in `FAULT` with `IoError`; and
`IoError` is raised nowhere else. That the answers stand in a list for each port is the model's choice (assumption 2). -/
def Obligations.FailedAccessEndsInIoError : Prop :=
  (∀ (s : State) (p : SourcePort),
    let st := s.source p
    let failed : State := s.setSource p { st with fails := st.fails.tail }
    (failsNext st.fails = true → openSource p s = .error (.raised .ioError) failed) ∧
    (failsNext st.fails = false → ∃ t, openSource p s = .ok () t ∧ (∀ n, t.held n = (n == p.num || s.held n)) ∧
      t = State.setSource { s with portHeld := t.portHeld } p { st with pos := 0, fails := st.fails.tail }) ∧
    (s.held p.num = true →
      (failsNext st.fails = true → getByte p s = .error (.raised .ioError) failed) ∧
      (failsNext st.fails = false →
        (∀ h : st.pos < st.data.length, getByte p s =
          .ok (some st.data[st.pos]) (s.setSource p { st with pos := st.pos + 1, fails := st.fails.tail })) ∧
        (st.data.length ≤ st.pos → getByte p s = .ok none (s.setSource p { st with fails := st.fails.tail }))))) ∧
  (∀ (s : State) (q : SinkPort) (b : Byte),
    let st := s.sink q
    let failed : State := s.setSink q { st with fails := st.fails.tail }
    (failsNext st.fails = true → openSink q s = .error (.raised .ioError) failed) ∧
    (failsNext st.fails = false → ∃ t, openSink q s = .ok () t ∧ (∀ n, t.held n = (n == q.num || s.held n)) ∧
      t = State.setSink { s with portHeld := t.portHeld } q ⟨[], st.fails.tail⟩) ∧
    (s.held q.num = true →
      (failsNext st.fails = true → putByte q b s = .error (.raised .ioError) failed) ∧
      (failsNext st.fails = false → putByte q b s = .ok () (s.setSink q ⟨st.data ++ [b], st.fails.tail⟩)))) ∧
  (∀ s : State,
    let failed (i : Instr) : Prop :=
      ∃ t, exec i s = .next t ∧ t.phase = .fault ∧ t.err = some .ioError ∧ t.errCmd = opcode i ∧ t.portHeld = 0
    let runs (i : Instr) : Prop := legalWhen i s.phase s.mode s.nsyms.toNat
    (runs .scan → failsNext s.src.fails = true → failed .scan) ∧
    (runs .persist → failsNext s.fsink.fails = true → failed .persist) ∧
    (runs .load → failsNext s.fsrc.fails = true → failed .load) ∧
    (runs .wrhdr → failsNext s.esink.fails = true → failed .wrhdr) ∧
    (runs .emit → failsNext s.src.fails = true → failed .emit) ∧
    (runs .flush → s.held 2 = true → s.bwN ≠ 0 → failsNext s.esink.fails = true → failed .flush) ∧
    (runs .rdhdr → failsNext s.esrc.fails = true → failed .rdhdr) ∧
    (runs .walk → (s.hdrBits = 0 ∨ s.treeValid = true) → failsNext s.osink.fails = true → failed .walk)) ∧
  (∀ (s t : State) (i : Instr), exec i s = .next t → ∃ used : Nat → List Bool,
    (∀ p, s.failsOf p = used p ++ t.failsOf p ∧ ∀ b ∈ (used p).dropLast, b = false) ∧
    ((∃ p, true ∈ used p) → t.phase = .fault ∧ t.err = some .ioError ∧ t.portHeld = 0 ∧
      ∃ j ∈ expansionOf i, t.errCmd = opcode j ∧ mayRaise j .ioError = true) ∧
    ((s.phase ≠ .fault ∨ i = .encode ∨ i = .decode) → t.phase = .fault → t.err = some .ioError →
      ∃ p, true ∈ used p))

/-- A command ends in `FAULT` only with an error that the table of spec/60_exceptions.md section 1 gives it, or with `IllegalCommand` where it is not
legal; `ERR_CMD` is its opcode, or that of the failing step of a composite. -/
def Obligations.OnlyTheListedErrorsAreRaised : Prop :=
  ∀ (s t : State) (i : Instr), (s.phase ≠ .fault ∨ i = .encode ∨ i = .decode) → exec i s = .next t → t.phase = .fault →
    ∃ e, t.err = some e ∧ t.portHeld = 0 ∧
      ((e = .illegalCommand ∧ ¬ legalWhen i s.phase s.mode s.nsyms.toNat ∧ t.errCmd = opcode i) ∨
        ∃ j ∈ expansionOf i, t.errCmd = opcode j ∧ mayRaise j e = true)

/-! ### The host interface -/

/-- R33: the fields of the host registers, with the codes of R25, R26 and R180; `CMD` and the registers that do not exist read
0; a read changes no state of the core (the value goes to the model's field `readData`); a write to any register but `CMD`
is ignored. -/
def Obligations.HostRegisters : Prop :=
  (Phase.code .idle = 0 ∧ Phase.code .table = 1 ∧ Phase.code .persisted = 2 ∧ Phase.code .built = 3 ∧
    Phase.code .derived = 4 ∧ Phase.code .hdr = 5 ∧ Phase.code .streamed = 6 ∧ Phase.code .done = 7 ∧
    Phase.code .fault = 15) ∧
  (Mode.code .none = 0 ∧ Mode.code .enc = 1 ∧ Mode.code .dec = 2) ∧
  (errCode none = 0 ∧ errCode (some .ioError) = 1 ∧ errCode (some .formatError) = 2 ∧
    errCode (some .truncatedStreamError) = 3 ∧ errCode (some .internalInvariantError) = 4 ∧
    errCode (some .capacityError) = 5 ∧ errCode (some .illegalCommand) = 6) ∧
  ∀ s : State,
    s.hostRegister 0 = 0 ∧
    ((s.hostRegister 1).extractLsb' 0 4 = s.phase.code ∧ (s.hostRegister 1).extractLsb' 4 2 = s.mode.code ∧
      (s.hostRegister 1).getLsbD 6 = s.treeValid ∧ (s.hostRegister 1).getLsbD 7 = s.ctValid ∧
      (s.hostRegister 1).extractLsb' 8 6 = s.portHeld ∧ (s.hostRegister 1).toNat < 2 ^ 14) ∧
    ((s.hostRegister 2).extractLsb' 0 3 = errCode s.err ∧ (s.hostRegister 2).extractLsb' 3 5 = 0 ∧
      (s.hostRegister 2).extractLsb' 8 8 = s.errCmd ∧ (s.hostRegister 2).toNat < 2 ^ 16) ∧
    (s.hostRegister 3).toNat = s.nsyms.toNat ∧
    (s.total < 2 ^ 64 → (s.hostRegister 4).toNat = s.total) ∧
    s.hostRegister 5 = s.hdrBits ∧
    (s.hostRegister 6).toNat = (if s.treeValid then s.root.val else 0) ∧
    s.hostRegister 7 = s.bwTotal ∧ s.hostRegister 8 = s.brTotal ∧
    (∀ n, 9 ≤ n → s.hostRegister n = 0) ∧
    (∀ n ms, s.hostMoves = .read n :: ms →
      step s = .next { s with hostMoves := ms, readData := s.hostRegister n }) ∧
    (∀ n v ms, s.hostMoves = .write n v :: ms → n ≠ 0 → step s = .next { s with hostMoves := ms })

/-- The host's moves on streams, and waiting: no move changes a held stream, a port that is not held is bound to the
host's bytes and nothing else changes, and without a move the core waits (spec/20_memory.md section 6,
spec/70_reset_and_hazards.md sections 1 and 2; the moves are assumption 5). -/
def Obligations.HostMovesOnStreams : Prop :=
  ∀ s : State,
    (s.hostMoves = [] → step s = .next s) ∧
    (∀ p data fails ms, s.hostMoves = .bindSource p data fails :: ms →
      (s.held p.num = true → step s = .refused .streamHeld) ∧
      (s.held p.num = false →
        step s = .next (State.setSource { s with hostMoves := ms } p ⟨data, 0, fails⟩))) ∧
    (∀ q data fails ms, s.hostMoves = .bindSink q data fails :: ms →
      (s.held q.num = true → step s = .refused .streamHeld) ∧
      (s.held q.num = false →
        step s = .next (State.setSink { s with hostMoves := ms } q ⟨data, fails⟩)))

/-! ### The frequency counter -/

/-- `SCAN` of a source of at most `MAXCNT` bytes, from the reset values and with no failing access, completes: each symbol is
present where it occurs and counts its occurrences, `NSYMS` is the number of different bytes, `TOTAL` the number of bytes,
the source is fully read, and nothing else changes (spec/42_freqtable.md section 1). -/
def Obligations.ScanCountsTheSource : Prop :=
  ∀ s : State, s.atReset → s.src.data.length ≤ s.maxCnt → neverFails s.src.fails →
    ∃ t, exec .scan s = .next t ∧
      (∀ b, atSym t.ftPres b = s.src.data.contains b ∧ atSym t.ftCnt b = s.src.data.count b) ∧
      t.nsyms.toNat = s.src.data.dedup.length ∧
      t = { s with
        mode := .enc, phase := .table, portHeld := 0b000001
        ftPres := t.ftPres, ftCnt := t.ftCnt, nsyms := t.nsyms, total := s.src.data.length
        src := { s.src with pos := s.src.data.length, fails := t.src.fails } }

/-- R101: one source byte. At `TOTAL = MAXCNT` it raises `CapacityError` and changes nothing; otherwise its symbol is present
and counts one more, a new key adds one to `NSYMS`, `TOTAL` is one more, and nothing else changes. -/
def Obligations.ScanStepCountsOneByte : Prop :=
  ∀ (s : State) (b : Symbol),
    (s.total = s.maxCnt → scanStep b s = .error (.raised .capacityError) s) ∧
    (s.total ≠ s.maxCnt → ∃ t, scanStep b s = .ok () t ∧
      (∀ a, atSym t.ftPres a = (atSym s.ftPres a || a == b)) ∧
      (∀ a, atSym t.ftCnt a = atSym s.ftCnt a + if a = b then 1 else 0) ∧
      t = { s with
        ftPres := t.ftPres, ftCnt := t.ftCnt
        nsyms := if atSym s.ftPres b = false then s.nsyms + 1 else s.nsyms
        total := s.total + 1 })

/-- `SCAN` of a source of more than `MAXCNT` bytes ends in `FAULT` with `CapacityError` when `MAXCNT` bytes have been counted
(spec/42_freqtable.md section 1, spec/45_encoder.md section 6). -/
def Obligations.ScanOverCapacityFaults : Prop :=
  ∀ s : State, s.atReset → s.maxCnt < s.src.data.length → neverFails s.src.fails →
    ∃ t, exec .scan s = .next t ∧ t.phase = .fault ∧ t.err = some .capacityError ∧ t.errCmd = 0x10 ∧
      t.portHeld = 0 ∧ t.total = s.maxCnt ∧ t.src.pos = s.maxCnt + 1 ∧
      (∀ b, atSym t.ftCnt b = (s.src.data.take s.maxCnt).count b)

/-- `PERSIST` with no failing access completes: the sink holds one line for each present symbol, in ascending order, and nothing
else changes but the phase and the held port (spec/42_freqtable.md section 2). -/
def Obligations.PersistWritesTheRecord : Prop :=
  ∀ s : State, s.phase = .table → s.mode = .enc → neverFails s.fsink.fails →
    ∃ t, exec .persist s = .next t ∧
      t = { s with
        phase := .persisted, portHeld := s.portHeld ||| 0b000010
        fsink :=
          ⟨(allSymbols.filter (atSym s.ftPres ·)).flatMap fun b =>
              bin8 b ++ [0x3A] ++ decimal (atSym s.ftCnt b) ++ [0x0A],
            t.fsink.fails⟩ }

/-- R72: the symbol field is the 8 binary digits of the symbol, most significant first, and reads back as the symbol. R103:
`decimal(n)` consists of decimal digits, has the value `n`, is `0` for 0 and has no leading zero otherwise; up to `2^32 - 1`
it has 1 to 10 characters. -/
def Obligations.RecordFieldsSpellTheirValues : Prop :=
  (∀ b : Symbol, (bin8 b).length = 8 ∧
    (∀ i < 8, (bin8 b)[i]? = some (if b.getLsbD (7 - i) then 0x31 else 0x30)) ∧
    (bin8 b).foldl (fun n c => 2 * n + (c.toNat - 0x30)) 0 = b.toNat) ∧
  ∀ n : Nat, (∀ d ∈ decimal n, (0x30 : Byte) ≤ d ∧ d ≤ 0x39) ∧ digitsValue (decimal n) = n ∧
    decimal 0 = [0x30] ∧ (0 < n → (decimal n).head? ≠ some 0x30) ∧
    (n ≤ 2 ^ 32 - 1 → 1 ≤ (decimal n).length ∧ (decimal n).length ≤ 10)

/-- `LOAD` of a record of the grammar of R70, with its lines in any order, leading zeros allowed, no symbol twice and the counts'
sum at most `MAXCNT`, completes from the reset values with no failing access: the table is the record's, and nothing else changes
(spec/42_freqtable.md section 3). -/
def Obligations.LoadReadsAnyRecord : Prop :=
  ∀ (s : State) (lines : List (Symbol × List Byte)), s.atReset → RecordOk s.maxCnt lines →
    s.fsrc.data = lines.flatMap lineOf → neverFails s.fsrc.fails →
    ∃ t, exec .load s = .next t ∧
      (∀ b, atSym t.ftPres b = (lines.map (·.1)).contains b) ∧
      (∀ l ∈ lines, atSym t.ftCnt l.1 = digitsValue l.2) ∧
      (∀ b, atSym t.ftPres b = false → atSym t.ftCnt b = 0) ∧
      t = { s with
        mode := .dec, phase := .table, portHeld := 0b001000
        ftPres := t.ftPres, ftCnt := t.ftCnt
        nsyms := BitVec.ofNat 9 lines.length, total := (lines.map fun l => digitsValue l.2).sum
        fsrc := { s.fsrc with pos := s.fsrc.data.length, fails := t.fsrc.fails } }

/-- `LOAD` of an accepted record followed by a line that the grammar or the capacity refuses ends in `FAULT`, by the first defect
from left to right: a symbol character, the separator, a count character (with no digit before it or some), an empty
count, a symbol that has a line already, a count above `MAXCNT`, a sum above `MAXCNT`; and so does a record that ends
inside a line, in the symbol field, before the separator or in the count (spec/42_freqtable.md section 3,
spec/60_exceptions.md sections 1 and 3). -/
def Obligations.LoadRefusesBadLines : Prop :=
  ∀ (s : State) (lines : List (Symbol × List Byte)) (bad rest : List Byte) (b : Symbol) (ds : List Byte),
    s.atReset → RecordOk s.maxCnt lines → s.fsrc.data = lines.flatMap lineOf ++ bad ++ rest → neverFails s.fsrc.fails →
    let ends (e : ErrorKind) : Prop :=
      ∃ t, exec .load s = .next t ∧ t.phase = .fault ∧ t.err = some e ∧ t.errCmd = 0x12 ∧ t.portHeld = 0
    (∀ k c, k < 8 → c ≠ 0x30 → c ≠ 0x31 → bad = (bin8 b).take k ++ [c] → ends .formatError) ∧
    (∀ k, 0 < k → k ≤ 8 → bad = (bin8 b).take k → rest = [] → ends .formatError) ∧
    (∀ c, c ≠ 0x3A → bad = bin8 b ++ [c] → ends .formatError) ∧
    (bad = bin8 b ++ [0x3A, 0x0A] → ends .formatError) ∧
    (areDigits ds → digitsValue ds ≤ s.maxCnt → ∀ c, ¬ ((0x30 : Byte) ≤ c ∧ c ≤ 0x39) → c ≠ 0x0A →
      bad = bin8 b ++ [0x3A] ++ ds ++ [c] → ends .formatError) ∧
    (areDigits ds → digitsValue ds ≤ s.maxCnt → bad = bin8 b ++ [0x3A] ++ ds → rest = [] → ends .formatError) ∧
    (isCount ds → digitsValue ds ≤ s.maxCnt → b ∈ lines.map (·.1) → bad = lineOf (b, ds) → ends .formatError) ∧
    (isCount ds → s.maxCnt < digitsValue ds → bad = bin8 b ++ [0x3A] ++ ds → ends .capacityError) ∧
    (isCount ds → digitsValue ds ≤ s.maxCnt → b ∉ lines.map (·.1) →
      s.maxCnt < (lines.map fun l => digitsValue l.2).sum + digitsValue ds → bad = lineOf (b, ds) → ends .capacityError)

/-- Loading the record that a scan and a persist wrote gives the scanned table (spec/42_freqtable.md R106: "Table fidelity", which the
spec derives from R100, R102, R104 and R105). -/
def Obligations.TableFidelity : Prop :=
  ∀ s t u v : State, s.atReset → exec .scan s = .next t → t.phase = .table → exec .persist t = .next u →
    u.phase = .persisted → v.atReset → v.cntW = s.cntW → v.fsrc.data = u.fsink.data → neverFails v.fsrc.fails →
    ∃ w, exec .load v = .next w ∧
      w.phase = .table ∧ w.ftPres = t.ftPres ∧ w.ftCnt = t.ftCnt ∧ w.nsyms = t.nsyms ∧ w.total = t.total

/-! ### The tree builder -/

/-- R121 and R122: with an active node, `ExtractMin` answers the one that is first by weight and, at equal weight, by id, and
removes it; nothing else changes. -/
def Obligations.ExtractMinTakesTheFirst : Prop :=
  ∀ s : State, (∃ id : NodeId, s.nodeAct[id] = true) →
    ∃ (m : NodeId) (t : State), extractMin s = .ok m t ∧ s.nodeAct[m] = true ∧
      (∀ x : NodeId, s.nodeAct[x] = true → x ≠ m →
        s.nodeW[m] < s.nodeW[x] ∨ (s.nodeW[m] = s.nodeW[x] ∧ m < x)) ∧
      (∀ x : NodeId, t.nodeAct[x] = (s.nodeAct[x] && x != m)) ∧
      t = { s with nodeAct := t.nodeAct }

/-- R123: with two active nodes and room in the store, one merge makes the node `NEXT_ID` of the two nodes that are first, the
first extracted on the left, and reinserts it; nothing else changes. -/
def Obligations.MergeStepJoinsTheTwoFirst : Prop :=
  ∀ (s : State) (k : Fin 255), s.nextId.toNat = 256 + k.val →
    (∃ x y : NodeId, x ≠ y ∧ s.nodeAct[x] = true ∧ s.nodeAct[y] = true) →
    ∃ (a b : NodeId) (t : State), mergeStep s = .ok () t ∧ a ≠ b ∧ s.nodeAct[a] = true ∧ s.nodeAct[b] = true ∧
      (s.nodeW[a] < s.nodeW[b] ∨ (s.nodeW[a] = s.nodeW[b] ∧ a < b)) ∧
      (∀ x : NodeId, s.nodeAct[x] = true → x ≠ a → x ≠ b →
        s.nodeW[b] < s.nodeW[x] ∨ (s.nodeW[b] = s.nodeW[x] ∧ b < x)) ∧
      t.nodeW[innerId k] = s.nodeW[a] + s.nodeW[b] ∧ t.nodeL[k] = a ∧ t.nodeR[k] = b ∧
      t.nodeAct[innerId k] = true ∧ t.nextId.toNat = 256 + k.val + 1 ∧
      (∀ x : NodeId, x ≠ innerId k →
        t.nodeW[x] = s.nodeW[x] ∧ t.nodeAct[x] = (s.nodeAct[x] && x != a && x != b)) ∧
      (∀ j : Fin 255, j ≠ k → t.nodeL[j] = s.nodeL[j] ∧ t.nodeR[j] = s.nodeR[j]) ∧
      t = { s with
        nodeW := t.nodeW, nodeL := t.nodeL, nodeR := t.nodeR, nodeAct := t.nodeAct, nextId := t.nextId }

/-- `BUILD` of a table with a symbol completes: the result is a tree over the present symbols in which every child exists before its
parent and no leaf occurs twice, `NEXT_ID` is `256 + NSYMS - 1`, exactly the root is active, and nothing else changes:
the entries of absent leaves and of internal nodes that are not created keep their values (spec/43_treebuilder.md
section 1, spec/10_state.md section 3). The premise on the children concerns the entries that this `BUILD` does not
write; it is part of the session invariant. -/
def Obligations.BuildMakesTheTree : Prop :=
  ∀ s : State, s.TableOk → s.childrenBelow → s.nsyms ≠ 0 → legalWhen .build s.phase s.mode s.nsyms.toNat →
    ∃ t, exec .build s = .next t ∧ t.TreeOk ∧ t.nextId.toNat = 256 + s.nsyms.toNat - 1 ∧
      (∀ id : NodeId, t.nodeAct[id] = (id == t.root)) ∧
      (∀ b, t.nodeW[leafId b] = if atSym s.ftPres b then atSym s.ftCnt b else s.nodeW[leafId b]) ∧
      (∀ k : Fin 255, t.nextId.toNat ≤ 256 + k.val →
        t.nodeW[innerId k] = s.nodeW[innerId k] ∧ t.nodeL[k] = s.nodeL[k] ∧ t.nodeR[k] = s.nodeR[k]) ∧
      t = { s with
        nodeW := t.nodeW, nodeL := t.nodeL, nodeR := t.nodeR, nodeAct := t.nodeAct, nextId := t.nextId, root := t.root
        treeValid := true, ctValid := false, phase := .built }

/-- R124: `BUILD` of a table with one symbol makes no merge: the root is that symbol's leaf, with its count as weight and alone
active, and `NEXT_ID` is 256; no other entry of the node store changes. -/
def Obligations.BuildOfOneSymbolIsALeaf : Prop :=
  ∀ (s : State) (b : Symbol), s.TableOk → s.nsyms = 1 → atSym s.ftPres b = true →
    legalWhen .build s.phase s.mode s.nsyms.toNat →
    ∃ t, exec .build s = .next t ∧
      (∀ id : NodeId, t.nodeAct[id] = (id == leafId b) ∧
        t.nodeW[id] = if id = leafId b then atSym s.ftCnt b else s.nodeW[id]) ∧
      t = { s with
        nodeW := t.nodeW, nodeAct := t.nodeAct, nextId := 256, root := leafId b
        treeValid := true, ctValid := false, phase := .built }

/-- R125: `BUILD` of the empty table raises `InternalInvariantError` and writes nothing else. -/
def Obligations.BuildOfTheEmptyTableFaults : Prop :=
  ∀ s : State, s.nsyms = 0 → legalWhen .build s.phase s.mode s.nsyms.toNat →
    exec .build s = .next (s.raiseError .internalInvariantError 0x20)

/-- After `BUILD` every created internal node weighs the sum of the counts of the leaves beneath it, the root weighs `TOTAL`, and no
node of the tree weighs more (spec/43_treebuilder.md R127, which the spec derives from R14 and R123). -/
def Obligations.WeightsAreTheSumsOfTheLeaves : Prop :=
  ∀ s t : State, s.TableOk → s.nsyms ≠ 0 → legalWhen .build s.phase s.mode s.nsyms.toNat → exec .build s = .next t →
    (∀ k : Fin 255, 256 + k.val < t.nextId.toNat →
      t.nodeW[innerId k] = ((t.leavesFrom (Config.maxLen + 1) (innerId k)).map (atSym s.ftCnt)).sum ∧
      t.nodeW[innerId k] ≤ s.total) ∧
    (∀ b, atSym s.ftPres b = true → t.nodeW[leafId b] ≤ s.total) ∧ t.nodeW[t.root] = s.total ∧ s.total ≤ s.maxCnt

/-- The tree of a table and the codes of the tree are functions of the table alone (spec/43_treebuilder.md R126, which the spec
derives from R120 to R123). -/
def Obligations.BuildDependsOnTheTableOnly : Prop :=
  ∀ s s' t t' : State, s.TableOk → s'.TableOk → s.ftPres = s'.ftPres → s.ftCnt = s'.ftCnt →
    exec .build s = .next t → exec .build s' = .next t' → t.phase = .built → t'.phase = .built →
    s.phase ≠ .built → s'.phase ≠ .built →
      (t.nextId = t'.nextId ∧ t.root = t'.root ∧
        (∀ k : Fin 255, 256 + k.val < t.nextId.toNat →
          t.nodeW[innerId k] = t'.nodeW[innerId k] ∧ t.nodeL[k] = t'.nodeL[k] ∧ t.nodeR[k] = t'.nodeR[k])) ∧
      ∀ u u', exec .derive t = .next u → exec .derive t' = .next u' → u.phase = .derived → u'.phase = .derived →
        u.codeLen = u'.codeLen ∧ u.codeBits = u'.codeBits

/-! ### The code-table generator -/

/-- `DERIVE` of a tree whose root is internal completes: the code of every present symbol is the path from the root to its leaf,
the register is left-aligned with zeros below, every other symbol has no code, and nothing else changes
(spec/44_codetable.md R131, spec/10_state.md R22). -/
def Obligations.DeriveGivesThePaths : Prop :=
  ∀ s : State, s.TreeOk → isLeaf s.root = false → s.phase = .built → s.mode = .enc →
    ∃ t, exec .derive s = .next t ∧
      (∀ b, atSym s.ftPres b = true → s.isPath s.root (t.codeOf b) b) ∧
      (∀ b, atSym s.ftPres b = false → atSym t.codeLen b = 0) ∧
      (∀ b i, i + (atSym t.codeLen b).toNat < 255 → (atSym t.codeBits b).getLsbD i = false) ∧
      t = { s with codeLen := t.codeLen, codeBits := t.codeBits, ctValid := true, phase := .derived }

/-- R132: `DERIVE` of a leaf-root completes: its symbol's code is the one bit 0 and no other symbol has a code. -/
def Obligations.DeriveOfALeafRootIsOneBit : Prop :=
  ∀ s : State, isLeaf s.root = true → s.phase = .built → s.mode = .enc →
    ∃ t, exec .derive s = .next t ∧ t.codeOf (symbolOf s.root) = [false] ∧
      (∀ b, (atSym t.codeLen b).toNat = (if b = symbolOf s.root then 1 else 0) ∧ atSym t.codeBits b = 0) ∧
      t = { s with codeLen := t.codeLen, codeBits := t.codeBits, ctValid := true, phase := .derived }

/-- After `DERIVE` every present symbol has a code of at least one bit, and no present symbol's code is a prefix of another's
(spec/44_codetable.md section 2, (a) and (b)). -/
def Obligations.CodesArePrefixFree : Prop :=
  ∀ s t : State, s.TreeOk → s.phase = .built → s.mode = .enc → exec .derive s = .next t →
    (∀ b, atSym s.ftPres b = true → 1 ≤ (t.codeOf b).length) ∧
    ∀ a b, atSym s.ftPres a = true → atSym s.ftPres b = true → a ≠ b → ¬ t.codeOf a <+: t.codeOf b

/-- After `BUILD` and `DERIVE`, of two present symbols the one with the greater count has a code that is not longer
(spec/44_codetable.md section 2, (c)). -/
def Obligations.HeavierSymbolsHaveNoLongerCodes : Prop :=
  ∀ s t u : State, s.TableOk → s.nsyms ≠ 0 → s.phase = .persisted → s.mode = .enc →
    exec .build s = .next t → exec .derive t = .next u →
    ∀ a b, atSym s.ftPres a = true → atSym s.ftPres b = true → atSym s.ftCnt b < atSym s.ftCnt a →
      (u.codeOf a).length ≤ (u.codeOf b).length

/-- After `BUILD` and `DERIVE` the sum of counts times code lengths is the sum of the internal nodes' weights, or `TOTAL` where
there is one symbol (spec/44_codetable.md section 2, (e)). -/
def Obligations.PayloadBitsAreTheInternalWeights : Prop :=
  ∀ s t u : State, s.TableOk → s.nsyms ≠ 0 → s.phase = .persisted → s.mode = .enc →
    exec .build s = .next t → exec .derive t = .next u →
    (allSymbols.map fun b => if atSym s.ftPres b then atSym s.ftCnt b * (u.codeOf b).length else 0).sum =
      if s.nsyms = 1 then s.total
      else ((List.finRange 255).map fun k => if 256 + k.val < t.nextId.toNat then t.nodeW[innerId k] else 0).sum

/-! ### Bits -/

/-- R91 and R92: `PutBit` writes the next position from the top and, at the eighth, puts the byte; a failing access raises `IoError`
with the bit placed; the positions not filled stay 0; `FlushBits` puts a byte exactly where bits are pending, and does not
change `BW_TOTAL`. -/
def Obligations.BitWriterFillsBytesFromTheTop : Prop :=
  ∀ (s : State) (b : Bit),
    let acc := setBit s.bwAcc (7 - s.bwN.val) b
    (∀ i < 8, acc.getLsbD i = if i = 7 - s.bwN.val then b else s.bwAcc.getLsbD i) ∧
    (∀ h : s.bwN.val < 7,
      putBit b s = .ok () { s with bwAcc := acc, bwN := ⟨s.bwN.val + 1, by omega⟩, bwTotal := s.bwTotal + 1 } ∧
      ((∀ i, i + s.bwN.val ≤ 7 → s.bwAcc.getLsbD i = false) →
        ∀ i, i + (s.bwN.val + 1) ≤ 7 → acc.getLsbD i = false)) ∧
    (s.held 2 = true → s.bwN = 7 → failsNext s.esink.fails = false →
      putBit b s = .ok () { s with
        bwAcc := 0, bwN := 0, bwTotal := s.bwTotal + 1, esink := ⟨s.esink.data ++ [acc], s.esink.fails.tail⟩ }) ∧
    (s.held 2 = true → s.bwN = 7 → failsNext s.esink.fails = true →
      putBit b s = .error (.raised .ioError) { s with
        bwAcc := acc, bwTotal := s.bwTotal + 1, esink := { s.esink with fails := s.esink.fails.tail } }) ∧
    (s.bwN = 0 → flushBits s = .ok () s) ∧
    (s.held 2 = true → s.bwN ≠ 0 → failsNext s.esink.fails = false →
      flushBits s = .ok () { s with
        bwAcc := 0, bwN := 0, esink := ⟨s.esink.data ++ [s.bwAcc], s.esink.fails.tail⟩ }) ∧
    (s.held 2 = true → s.bwN ≠ 0 → failsNext s.esink.fails = true →
      flushBits s = .error (.raised .ioError) { s with esink := { s.esink with fails := s.esink.fails.tail } })

/-- R94: `GetBit` answers the next bit of the byte from the top, fetches a byte only where none is left, and at the end of the stream
raises `TruncatedStreamError`. -/
def Obligations.GetBitReadsBytesFromTheTop : Prop :=
  ∀ s : State, s.held 4 = true →
    (∀ h : s.brLeft ≠ 0, getBit s = .ok (s.brBuf.getLsbD (s.brLeft.val - 1))
      { s with brLeft := ⟨s.brLeft.val - 1, by omega⟩, brTotal := s.brTotal + 1 }) ∧
    (∀ r, s.brLeft = 0 → failsNext s.esrc.fails = false → s.esrc.data[s.esrc.pos]? = some r →
      getBit s = .ok (r.getLsbD 7) { s with
        brBuf := r, brLeft := 7, brTotal := s.brTotal + 1
        esrc := { s.esrc with pos := s.esrc.pos + 1, fails := s.esrc.fails.tail } }) ∧
    (s.brLeft = 0 → failsNext s.esrc.fails = false → s.esrc.data.length ≤ s.esrc.pos →
      getBit s = .error (.raised .truncatedStreamError) { s with
        esrc := { s.esrc with fails := s.esrc.fails.tail } }) ∧
    (s.brLeft = 0 → failsNext s.esrc.fails = true →
      getBit s = .error (.raised .ioError) { s with esrc := { s.esrc with fails := s.esrc.fails.tail } })

/-- The bits written to a fresh bit stream and flushed come out as `ceil(n / 8)` bytes, from which a fresh reader reads the same
bits and no byte more (spec/41_bitio.md R95, "Write-read law", which the spec derives from R91, R92 and R94). -/
def Obligations.WrittenBitsReadBack : Prop :=
  ∀ (s : State) (bits : List Bit), s.held 2 = true → neverFails s.esink.fails →
    ∃ (t : State) (bytes : List Byte),
      (do modify State.resetBW; putBits bits; flushBits : Proc Unit) s = .ok () t ∧
      t.esink.data = s.esink.data ++ bytes ∧ bytes.length = (bits.length + 7) / 8 ∧
      ∀ (u : State) (before after : List Byte), u.held 4 = true → neverFails u.esrc.fails →
        u.esrc.data = before ++ bytes ++ after → u.esrc.pos = before.length →
        ∃ v, (do modify State.resetBR; getBits bits.length : Proc (List Bit)) u = .ok bits v ∧
          v.esrc.pos = before.length + bytes.length

/-! ### The encoder -/

/-- `WRHDR` with no failing access completes: `HDR_BITS` is the number of bits the table and the codes give, the sink holds its 8
bytes, most significant first, the bit writer starts again, and nothing else changes (spec/45_encoder.md section 2). -/
def Obligations.WrhdrWritesTheBitCount : Prop :=
  ∀ s : State, legalWhen .wrhdr s.phase s.mode s.nsyms.toNat → neverFails s.esink.fails →
    let n := (allSymbols.map fun b =>
      if atSym s.ftPres b then atSym s.ftCnt b * (atSym s.codeLen b).toNat else 0).sum
    (s.TableOk → cntWOk s.cntW = true → n < 2 ^ 64) ∧
    ∃ t, exec .wrhdr s = .next t ∧
      t = { s with
        hdrBits := BitVec.ofNat 64 n, phase := .hdr, portHeld := s.portHeld ||| 0b000100
        bwAcc := 0, bwN := 0, bwTotal := 0
        esink := ⟨(List.range 8).map fun k => BitVec.ofNat 8 (n / 256 ^ (7 - k)), t.esink.fails⟩ }

/-- `EMIT` of a source whose bytes all have codes completes with no failing access: the codes of the bytes, in input order, follow the bits
written before, the source is fully read, and nothing else changes (spec/45_encoder.md section 3). -/
def Obligations.EmitWritesTheCodes : Prop :=
  ∀ s : State, s.phase = .hdr → s.mode = .enc → s.held 2 = true → (∀ b ∈ s.src.data, atSym s.codeLen b ≠ 0) →
    neverFails s.src.fails → neverFails s.esink.fails →
    ∃ t, exec .emit s = .next t ∧
      t.writtenBits = s.writtenBits ++ s.src.data.flatMap s.codeOf ∧
      s.esink.data <+: t.esink.data ∧
      t = { s with
        phase := .streamed, portHeld := s.portHeld ||| 0b000001
        bwAcc := t.bwAcc, bwN := t.bwN
        bwTotal := s.bwTotal + BitVec.ofNat 64 (s.src.data.flatMap s.codeOf).length
        src := { s.src with pos := s.src.data.length, fails := t.src.fails }
        esink := t.esink }

/-- `EMIT` of a source with a byte that has no code ends in `FAULT` with `InternalInvariantError` at the first such byte
(spec/45_encoder.md section 3, R143). -/
def Obligations.EmitWithoutACodeFaults : Prop :=
  ∀ (s : State) (before after : List Byte) (b : Byte), s.phase = .hdr → s.mode = .enc → s.held 2 = true →
    s.src.data = before ++ b :: after → (∀ a ∈ before, atSym s.codeLen a ≠ 0) → atSym s.codeLen b = 0 →
    neverFails s.src.fails → neverFails s.esink.fails →
    ∃ t, exec .emit s = .next t ∧ t.phase = .fault ∧ t.err = some .internalInvariantError ∧ t.errCmd = 0x31 ∧
      t.portHeld = 0 ∧ t.src.pos = before.length + 1

/-- R144: `FLUSH` with no failing access puts the pending byte, if there is one. Where the bits written are the bits announced
it ends the session with every port released; where they are not it raises `InternalInvariantError` after the byte. -/
def Obligations.FlushEndsTheSession : Prop :=
  ∀ s : State, s.phase = .streamed → s.held 2 = true → neverFails s.esink.fails →
    let flushed : State := { s with
      bwAcc := if s.bwN = 0 then s.bwAcc else 0, bwN := 0
      esink := if s.bwN = 0 then s.esink else ⟨s.esink.data ++ [s.bwAcc], s.esink.fails.tail⟩ }
    (s.bwTotal = s.hdrBits → exec .flush s = .next { flushed with portHeld := 0, phase := .done }) ∧
    (s.bwTotal ≠ s.hdrBits → exec .flush s = .next (flushed.raiseError .internalInvariantError 0x32))

/-- R85: a composite has the end state of its expansion issued as separate commands, `ERR_CMD` included. -/
def Obligations.CompositesAreTheirExpansions : Prop :=
  ∀ s : State,
    (∃ t, runAll [.clear, .scan, .persist] s = .next t ∧
      exec .encode s =
        runAll (if t.nsyms = 0 then [.wrhdr, .emit, .flush] else [.build, .derive, .wrhdr, .emit, .flush]) t) ∧
    (∃ t, runAll [.clear, .load] s = .next t ∧
      exec .decode s = runAll (if t.nsyms = 0 then [.rdhdr, .walk] else [.build, .rdhdr, .walk]) t)

/-- An encode session of at most `MAXCNT` bytes with no failing access ends in `DONE` with the frequency record of its input and the
header and payload of its codes, both functions of the input alone; of more bytes it ends in `FAULT` with
`CapacityError` (spec/45_encoder.md R151, which the spec derives from the commands' rules). -/
def Obligations.EncodeOfAnyInput : Prop :=
  (∀ s : State, cntWOk s.cntW = true → neverFails s.src.fails → neverFails s.fsink.fails → neverFails s.esink.fails →
    (s.src.data.length ≤ s.maxCnt → ∃ t, exec .encode s = .next t ∧
      t.phase = .done ∧ t.mode = .enc ∧ t.err = none ∧ t.portHeld = 0 ∧
      t.fsink.data = recordOf s.src.data ∧
      t.esink.data = bytesBE 8 (s.src.data.flatMap t.codeOf).length ++ payloadOf (s.src.data.flatMap t.codeOf)) ∧
    (s.maxCnt < s.src.data.length → ∃ t, exec .encode s = .next t ∧
      t.phase = .fault ∧ t.err = some .capacityError ∧ t.errCmd = 0x10)) ∧
  (∀ s s' t t' : State, s.src.data = s'.src.data → exec .encode s = .next t → exec .encode s' = .next t' →
    t.phase = .done → t'.phase = .done → t.fsink.data = t'.fsink.data ∧ t.esink.data = t'.esink.data)

/-! ### The decoder -/

/-- R161: `RDHDR` with no failing access reads the 8 bytes of the header, most significant first, and the bit reader starts again; of a
stream of fewer bytes it ends in `FAULT` with `TruncatedStreamError`. -/
def Obligations.RdhdrReadsTheBitCount : Prop :=
  ∀ s : State, legalWhen .rdhdr s.phase s.mode s.nsyms.toNat → neverFails s.esrc.fails →
    (8 ≤ s.esrc.data.length → ∃ t, exec .rdhdr s = .next t ∧
      t.hdrBits.toNat = (s.esrc.data.take 8).foldl (fun n b => 256 * n + b.toNat) 0 ∧
      t = { s with
        hdrBits := t.hdrBits, phase := .hdr, portHeld := s.portHeld ||| 0b010000
        brBuf := 0, brLeft := 0, brTotal := 0
        esrc := { s.esrc with pos := 8, fails := t.esrc.fails } }) ∧
    (s.esrc.data.length < 8 → ∃ t, exec .rdhdr s = .next t ∧
      t.phase = .fault ∧ t.err = some .truncatedStreamError ∧ t.errCmd = 0x33 ∧ t.portHeld = 0 ∧
      t.hdrBits = s.hdrBits ∧ t.esrc.pos = s.esrc.data.length)

/-- `WALK` of a payload that is the paths of a sequence of symbols completes with no failing access: the sink holds the symbols, exactly the
counted bits are read, the cursor is at the root, the session is over, and nothing else changes (spec/46_decoder.md
section 3). -/
def Obligations.WalkDecodesThePaths : Prop :=
  ∀ (s : State) (path : Symbol → List Bit) (syms : List Symbol) (before after : List Byte),
    s.phase = .hdr → s.mode = .dec → s.held 4 = true → s.treeValid = true → isLeaf s.root = false →
    (∀ b ∈ syms, s.isPath s.root (path b) b) → s.hdrBits.toNat = (syms.flatMap path).length →
    s.brLeft = 0 → s.brTotal = 0 → s.esrc.data = before ++ payloadOf (syms.flatMap path) ++ after →
    s.esrc.pos = before.length → neverFails s.esrc.fails → neverFails s.osink.fails →
    ∃ t, exec .walk s = .next t ∧
      t = { s with
        phase := .done, portHeld := 0, cur := s.root
        brBuf := t.brBuf, brLeft := t.brLeft, brTotal := s.hdrBits
        esrc := { s.esrc with pos := before.length + ((syms.flatMap path).length + 7) / 8, fails := t.esrc.fails }
        osink := ⟨syms, t.osink.fails⟩ }

/-- R165: `WALK` with a leaf-root emits the one symbol for each valid bit, whatever the bits are, and ends in `DONE` with the cursor at the
root. -/
def Obligations.WalkOfALeafRootIgnoresTheBits : Prop :=
  ∀ s : State, s.phase = .hdr → s.mode = .dec → s.held 4 = true → s.treeValid = true → isLeaf s.root = true →
    s.brTotal ≤ s.hdrBits → s.hdrBits.toNat - s.brTotal.toNat ≤ s.brLeft.val + 8 * s.esrc.unread →
    neverFails s.esrc.fails → neverFails s.osink.fails →
    ∃ t, exec .walk s = .next t ∧
      t = { s with
        phase := .done, portHeld := 0, cur := s.root
        brBuf := t.brBuf, brLeft := t.brLeft, brTotal := s.hdrBits
        esrc := { s.esrc with pos := t.esrc.pos, fails := t.esrc.fails }
        osink := ⟨List.replicate (s.hdrBits.toNat - s.brTotal.toNat) (symbolOf s.root), t.osink.fails⟩ }

/-- R166: `WALK` without a tree ends in `DONE` with an empty output where no bit is announced, and raises
`InternalInvariantError` before it opens its sink where one is. -/
def Obligations.WalkWithoutATree : Prop :=
  ∀ s : State, s.phase = .hdr → s.mode = .dec → s.treeValid = false →
    (s.hdrBits = 0 → neverFails s.osink.fails →
      exec .walk s = .next { s with phase := .done, portHeld := 0, osink := ⟨[], s.osink.fails.tail⟩ }) ∧
    (s.hdrBits ≠ 0 → exec .walk s = .next (s.raiseError .internalInvariantError 0x34))

/-- `WALK` ends in `FAULT` with `TruncatedStreamError` in exactly the two ways of spec/46_decoder.md R164: the stream ends before the
announced bits have been delivered, or they end inside a code. -/
def Obligations.WalkDetectsTruncation : Prop :=
  ∀ s : State, s.phase = .hdr → s.mode = .dec → s.held 4 = true → s.treeValid = true →
    neverFails s.esrc.fails → neverFails s.osink.fails →
    let truncated : Prop :=
      ∃ t, exec .walk s = .next t ∧ t.phase = .fault ∧ t.err = some .truncatedStreamError ∧ t.errCmd = 0x34 ∧
        t.portHeld = 0
    (s.brLeft.val + 8 * s.esrc.unread < s.hdrBits.toNat - s.brTotal.toNat → truncated) ∧
    (∀ (path : Symbol → List Bit) (syms : List Symbol) (cut : List Bit) (before after : List Byte),
      s.childrenBelow → (∀ b ∈ syms, s.isPath s.root (path b) b) → cut ≠ [] →
      (∀ i ≤ cut.length, isLeaf (s.follow s.root (cut.take i)) = false) →
      s.hdrBits.toNat = (syms.flatMap path ++ cut).length → s.brLeft = 0 → s.brTotal = 0 →
      s.esrc.data = before ++ payloadOf (syms.flatMap path ++ cut) ++ after → s.esrc.pos = before.length → truncated)

/-- `DECODE` of an accepted record and a payload that is the paths of any sequence of its symbols, with a matching bit count and
whatever follows, completes from every state with no failing access: the output is the symbols, exactly the counted
bits are read, and the session is over. `path` is fixed by the record and the count width: with more than one symbol it
is the symbols' paths in the tree of the session, with one it is the one bit 0 of R132. With one symbol every payload
of enough bits gives that symbol for each bit, whatever the bits are. No symbols and no bits are the empty output
(spec/46_decoder.md sections 3 and 4, spec/44_codetable.md section 1). -/
def Obligations.DecodeGivesTheSymbols : Prop :=
  ∀ (w : Nat) (lines : List (Symbol × List Byte)), RecordOk (Config.maxCntOf w) lines →
    ∃ path : Symbol → List Bit, (∀ l, lines = [l] → path l.1 = [false]) ∧
      ∀ (s : State) (n : Nat) (payload : List Byte), s.cntW = w → s.fsrc.data = lines.flatMap lineOf → n < 2 ^ 64 →
        s.esrc.data = bytesBE 8 n ++ payload →
        neverFails s.fsrc.fails → neverFails s.esrc.fails → neverFails s.osink.fails →
        let gives (syms : List Symbol) : Prop :=
          ∃ t, exec .decode s = .next t ∧ t.phase = .done ∧ t.mode = .dec ∧ t.err = none ∧ t.portHeld = 0 ∧
            t.osink.data = syms ∧ t.esrc.pos = 8 + (n + 7) / 8 ∧ t.nsyms.toNat = lines.length ∧
            (1 < lines.length → ∀ b ∈ lines.map (·.1), t.isPath t.root (path b) b)
        (∀ (syms : List Symbol) (after : List Byte), (∀ b ∈ syms, b ∈ lines.map (·.1)) →
          n = (syms.flatMap path).length → payload = payloadOf (syms.flatMap path) ++ after → gives syms) ∧
        (∀ l, lines = [l] → n ≤ 8 * payload.length → gives (List.replicate n l.1))

/-- Decoding what an encode session of any input wrote gives the input back, the empty input and inputs of one symbol
included (spec/46_decoder.md R171, "Round trip", which the spec derives from its other rules). -/
def Obligations.RoundTrip : Prop :=
  ∀ s t d : State, cntWOk s.cntW = true → s.src.data.length ≤ s.maxCnt → s.noAccessFails → exec .encode s = .next t →
    d.cntW = s.cntW → d.fsrc.data = t.fsink.data → d.esrc.data = t.esink.data → d.noAccessFails →
    ∃ u, exec .decode d = .next u ∧ u.phase = .done ∧ u.osink.data = s.src.data

/-! ### Invariants -/

/-- The session invariant holds after reset. -/
def Obligations.ResetMeetsTheInvariant : Prop := State.reset.Inv

/-- Every step keeps the session invariant: the table's registers agree, exactly the ports of the phase are held, children exist before their
parents, `IDLE` has the reset values, there is an error exactly in `FAULT`, the unfilled bits are 0, and a command that
needs the tree or the codes has them (spec/10_state.md sections 2 to 6, spec/40_control.md section 4). -/
def Obligations.StepKeepsTheInvariant : Prop :=
  ∀ s t : State, s.Inv → step s = .next t → t.Inv

/-- From a state that meets the session invariant no command stops: each answers a next state, and a step answers a next state or refuses
a host move on a held stream (spec/60_exceptions.md section 1: "No other condition raises an error"). -/
def Obligations.NoCommandStops : Prop :=
  ∀ s : State, s.Inv → (∀ i, ∃ t, exec i s = .next t) ∧ ((∃ t, step s = .next t) ∨ step s = .refused .streamHeld)

/-- A composite leaves the session over: the phase is `DONE` or `FAULT`, every port is released, and in `FAULT` there is an error
(spec/70_reset_and_hazards.md R206, (a) to (c)). -/
def Obligations.CompositesEndTheSession : Prop :=
  ∀ (s t : State) (i : Instr), i = .encode ∨ i = .decode → exec i s = .next t →
    (t.phase = .done ∨ t.phase = .fault) ∧ t.portHeld = 0 ∧ t.err.isSome = (t.phase == .fault)

/-- Within a session `PHASE` never decreases, `FAULT` being the greatest value: only `CLEAR` and the composites, which begin with
it, lower it (spec/40_control.md section 4, (e)). -/
def Obligations.PhaseNeverDecreases : Prop :=
  ∀ (s t : State) (i : Instr), i ≠ .clear → i ≠ .encode → i ≠ .decode → exec i s = .next t →
    s.phase.code ≤ t.phase.code

/-! ### Frames -/

/-- No command but `SCAN`, `LOAD`, `CLEAR` and the composites writes the frequency table (spec/10_state.md R15 (c)), and no command
changes the count width or the host's side. -/
def Obligations.OnlyScanAndLoadWriteTheTable : Prop :=
  ∀ (s t : State) (i : Instr), exec i s = .next t →
    (i ≠ .scan → i ≠ .load → i ≠ .clear → i ≠ .encode → i ≠ .decode →
      t.ftPres = s.ftPres ∧ t.ftCnt = s.ftCnt ∧ t.nsyms = s.nsyms ∧ t.total = s.total) ∧
    t.cntW = s.cntW ∧ t.hostMoves = s.hostMoves ∧ t.readData = s.readData

/-- No command but `BUILD`, `CLEAR` and the composites writes the node store, and none but `DERIVE`, `CLEAR` and the composites writes a
code (spec/10_state.md section 3: "Written by `BUILD` only", "Written by `DERIVE` only"). -/
def Obligations.OnlyBuildAndDeriveWriteTreeAndCodes : Prop :=
  ∀ (s t : State) (i : Instr), exec i s = .next t → i ≠ .clear → i ≠ .encode → i ≠ .decode →
    (i ≠ .build → t.nodeW = s.nodeW ∧ t.nodeL = s.nodeL ∧ t.nodeR = s.nodeR ∧ t.nodeAct = s.nodeAct ∧
      t.nextId = s.nextId ∧ t.root = s.root ∧ t.treeValid = s.treeValid) ∧
    (i ≠ .derive → t.codeLen = s.codeLen ∧ t.codeBits = s.codeBits) ∧
    (i ≠ .derive → i ≠ .build → t.ctValid = s.ctValid)

/-- Which commands write the mode, the header count, the cursor and the bit registers, `CLEAR` and the composites apart
(spec/10_state.md sections 3, 4 and 6). -/
def Obligations.BitRegistersAreWrittenByTheirCommands : Prop :=
  ∀ (s t : State) (i : Instr), exec i s = .next t → i ≠ .clear → i ≠ .encode → i ≠ .decode →
    (i ≠ .scan → i ≠ .load → t.mode = s.mode) ∧
    (i ≠ .wrhdr → i ≠ .rdhdr → t.hdrBits = s.hdrBits) ∧
    (i ≠ .walk → t.cur = s.cur) ∧
    (i ≠ .wrhdr → i ≠ .emit → i ≠ .flush → t.bwAcc = s.bwAcc ∧ t.bwN = s.bwN) ∧
    (i ≠ .wrhdr → i ≠ .emit → t.bwTotal = s.bwTotal) ∧
    (i ≠ .rdhdr → i ≠ .walk → t.brBuf = s.brBuf ∧ t.brLeft = s.brLeft ∧ t.brTotal = s.brTotal)

/-- No command changes the bytes of a source, and each source's cursor is moved by its own commands alone (spec/20_memory.md R41,
spec/60_exceptions.md R184). -/
def Obligations.SourcesAreOnlyRead : Prop :=
  ∀ (s t : State) (i : Instr), exec i s = .next t →
    t.src.data = s.src.data ∧ t.fsrc.data = s.fsrc.data ∧ t.esrc.data = s.esrc.data ∧
    (i ≠ .scan → i ≠ .emit → i ≠ .encode → t.src = s.src) ∧
    (i ≠ .load → i ≠ .decode → t.fsrc = s.fsrc) ∧
    (i ≠ .rdhdr → i ≠ .walk → i ≠ .decode → t.esrc = s.esrc) ∧
    (s.streamsOk → t.streamsOk)

/-- A command changes a sink only if it is one that writes it, or if the sink was held when the command raised an error; so an error
raised with no port held leaves the outputs of a finished session intact, and a decode session never touches the encoder's
sinks (spec/60_exceptions.md R184). -/
def Obligations.OtherSinksAreUntouched : Prop :=
  ∀ (s t : State) (i : Instr), exec i s = .next t →
    (i ≠ .persist → i ≠ .encode → (s.held 1 = false ∨ t.phase ≠ .fault ∨ i = .decode) → t.fsink = s.fsink) ∧
    (i ≠ .wrhdr → i ≠ .emit → i ≠ .flush → i ≠ .encode → (s.held 2 = false ∨ t.phase ≠ .fault ∨ i = .decode) →
      t.esink = s.esink) ∧
    (i ≠ .walk → i ≠ .decode → (s.held 5 = false ∨ t.phase ≠ .fault ∨ i = .encode) → t.osink = s.osink)
end

