-- ==== Sys2Proof/Laws/State.lean ====
section
/-!
SUPPORT. What each named update of State writes and what it leaves: one lemma for each field and update.
-/

namespace Sys2Proof.Machine

/-! ### Streams read after a write -/

@[simp] theorem State.source_setSource_same (s : State) (p : SourcePort) (st : Source) :
    (s.setSource p st).source p = st := by cases p <;> rfl

theorem State.source_setSource_ne (s : State) {p q : SourcePort} (st : Source) (h : q ≠ p) :
    (s.setSource p st).source q = s.source q := by cases p <;> cases q <;> first | rfl | exact absurd rfl h

@[simp] theorem State.sink_setSource (s : State) (p : SourcePort) (st : Source) (q : SinkPort) :
    (s.setSource p st).sink q = s.sink q := by cases p <;> cases q <;> rfl

@[simp] theorem State.sink_setSink_same (s : State) (q : SinkPort) (st : Sink) :
    (s.setSink q st).sink q = st := by cases q <;> rfl

theorem State.sink_setSink_ne (s : State) {p q : SinkPort} (st : Sink) (h : q ≠ p) :
    (s.setSink p st).sink q = s.sink q := by cases p <;> cases q <;> first | rfl | exact absurd rfl h

@[simp] theorem State.source_setSink (s : State) (q : SinkPort) (st : Sink) (p : SourcePort) :
    (s.setSink q st).source p = s.source p := by cases p <;> cases q <;> rfl

@[simp] theorem State.setSource_source (s : State) (p : SourcePort) : s.setSource p (s.source p) = s := by
  cases p <;> rfl

@[simp] theorem State.setSink_sink (s : State) (q : SinkPort) : s.setSink q (s.sink q) = s := by
  cases q <;> rfl

@[simp] theorem State.setSource_setSource (s : State) (p : SourcePort) (a b : Source) :
    (s.setSource p a).setSource p b = s.setSource p b := by cases p <;> rfl

@[simp] theorem State.setSink_setSink (s : State) (q : SinkPort) (a b : Sink) :
    (s.setSink q a).setSink q b = s.setSink q b := by cases q <;> rfl

@[simp] theorem State.source_hold (s : State) (n : Nat) (p : SourcePort) : (s.hold n).source p = s.source p := by
  cases p <;> rfl

@[simp] theorem State.sink_hold (s : State) (n : Nat) (q : SinkPort) : (s.hold n).sink q = s.sink q := by
  cases q <;> rfl

@[simp] theorem State.source_releaseAll (s : State) (p : SourcePort) : s.releaseAll.source p = s.source p := by
  cases p <;> rfl

@[simp] theorem State.sink_releaseAll (s : State) (q : SinkPort) : s.releaseAll.sink q = s.sink q := by
  cases q <;> rfl

@[simp] theorem State.source_cleared (s : State) (p : SourcePort) : s.cleared.source p = s.source p := by
  cases p <;> rfl

@[simp] theorem State.sink_cleared (s : State) (q : SinkPort) : s.cleared.sink q = s.sink q := by
  cases q <;> rfl

/-! ### The ports by name -/

@[simp] theorem SourcePort.num_src : SourcePort.src.num = 0 := rfl
@[simp] theorem SourcePort.num_fsrc : SourcePort.fsrc.num = 3 := rfl
@[simp] theorem SourcePort.num_esrc : SourcePort.esrc.num = 4 := rfl
@[simp] theorem SinkPort.num_fsink : SinkPort.fsink.num = 1 := rfl
@[simp] theorem SinkPort.num_esink : SinkPort.esink.num = 2 := rfl
@[simp] theorem SinkPort.num_osink : SinkPort.osink.num = 5 := rfl
@[simp] theorem State.source_src (s : State) : s.source .src = s.src := rfl
@[simp] theorem State.source_fsrc (s : State) : s.source .fsrc = s.fsrc := rfl
@[simp] theorem State.source_esrc (s : State) : s.source .esrc = s.esrc := rfl
@[simp] theorem State.sink_fsink (s : State) : s.sink .fsink = s.fsink := rfl
@[simp] theorem State.sink_esink (s : State) : s.sink .esink = s.esink := rfl
@[simp] theorem State.sink_osink (s : State) : s.sink .osink = s.osink := rfl

/-! ### A source stream written -/

@[simp] theorem State.setSource_cntW (s : State) (p : SourcePort) (st : Source) : (s.setSource p st).cntW = s.cntW := by cases p <;> rfl
@[simp] theorem State.setSource_ftPres (s : State) (p : SourcePort) (st : Source) : (s.setSource p st).ftPres = s.ftPres := by cases p <;> rfl
@[simp] theorem State.setSource_ftCnt (s : State) (p : SourcePort) (st : Source) : (s.setSource p st).ftCnt = s.ftCnt := by cases p <;> rfl
@[simp] theorem State.setSource_nsyms (s : State) (p : SourcePort) (st : Source) : (s.setSource p st).nsyms = s.nsyms := by cases p <;> rfl
@[simp] theorem State.setSource_total (s : State) (p : SourcePort) (st : Source) : (s.setSource p st).total = s.total := by cases p <;> rfl
@[simp] theorem State.setSource_nodeW (s : State) (p : SourcePort) (st : Source) : (s.setSource p st).nodeW = s.nodeW := by cases p <;> rfl
@[simp] theorem State.setSource_nodeL (s : State) (p : SourcePort) (st : Source) : (s.setSource p st).nodeL = s.nodeL := by cases p <;> rfl
@[simp] theorem State.setSource_nodeR (s : State) (p : SourcePort) (st : Source) : (s.setSource p st).nodeR = s.nodeR := by cases p <;> rfl
@[simp] theorem State.setSource_nodeAct (s : State) (p : SourcePort) (st : Source) : (s.setSource p st).nodeAct = s.nodeAct := by cases p <;> rfl
@[simp] theorem State.setSource_nextId (s : State) (p : SourcePort) (st : Source) : (s.setSource p st).nextId = s.nextId := by cases p <;> rfl
@[simp] theorem State.setSource_root (s : State) (p : SourcePort) (st : Source) : (s.setSource p st).root = s.root := by cases p <;> rfl
@[simp] theorem State.setSource_treeValid (s : State) (p : SourcePort) (st : Source) : (s.setSource p st).treeValid = s.treeValid := by cases p <;> rfl
@[simp] theorem State.setSource_codeLen (s : State) (p : SourcePort) (st : Source) : (s.setSource p st).codeLen = s.codeLen := by cases p <;> rfl
@[simp] theorem State.setSource_codeBits (s : State) (p : SourcePort) (st : Source) : (s.setSource p st).codeBits = s.codeBits := by cases p <;> rfl
@[simp] theorem State.setSource_ctValid (s : State) (p : SourcePort) (st : Source) : (s.setSource p st).ctValid = s.ctValid := by cases p <;> rfl
@[simp] theorem State.setSource_hdrBits (s : State) (p : SourcePort) (st : Source) : (s.setSource p st).hdrBits = s.hdrBits := by cases p <;> rfl
@[simp] theorem State.setSource_phase (s : State) (p : SourcePort) (st : Source) : (s.setSource p st).phase = s.phase := by cases p <;> rfl
@[simp] theorem State.setSource_mode (s : State) (p : SourcePort) (st : Source) : (s.setSource p st).mode = s.mode := by cases p <;> rfl
@[simp] theorem State.setSource_cur (s : State) (p : SourcePort) (st : Source) : (s.setSource p st).cur = s.cur := by cases p <;> rfl
@[simp] theorem State.setSource_portHeld (s : State) (p : SourcePort) (st : Source) : (s.setSource p st).portHeld = s.portHeld := by cases p <;> rfl
@[simp] theorem State.setSource_err (s : State) (p : SourcePort) (st : Source) : (s.setSource p st).err = s.err := by cases p <;> rfl
@[simp] theorem State.setSource_errCmd (s : State) (p : SourcePort) (st : Source) : (s.setSource p st).errCmd = s.errCmd := by cases p <;> rfl
@[simp] theorem State.setSource_bwAcc (s : State) (p : SourcePort) (st : Source) : (s.setSource p st).bwAcc = s.bwAcc := by cases p <;> rfl
@[simp] theorem State.setSource_bwN (s : State) (p : SourcePort) (st : Source) : (s.setSource p st).bwN = s.bwN := by cases p <;> rfl
@[simp] theorem State.setSource_bwTotal (s : State) (p : SourcePort) (st : Source) : (s.setSource p st).bwTotal = s.bwTotal := by cases p <;> rfl
@[simp] theorem State.setSource_brBuf (s : State) (p : SourcePort) (st : Source) : (s.setSource p st).brBuf = s.brBuf := by cases p <;> rfl
@[simp] theorem State.setSource_brLeft (s : State) (p : SourcePort) (st : Source) : (s.setSource p st).brLeft = s.brLeft := by cases p <;> rfl
@[simp] theorem State.setSource_brTotal (s : State) (p : SourcePort) (st : Source) : (s.setSource p st).brTotal = s.brTotal := by cases p <;> rfl
@[simp] theorem State.setSource_fsink (s : State) (p : SourcePort) (st : Source) : (s.setSource p st).fsink = s.fsink := by cases p <;> rfl
@[simp] theorem State.setSource_esink (s : State) (p : SourcePort) (st : Source) : (s.setSource p st).esink = s.esink := by cases p <;> rfl
@[simp] theorem State.setSource_osink (s : State) (p : SourcePort) (st : Source) : (s.setSource p st).osink = s.osink := by cases p <;> rfl
@[simp] theorem State.setSource_raises (s : State) (p : SourcePort) (st : Source) : (s.setSource p st).raises = s.raises := by cases p <;> rfl
@[simp] theorem State.setSource_hostMoves (s : State) (p : SourcePort) (st : Source) : (s.setSource p st).hostMoves = s.hostMoves := by cases p <;> rfl
@[simp] theorem State.setSource_readData (s : State) (p : SourcePort) (st : Source) : (s.setSource p st).readData = s.readData := by cases p <;> rfl

/-! ### A sink stream written -/

@[simp] theorem State.setSink_cntW (s : State) (q : SinkPort) (st : Sink) : (s.setSink q st).cntW = s.cntW := by cases q <;> rfl
@[simp] theorem State.setSink_ftPres (s : State) (q : SinkPort) (st : Sink) : (s.setSink q st).ftPres = s.ftPres := by cases q <;> rfl
@[simp] theorem State.setSink_ftCnt (s : State) (q : SinkPort) (st : Sink) : (s.setSink q st).ftCnt = s.ftCnt := by cases q <;> rfl
@[simp] theorem State.setSink_nsyms (s : State) (q : SinkPort) (st : Sink) : (s.setSink q st).nsyms = s.nsyms := by cases q <;> rfl
@[simp] theorem State.setSink_total (s : State) (q : SinkPort) (st : Sink) : (s.setSink q st).total = s.total := by cases q <;> rfl
@[simp] theorem State.setSink_nodeW (s : State) (q : SinkPort) (st : Sink) : (s.setSink q st).nodeW = s.nodeW := by cases q <;> rfl
@[simp] theorem State.setSink_nodeL (s : State) (q : SinkPort) (st : Sink) : (s.setSink q st).nodeL = s.nodeL := by cases q <;> rfl
@[simp] theorem State.setSink_nodeR (s : State) (q : SinkPort) (st : Sink) : (s.setSink q st).nodeR = s.nodeR := by cases q <;> rfl
@[simp] theorem State.setSink_nodeAct (s : State) (q : SinkPort) (st : Sink) : (s.setSink q st).nodeAct = s.nodeAct := by cases q <;> rfl
@[simp] theorem State.setSink_nextId (s : State) (q : SinkPort) (st : Sink) : (s.setSink q st).nextId = s.nextId := by cases q <;> rfl
@[simp] theorem State.setSink_root (s : State) (q : SinkPort) (st : Sink) : (s.setSink q st).root = s.root := by cases q <;> rfl
@[simp] theorem State.setSink_treeValid (s : State) (q : SinkPort) (st : Sink) : (s.setSink q st).treeValid = s.treeValid := by cases q <;> rfl
@[simp] theorem State.setSink_codeLen (s : State) (q : SinkPort) (st : Sink) : (s.setSink q st).codeLen = s.codeLen := by cases q <;> rfl
@[simp] theorem State.setSink_codeBits (s : State) (q : SinkPort) (st : Sink) : (s.setSink q st).codeBits = s.codeBits := by cases q <;> rfl
@[simp] theorem State.setSink_ctValid (s : State) (q : SinkPort) (st : Sink) : (s.setSink q st).ctValid = s.ctValid := by cases q <;> rfl
@[simp] theorem State.setSink_hdrBits (s : State) (q : SinkPort) (st : Sink) : (s.setSink q st).hdrBits = s.hdrBits := by cases q <;> rfl
@[simp] theorem State.setSink_phase (s : State) (q : SinkPort) (st : Sink) : (s.setSink q st).phase = s.phase := by cases q <;> rfl
@[simp] theorem State.setSink_mode (s : State) (q : SinkPort) (st : Sink) : (s.setSink q st).mode = s.mode := by cases q <;> rfl
@[simp] theorem State.setSink_cur (s : State) (q : SinkPort) (st : Sink) : (s.setSink q st).cur = s.cur := by cases q <;> rfl
@[simp] theorem State.setSink_portHeld (s : State) (q : SinkPort) (st : Sink) : (s.setSink q st).portHeld = s.portHeld := by cases q <;> rfl
@[simp] theorem State.setSink_err (s : State) (q : SinkPort) (st : Sink) : (s.setSink q st).err = s.err := by cases q <;> rfl
@[simp] theorem State.setSink_errCmd (s : State) (q : SinkPort) (st : Sink) : (s.setSink q st).errCmd = s.errCmd := by cases q <;> rfl
@[simp] theorem State.setSink_bwAcc (s : State) (q : SinkPort) (st : Sink) : (s.setSink q st).bwAcc = s.bwAcc := by cases q <;> rfl
@[simp] theorem State.setSink_bwN (s : State) (q : SinkPort) (st : Sink) : (s.setSink q st).bwN = s.bwN := by cases q <;> rfl
@[simp] theorem State.setSink_bwTotal (s : State) (q : SinkPort) (st : Sink) : (s.setSink q st).bwTotal = s.bwTotal := by cases q <;> rfl
@[simp] theorem State.setSink_brBuf (s : State) (q : SinkPort) (st : Sink) : (s.setSink q st).brBuf = s.brBuf := by cases q <;> rfl
@[simp] theorem State.setSink_brLeft (s : State) (q : SinkPort) (st : Sink) : (s.setSink q st).brLeft = s.brLeft := by cases q <;> rfl
@[simp] theorem State.setSink_brTotal (s : State) (q : SinkPort) (st : Sink) : (s.setSink q st).brTotal = s.brTotal := by cases q <;> rfl
@[simp] theorem State.setSink_src (s : State) (q : SinkPort) (st : Sink) : (s.setSink q st).src = s.src := by cases q <;> rfl
@[simp] theorem State.setSink_fsrc (s : State) (q : SinkPort) (st : Sink) : (s.setSink q st).fsrc = s.fsrc := by cases q <;> rfl
@[simp] theorem State.setSink_esrc (s : State) (q : SinkPort) (st : Sink) : (s.setSink q st).esrc = s.esrc := by cases q <;> rfl
@[simp] theorem State.setSink_raises (s : State) (q : SinkPort) (st : Sink) : (s.setSink q st).raises = s.raises := by cases q <;> rfl
@[simp] theorem State.setSink_hostMoves (s : State) (q : SinkPort) (st : Sink) : (s.setSink q st).hostMoves = s.hostMoves := by cases q <;> rfl
@[simp] theorem State.setSink_readData (s : State) (q : SinkPort) (st : Sink) : (s.setSink q st).readData = s.readData := by cases q <;> rfl

/-! ### A port held, every port released -/

@[simp] theorem State.hold_cntW (s : State) (p : Nat) : (s.hold p).cntW = s.cntW := rfl
@[simp] theorem State.hold_ftPres (s : State) (p : Nat) : (s.hold p).ftPres = s.ftPres := rfl
@[simp] theorem State.hold_ftCnt (s : State) (p : Nat) : (s.hold p).ftCnt = s.ftCnt := rfl
@[simp] theorem State.hold_nsyms (s : State) (p : Nat) : (s.hold p).nsyms = s.nsyms := rfl
@[simp] theorem State.hold_total (s : State) (p : Nat) : (s.hold p).total = s.total := rfl
@[simp] theorem State.hold_nodeW (s : State) (p : Nat) : (s.hold p).nodeW = s.nodeW := rfl
@[simp] theorem State.hold_nodeL (s : State) (p : Nat) : (s.hold p).nodeL = s.nodeL := rfl
@[simp] theorem State.hold_nodeR (s : State) (p : Nat) : (s.hold p).nodeR = s.nodeR := rfl
@[simp] theorem State.hold_nodeAct (s : State) (p : Nat) : (s.hold p).nodeAct = s.nodeAct := rfl
@[simp] theorem State.hold_nextId (s : State) (p : Nat) : (s.hold p).nextId = s.nextId := rfl
@[simp] theorem State.hold_root (s : State) (p : Nat) : (s.hold p).root = s.root := rfl
@[simp] theorem State.hold_treeValid (s : State) (p : Nat) : (s.hold p).treeValid = s.treeValid := rfl
@[simp] theorem State.hold_codeLen (s : State) (p : Nat) : (s.hold p).codeLen = s.codeLen := rfl
@[simp] theorem State.hold_codeBits (s : State) (p : Nat) : (s.hold p).codeBits = s.codeBits := rfl
@[simp] theorem State.hold_ctValid (s : State) (p : Nat) : (s.hold p).ctValid = s.ctValid := rfl
@[simp] theorem State.hold_hdrBits (s : State) (p : Nat) : (s.hold p).hdrBits = s.hdrBits := rfl
@[simp] theorem State.hold_phase (s : State) (p : Nat) : (s.hold p).phase = s.phase := rfl
@[simp] theorem State.hold_mode (s : State) (p : Nat) : (s.hold p).mode = s.mode := rfl
@[simp] theorem State.hold_cur (s : State) (p : Nat) : (s.hold p).cur = s.cur := rfl
@[simp] theorem State.hold_err (s : State) (p : Nat) : (s.hold p).err = s.err := rfl
@[simp] theorem State.hold_errCmd (s : State) (p : Nat) : (s.hold p).errCmd = s.errCmd := rfl
@[simp] theorem State.hold_bwAcc (s : State) (p : Nat) : (s.hold p).bwAcc = s.bwAcc := rfl
@[simp] theorem State.hold_bwN (s : State) (p : Nat) : (s.hold p).bwN = s.bwN := rfl
@[simp] theorem State.hold_bwTotal (s : State) (p : Nat) : (s.hold p).bwTotal = s.bwTotal := rfl
@[simp] theorem State.hold_brBuf (s : State) (p : Nat) : (s.hold p).brBuf = s.brBuf := rfl
@[simp] theorem State.hold_brLeft (s : State) (p : Nat) : (s.hold p).brLeft = s.brLeft := rfl
@[simp] theorem State.hold_brTotal (s : State) (p : Nat) : (s.hold p).brTotal = s.brTotal := rfl
@[simp] theorem State.hold_src (s : State) (p : Nat) : (s.hold p).src = s.src := rfl
@[simp] theorem State.hold_fsink (s : State) (p : Nat) : (s.hold p).fsink = s.fsink := rfl
@[simp] theorem State.hold_esink (s : State) (p : Nat) : (s.hold p).esink = s.esink := rfl
@[simp] theorem State.hold_fsrc (s : State) (p : Nat) : (s.hold p).fsrc = s.fsrc := rfl
@[simp] theorem State.hold_esrc (s : State) (p : Nat) : (s.hold p).esrc = s.esrc := rfl
@[simp] theorem State.hold_osink (s : State) (p : Nat) : (s.hold p).osink = s.osink := rfl
@[simp] theorem State.hold_raises (s : State) (p : Nat) : (s.hold p).raises = s.raises := rfl
@[simp] theorem State.hold_hostMoves (s : State) (p : Nat) : (s.hold p).hostMoves = s.hostMoves := rfl
@[simp] theorem State.hold_readData (s : State) (p : Nat) : (s.hold p).readData = s.readData := rfl
@[simp] theorem State.releaseAll_cntW (s : State) : (s.releaseAll).cntW = s.cntW := rfl
@[simp] theorem State.releaseAll_ftPres (s : State) : (s.releaseAll).ftPres = s.ftPres := rfl
@[simp] theorem State.releaseAll_ftCnt (s : State) : (s.releaseAll).ftCnt = s.ftCnt := rfl
@[simp] theorem State.releaseAll_nsyms (s : State) : (s.releaseAll).nsyms = s.nsyms := rfl
@[simp] theorem State.releaseAll_total (s : State) : (s.releaseAll).total = s.total := rfl
@[simp] theorem State.releaseAll_nodeW (s : State) : (s.releaseAll).nodeW = s.nodeW := rfl
@[simp] theorem State.releaseAll_nodeL (s : State) : (s.releaseAll).nodeL = s.nodeL := rfl
@[simp] theorem State.releaseAll_nodeR (s : State) : (s.releaseAll).nodeR = s.nodeR := rfl
@[simp] theorem State.releaseAll_nodeAct (s : State) : (s.releaseAll).nodeAct = s.nodeAct := rfl
@[simp] theorem State.releaseAll_nextId (s : State) : (s.releaseAll).nextId = s.nextId := rfl
@[simp] theorem State.releaseAll_root (s : State) : (s.releaseAll).root = s.root := rfl
@[simp] theorem State.releaseAll_treeValid (s : State) : (s.releaseAll).treeValid = s.treeValid := rfl
@[simp] theorem State.releaseAll_codeLen (s : State) : (s.releaseAll).codeLen = s.codeLen := rfl
@[simp] theorem State.releaseAll_codeBits (s : State) : (s.releaseAll).codeBits = s.codeBits := rfl
@[simp] theorem State.releaseAll_ctValid (s : State) : (s.releaseAll).ctValid = s.ctValid := rfl
@[simp] theorem State.releaseAll_hdrBits (s : State) : (s.releaseAll).hdrBits = s.hdrBits := rfl
@[simp] theorem State.releaseAll_phase (s : State) : (s.releaseAll).phase = s.phase := rfl
@[simp] theorem State.releaseAll_mode (s : State) : (s.releaseAll).mode = s.mode := rfl
@[simp] theorem State.releaseAll_cur (s : State) : (s.releaseAll).cur = s.cur := rfl
@[simp] theorem State.releaseAll_portHeld (s : State) : (s.releaseAll).portHeld = 0 := rfl
@[simp] theorem State.releaseAll_err (s : State) : (s.releaseAll).err = s.err := rfl
@[simp] theorem State.releaseAll_errCmd (s : State) : (s.releaseAll).errCmd = s.errCmd := rfl
@[simp] theorem State.releaseAll_bwAcc (s : State) : (s.releaseAll).bwAcc = s.bwAcc := rfl
@[simp] theorem State.releaseAll_bwN (s : State) : (s.releaseAll).bwN = s.bwN := rfl
@[simp] theorem State.releaseAll_bwTotal (s : State) : (s.releaseAll).bwTotal = s.bwTotal := rfl
@[simp] theorem State.releaseAll_brBuf (s : State) : (s.releaseAll).brBuf = s.brBuf := rfl
@[simp] theorem State.releaseAll_brLeft (s : State) : (s.releaseAll).brLeft = s.brLeft := rfl
@[simp] theorem State.releaseAll_brTotal (s : State) : (s.releaseAll).brTotal = s.brTotal := rfl
@[simp] theorem State.releaseAll_src (s : State) : (s.releaseAll).src = s.src := rfl
@[simp] theorem State.releaseAll_fsink (s : State) : (s.releaseAll).fsink = s.fsink := rfl
@[simp] theorem State.releaseAll_esink (s : State) : (s.releaseAll).esink = s.esink := rfl
@[simp] theorem State.releaseAll_fsrc (s : State) : (s.releaseAll).fsrc = s.fsrc := rfl
@[simp] theorem State.releaseAll_esrc (s : State) : (s.releaseAll).esrc = s.esrc := rfl
@[simp] theorem State.releaseAll_osink (s : State) : (s.releaseAll).osink = s.osink := rfl
@[simp] theorem State.releaseAll_raises (s : State) : (s.releaseAll).raises = s.raises := rfl
@[simp] theorem State.releaseAll_hostMoves (s : State) : (s.releaseAll).hostMoves = s.hostMoves := rfl
@[simp] theorem State.releaseAll_readData (s : State) : (s.releaseAll).readData = s.readData := rfl

/-! ### The contents of a held sink becoming unspecified -/

@[simp] theorem State.spoilSink_cntW (s : State) (q : SinkPort) : (s.spoilSink q).cntW = s.cntW := by unfold State.spoilSink; split <;> simp
@[simp] theorem State.spoilSink_ftPres (s : State) (q : SinkPort) : (s.spoilSink q).ftPres = s.ftPres := by unfold State.spoilSink; split <;> simp
@[simp] theorem State.spoilSink_ftCnt (s : State) (q : SinkPort) : (s.spoilSink q).ftCnt = s.ftCnt := by unfold State.spoilSink; split <;> simp
@[simp] theorem State.spoilSink_nsyms (s : State) (q : SinkPort) : (s.spoilSink q).nsyms = s.nsyms := by unfold State.spoilSink; split <;> simp
@[simp] theorem State.spoilSink_total (s : State) (q : SinkPort) : (s.spoilSink q).total = s.total := by unfold State.spoilSink; split <;> simp
@[simp] theorem State.spoilSink_nodeW (s : State) (q : SinkPort) : (s.spoilSink q).nodeW = s.nodeW := by unfold State.spoilSink; split <;> simp
@[simp] theorem State.spoilSink_nodeL (s : State) (q : SinkPort) : (s.spoilSink q).nodeL = s.nodeL := by unfold State.spoilSink; split <;> simp
@[simp] theorem State.spoilSink_nodeR (s : State) (q : SinkPort) : (s.spoilSink q).nodeR = s.nodeR := by unfold State.spoilSink; split <;> simp
@[simp] theorem State.spoilSink_nodeAct (s : State) (q : SinkPort) : (s.spoilSink q).nodeAct = s.nodeAct := by unfold State.spoilSink; split <;> simp
@[simp] theorem State.spoilSink_nextId (s : State) (q : SinkPort) : (s.spoilSink q).nextId = s.nextId := by unfold State.spoilSink; split <;> simp
@[simp] theorem State.spoilSink_root (s : State) (q : SinkPort) : (s.spoilSink q).root = s.root := by unfold State.spoilSink; split <;> simp
@[simp] theorem State.spoilSink_treeValid (s : State) (q : SinkPort) : (s.spoilSink q).treeValid = s.treeValid := by unfold State.spoilSink; split <;> simp
@[simp] theorem State.spoilSink_codeLen (s : State) (q : SinkPort) : (s.spoilSink q).codeLen = s.codeLen := by unfold State.spoilSink; split <;> simp
@[simp] theorem State.spoilSink_codeBits (s : State) (q : SinkPort) : (s.spoilSink q).codeBits = s.codeBits := by unfold State.spoilSink; split <;> simp
@[simp] theorem State.spoilSink_ctValid (s : State) (q : SinkPort) : (s.spoilSink q).ctValid = s.ctValid := by unfold State.spoilSink; split <;> simp
@[simp] theorem State.spoilSink_hdrBits (s : State) (q : SinkPort) : (s.spoilSink q).hdrBits = s.hdrBits := by unfold State.spoilSink; split <;> simp
@[simp] theorem State.spoilSink_phase (s : State) (q : SinkPort) : (s.spoilSink q).phase = s.phase := by unfold State.spoilSink; split <;> simp
@[simp] theorem State.spoilSink_mode (s : State) (q : SinkPort) : (s.spoilSink q).mode = s.mode := by unfold State.spoilSink; split <;> simp
@[simp] theorem State.spoilSink_cur (s : State) (q : SinkPort) : (s.spoilSink q).cur = s.cur := by unfold State.spoilSink; split <;> simp
@[simp] theorem State.spoilSink_portHeld (s : State) (q : SinkPort) : (s.spoilSink q).portHeld = s.portHeld := by unfold State.spoilSink; split <;> simp
@[simp] theorem State.spoilSink_err (s : State) (q : SinkPort) : (s.spoilSink q).err = s.err := by unfold State.spoilSink; split <;> simp
@[simp] theorem State.spoilSink_errCmd (s : State) (q : SinkPort) : (s.spoilSink q).errCmd = s.errCmd := by unfold State.spoilSink; split <;> simp
@[simp] theorem State.spoilSink_bwAcc (s : State) (q : SinkPort) : (s.spoilSink q).bwAcc = s.bwAcc := by unfold State.spoilSink; split <;> simp
@[simp] theorem State.spoilSink_bwN (s : State) (q : SinkPort) : (s.spoilSink q).bwN = s.bwN := by unfold State.spoilSink; split <;> simp
@[simp] theorem State.spoilSink_bwTotal (s : State) (q : SinkPort) : (s.spoilSink q).bwTotal = s.bwTotal := by unfold State.spoilSink; split <;> simp
@[simp] theorem State.spoilSink_brBuf (s : State) (q : SinkPort) : (s.spoilSink q).brBuf = s.brBuf := by unfold State.spoilSink; split <;> simp
@[simp] theorem State.spoilSink_brLeft (s : State) (q : SinkPort) : (s.spoilSink q).brLeft = s.brLeft := by unfold State.spoilSink; split <;> simp
@[simp] theorem State.spoilSink_brTotal (s : State) (q : SinkPort) : (s.spoilSink q).brTotal = s.brTotal := by unfold State.spoilSink; split <;> simp
@[simp] theorem State.spoilSink_src (s : State) (q : SinkPort) : (s.spoilSink q).src = s.src := by unfold State.spoilSink; split <;> simp
@[simp] theorem State.spoilSink_fsrc (s : State) (q : SinkPort) : (s.spoilSink q).fsrc = s.fsrc := by unfold State.spoilSink; split <;> simp
@[simp] theorem State.spoilSink_esrc (s : State) (q : SinkPort) : (s.spoilSink q).esrc = s.esrc := by unfold State.spoilSink; split <;> simp
@[simp] theorem State.spoilSink_raises (s : State) (q : SinkPort) : (s.spoilSink q).raises = s.raises := by unfold State.spoilSink; split <;> simp
@[simp] theorem State.spoilSink_hostMoves (s : State) (q : SinkPort) : (s.spoilSink q).hostMoves = s.hostMoves := by unfold State.spoilSink; split <;> simp
@[simp] theorem State.spoilSink_readData (s : State) (q : SinkPort) : (s.spoilSink q).readData = s.readData := by unfold State.spoilSink; split <;> simp

/-! ### An error raised -/

@[simp] theorem State.raiseError_cntW (s : State) (e : ErrorKind) (cmd : Byte) : (s.raiseError e cmd).cntW = s.cntW := by simp [State.raiseError]
@[simp] theorem State.raiseError_ftPres (s : State) (e : ErrorKind) (cmd : Byte) : (s.raiseError e cmd).ftPres = s.ftPres := by simp [State.raiseError]
@[simp] theorem State.raiseError_ftCnt (s : State) (e : ErrorKind) (cmd : Byte) : (s.raiseError e cmd).ftCnt = s.ftCnt := by simp [State.raiseError]
@[simp] theorem State.raiseError_nsyms (s : State) (e : ErrorKind) (cmd : Byte) : (s.raiseError e cmd).nsyms = s.nsyms := by simp [State.raiseError]
@[simp] theorem State.raiseError_total (s : State) (e : ErrorKind) (cmd : Byte) : (s.raiseError e cmd).total = s.total := by simp [State.raiseError]
@[simp] theorem State.raiseError_nodeW (s : State) (e : ErrorKind) (cmd : Byte) : (s.raiseError e cmd).nodeW = s.nodeW := by simp [State.raiseError]
@[simp] theorem State.raiseError_nodeL (s : State) (e : ErrorKind) (cmd : Byte) : (s.raiseError e cmd).nodeL = s.nodeL := by simp [State.raiseError]
@[simp] theorem State.raiseError_nodeR (s : State) (e : ErrorKind) (cmd : Byte) : (s.raiseError e cmd).nodeR = s.nodeR := by simp [State.raiseError]
@[simp] theorem State.raiseError_nodeAct (s : State) (e : ErrorKind) (cmd : Byte) : (s.raiseError e cmd).nodeAct = s.nodeAct := by simp [State.raiseError]
@[simp] theorem State.raiseError_nextId (s : State) (e : ErrorKind) (cmd : Byte) : (s.raiseError e cmd).nextId = s.nextId := by simp [State.raiseError]
@[simp] theorem State.raiseError_root (s : State) (e : ErrorKind) (cmd : Byte) : (s.raiseError e cmd).root = s.root := by simp [State.raiseError]
@[simp] theorem State.raiseError_treeValid (s : State) (e : ErrorKind) (cmd : Byte) : (s.raiseError e cmd).treeValid = s.treeValid := by simp [State.raiseError]
@[simp] theorem State.raiseError_codeLen (s : State) (e : ErrorKind) (cmd : Byte) : (s.raiseError e cmd).codeLen = s.codeLen := by simp [State.raiseError]
@[simp] theorem State.raiseError_codeBits (s : State) (e : ErrorKind) (cmd : Byte) : (s.raiseError e cmd).codeBits = s.codeBits := by simp [State.raiseError]
@[simp] theorem State.raiseError_ctValid (s : State) (e : ErrorKind) (cmd : Byte) : (s.raiseError e cmd).ctValid = s.ctValid := by simp [State.raiseError]
@[simp] theorem State.raiseError_hdrBits (s : State) (e : ErrorKind) (cmd : Byte) : (s.raiseError e cmd).hdrBits = s.hdrBits := by simp [State.raiseError]
@[simp] theorem State.raiseError_phase (s : State) (e : ErrorKind) (cmd : Byte) : (s.raiseError e cmd).phase = .fault := by simp [State.raiseError]
@[simp] theorem State.raiseError_mode (s : State) (e : ErrorKind) (cmd : Byte) : (s.raiseError e cmd).mode = s.mode := by simp [State.raiseError]
@[simp] theorem State.raiseError_cur (s : State) (e : ErrorKind) (cmd : Byte) : (s.raiseError e cmd).cur = s.cur := by simp [State.raiseError]
@[simp] theorem State.raiseError_portHeld (s : State) (e : ErrorKind) (cmd : Byte) : (s.raiseError e cmd).portHeld = 0 := by simp [State.raiseError]
@[simp] theorem State.raiseError_err (s : State) (e : ErrorKind) (cmd : Byte) : (s.raiseError e cmd).err = some e := by simp [State.raiseError]
@[simp] theorem State.raiseError_errCmd (s : State) (e : ErrorKind) (cmd : Byte) : (s.raiseError e cmd).errCmd = cmd := by simp [State.raiseError]
@[simp] theorem State.raiseError_bwAcc (s : State) (e : ErrorKind) (cmd : Byte) : (s.raiseError e cmd).bwAcc = s.bwAcc := by simp [State.raiseError]
@[simp] theorem State.raiseError_bwN (s : State) (e : ErrorKind) (cmd : Byte) : (s.raiseError e cmd).bwN = s.bwN := by simp [State.raiseError]
@[simp] theorem State.raiseError_bwTotal (s : State) (e : ErrorKind) (cmd : Byte) : (s.raiseError e cmd).bwTotal = s.bwTotal := by simp [State.raiseError]
@[simp] theorem State.raiseError_brBuf (s : State) (e : ErrorKind) (cmd : Byte) : (s.raiseError e cmd).brBuf = s.brBuf := by simp [State.raiseError]
@[simp] theorem State.raiseError_brLeft (s : State) (e : ErrorKind) (cmd : Byte) : (s.raiseError e cmd).brLeft = s.brLeft := by simp [State.raiseError]
@[simp] theorem State.raiseError_brTotal (s : State) (e : ErrorKind) (cmd : Byte) : (s.raiseError e cmd).brTotal = s.brTotal := by simp [State.raiseError]
@[simp] theorem State.raiseError_src (s : State) (e : ErrorKind) (cmd : Byte) : (s.raiseError e cmd).src = s.src := by simp [State.raiseError]
@[simp] theorem State.raiseError_fsrc (s : State) (e : ErrorKind) (cmd : Byte) : (s.raiseError e cmd).fsrc = s.fsrc := by simp [State.raiseError]
@[simp] theorem State.raiseError_esrc (s : State) (e : ErrorKind) (cmd : Byte) : (s.raiseError e cmd).esrc = s.esrc := by simp [State.raiseError]
@[simp] theorem State.raiseError_raises (s : State) (e : ErrorKind) (cmd : Byte) : (s.raiseError e cmd).raises = s.raises + 1 := by simp [State.raiseError]
@[simp] theorem State.raiseError_hostMoves (s : State) (e : ErrorKind) (cmd : Byte) : (s.raiseError e cmd).hostMoves = s.hostMoves := by simp [State.raiseError]
@[simp] theorem State.raiseError_readData (s : State) (e : ErrorKind) (cmd : Byte) : (s.raiseError e cmd).readData = s.readData := by simp [State.raiseError]

/-! ### The core cleared -/

@[simp] theorem State.cleared_cntW (s : State) : (s.cleared).cntW = s.cntW := rfl
@[simp] theorem State.cleared_ftPres (s : State) : (s.cleared).ftPres = State.reset.ftPres := rfl
@[simp] theorem State.cleared_ftCnt (s : State) : (s.cleared).ftCnt = State.reset.ftCnt := rfl
@[simp] theorem State.cleared_nsyms (s : State) : (s.cleared).nsyms = State.reset.nsyms := rfl
@[simp] theorem State.cleared_total (s : State) : (s.cleared).total = State.reset.total := rfl
@[simp] theorem State.cleared_nodeW (s : State) : (s.cleared).nodeW = State.reset.nodeW := rfl
@[simp] theorem State.cleared_nodeL (s : State) : (s.cleared).nodeL = State.reset.nodeL := rfl
@[simp] theorem State.cleared_nodeR (s : State) : (s.cleared).nodeR = State.reset.nodeR := rfl
@[simp] theorem State.cleared_nodeAct (s : State) : (s.cleared).nodeAct = State.reset.nodeAct := rfl
@[simp] theorem State.cleared_nextId (s : State) : (s.cleared).nextId = State.reset.nextId := rfl
@[simp] theorem State.cleared_root (s : State) : (s.cleared).root = State.reset.root := rfl
@[simp] theorem State.cleared_treeValid (s : State) : (s.cleared).treeValid = State.reset.treeValid := rfl
@[simp] theorem State.cleared_codeLen (s : State) : (s.cleared).codeLen = State.reset.codeLen := rfl
@[simp] theorem State.cleared_codeBits (s : State) : (s.cleared).codeBits = State.reset.codeBits := rfl
@[simp] theorem State.cleared_ctValid (s : State) : (s.cleared).ctValid = State.reset.ctValid := rfl
@[simp] theorem State.cleared_hdrBits (s : State) : (s.cleared).hdrBits = State.reset.hdrBits := rfl
@[simp] theorem State.cleared_phase (s : State) : (s.cleared).phase = State.reset.phase := rfl
@[simp] theorem State.cleared_mode (s : State) : (s.cleared).mode = State.reset.mode := rfl
@[simp] theorem State.cleared_cur (s : State) : (s.cleared).cur = State.reset.cur := rfl
@[simp] theorem State.cleared_portHeld (s : State) : (s.cleared).portHeld = State.reset.portHeld := rfl
@[simp] theorem State.cleared_err (s : State) : (s.cleared).err = State.reset.err := rfl
@[simp] theorem State.cleared_errCmd (s : State) : (s.cleared).errCmd = State.reset.errCmd := rfl
@[simp] theorem State.cleared_bwAcc (s : State) : (s.cleared).bwAcc = State.reset.bwAcc := rfl
@[simp] theorem State.cleared_bwN (s : State) : (s.cleared).bwN = State.reset.bwN := rfl
@[simp] theorem State.cleared_bwTotal (s : State) : (s.cleared).bwTotal = State.reset.bwTotal := rfl
@[simp] theorem State.cleared_brBuf (s : State) : (s.cleared).brBuf = State.reset.brBuf := rfl
@[simp] theorem State.cleared_brLeft (s : State) : (s.cleared).brLeft = State.reset.brLeft := rfl
@[simp] theorem State.cleared_brTotal (s : State) : (s.cleared).brTotal = State.reset.brTotal := rfl
@[simp] theorem State.cleared_src (s : State) : (s.cleared).src = s.src := rfl
@[simp] theorem State.cleared_fsink (s : State) : (s.cleared).fsink = s.fsink := rfl
@[simp] theorem State.cleared_esink (s : State) : (s.cleared).esink = s.esink := rfl
@[simp] theorem State.cleared_fsrc (s : State) : (s.cleared).fsrc = s.fsrc := rfl
@[simp] theorem State.cleared_esrc (s : State) : (s.cleared).esrc = s.esrc := rfl
@[simp] theorem State.cleared_osink (s : State) : (s.cleared).osink = s.osink := rfl
@[simp] theorem State.cleared_raises (s : State) : (s.cleared).raises = s.raises := rfl
@[simp] theorem State.cleared_hostMoves (s : State) : (s.cleared).hostMoves = s.hostMoves := rfl
@[simp] theorem State.cleared_readData (s : State) : (s.cleared).readData = s.readData := rfl

/-! ### The bit writer and the bit reader started again -/

@[simp] theorem State.resetBW_cntW (s : State) : (s.resetBW).cntW = s.cntW := rfl
@[simp] theorem State.resetBW_ftPres (s : State) : (s.resetBW).ftPres = s.ftPres := rfl
@[simp] theorem State.resetBW_ftCnt (s : State) : (s.resetBW).ftCnt = s.ftCnt := rfl
@[simp] theorem State.resetBW_nsyms (s : State) : (s.resetBW).nsyms = s.nsyms := rfl
@[simp] theorem State.resetBW_total (s : State) : (s.resetBW).total = s.total := rfl
@[simp] theorem State.resetBW_nodeW (s : State) : (s.resetBW).nodeW = s.nodeW := rfl
@[simp] theorem State.resetBW_nodeL (s : State) : (s.resetBW).nodeL = s.nodeL := rfl
@[simp] theorem State.resetBW_nodeR (s : State) : (s.resetBW).nodeR = s.nodeR := rfl
@[simp] theorem State.resetBW_nodeAct (s : State) : (s.resetBW).nodeAct = s.nodeAct := rfl
@[simp] theorem State.resetBW_nextId (s : State) : (s.resetBW).nextId = s.nextId := rfl
@[simp] theorem State.resetBW_root (s : State) : (s.resetBW).root = s.root := rfl
@[simp] theorem State.resetBW_treeValid (s : State) : (s.resetBW).treeValid = s.treeValid := rfl
@[simp] theorem State.resetBW_codeLen (s : State) : (s.resetBW).codeLen = s.codeLen := rfl
@[simp] theorem State.resetBW_codeBits (s : State) : (s.resetBW).codeBits = s.codeBits := rfl
@[simp] theorem State.resetBW_ctValid (s : State) : (s.resetBW).ctValid = s.ctValid := rfl
@[simp] theorem State.resetBW_hdrBits (s : State) : (s.resetBW).hdrBits = s.hdrBits := rfl
@[simp] theorem State.resetBW_phase (s : State) : (s.resetBW).phase = s.phase := rfl
@[simp] theorem State.resetBW_mode (s : State) : (s.resetBW).mode = s.mode := rfl
@[simp] theorem State.resetBW_cur (s : State) : (s.resetBW).cur = s.cur := rfl
@[simp] theorem State.resetBW_portHeld (s : State) : (s.resetBW).portHeld = s.portHeld := rfl
@[simp] theorem State.resetBW_err (s : State) : (s.resetBW).err = s.err := rfl
@[simp] theorem State.resetBW_errCmd (s : State) : (s.resetBW).errCmd = s.errCmd := rfl
@[simp] theorem State.resetBW_bwAcc (s : State) : (s.resetBW).bwAcc = 0 := rfl
@[simp] theorem State.resetBW_bwN (s : State) : (s.resetBW).bwN = 0 := rfl
@[simp] theorem State.resetBW_bwTotal (s : State) : (s.resetBW).bwTotal = 0 := rfl
@[simp] theorem State.resetBW_brBuf (s : State) : (s.resetBW).brBuf = s.brBuf := rfl
@[simp] theorem State.resetBW_brLeft (s : State) : (s.resetBW).brLeft = s.brLeft := rfl
@[simp] theorem State.resetBW_brTotal (s : State) : (s.resetBW).brTotal = s.brTotal := rfl
@[simp] theorem State.resetBW_src (s : State) : (s.resetBW).src = s.src := rfl
@[simp] theorem State.resetBW_fsink (s : State) : (s.resetBW).fsink = s.fsink := rfl
@[simp] theorem State.resetBW_esink (s : State) : (s.resetBW).esink = s.esink := rfl
@[simp] theorem State.resetBW_fsrc (s : State) : (s.resetBW).fsrc = s.fsrc := rfl
@[simp] theorem State.resetBW_esrc (s : State) : (s.resetBW).esrc = s.esrc := rfl
@[simp] theorem State.resetBW_osink (s : State) : (s.resetBW).osink = s.osink := rfl
@[simp] theorem State.resetBW_raises (s : State) : (s.resetBW).raises = s.raises := rfl
@[simp] theorem State.resetBW_hostMoves (s : State) : (s.resetBW).hostMoves = s.hostMoves := rfl
@[simp] theorem State.resetBW_readData (s : State) : (s.resetBW).readData = s.readData := rfl
@[simp] theorem State.resetBR_cntW (s : State) : (s.resetBR).cntW = s.cntW := rfl
@[simp] theorem State.resetBR_ftPres (s : State) : (s.resetBR).ftPres = s.ftPres := rfl
@[simp] theorem State.resetBR_ftCnt (s : State) : (s.resetBR).ftCnt = s.ftCnt := rfl
@[simp] theorem State.resetBR_nsyms (s : State) : (s.resetBR).nsyms = s.nsyms := rfl
@[simp] theorem State.resetBR_total (s : State) : (s.resetBR).total = s.total := rfl
@[simp] theorem State.resetBR_nodeW (s : State) : (s.resetBR).nodeW = s.nodeW := rfl
@[simp] theorem State.resetBR_nodeL (s : State) : (s.resetBR).nodeL = s.nodeL := rfl
@[simp] theorem State.resetBR_nodeR (s : State) : (s.resetBR).nodeR = s.nodeR := rfl
@[simp] theorem State.resetBR_nodeAct (s : State) : (s.resetBR).nodeAct = s.nodeAct := rfl
@[simp] theorem State.resetBR_nextId (s : State) : (s.resetBR).nextId = s.nextId := rfl
@[simp] theorem State.resetBR_root (s : State) : (s.resetBR).root = s.root := rfl
@[simp] theorem State.resetBR_treeValid (s : State) : (s.resetBR).treeValid = s.treeValid := rfl
@[simp] theorem State.resetBR_codeLen (s : State) : (s.resetBR).codeLen = s.codeLen := rfl
@[simp] theorem State.resetBR_codeBits (s : State) : (s.resetBR).codeBits = s.codeBits := rfl
@[simp] theorem State.resetBR_ctValid (s : State) : (s.resetBR).ctValid = s.ctValid := rfl
@[simp] theorem State.resetBR_hdrBits (s : State) : (s.resetBR).hdrBits = s.hdrBits := rfl
@[simp] theorem State.resetBR_phase (s : State) : (s.resetBR).phase = s.phase := rfl
@[simp] theorem State.resetBR_mode (s : State) : (s.resetBR).mode = s.mode := rfl
@[simp] theorem State.resetBR_cur (s : State) : (s.resetBR).cur = s.cur := rfl
@[simp] theorem State.resetBR_portHeld (s : State) : (s.resetBR).portHeld = s.portHeld := rfl
@[simp] theorem State.resetBR_err (s : State) : (s.resetBR).err = s.err := rfl
@[simp] theorem State.resetBR_errCmd (s : State) : (s.resetBR).errCmd = s.errCmd := rfl
@[simp] theorem State.resetBR_bwAcc (s : State) : (s.resetBR).bwAcc = s.bwAcc := rfl
@[simp] theorem State.resetBR_bwN (s : State) : (s.resetBR).bwN = s.bwN := rfl
@[simp] theorem State.resetBR_bwTotal (s : State) : (s.resetBR).bwTotal = s.bwTotal := rfl
@[simp] theorem State.resetBR_brBuf (s : State) : (s.resetBR).brBuf = 0 := rfl
@[simp] theorem State.resetBR_brLeft (s : State) : (s.resetBR).brLeft = 0 := rfl
@[simp] theorem State.resetBR_brTotal (s : State) : (s.resetBR).brTotal = 0 := rfl
@[simp] theorem State.resetBR_src (s : State) : (s.resetBR).src = s.src := rfl
@[simp] theorem State.resetBR_fsink (s : State) : (s.resetBR).fsink = s.fsink := rfl
@[simp] theorem State.resetBR_esink (s : State) : (s.resetBR).esink = s.esink := rfl
@[simp] theorem State.resetBR_fsrc (s : State) : (s.resetBR).fsrc = s.fsrc := rfl
@[simp] theorem State.resetBR_esrc (s : State) : (s.resetBR).esrc = s.esrc := rfl
@[simp] theorem State.resetBR_osink (s : State) : (s.resetBR).osink = s.osink := rfl
@[simp] theorem State.resetBR_raises (s : State) : (s.resetBR).raises = s.raises := rfl
@[simp] theorem State.resetBR_hostMoves (s : State) : (s.resetBR).hostMoves = s.hostMoves := rfl
@[simp] theorem State.resetBR_readData (s : State) : (s.resetBR).readData = s.readData := rfl

/-! ### The working collection seeded, a node created, a code set -/

@[simp] theorem State.seeded_cntW (s : State) : (s.seeded).cntW = s.cntW := by unfold State.seeded; rfl
@[simp] theorem State.seeded_ftPres (s : State) : (s.seeded).ftPres = s.ftPres := by unfold State.seeded; rfl
@[simp] theorem State.seeded_ftCnt (s : State) : (s.seeded).ftCnt = s.ftCnt := by unfold State.seeded; rfl
@[simp] theorem State.seeded_nsyms (s : State) : (s.seeded).nsyms = s.nsyms := by unfold State.seeded; rfl
@[simp] theorem State.seeded_total (s : State) : (s.seeded).total = s.total := by unfold State.seeded; rfl
@[simp] theorem State.seeded_nodeW (s : State) : (s.seeded).nodeW = tabulate 511 s.seedWeight := by unfold State.seeded; rfl
@[simp] theorem State.seeded_nodeL (s : State) : (s.seeded).nodeL = s.nodeL := by unfold State.seeded; rfl
@[simp] theorem State.seeded_nodeR (s : State) : (s.seeded).nodeR = s.nodeR := by unfold State.seeded; rfl
@[simp] theorem State.seeded_nodeAct (s : State) : (s.seeded).nodeAct = s.seedActive := by unfold State.seeded; rfl
@[simp] theorem State.seeded_nextId (s : State) : (s.seeded).nextId = 256 := by unfold State.seeded; rfl
@[simp] theorem State.seeded_root (s : State) : (s.seeded).root = s.root := by unfold State.seeded; rfl
@[simp] theorem State.seeded_treeValid (s : State) : (s.seeded).treeValid = s.treeValid := by unfold State.seeded; rfl
@[simp] theorem State.seeded_codeLen (s : State) : (s.seeded).codeLen = s.codeLen := by unfold State.seeded; rfl
@[simp] theorem State.seeded_codeBits (s : State) : (s.seeded).codeBits = s.codeBits := by unfold State.seeded; rfl
@[simp] theorem State.seeded_ctValid (s : State) : (s.seeded).ctValid = s.ctValid := by unfold State.seeded; rfl
@[simp] theorem State.seeded_hdrBits (s : State) : (s.seeded).hdrBits = s.hdrBits := by unfold State.seeded; rfl
@[simp] theorem State.seeded_phase (s : State) : (s.seeded).phase = s.phase := by unfold State.seeded; rfl
@[simp] theorem State.seeded_mode (s : State) : (s.seeded).mode = s.mode := by unfold State.seeded; rfl
@[simp] theorem State.seeded_cur (s : State) : (s.seeded).cur = s.cur := by unfold State.seeded; rfl
@[simp] theorem State.seeded_portHeld (s : State) : (s.seeded).portHeld = s.portHeld := by unfold State.seeded; rfl
@[simp] theorem State.seeded_err (s : State) : (s.seeded).err = s.err := by unfold State.seeded; rfl
@[simp] theorem State.seeded_errCmd (s : State) : (s.seeded).errCmd = s.errCmd := by unfold State.seeded; rfl
@[simp] theorem State.seeded_bwAcc (s : State) : (s.seeded).bwAcc = s.bwAcc := by unfold State.seeded; rfl
@[simp] theorem State.seeded_bwN (s : State) : (s.seeded).bwN = s.bwN := by unfold State.seeded; rfl
@[simp] theorem State.seeded_bwTotal (s : State) : (s.seeded).bwTotal = s.bwTotal := by unfold State.seeded; rfl
@[simp] theorem State.seeded_brBuf (s : State) : (s.seeded).brBuf = s.brBuf := by unfold State.seeded; rfl
@[simp] theorem State.seeded_brLeft (s : State) : (s.seeded).brLeft = s.brLeft := by unfold State.seeded; rfl
@[simp] theorem State.seeded_brTotal (s : State) : (s.seeded).brTotal = s.brTotal := by unfold State.seeded; rfl
@[simp] theorem State.seeded_src (s : State) : (s.seeded).src = s.src := by unfold State.seeded; rfl
@[simp] theorem State.seeded_fsink (s : State) : (s.seeded).fsink = s.fsink := by unfold State.seeded; rfl
@[simp] theorem State.seeded_esink (s : State) : (s.seeded).esink = s.esink := by unfold State.seeded; rfl
@[simp] theorem State.seeded_fsrc (s : State) : (s.seeded).fsrc = s.fsrc := by unfold State.seeded; rfl
@[simp] theorem State.seeded_esrc (s : State) : (s.seeded).esrc = s.esrc := by unfold State.seeded; rfl
@[simp] theorem State.seeded_osink (s : State) : (s.seeded).osink = s.osink := by unfold State.seeded; rfl
@[simp] theorem State.seeded_raises (s : State) : (s.seeded).raises = s.raises := by unfold State.seeded; rfl
@[simp] theorem State.seeded_hostMoves (s : State) : (s.seeded).hostMoves = s.hostMoves := by unfold State.seeded; rfl
@[simp] theorem State.seeded_readData (s : State) : (s.seeded).readData = s.readData := by unfold State.seeded; rfl
@[simp] theorem State.mergeInto_cntW (s : State) (k : Fin 255) (a b : NodeId) : (s.mergeInto k a b).cntW = s.cntW := rfl
@[simp] theorem State.mergeInto_ftPres (s : State) (k : Fin 255) (a b : NodeId) : (s.mergeInto k a b).ftPres = s.ftPres := rfl
@[simp] theorem State.mergeInto_ftCnt (s : State) (k : Fin 255) (a b : NodeId) : (s.mergeInto k a b).ftCnt = s.ftCnt := rfl
@[simp] theorem State.mergeInto_nsyms (s : State) (k : Fin 255) (a b : NodeId) : (s.mergeInto k a b).nsyms = s.nsyms := rfl
@[simp] theorem State.mergeInto_total (s : State) (k : Fin 255) (a b : NodeId) : (s.mergeInto k a b).total = s.total := rfl
@[simp] theorem State.mergeInto_nodeL (s : State) (k : Fin 255) (a b : NodeId) : (s.mergeInto k a b).nodeL = s.nodeL.set k.val a := rfl
@[simp] theorem State.mergeInto_nodeR (s : State) (k : Fin 255) (a b : NodeId) : (s.mergeInto k a b).nodeR = s.nodeR.set k.val b := rfl
@[simp] theorem State.mergeInto_nextId (s : State) (k : Fin 255) (a b : NodeId) : (s.mergeInto k a b).nextId = s.nextId + 1 := rfl
@[simp] theorem State.mergeInto_root (s : State) (k : Fin 255) (a b : NodeId) : (s.mergeInto k a b).root = s.root := rfl
@[simp] theorem State.mergeInto_treeValid (s : State) (k : Fin 255) (a b : NodeId) : (s.mergeInto k a b).treeValid = s.treeValid := rfl
@[simp] theorem State.mergeInto_codeLen (s : State) (k : Fin 255) (a b : NodeId) : (s.mergeInto k a b).codeLen = s.codeLen := rfl
@[simp] theorem State.mergeInto_codeBits (s : State) (k : Fin 255) (a b : NodeId) : (s.mergeInto k a b).codeBits = s.codeBits := rfl
@[simp] theorem State.mergeInto_ctValid (s : State) (k : Fin 255) (a b : NodeId) : (s.mergeInto k a b).ctValid = s.ctValid := rfl
@[simp] theorem State.mergeInto_hdrBits (s : State) (k : Fin 255) (a b : NodeId) : (s.mergeInto k a b).hdrBits = s.hdrBits := rfl
@[simp] theorem State.mergeInto_phase (s : State) (k : Fin 255) (a b : NodeId) : (s.mergeInto k a b).phase = s.phase := rfl
@[simp] theorem State.mergeInto_mode (s : State) (k : Fin 255) (a b : NodeId) : (s.mergeInto k a b).mode = s.mode := rfl
@[simp] theorem State.mergeInto_cur (s : State) (k : Fin 255) (a b : NodeId) : (s.mergeInto k a b).cur = s.cur := rfl
@[simp] theorem State.mergeInto_portHeld (s : State) (k : Fin 255) (a b : NodeId) : (s.mergeInto k a b).portHeld = s.portHeld := rfl
@[simp] theorem State.mergeInto_err (s : State) (k : Fin 255) (a b : NodeId) : (s.mergeInto k a b).err = s.err := rfl
@[simp] theorem State.mergeInto_errCmd (s : State) (k : Fin 255) (a b : NodeId) : (s.mergeInto k a b).errCmd = s.errCmd := rfl
@[simp] theorem State.mergeInto_bwAcc (s : State) (k : Fin 255) (a b : NodeId) : (s.mergeInto k a b).bwAcc = s.bwAcc := rfl
@[simp] theorem State.mergeInto_bwN (s : State) (k : Fin 255) (a b : NodeId) : (s.mergeInto k a b).bwN = s.bwN := rfl
@[simp] theorem State.mergeInto_bwTotal (s : State) (k : Fin 255) (a b : NodeId) : (s.mergeInto k a b).bwTotal = s.bwTotal := rfl
@[simp] theorem State.mergeInto_brBuf (s : State) (k : Fin 255) (a b : NodeId) : (s.mergeInto k a b).brBuf = s.brBuf := rfl
@[simp] theorem State.mergeInto_brLeft (s : State) (k : Fin 255) (a b : NodeId) : (s.mergeInto k a b).brLeft = s.brLeft := rfl
@[simp] theorem State.mergeInto_brTotal (s : State) (k : Fin 255) (a b : NodeId) : (s.mergeInto k a b).brTotal = s.brTotal := rfl
@[simp] theorem State.mergeInto_src (s : State) (k : Fin 255) (a b : NodeId) : (s.mergeInto k a b).src = s.src := rfl
@[simp] theorem State.mergeInto_fsink (s : State) (k : Fin 255) (a b : NodeId) : (s.mergeInto k a b).fsink = s.fsink := rfl
@[simp] theorem State.mergeInto_esink (s : State) (k : Fin 255) (a b : NodeId) : (s.mergeInto k a b).esink = s.esink := rfl
@[simp] theorem State.mergeInto_fsrc (s : State) (k : Fin 255) (a b : NodeId) : (s.mergeInto k a b).fsrc = s.fsrc := rfl
@[simp] theorem State.mergeInto_esrc (s : State) (k : Fin 255) (a b : NodeId) : (s.mergeInto k a b).esrc = s.esrc := rfl
@[simp] theorem State.mergeInto_osink (s : State) (k : Fin 255) (a b : NodeId) : (s.mergeInto k a b).osink = s.osink := rfl
@[simp] theorem State.mergeInto_raises (s : State) (k : Fin 255) (a b : NodeId) : (s.mergeInto k a b).raises = s.raises := rfl
@[simp] theorem State.mergeInto_hostMoves (s : State) (k : Fin 255) (a b : NodeId) : (s.mergeInto k a b).hostMoves = s.hostMoves := rfl
@[simp] theorem State.mergeInto_readData (s : State) (k : Fin 255) (a b : NodeId) : (s.mergeInto k a b).readData = s.readData := rfl
@[simp] theorem State.setCode_cntW (s : State) (b : Symbol) (p : List Bit) : (s.setCode b p).cntW = s.cntW := rfl
@[simp] theorem State.setCode_ftPres (s : State) (b : Symbol) (p : List Bit) : (s.setCode b p).ftPres = s.ftPres := rfl
@[simp] theorem State.setCode_ftCnt (s : State) (b : Symbol) (p : List Bit) : (s.setCode b p).ftCnt = s.ftCnt := rfl
@[simp] theorem State.setCode_nsyms (s : State) (b : Symbol) (p : List Bit) : (s.setCode b p).nsyms = s.nsyms := rfl
@[simp] theorem State.setCode_total (s : State) (b : Symbol) (p : List Bit) : (s.setCode b p).total = s.total := rfl
@[simp] theorem State.setCode_nodeW (s : State) (b : Symbol) (p : List Bit) : (s.setCode b p).nodeW = s.nodeW := rfl
@[simp] theorem State.setCode_nodeL (s : State) (b : Symbol) (p : List Bit) : (s.setCode b p).nodeL = s.nodeL := rfl
@[simp] theorem State.setCode_nodeR (s : State) (b : Symbol) (p : List Bit) : (s.setCode b p).nodeR = s.nodeR := rfl
@[simp] theorem State.setCode_nodeAct (s : State) (b : Symbol) (p : List Bit) : (s.setCode b p).nodeAct = s.nodeAct := rfl
@[simp] theorem State.setCode_nextId (s : State) (b : Symbol) (p : List Bit) : (s.setCode b p).nextId = s.nextId := rfl
@[simp] theorem State.setCode_root (s : State) (b : Symbol) (p : List Bit) : (s.setCode b p).root = s.root := rfl
@[simp] theorem State.setCode_treeValid (s : State) (b : Symbol) (p : List Bit) : (s.setCode b p).treeValid = s.treeValid := rfl
@[simp] theorem State.setCode_codeLen (s : State) (b : Symbol) (p : List Bit) : (s.setCode b p).codeLen = putSym s.codeLen b (BitVec.ofNat 8 p.length) := rfl
@[simp] theorem State.setCode_codeBits (s : State) (b : Symbol) (p : List Bit) : (s.setCode b p).codeBits = putSym s.codeBits b (placeCode 0 p (atSym s.codeBits b)) := rfl
@[simp] theorem State.setCode_ctValid (s : State) (b : Symbol) (p : List Bit) : (s.setCode b p).ctValid = s.ctValid := rfl
@[simp] theorem State.setCode_hdrBits (s : State) (b : Symbol) (p : List Bit) : (s.setCode b p).hdrBits = s.hdrBits := rfl
@[simp] theorem State.setCode_phase (s : State) (b : Symbol) (p : List Bit) : (s.setCode b p).phase = s.phase := rfl
@[simp] theorem State.setCode_mode (s : State) (b : Symbol) (p : List Bit) : (s.setCode b p).mode = s.mode := rfl
@[simp] theorem State.setCode_cur (s : State) (b : Symbol) (p : List Bit) : (s.setCode b p).cur = s.cur := rfl
@[simp] theorem State.setCode_portHeld (s : State) (b : Symbol) (p : List Bit) : (s.setCode b p).portHeld = s.portHeld := rfl
@[simp] theorem State.setCode_err (s : State) (b : Symbol) (p : List Bit) : (s.setCode b p).err = s.err := rfl
@[simp] theorem State.setCode_errCmd (s : State) (b : Symbol) (p : List Bit) : (s.setCode b p).errCmd = s.errCmd := rfl
@[simp] theorem State.setCode_bwAcc (s : State) (b : Symbol) (p : List Bit) : (s.setCode b p).bwAcc = s.bwAcc := rfl
@[simp] theorem State.setCode_bwN (s : State) (b : Symbol) (p : List Bit) : (s.setCode b p).bwN = s.bwN := rfl
@[simp] theorem State.setCode_bwTotal (s : State) (b : Symbol) (p : List Bit) : (s.setCode b p).bwTotal = s.bwTotal := rfl
@[simp] theorem State.setCode_brBuf (s : State) (b : Symbol) (p : List Bit) : (s.setCode b p).brBuf = s.brBuf := rfl
@[simp] theorem State.setCode_brLeft (s : State) (b : Symbol) (p : List Bit) : (s.setCode b p).brLeft = s.brLeft := rfl
@[simp] theorem State.setCode_brTotal (s : State) (b : Symbol) (p : List Bit) : (s.setCode b p).brTotal = s.brTotal := rfl
@[simp] theorem State.setCode_src (s : State) (b : Symbol) (p : List Bit) : (s.setCode b p).src = s.src := rfl
@[simp] theorem State.setCode_fsink (s : State) (b : Symbol) (p : List Bit) : (s.setCode b p).fsink = s.fsink := rfl
@[simp] theorem State.setCode_esink (s : State) (b : Symbol) (p : List Bit) : (s.setCode b p).esink = s.esink := rfl
@[simp] theorem State.setCode_fsrc (s : State) (b : Symbol) (p : List Bit) : (s.setCode b p).fsrc = s.fsrc := rfl
@[simp] theorem State.setCode_esrc (s : State) (b : Symbol) (p : List Bit) : (s.setCode b p).esrc = s.esrc := rfl
@[simp] theorem State.setCode_osink (s : State) (b : Symbol) (p : List Bit) : (s.setCode b p).osink = s.osink := rfl
@[simp] theorem State.setCode_raises (s : State) (b : Symbol) (p : List Bit) : (s.setCode b p).raises = s.raises := rfl
@[simp] theorem State.setCode_hostMoves (s : State) (b : Symbol) (p : List Bit) : (s.setCode b p).hostMoves = s.hostMoves := rfl
@[simp] theorem State.setCode_readData (s : State) (b : Symbol) (p : List Bit) : (s.setCode b p).readData = s.readData := rfl
@[simp] theorem State.deactivate_cntW (s : State) (m : NodeId) : (s.deactivate m).cntW = s.cntW := rfl
@[simp] theorem State.deactivate_ftPres (s : State) (m : NodeId) : (s.deactivate m).ftPres = s.ftPres := rfl
@[simp] theorem State.deactivate_ftCnt (s : State) (m : NodeId) : (s.deactivate m).ftCnt = s.ftCnt := rfl
@[simp] theorem State.deactivate_nsyms (s : State) (m : NodeId) : (s.deactivate m).nsyms = s.nsyms := rfl
@[simp] theorem State.deactivate_total (s : State) (m : NodeId) : (s.deactivate m).total = s.total := rfl
@[simp] theorem State.deactivate_nodeW (s : State) (m : NodeId) : (s.deactivate m).nodeW = s.nodeW := rfl
@[simp] theorem State.deactivate_nodeL (s : State) (m : NodeId) : (s.deactivate m).nodeL = s.nodeL := rfl
@[simp] theorem State.deactivate_nodeR (s : State) (m : NodeId) : (s.deactivate m).nodeR = s.nodeR := rfl
@[simp] theorem State.deactivate_nodeAct (s : State) (m : NodeId) : (s.deactivate m).nodeAct = s.nodeAct.set m.val false := rfl
@[simp] theorem State.deactivate_nextId (s : State) (m : NodeId) : (s.deactivate m).nextId = s.nextId := rfl
@[simp] theorem State.deactivate_root (s : State) (m : NodeId) : (s.deactivate m).root = s.root := rfl
@[simp] theorem State.deactivate_treeValid (s : State) (m : NodeId) : (s.deactivate m).treeValid = s.treeValid := rfl
@[simp] theorem State.deactivate_codeLen (s : State) (m : NodeId) : (s.deactivate m).codeLen = s.codeLen := rfl
@[simp] theorem State.deactivate_codeBits (s : State) (m : NodeId) : (s.deactivate m).codeBits = s.codeBits := rfl
@[simp] theorem State.deactivate_ctValid (s : State) (m : NodeId) : (s.deactivate m).ctValid = s.ctValid := rfl
@[simp] theorem State.deactivate_hdrBits (s : State) (m : NodeId) : (s.deactivate m).hdrBits = s.hdrBits := rfl
@[simp] theorem State.deactivate_phase (s : State) (m : NodeId) : (s.deactivate m).phase = s.phase := rfl
@[simp] theorem State.deactivate_mode (s : State) (m : NodeId) : (s.deactivate m).mode = s.mode := rfl
@[simp] theorem State.deactivate_cur (s : State) (m : NodeId) : (s.deactivate m).cur = s.cur := rfl
@[simp] theorem State.deactivate_portHeld (s : State) (m : NodeId) : (s.deactivate m).portHeld = s.portHeld := rfl
@[simp] theorem State.deactivate_err (s : State) (m : NodeId) : (s.deactivate m).err = s.err := rfl
@[simp] theorem State.deactivate_errCmd (s : State) (m : NodeId) : (s.deactivate m).errCmd = s.errCmd := rfl
@[simp] theorem State.deactivate_bwAcc (s : State) (m : NodeId) : (s.deactivate m).bwAcc = s.bwAcc := rfl
@[simp] theorem State.deactivate_bwN (s : State) (m : NodeId) : (s.deactivate m).bwN = s.bwN := rfl
@[simp] theorem State.deactivate_bwTotal (s : State) (m : NodeId) : (s.deactivate m).bwTotal = s.bwTotal := rfl
@[simp] theorem State.deactivate_brBuf (s : State) (m : NodeId) : (s.deactivate m).brBuf = s.brBuf := rfl
@[simp] theorem State.deactivate_brLeft (s : State) (m : NodeId) : (s.deactivate m).brLeft = s.brLeft := rfl
@[simp] theorem State.deactivate_brTotal (s : State) (m : NodeId) : (s.deactivate m).brTotal = s.brTotal := rfl
@[simp] theorem State.deactivate_src (s : State) (m : NodeId) : (s.deactivate m).src = s.src := rfl
@[simp] theorem State.deactivate_fsink (s : State) (m : NodeId) : (s.deactivate m).fsink = s.fsink := rfl
@[simp] theorem State.deactivate_esink (s : State) (m : NodeId) : (s.deactivate m).esink = s.esink := rfl
@[simp] theorem State.deactivate_fsrc (s : State) (m : NodeId) : (s.deactivate m).fsrc = s.fsrc := rfl
@[simp] theorem State.deactivate_esrc (s : State) (m : NodeId) : (s.deactivate m).esrc = s.esrc := rfl
@[simp] theorem State.deactivate_osink (s : State) (m : NodeId) : (s.deactivate m).osink = s.osink := rfl
@[simp] theorem State.deactivate_raises (s : State) (m : NodeId) : (s.deactivate m).raises = s.raises := rfl
@[simp] theorem State.deactivate_hostMoves (s : State) (m : NodeId) : (s.deactivate m).hostMoves = s.hostMoves := rfl
@[simp] theorem State.deactivate_readData (s : State) (m : NodeId) : (s.deactivate m).readData = s.readData := rfl
@[simp] theorem State.rootedAt_cntW (s : State) (r : NodeId) : (s.rootedAt r).cntW = s.cntW := rfl
@[simp] theorem State.rootedAt_ftPres (s : State) (r : NodeId) : (s.rootedAt r).ftPres = s.ftPres := rfl
@[simp] theorem State.rootedAt_ftCnt (s : State) (r : NodeId) : (s.rootedAt r).ftCnt = s.ftCnt := rfl
@[simp] theorem State.rootedAt_nsyms (s : State) (r : NodeId) : (s.rootedAt r).nsyms = s.nsyms := rfl
@[simp] theorem State.rootedAt_total (s : State) (r : NodeId) : (s.rootedAt r).total = s.total := rfl
@[simp] theorem State.rootedAt_nodeW (s : State) (r : NodeId) : (s.rootedAt r).nodeW = s.nodeW := rfl
@[simp] theorem State.rootedAt_nodeL (s : State) (r : NodeId) : (s.rootedAt r).nodeL = s.nodeL := rfl
@[simp] theorem State.rootedAt_nodeR (s : State) (r : NodeId) : (s.rootedAt r).nodeR = s.nodeR := rfl
@[simp] theorem State.rootedAt_nodeAct (s : State) (r : NodeId) : (s.rootedAt r).nodeAct = s.nodeAct := rfl
@[simp] theorem State.rootedAt_nextId (s : State) (r : NodeId) : (s.rootedAt r).nextId = s.nextId := rfl
@[simp] theorem State.rootedAt_root (s : State) (r : NodeId) : (s.rootedAt r).root = r := rfl
@[simp] theorem State.rootedAt_treeValid (s : State) (r : NodeId) : (s.rootedAt r).treeValid = true := rfl
@[simp] theorem State.rootedAt_codeLen (s : State) (r : NodeId) : (s.rootedAt r).codeLen = s.codeLen := rfl
@[simp] theorem State.rootedAt_codeBits (s : State) (r : NodeId) : (s.rootedAt r).codeBits = s.codeBits := rfl
@[simp] theorem State.rootedAt_ctValid (s : State) (r : NodeId) : (s.rootedAt r).ctValid = false := rfl
@[simp] theorem State.rootedAt_hdrBits (s : State) (r : NodeId) : (s.rootedAt r).hdrBits = s.hdrBits := rfl
@[simp] theorem State.rootedAt_phase (s : State) (r : NodeId) : (s.rootedAt r).phase = .built := rfl
@[simp] theorem State.rootedAt_mode (s : State) (r : NodeId) : (s.rootedAt r).mode = s.mode := rfl
@[simp] theorem State.rootedAt_cur (s : State) (r : NodeId) : (s.rootedAt r).cur = s.cur := rfl
@[simp] theorem State.rootedAt_portHeld (s : State) (r : NodeId) : (s.rootedAt r).portHeld = s.portHeld := rfl
@[simp] theorem State.rootedAt_err (s : State) (r : NodeId) : (s.rootedAt r).err = s.err := rfl
@[simp] theorem State.rootedAt_errCmd (s : State) (r : NodeId) : (s.rootedAt r).errCmd = s.errCmd := rfl
@[simp] theorem State.rootedAt_bwAcc (s : State) (r : NodeId) : (s.rootedAt r).bwAcc = s.bwAcc := rfl
@[simp] theorem State.rootedAt_bwN (s : State) (r : NodeId) : (s.rootedAt r).bwN = s.bwN := rfl
@[simp] theorem State.rootedAt_bwTotal (s : State) (r : NodeId) : (s.rootedAt r).bwTotal = s.bwTotal := rfl
@[simp] theorem State.rootedAt_brBuf (s : State) (r : NodeId) : (s.rootedAt r).brBuf = s.brBuf := rfl
@[simp] theorem State.rootedAt_brLeft (s : State) (r : NodeId) : (s.rootedAt r).brLeft = s.brLeft := rfl
@[simp] theorem State.rootedAt_brTotal (s : State) (r : NodeId) : (s.rootedAt r).brTotal = s.brTotal := rfl
@[simp] theorem State.rootedAt_src (s : State) (r : NodeId) : (s.rootedAt r).src = s.src := rfl
@[simp] theorem State.rootedAt_fsink (s : State) (r : NodeId) : (s.rootedAt r).fsink = s.fsink := rfl
@[simp] theorem State.rootedAt_esink (s : State) (r : NodeId) : (s.rootedAt r).esink = s.esink := rfl
@[simp] theorem State.rootedAt_fsrc (s : State) (r : NodeId) : (s.rootedAt r).fsrc = s.fsrc := rfl
@[simp] theorem State.rootedAt_esrc (s : State) (r : NodeId) : (s.rootedAt r).esrc = s.esrc := rfl
@[simp] theorem State.rootedAt_osink (s : State) (r : NodeId) : (s.rootedAt r).osink = s.osink := rfl
@[simp] theorem State.rootedAt_raises (s : State) (r : NodeId) : (s.rootedAt r).raises = s.raises := rfl
@[simp] theorem State.rootedAt_hostMoves (s : State) (r : NodeId) : (s.rootedAt r).hostMoves = s.hostMoves := rfl
@[simp] theorem State.rootedAt_readData (s : State) (r : NodeId) : (s.rootedAt r).readData = s.readData := rfl
@[simp] theorem State.noCodes_cntW (s : State) : (s.noCodes).cntW = s.cntW := rfl
@[simp] theorem State.noCodes_ftPres (s : State) : (s.noCodes).ftPres = s.ftPres := rfl
@[simp] theorem State.noCodes_ftCnt (s : State) : (s.noCodes).ftCnt = s.ftCnt := rfl
@[simp] theorem State.noCodes_nsyms (s : State) : (s.noCodes).nsyms = s.nsyms := rfl
@[simp] theorem State.noCodes_total (s : State) : (s.noCodes).total = s.total := rfl
@[simp] theorem State.noCodes_nodeW (s : State) : (s.noCodes).nodeW = s.nodeW := rfl
@[simp] theorem State.noCodes_nodeL (s : State) : (s.noCodes).nodeL = s.nodeL := rfl
@[simp] theorem State.noCodes_nodeR (s : State) : (s.noCodes).nodeR = s.nodeR := rfl
@[simp] theorem State.noCodes_nodeAct (s : State) : (s.noCodes).nodeAct = s.nodeAct := rfl
@[simp] theorem State.noCodes_nextId (s : State) : (s.noCodes).nextId = s.nextId := rfl
@[simp] theorem State.noCodes_root (s : State) : (s.noCodes).root = s.root := rfl
@[simp] theorem State.noCodes_treeValid (s : State) : (s.noCodes).treeValid = s.treeValid := rfl
@[simp] theorem State.noCodes_codeLen (s : State) : (s.noCodes).codeLen = Vector.replicate 256 0 := rfl
@[simp] theorem State.noCodes_codeBits (s : State) : (s.noCodes).codeBits = Vector.replicate 256 0 := rfl
@[simp] theorem State.noCodes_ctValid (s : State) : (s.noCodes).ctValid = s.ctValid := rfl
@[simp] theorem State.noCodes_hdrBits (s : State) : (s.noCodes).hdrBits = s.hdrBits := rfl
@[simp] theorem State.noCodes_phase (s : State) : (s.noCodes).phase = s.phase := rfl
@[simp] theorem State.noCodes_mode (s : State) : (s.noCodes).mode = s.mode := rfl
@[simp] theorem State.noCodes_cur (s : State) : (s.noCodes).cur = s.cur := rfl
@[simp] theorem State.noCodes_portHeld (s : State) : (s.noCodes).portHeld = s.portHeld := rfl
@[simp] theorem State.noCodes_err (s : State) : (s.noCodes).err = s.err := rfl
@[simp] theorem State.noCodes_errCmd (s : State) : (s.noCodes).errCmd = s.errCmd := rfl
@[simp] theorem State.noCodes_bwAcc (s : State) : (s.noCodes).bwAcc = s.bwAcc := rfl
@[simp] theorem State.noCodes_bwN (s : State) : (s.noCodes).bwN = s.bwN := rfl
@[simp] theorem State.noCodes_bwTotal (s : State) : (s.noCodes).bwTotal = s.bwTotal := rfl
@[simp] theorem State.noCodes_brBuf (s : State) : (s.noCodes).brBuf = s.brBuf := rfl
@[simp] theorem State.noCodes_brLeft (s : State) : (s.noCodes).brLeft = s.brLeft := rfl
@[simp] theorem State.noCodes_brTotal (s : State) : (s.noCodes).brTotal = s.brTotal := rfl
@[simp] theorem State.noCodes_src (s : State) : (s.noCodes).src = s.src := rfl
@[simp] theorem State.noCodes_fsink (s : State) : (s.noCodes).fsink = s.fsink := rfl
@[simp] theorem State.noCodes_esink (s : State) : (s.noCodes).esink = s.esink := rfl
@[simp] theorem State.noCodes_fsrc (s : State) : (s.noCodes).fsrc = s.fsrc := rfl
@[simp] theorem State.noCodes_esrc (s : State) : (s.noCodes).esrc = s.esrc := rfl
@[simp] theorem State.noCodes_osink (s : State) : (s.noCodes).osink = s.osink := rfl
@[simp] theorem State.noCodes_raises (s : State) : (s.noCodes).raises = s.raises := rfl
@[simp] theorem State.noCodes_hostMoves (s : State) : (s.noCodes).hostMoves = s.hostMoves := rfl
@[simp] theorem State.noCodes_readData (s : State) : (s.noCodes).readData = s.readData := rfl
@[simp] theorem State.derived_cntW (s : State) : (s.derived).cntW = s.cntW := rfl
@[simp] theorem State.derived_ftPres (s : State) : (s.derived).ftPres = s.ftPres := rfl
@[simp] theorem State.derived_ftCnt (s : State) : (s.derived).ftCnt = s.ftCnt := rfl
@[simp] theorem State.derived_nsyms (s : State) : (s.derived).nsyms = s.nsyms := rfl
@[simp] theorem State.derived_total (s : State) : (s.derived).total = s.total := rfl
@[simp] theorem State.derived_nodeW (s : State) : (s.derived).nodeW = s.nodeW := rfl
@[simp] theorem State.derived_nodeL (s : State) : (s.derived).nodeL = s.nodeL := rfl
@[simp] theorem State.derived_nodeR (s : State) : (s.derived).nodeR = s.nodeR := rfl
@[simp] theorem State.derived_nodeAct (s : State) : (s.derived).nodeAct = s.nodeAct := rfl
@[simp] theorem State.derived_nextId (s : State) : (s.derived).nextId = s.nextId := rfl
@[simp] theorem State.derived_root (s : State) : (s.derived).root = s.root := rfl
@[simp] theorem State.derived_treeValid (s : State) : (s.derived).treeValid = s.treeValid := rfl
@[simp] theorem State.derived_codeLen (s : State) : (s.derived).codeLen = s.codeLen := rfl
@[simp] theorem State.derived_codeBits (s : State) : (s.derived).codeBits = s.codeBits := rfl
@[simp] theorem State.derived_ctValid (s : State) : (s.derived).ctValid = true := rfl
@[simp] theorem State.derived_hdrBits (s : State) : (s.derived).hdrBits = s.hdrBits := rfl
@[simp] theorem State.derived_phase (s : State) : (s.derived).phase = .derived := rfl
@[simp] theorem State.derived_mode (s : State) : (s.derived).mode = s.mode := rfl
@[simp] theorem State.derived_cur (s : State) : (s.derived).cur = s.cur := rfl
@[simp] theorem State.derived_portHeld (s : State) : (s.derived).portHeld = s.portHeld := rfl
@[simp] theorem State.derived_err (s : State) : (s.derived).err = s.err := rfl
@[simp] theorem State.derived_errCmd (s : State) : (s.derived).errCmd = s.errCmd := rfl
@[simp] theorem State.derived_bwAcc (s : State) : (s.derived).bwAcc = s.bwAcc := rfl
@[simp] theorem State.derived_bwN (s : State) : (s.derived).bwN = s.bwN := rfl
@[simp] theorem State.derived_bwTotal (s : State) : (s.derived).bwTotal = s.bwTotal := rfl
@[simp] theorem State.derived_brBuf (s : State) : (s.derived).brBuf = s.brBuf := rfl
@[simp] theorem State.derived_brLeft (s : State) : (s.derived).brLeft = s.brLeft := rfl
@[simp] theorem State.derived_brTotal (s : State) : (s.derived).brTotal = s.brTotal := rfl
@[simp] theorem State.derived_src (s : State) : (s.derived).src = s.src := rfl
@[simp] theorem State.derived_fsink (s : State) : (s.derived).fsink = s.fsink := rfl
@[simp] theorem State.derived_esink (s : State) : (s.derived).esink = s.esink := rfl
@[simp] theorem State.derived_fsrc (s : State) : (s.derived).fsrc = s.fsrc := rfl
@[simp] theorem State.derived_esrc (s : State) : (s.derived).esrc = s.esrc := rfl
@[simp] theorem State.derived_osink (s : State) : (s.derived).osink = s.osink := rfl
@[simp] theorem State.derived_raises (s : State) : (s.derived).raises = s.raises := rfl
@[simp] theorem State.derived_hostMoves (s : State) : (s.derived).hostMoves = s.hostMoves := rfl
@[simp] theorem State.derived_readData (s : State) : (s.derived).readData = s.readData := rfl

/-! ### The table counting and entering a key -/

@[simp] theorem State.countByte_cntW (s : State) (b : Symbol) : (s.countByte b).cntW = s.cntW := rfl
@[simp] theorem State.countByte_ftPres (s : State) (b : Symbol) : (s.countByte b).ftPres = putSym s.ftPres b true := rfl
@[simp] theorem State.countByte_ftCnt (s : State) (b : Symbol) : (s.countByte b).ftCnt = putSym s.ftCnt b (atSym s.ftCnt b + 1) := rfl
@[simp] theorem State.countByte_nsyms (s : State) (b : Symbol) : (s.countByte b).nsyms = if atSym s.ftPres b then s.nsyms else s.nsyms + 1 := rfl
@[simp] theorem State.countByte_total (s : State) (b : Symbol) : (s.countByte b).total = s.total + 1 := rfl
@[simp] theorem State.countByte_nodeW (s : State) (b : Symbol) : (s.countByte b).nodeW = s.nodeW := rfl
@[simp] theorem State.countByte_nodeL (s : State) (b : Symbol) : (s.countByte b).nodeL = s.nodeL := rfl
@[simp] theorem State.countByte_nodeR (s : State) (b : Symbol) : (s.countByte b).nodeR = s.nodeR := rfl
@[simp] theorem State.countByte_nodeAct (s : State) (b : Symbol) : (s.countByte b).nodeAct = s.nodeAct := rfl
@[simp] theorem State.countByte_nextId (s : State) (b : Symbol) : (s.countByte b).nextId = s.nextId := rfl
@[simp] theorem State.countByte_root (s : State) (b : Symbol) : (s.countByte b).root = s.root := rfl
@[simp] theorem State.countByte_treeValid (s : State) (b : Symbol) : (s.countByte b).treeValid = s.treeValid := rfl
@[simp] theorem State.countByte_codeLen (s : State) (b : Symbol) : (s.countByte b).codeLen = s.codeLen := rfl
@[simp] theorem State.countByte_codeBits (s : State) (b : Symbol) : (s.countByte b).codeBits = s.codeBits := rfl
@[simp] theorem State.countByte_ctValid (s : State) (b : Symbol) : (s.countByte b).ctValid = s.ctValid := rfl
@[simp] theorem State.countByte_hdrBits (s : State) (b : Symbol) : (s.countByte b).hdrBits = s.hdrBits := rfl
@[simp] theorem State.countByte_phase (s : State) (b : Symbol) : (s.countByte b).phase = s.phase := rfl
@[simp] theorem State.countByte_mode (s : State) (b : Symbol) : (s.countByte b).mode = s.mode := rfl
@[simp] theorem State.countByte_cur (s : State) (b : Symbol) : (s.countByte b).cur = s.cur := rfl
@[simp] theorem State.countByte_portHeld (s : State) (b : Symbol) : (s.countByte b).portHeld = s.portHeld := rfl
@[simp] theorem State.countByte_err (s : State) (b : Symbol) : (s.countByte b).err = s.err := rfl
@[simp] theorem State.countByte_errCmd (s : State) (b : Symbol) : (s.countByte b).errCmd = s.errCmd := rfl
@[simp] theorem State.countByte_bwAcc (s : State) (b : Symbol) : (s.countByte b).bwAcc = s.bwAcc := rfl
@[simp] theorem State.countByte_bwN (s : State) (b : Symbol) : (s.countByte b).bwN = s.bwN := rfl
@[simp] theorem State.countByte_bwTotal (s : State) (b : Symbol) : (s.countByte b).bwTotal = s.bwTotal := rfl
@[simp] theorem State.countByte_brBuf (s : State) (b : Symbol) : (s.countByte b).brBuf = s.brBuf := rfl
@[simp] theorem State.countByte_brLeft (s : State) (b : Symbol) : (s.countByte b).brLeft = s.brLeft := rfl
@[simp] theorem State.countByte_brTotal (s : State) (b : Symbol) : (s.countByte b).brTotal = s.brTotal := rfl
@[simp] theorem State.countByte_src (s : State) (b : Symbol) : (s.countByte b).src = s.src := rfl
@[simp] theorem State.countByte_fsink (s : State) (b : Symbol) : (s.countByte b).fsink = s.fsink := rfl
@[simp] theorem State.countByte_esink (s : State) (b : Symbol) : (s.countByte b).esink = s.esink := rfl
@[simp] theorem State.countByte_fsrc (s : State) (b : Symbol) : (s.countByte b).fsrc = s.fsrc := rfl
@[simp] theorem State.countByte_esrc (s : State) (b : Symbol) : (s.countByte b).esrc = s.esrc := rfl
@[simp] theorem State.countByte_osink (s : State) (b : Symbol) : (s.countByte b).osink = s.osink := rfl
@[simp] theorem State.countByte_raises (s : State) (b : Symbol) : (s.countByte b).raises = s.raises := rfl
@[simp] theorem State.countByte_hostMoves (s : State) (b : Symbol) : (s.countByte b).hostMoves = s.hostMoves := rfl
@[simp] theorem State.countByte_readData (s : State) (b : Symbol) : (s.countByte b).readData = s.readData := rfl
@[simp] theorem State.enterKey_cntW (s : State) (b : Symbol) (n : Nat) : (s.enterKey b n).cntW = s.cntW := rfl
@[simp] theorem State.enterKey_ftPres (s : State) (b : Symbol) (n : Nat) : (s.enterKey b n).ftPres = putSym s.ftPres b true := rfl
@[simp] theorem State.enterKey_ftCnt (s : State) (b : Symbol) (n : Nat) : (s.enterKey b n).ftCnt = putSym s.ftCnt b n := rfl
@[simp] theorem State.enterKey_nsyms (s : State) (b : Symbol) (n : Nat) : (s.enterKey b n).nsyms = s.nsyms + 1 := rfl
@[simp] theorem State.enterKey_total (s : State) (b : Symbol) (n : Nat) : (s.enterKey b n).total = s.total + n := rfl
@[simp] theorem State.enterKey_nodeW (s : State) (b : Symbol) (n : Nat) : (s.enterKey b n).nodeW = s.nodeW := rfl
@[simp] theorem State.enterKey_nodeL (s : State) (b : Symbol) (n : Nat) : (s.enterKey b n).nodeL = s.nodeL := rfl
@[simp] theorem State.enterKey_nodeR (s : State) (b : Symbol) (n : Nat) : (s.enterKey b n).nodeR = s.nodeR := rfl
@[simp] theorem State.enterKey_nodeAct (s : State) (b : Symbol) (n : Nat) : (s.enterKey b n).nodeAct = s.nodeAct := rfl
@[simp] theorem State.enterKey_nextId (s : State) (b : Symbol) (n : Nat) : (s.enterKey b n).nextId = s.nextId := rfl
@[simp] theorem State.enterKey_root (s : State) (b : Symbol) (n : Nat) : (s.enterKey b n).root = s.root := rfl
@[simp] theorem State.enterKey_treeValid (s : State) (b : Symbol) (n : Nat) : (s.enterKey b n).treeValid = s.treeValid := rfl
@[simp] theorem State.enterKey_codeLen (s : State) (b : Symbol) (n : Nat) : (s.enterKey b n).codeLen = s.codeLen := rfl
@[simp] theorem State.enterKey_codeBits (s : State) (b : Symbol) (n : Nat) : (s.enterKey b n).codeBits = s.codeBits := rfl
@[simp] theorem State.enterKey_ctValid (s : State) (b : Symbol) (n : Nat) : (s.enterKey b n).ctValid = s.ctValid := rfl
@[simp] theorem State.enterKey_hdrBits (s : State) (b : Symbol) (n : Nat) : (s.enterKey b n).hdrBits = s.hdrBits := rfl
@[simp] theorem State.enterKey_phase (s : State) (b : Symbol) (n : Nat) : (s.enterKey b n).phase = s.phase := rfl
@[simp] theorem State.enterKey_mode (s : State) (b : Symbol) (n : Nat) : (s.enterKey b n).mode = s.mode := rfl
@[simp] theorem State.enterKey_cur (s : State) (b : Symbol) (n : Nat) : (s.enterKey b n).cur = s.cur := rfl
@[simp] theorem State.enterKey_portHeld (s : State) (b : Symbol) (n : Nat) : (s.enterKey b n).portHeld = s.portHeld := rfl
@[simp] theorem State.enterKey_err (s : State) (b : Symbol) (n : Nat) : (s.enterKey b n).err = s.err := rfl
@[simp] theorem State.enterKey_errCmd (s : State) (b : Symbol) (n : Nat) : (s.enterKey b n).errCmd = s.errCmd := rfl
@[simp] theorem State.enterKey_bwAcc (s : State) (b : Symbol) (n : Nat) : (s.enterKey b n).bwAcc = s.bwAcc := rfl
@[simp] theorem State.enterKey_bwN (s : State) (b : Symbol) (n : Nat) : (s.enterKey b n).bwN = s.bwN := rfl
@[simp] theorem State.enterKey_bwTotal (s : State) (b : Symbol) (n : Nat) : (s.enterKey b n).bwTotal = s.bwTotal := rfl
@[simp] theorem State.enterKey_brBuf (s : State) (b : Symbol) (n : Nat) : (s.enterKey b n).brBuf = s.brBuf := rfl
@[simp] theorem State.enterKey_brLeft (s : State) (b : Symbol) (n : Nat) : (s.enterKey b n).brLeft = s.brLeft := rfl
@[simp] theorem State.enterKey_brTotal (s : State) (b : Symbol) (n : Nat) : (s.enterKey b n).brTotal = s.brTotal := rfl
@[simp] theorem State.enterKey_src (s : State) (b : Symbol) (n : Nat) : (s.enterKey b n).src = s.src := rfl
@[simp] theorem State.enterKey_fsink (s : State) (b : Symbol) (n : Nat) : (s.enterKey b n).fsink = s.fsink := rfl
@[simp] theorem State.enterKey_esink (s : State) (b : Symbol) (n : Nat) : (s.enterKey b n).esink = s.esink := rfl
@[simp] theorem State.enterKey_fsrc (s : State) (b : Symbol) (n : Nat) : (s.enterKey b n).fsrc = s.fsrc := rfl
@[simp] theorem State.enterKey_esrc (s : State) (b : Symbol) (n : Nat) : (s.enterKey b n).esrc = s.esrc := rfl
@[simp] theorem State.enterKey_osink (s : State) (b : Symbol) (n : Nat) : (s.enterKey b n).osink = s.osink := rfl
@[simp] theorem State.enterKey_raises (s : State) (b : Symbol) (n : Nat) : (s.enterKey b n).raises = s.raises := rfl
@[simp] theorem State.enterKey_hostMoves (s : State) (b : Symbol) (n : Nat) : (s.enterKey b n).hostMoves = s.hostMoves := rfl
@[simp] theorem State.enterKey_readData (s : State) (b : Symbol) (n : Nat) : (s.enterKey b n).readData = s.readData := rfl

/-! ### Sequencing -/

@[simp] theorem State.enter_cntW (s : State) (v : Phase) : (s.enter v).cntW = s.cntW := rfl
@[simp] theorem State.enter_ftPres (s : State) (v : Phase) : (s.enter v).ftPres = s.ftPres := rfl
@[simp] theorem State.enter_ftCnt (s : State) (v : Phase) : (s.enter v).ftCnt = s.ftCnt := rfl
@[simp] theorem State.enter_nsyms (s : State) (v : Phase) : (s.enter v).nsyms = s.nsyms := rfl
@[simp] theorem State.enter_total (s : State) (v : Phase) : (s.enter v).total = s.total := rfl
@[simp] theorem State.enter_nodeW (s : State) (v : Phase) : (s.enter v).nodeW = s.nodeW := rfl
@[simp] theorem State.enter_nodeL (s : State) (v : Phase) : (s.enter v).nodeL = s.nodeL := rfl
@[simp] theorem State.enter_nodeR (s : State) (v : Phase) : (s.enter v).nodeR = s.nodeR := rfl
@[simp] theorem State.enter_nodeAct (s : State) (v : Phase) : (s.enter v).nodeAct = s.nodeAct := rfl
@[simp] theorem State.enter_nextId (s : State) (v : Phase) : (s.enter v).nextId = s.nextId := rfl
@[simp] theorem State.enter_root (s : State) (v : Phase) : (s.enter v).root = s.root := rfl
@[simp] theorem State.enter_treeValid (s : State) (v : Phase) : (s.enter v).treeValid = s.treeValid := rfl
@[simp] theorem State.enter_codeLen (s : State) (v : Phase) : (s.enter v).codeLen = s.codeLen := rfl
@[simp] theorem State.enter_codeBits (s : State) (v : Phase) : (s.enter v).codeBits = s.codeBits := rfl
@[simp] theorem State.enter_ctValid (s : State) (v : Phase) : (s.enter v).ctValid = s.ctValid := rfl
@[simp] theorem State.enter_hdrBits (s : State) (v : Phase) : (s.enter v).hdrBits = s.hdrBits := rfl
@[simp] theorem State.enter_phase (s : State) (v : Phase) : (s.enter v).phase = v := rfl
@[simp] theorem State.enter_mode (s : State) (v : Phase) : (s.enter v).mode = s.mode := rfl
@[simp] theorem State.enter_cur (s : State) (v : Phase) : (s.enter v).cur = s.cur := rfl
@[simp] theorem State.enter_portHeld (s : State) (v : Phase) : (s.enter v).portHeld = s.portHeld := rfl
@[simp] theorem State.enter_err (s : State) (v : Phase) : (s.enter v).err = s.err := rfl
@[simp] theorem State.enter_errCmd (s : State) (v : Phase) : (s.enter v).errCmd = s.errCmd := rfl
@[simp] theorem State.enter_bwAcc (s : State) (v : Phase) : (s.enter v).bwAcc = s.bwAcc := rfl
@[simp] theorem State.enter_bwN (s : State) (v : Phase) : (s.enter v).bwN = s.bwN := rfl
@[simp] theorem State.enter_bwTotal (s : State) (v : Phase) : (s.enter v).bwTotal = s.bwTotal := rfl
@[simp] theorem State.enter_brBuf (s : State) (v : Phase) : (s.enter v).brBuf = s.brBuf := rfl
@[simp] theorem State.enter_brLeft (s : State) (v : Phase) : (s.enter v).brLeft = s.brLeft := rfl
@[simp] theorem State.enter_brTotal (s : State) (v : Phase) : (s.enter v).brTotal = s.brTotal := rfl
@[simp] theorem State.enter_src (s : State) (v : Phase) : (s.enter v).src = s.src := rfl
@[simp] theorem State.enter_fsink (s : State) (v : Phase) : (s.enter v).fsink = s.fsink := rfl
@[simp] theorem State.enter_esink (s : State) (v : Phase) : (s.enter v).esink = s.esink := rfl
@[simp] theorem State.enter_fsrc (s : State) (v : Phase) : (s.enter v).fsrc = s.fsrc := rfl
@[simp] theorem State.enter_esrc (s : State) (v : Phase) : (s.enter v).esrc = s.esrc := rfl
@[simp] theorem State.enter_osink (s : State) (v : Phase) : (s.enter v).osink = s.osink := rfl
@[simp] theorem State.enter_raises (s : State) (v : Phase) : (s.enter v).raises = s.raises := rfl
@[simp] theorem State.enter_hostMoves (s : State) (v : Phase) : (s.enter v).hostMoves = s.hostMoves := rfl
@[simp] theorem State.enter_readData (s : State) (v : Phase) : (s.enter v).readData = s.readData := rfl
@[simp] theorem State.setMode_cntW (s : State) (v : Mode) : (s.setMode v).cntW = s.cntW := rfl
@[simp] theorem State.setMode_ftPres (s : State) (v : Mode) : (s.setMode v).ftPres = s.ftPres := rfl
@[simp] theorem State.setMode_ftCnt (s : State) (v : Mode) : (s.setMode v).ftCnt = s.ftCnt := rfl
@[simp] theorem State.setMode_nsyms (s : State) (v : Mode) : (s.setMode v).nsyms = s.nsyms := rfl
@[simp] theorem State.setMode_total (s : State) (v : Mode) : (s.setMode v).total = s.total := rfl
@[simp] theorem State.setMode_nodeW (s : State) (v : Mode) : (s.setMode v).nodeW = s.nodeW := rfl
@[simp] theorem State.setMode_nodeL (s : State) (v : Mode) : (s.setMode v).nodeL = s.nodeL := rfl
@[simp] theorem State.setMode_nodeR (s : State) (v : Mode) : (s.setMode v).nodeR = s.nodeR := rfl
@[simp] theorem State.setMode_nodeAct (s : State) (v : Mode) : (s.setMode v).nodeAct = s.nodeAct := rfl
@[simp] theorem State.setMode_nextId (s : State) (v : Mode) : (s.setMode v).nextId = s.nextId := rfl
@[simp] theorem State.setMode_root (s : State) (v : Mode) : (s.setMode v).root = s.root := rfl
@[simp] theorem State.setMode_treeValid (s : State) (v : Mode) : (s.setMode v).treeValid = s.treeValid := rfl
@[simp] theorem State.setMode_codeLen (s : State) (v : Mode) : (s.setMode v).codeLen = s.codeLen := rfl
@[simp] theorem State.setMode_codeBits (s : State) (v : Mode) : (s.setMode v).codeBits = s.codeBits := rfl
@[simp] theorem State.setMode_ctValid (s : State) (v : Mode) : (s.setMode v).ctValid = s.ctValid := rfl
@[simp] theorem State.setMode_hdrBits (s : State) (v : Mode) : (s.setMode v).hdrBits = s.hdrBits := rfl
@[simp] theorem State.setMode_phase (s : State) (v : Mode) : (s.setMode v).phase = s.phase := rfl
@[simp] theorem State.setMode_mode (s : State) (v : Mode) : (s.setMode v).mode = v := rfl
@[simp] theorem State.setMode_cur (s : State) (v : Mode) : (s.setMode v).cur = s.cur := rfl
@[simp] theorem State.setMode_portHeld (s : State) (v : Mode) : (s.setMode v).portHeld = s.portHeld := rfl
@[simp] theorem State.setMode_err (s : State) (v : Mode) : (s.setMode v).err = s.err := rfl
@[simp] theorem State.setMode_errCmd (s : State) (v : Mode) : (s.setMode v).errCmd = s.errCmd := rfl
@[simp] theorem State.setMode_bwAcc (s : State) (v : Mode) : (s.setMode v).bwAcc = s.bwAcc := rfl
@[simp] theorem State.setMode_bwN (s : State) (v : Mode) : (s.setMode v).bwN = s.bwN := rfl
@[simp] theorem State.setMode_bwTotal (s : State) (v : Mode) : (s.setMode v).bwTotal = s.bwTotal := rfl
@[simp] theorem State.setMode_brBuf (s : State) (v : Mode) : (s.setMode v).brBuf = s.brBuf := rfl
@[simp] theorem State.setMode_brLeft (s : State) (v : Mode) : (s.setMode v).brLeft = s.brLeft := rfl
@[simp] theorem State.setMode_brTotal (s : State) (v : Mode) : (s.setMode v).brTotal = s.brTotal := rfl
@[simp] theorem State.setMode_src (s : State) (v : Mode) : (s.setMode v).src = s.src := rfl
@[simp] theorem State.setMode_fsink (s : State) (v : Mode) : (s.setMode v).fsink = s.fsink := rfl
@[simp] theorem State.setMode_esink (s : State) (v : Mode) : (s.setMode v).esink = s.esink := rfl
@[simp] theorem State.setMode_fsrc (s : State) (v : Mode) : (s.setMode v).fsrc = s.fsrc := rfl
@[simp] theorem State.setMode_esrc (s : State) (v : Mode) : (s.setMode v).esrc = s.esrc := rfl
@[simp] theorem State.setMode_osink (s : State) (v : Mode) : (s.setMode v).osink = s.osink := rfl
@[simp] theorem State.setMode_raises (s : State) (v : Mode) : (s.setMode v).raises = s.raises := rfl
@[simp] theorem State.setMode_hostMoves (s : State) (v : Mode) : (s.setMode v).hostMoves = s.hostMoves := rfl
@[simp] theorem State.setMode_readData (s : State) (v : Mode) : (s.setMode v).readData = s.readData := rfl
@[simp] theorem State.setHdr_cntW (s : State) (v : BitVec 64) : (s.setHdr v).cntW = s.cntW := rfl
@[simp] theorem State.setHdr_ftPres (s : State) (v : BitVec 64) : (s.setHdr v).ftPres = s.ftPres := rfl
@[simp] theorem State.setHdr_ftCnt (s : State) (v : BitVec 64) : (s.setHdr v).ftCnt = s.ftCnt := rfl
@[simp] theorem State.setHdr_nsyms (s : State) (v : BitVec 64) : (s.setHdr v).nsyms = s.nsyms := rfl
@[simp] theorem State.setHdr_total (s : State) (v : BitVec 64) : (s.setHdr v).total = s.total := rfl
@[simp] theorem State.setHdr_nodeW (s : State) (v : BitVec 64) : (s.setHdr v).nodeW = s.nodeW := rfl
@[simp] theorem State.setHdr_nodeL (s : State) (v : BitVec 64) : (s.setHdr v).nodeL = s.nodeL := rfl
@[simp] theorem State.setHdr_nodeR (s : State) (v : BitVec 64) : (s.setHdr v).nodeR = s.nodeR := rfl
@[simp] theorem State.setHdr_nodeAct (s : State) (v : BitVec 64) : (s.setHdr v).nodeAct = s.nodeAct := rfl
@[simp] theorem State.setHdr_nextId (s : State) (v : BitVec 64) : (s.setHdr v).nextId = s.nextId := rfl
@[simp] theorem State.setHdr_root (s : State) (v : BitVec 64) : (s.setHdr v).root = s.root := rfl
@[simp] theorem State.setHdr_treeValid (s : State) (v : BitVec 64) : (s.setHdr v).treeValid = s.treeValid := rfl
@[simp] theorem State.setHdr_codeLen (s : State) (v : BitVec 64) : (s.setHdr v).codeLen = s.codeLen := rfl
@[simp] theorem State.setHdr_codeBits (s : State) (v : BitVec 64) : (s.setHdr v).codeBits = s.codeBits := rfl
@[simp] theorem State.setHdr_ctValid (s : State) (v : BitVec 64) : (s.setHdr v).ctValid = s.ctValid := rfl
@[simp] theorem State.setHdr_hdrBits (s : State) (v : BitVec 64) : (s.setHdr v).hdrBits = v := rfl
@[simp] theorem State.setHdr_phase (s : State) (v : BitVec 64) : (s.setHdr v).phase = s.phase := rfl
@[simp] theorem State.setHdr_mode (s : State) (v : BitVec 64) : (s.setHdr v).mode = s.mode := rfl
@[simp] theorem State.setHdr_cur (s : State) (v : BitVec 64) : (s.setHdr v).cur = s.cur := rfl
@[simp] theorem State.setHdr_portHeld (s : State) (v : BitVec 64) : (s.setHdr v).portHeld = s.portHeld := rfl
@[simp] theorem State.setHdr_err (s : State) (v : BitVec 64) : (s.setHdr v).err = s.err := rfl
@[simp] theorem State.setHdr_errCmd (s : State) (v : BitVec 64) : (s.setHdr v).errCmd = s.errCmd := rfl
@[simp] theorem State.setHdr_bwAcc (s : State) (v : BitVec 64) : (s.setHdr v).bwAcc = s.bwAcc := rfl
@[simp] theorem State.setHdr_bwN (s : State) (v : BitVec 64) : (s.setHdr v).bwN = s.bwN := rfl
@[simp] theorem State.setHdr_bwTotal (s : State) (v : BitVec 64) : (s.setHdr v).bwTotal = s.bwTotal := rfl
@[simp] theorem State.setHdr_brBuf (s : State) (v : BitVec 64) : (s.setHdr v).brBuf = s.brBuf := rfl
@[simp] theorem State.setHdr_brLeft (s : State) (v : BitVec 64) : (s.setHdr v).brLeft = s.brLeft := rfl
@[simp] theorem State.setHdr_brTotal (s : State) (v : BitVec 64) : (s.setHdr v).brTotal = s.brTotal := rfl
@[simp] theorem State.setHdr_src (s : State) (v : BitVec 64) : (s.setHdr v).src = s.src := rfl
@[simp] theorem State.setHdr_fsink (s : State) (v : BitVec 64) : (s.setHdr v).fsink = s.fsink := rfl
@[simp] theorem State.setHdr_esink (s : State) (v : BitVec 64) : (s.setHdr v).esink = s.esink := rfl
@[simp] theorem State.setHdr_fsrc (s : State) (v : BitVec 64) : (s.setHdr v).fsrc = s.fsrc := rfl
@[simp] theorem State.setHdr_esrc (s : State) (v : BitVec 64) : (s.setHdr v).esrc = s.esrc := rfl
@[simp] theorem State.setHdr_osink (s : State) (v : BitVec 64) : (s.setHdr v).osink = s.osink := rfl
@[simp] theorem State.setHdr_raises (s : State) (v : BitVec 64) : (s.setHdr v).raises = s.raises := rfl
@[simp] theorem State.setHdr_hostMoves (s : State) (v : BitVec 64) : (s.setHdr v).hostMoves = s.hostMoves := rfl
@[simp] theorem State.setHdr_readData (s : State) (v : BitVec 64) : (s.setHdr v).readData = s.readData := rfl
@[simp] theorem State.endSession_cntW (s : State) : (s.endSession).cntW = s.cntW := rfl
@[simp] theorem State.endSession_ftPres (s : State) : (s.endSession).ftPres = s.ftPres := rfl
@[simp] theorem State.endSession_ftCnt (s : State) : (s.endSession).ftCnt = s.ftCnt := rfl
@[simp] theorem State.endSession_nsyms (s : State) : (s.endSession).nsyms = s.nsyms := rfl
@[simp] theorem State.endSession_total (s : State) : (s.endSession).total = s.total := rfl
@[simp] theorem State.endSession_nodeW (s : State) : (s.endSession).nodeW = s.nodeW := rfl
@[simp] theorem State.endSession_nodeL (s : State) : (s.endSession).nodeL = s.nodeL := rfl
@[simp] theorem State.endSession_nodeR (s : State) : (s.endSession).nodeR = s.nodeR := rfl
@[simp] theorem State.endSession_nodeAct (s : State) : (s.endSession).nodeAct = s.nodeAct := rfl
@[simp] theorem State.endSession_nextId (s : State) : (s.endSession).nextId = s.nextId := rfl
@[simp] theorem State.endSession_root (s : State) : (s.endSession).root = s.root := rfl
@[simp] theorem State.endSession_treeValid (s : State) : (s.endSession).treeValid = s.treeValid := rfl
@[simp] theorem State.endSession_codeLen (s : State) : (s.endSession).codeLen = s.codeLen := rfl
@[simp] theorem State.endSession_codeBits (s : State) : (s.endSession).codeBits = s.codeBits := rfl
@[simp] theorem State.endSession_ctValid (s : State) : (s.endSession).ctValid = s.ctValid := rfl
@[simp] theorem State.endSession_hdrBits (s : State) : (s.endSession).hdrBits = s.hdrBits := rfl
@[simp] theorem State.endSession_phase (s : State) : (s.endSession).phase = .done := rfl
@[simp] theorem State.endSession_mode (s : State) : (s.endSession).mode = s.mode := rfl
@[simp] theorem State.endSession_cur (s : State) : (s.endSession).cur = s.cur := rfl
@[simp] theorem State.endSession_portHeld (s : State) : (s.endSession).portHeld = 0 := rfl
@[simp] theorem State.endSession_err (s : State) : (s.endSession).err = s.err := rfl
@[simp] theorem State.endSession_errCmd (s : State) : (s.endSession).errCmd = s.errCmd := rfl
@[simp] theorem State.endSession_bwAcc (s : State) : (s.endSession).bwAcc = s.bwAcc := rfl
@[simp] theorem State.endSession_bwN (s : State) : (s.endSession).bwN = s.bwN := rfl
@[simp] theorem State.endSession_bwTotal (s : State) : (s.endSession).bwTotal = s.bwTotal := rfl
@[simp] theorem State.endSession_brBuf (s : State) : (s.endSession).brBuf = s.brBuf := rfl
@[simp] theorem State.endSession_brLeft (s : State) : (s.endSession).brLeft = s.brLeft := rfl
@[simp] theorem State.endSession_brTotal (s : State) : (s.endSession).brTotal = s.brTotal := rfl
@[simp] theorem State.endSession_src (s : State) : (s.endSession).src = s.src := rfl
@[simp] theorem State.endSession_fsink (s : State) : (s.endSession).fsink = s.fsink := rfl
@[simp] theorem State.endSession_esink (s : State) : (s.endSession).esink = s.esink := rfl
@[simp] theorem State.endSession_fsrc (s : State) : (s.endSession).fsrc = s.fsrc := rfl
@[simp] theorem State.endSession_esrc (s : State) : (s.endSession).esrc = s.esrc := rfl
@[simp] theorem State.endSession_osink (s : State) : (s.endSession).osink = s.osink := rfl
@[simp] theorem State.endSession_raises (s : State) : (s.endSession).raises = s.raises := rfl
@[simp] theorem State.endSession_hostMoves (s : State) : (s.endSession).hostMoves = s.hostMoves := rfl
@[simp] theorem State.endSession_readData (s : State) : (s.endSession).readData = s.readData := rfl

/-! ### Bits placed, counted and dropped -/

@[simp] theorem State.placeBit_cntW (s : State) (b : Bit) : (s.placeBit b).cntW = s.cntW := rfl
@[simp] theorem State.placeBit_ftPres (s : State) (b : Bit) : (s.placeBit b).ftPres = s.ftPres := rfl
@[simp] theorem State.placeBit_ftCnt (s : State) (b : Bit) : (s.placeBit b).ftCnt = s.ftCnt := rfl
@[simp] theorem State.placeBit_nsyms (s : State) (b : Bit) : (s.placeBit b).nsyms = s.nsyms := rfl
@[simp] theorem State.placeBit_total (s : State) (b : Bit) : (s.placeBit b).total = s.total := rfl
@[simp] theorem State.placeBit_nodeW (s : State) (b : Bit) : (s.placeBit b).nodeW = s.nodeW := rfl
@[simp] theorem State.placeBit_nodeL (s : State) (b : Bit) : (s.placeBit b).nodeL = s.nodeL := rfl
@[simp] theorem State.placeBit_nodeR (s : State) (b : Bit) : (s.placeBit b).nodeR = s.nodeR := rfl
@[simp] theorem State.placeBit_nodeAct (s : State) (b : Bit) : (s.placeBit b).nodeAct = s.nodeAct := rfl
@[simp] theorem State.placeBit_nextId (s : State) (b : Bit) : (s.placeBit b).nextId = s.nextId := rfl
@[simp] theorem State.placeBit_root (s : State) (b : Bit) : (s.placeBit b).root = s.root := rfl
@[simp] theorem State.placeBit_treeValid (s : State) (b : Bit) : (s.placeBit b).treeValid = s.treeValid := rfl
@[simp] theorem State.placeBit_codeLen (s : State) (b : Bit) : (s.placeBit b).codeLen = s.codeLen := rfl
@[simp] theorem State.placeBit_codeBits (s : State) (b : Bit) : (s.placeBit b).codeBits = s.codeBits := rfl
@[simp] theorem State.placeBit_ctValid (s : State) (b : Bit) : (s.placeBit b).ctValid = s.ctValid := rfl
@[simp] theorem State.placeBit_hdrBits (s : State) (b : Bit) : (s.placeBit b).hdrBits = s.hdrBits := rfl
@[simp] theorem State.placeBit_phase (s : State) (b : Bit) : (s.placeBit b).phase = s.phase := rfl
@[simp] theorem State.placeBit_mode (s : State) (b : Bit) : (s.placeBit b).mode = s.mode := rfl
@[simp] theorem State.placeBit_cur (s : State) (b : Bit) : (s.placeBit b).cur = s.cur := rfl
@[simp] theorem State.placeBit_portHeld (s : State) (b : Bit) : (s.placeBit b).portHeld = s.portHeld := rfl
@[simp] theorem State.placeBit_err (s : State) (b : Bit) : (s.placeBit b).err = s.err := rfl
@[simp] theorem State.placeBit_errCmd (s : State) (b : Bit) : (s.placeBit b).errCmd = s.errCmd := rfl
@[simp] theorem State.placeBit_bwAcc (s : State) (b : Bit) : (s.placeBit b).bwAcc = setBit s.bwAcc (7 - s.bwN.val) b := rfl
@[simp] theorem State.placeBit_bwN (s : State) (b : Bit) : (s.placeBit b).bwN = s.bwN := rfl
@[simp] theorem State.placeBit_bwTotal (s : State) (b : Bit) : (s.placeBit b).bwTotal = s.bwTotal + 1 := rfl
@[simp] theorem State.placeBit_brBuf (s : State) (b : Bit) : (s.placeBit b).brBuf = s.brBuf := rfl
@[simp] theorem State.placeBit_brLeft (s : State) (b : Bit) : (s.placeBit b).brLeft = s.brLeft := rfl
@[simp] theorem State.placeBit_brTotal (s : State) (b : Bit) : (s.placeBit b).brTotal = s.brTotal := rfl
@[simp] theorem State.placeBit_src (s : State) (b : Bit) : (s.placeBit b).src = s.src := rfl
@[simp] theorem State.placeBit_fsink (s : State) (b : Bit) : (s.placeBit b).fsink = s.fsink := rfl
@[simp] theorem State.placeBit_esink (s : State) (b : Bit) : (s.placeBit b).esink = s.esink := rfl
@[simp] theorem State.placeBit_fsrc (s : State) (b : Bit) : (s.placeBit b).fsrc = s.fsrc := rfl
@[simp] theorem State.placeBit_esrc (s : State) (b : Bit) : (s.placeBit b).esrc = s.esrc := rfl
@[simp] theorem State.placeBit_osink (s : State) (b : Bit) : (s.placeBit b).osink = s.osink := rfl
@[simp] theorem State.placeBit_raises (s : State) (b : Bit) : (s.placeBit b).raises = s.raises := rfl
@[simp] theorem State.placeBit_hostMoves (s : State) (b : Bit) : (s.placeBit b).hostMoves = s.hostMoves := rfl
@[simp] theorem State.placeBit_readData (s : State) (b : Bit) : (s.placeBit b).readData = s.readData := rfl
@[simp] theorem State.emptyAcc_cntW (s : State) : (s.emptyAcc).cntW = s.cntW := rfl
@[simp] theorem State.emptyAcc_ftPres (s : State) : (s.emptyAcc).ftPres = s.ftPres := rfl
@[simp] theorem State.emptyAcc_ftCnt (s : State) : (s.emptyAcc).ftCnt = s.ftCnt := rfl
@[simp] theorem State.emptyAcc_nsyms (s : State) : (s.emptyAcc).nsyms = s.nsyms := rfl
@[simp] theorem State.emptyAcc_total (s : State) : (s.emptyAcc).total = s.total := rfl
@[simp] theorem State.emptyAcc_nodeW (s : State) : (s.emptyAcc).nodeW = s.nodeW := rfl
@[simp] theorem State.emptyAcc_nodeL (s : State) : (s.emptyAcc).nodeL = s.nodeL := rfl
@[simp] theorem State.emptyAcc_nodeR (s : State) : (s.emptyAcc).nodeR = s.nodeR := rfl
@[simp] theorem State.emptyAcc_nodeAct (s : State) : (s.emptyAcc).nodeAct = s.nodeAct := rfl
@[simp] theorem State.emptyAcc_nextId (s : State) : (s.emptyAcc).nextId = s.nextId := rfl
@[simp] theorem State.emptyAcc_root (s : State) : (s.emptyAcc).root = s.root := rfl
@[simp] theorem State.emptyAcc_treeValid (s : State) : (s.emptyAcc).treeValid = s.treeValid := rfl
@[simp] theorem State.emptyAcc_codeLen (s : State) : (s.emptyAcc).codeLen = s.codeLen := rfl
@[simp] theorem State.emptyAcc_codeBits (s : State) : (s.emptyAcc).codeBits = s.codeBits := rfl
@[simp] theorem State.emptyAcc_ctValid (s : State) : (s.emptyAcc).ctValid = s.ctValid := rfl
@[simp] theorem State.emptyAcc_hdrBits (s : State) : (s.emptyAcc).hdrBits = s.hdrBits := rfl
@[simp] theorem State.emptyAcc_phase (s : State) : (s.emptyAcc).phase = s.phase := rfl
@[simp] theorem State.emptyAcc_mode (s : State) : (s.emptyAcc).mode = s.mode := rfl
@[simp] theorem State.emptyAcc_cur (s : State) : (s.emptyAcc).cur = s.cur := rfl
@[simp] theorem State.emptyAcc_portHeld (s : State) : (s.emptyAcc).portHeld = s.portHeld := rfl
@[simp] theorem State.emptyAcc_err (s : State) : (s.emptyAcc).err = s.err := rfl
@[simp] theorem State.emptyAcc_errCmd (s : State) : (s.emptyAcc).errCmd = s.errCmd := rfl
@[simp] theorem State.emptyAcc_bwAcc (s : State) : (s.emptyAcc).bwAcc = 0 := rfl
@[simp] theorem State.emptyAcc_bwN (s : State) : (s.emptyAcc).bwN = 0 := rfl
@[simp] theorem State.emptyAcc_bwTotal (s : State) : (s.emptyAcc).bwTotal = s.bwTotal := rfl
@[simp] theorem State.emptyAcc_brBuf (s : State) : (s.emptyAcc).brBuf = s.brBuf := rfl
@[simp] theorem State.emptyAcc_brLeft (s : State) : (s.emptyAcc).brLeft = s.brLeft := rfl
@[simp] theorem State.emptyAcc_brTotal (s : State) : (s.emptyAcc).brTotal = s.brTotal := rfl
@[simp] theorem State.emptyAcc_src (s : State) : (s.emptyAcc).src = s.src := rfl
@[simp] theorem State.emptyAcc_fsink (s : State) : (s.emptyAcc).fsink = s.fsink := rfl
@[simp] theorem State.emptyAcc_esink (s : State) : (s.emptyAcc).esink = s.esink := rfl
@[simp] theorem State.emptyAcc_fsrc (s : State) : (s.emptyAcc).fsrc = s.fsrc := rfl
@[simp] theorem State.emptyAcc_esrc (s : State) : (s.emptyAcc).esrc = s.esrc := rfl
@[simp] theorem State.emptyAcc_osink (s : State) : (s.emptyAcc).osink = s.osink := rfl
@[simp] theorem State.emptyAcc_raises (s : State) : (s.emptyAcc).raises = s.raises := rfl
@[simp] theorem State.emptyAcc_hostMoves (s : State) : (s.emptyAcc).hostMoves = s.hostMoves := rfl
@[simp] theorem State.emptyAcc_readData (s : State) : (s.emptyAcc).readData = s.readData := rfl
@[simp] theorem State.countBit_cntW (s : State) : (s.countBit).cntW = s.cntW := rfl
@[simp] theorem State.countBit_ftPres (s : State) : (s.countBit).ftPres = s.ftPres := rfl
@[simp] theorem State.countBit_ftCnt (s : State) : (s.countBit).ftCnt = s.ftCnt := rfl
@[simp] theorem State.countBit_nsyms (s : State) : (s.countBit).nsyms = s.nsyms := rfl
@[simp] theorem State.countBit_total (s : State) : (s.countBit).total = s.total := rfl
@[simp] theorem State.countBit_nodeW (s : State) : (s.countBit).nodeW = s.nodeW := rfl
@[simp] theorem State.countBit_nodeL (s : State) : (s.countBit).nodeL = s.nodeL := rfl
@[simp] theorem State.countBit_nodeR (s : State) : (s.countBit).nodeR = s.nodeR := rfl
@[simp] theorem State.countBit_nodeAct (s : State) : (s.countBit).nodeAct = s.nodeAct := rfl
@[simp] theorem State.countBit_nextId (s : State) : (s.countBit).nextId = s.nextId := rfl
@[simp] theorem State.countBit_root (s : State) : (s.countBit).root = s.root := rfl
@[simp] theorem State.countBit_treeValid (s : State) : (s.countBit).treeValid = s.treeValid := rfl
@[simp] theorem State.countBit_codeLen (s : State) : (s.countBit).codeLen = s.codeLen := rfl
@[simp] theorem State.countBit_codeBits (s : State) : (s.countBit).codeBits = s.codeBits := rfl
@[simp] theorem State.countBit_ctValid (s : State) : (s.countBit).ctValid = s.ctValid := rfl
@[simp] theorem State.countBit_hdrBits (s : State) : (s.countBit).hdrBits = s.hdrBits := rfl
@[simp] theorem State.countBit_phase (s : State) : (s.countBit).phase = s.phase := rfl
@[simp] theorem State.countBit_mode (s : State) : (s.countBit).mode = s.mode := rfl
@[simp] theorem State.countBit_cur (s : State) : (s.countBit).cur = s.cur := rfl
@[simp] theorem State.countBit_portHeld (s : State) : (s.countBit).portHeld = s.portHeld := rfl
@[simp] theorem State.countBit_err (s : State) : (s.countBit).err = s.err := rfl
@[simp] theorem State.countBit_errCmd (s : State) : (s.countBit).errCmd = s.errCmd := rfl
@[simp] theorem State.countBit_bwAcc (s : State) : (s.countBit).bwAcc = s.bwAcc := rfl
@[simp] theorem State.countBit_bwN (s : State) : (s.countBit).bwN = s.bwN + 1 := rfl
@[simp] theorem State.countBit_bwTotal (s : State) : (s.countBit).bwTotal = s.bwTotal := rfl
@[simp] theorem State.countBit_brBuf (s : State) : (s.countBit).brBuf = s.brBuf := rfl
@[simp] theorem State.countBit_brLeft (s : State) : (s.countBit).brLeft = s.brLeft := rfl
@[simp] theorem State.countBit_brTotal (s : State) : (s.countBit).brTotal = s.brTotal := rfl
@[simp] theorem State.countBit_src (s : State) : (s.countBit).src = s.src := rfl
@[simp] theorem State.countBit_fsink (s : State) : (s.countBit).fsink = s.fsink := rfl
@[simp] theorem State.countBit_esink (s : State) : (s.countBit).esink = s.esink := rfl
@[simp] theorem State.countBit_fsrc (s : State) : (s.countBit).fsrc = s.fsrc := rfl
@[simp] theorem State.countBit_esrc (s : State) : (s.countBit).esrc = s.esrc := rfl
@[simp] theorem State.countBit_osink (s : State) : (s.countBit).osink = s.osink := rfl
@[simp] theorem State.countBit_raises (s : State) : (s.countBit).raises = s.raises := rfl
@[simp] theorem State.countBit_hostMoves (s : State) : (s.countBit).hostMoves = s.hostMoves := rfl
@[simp] theorem State.countBit_readData (s : State) : (s.countBit).readData = s.readData := rfl
@[simp] theorem State.loadByte_cntW (s : State) (r : Byte) : (s.loadByte r).cntW = s.cntW := rfl
@[simp] theorem State.loadByte_ftPres (s : State) (r : Byte) : (s.loadByte r).ftPres = s.ftPres := rfl
@[simp] theorem State.loadByte_ftCnt (s : State) (r : Byte) : (s.loadByte r).ftCnt = s.ftCnt := rfl
@[simp] theorem State.loadByte_nsyms (s : State) (r : Byte) : (s.loadByte r).nsyms = s.nsyms := rfl
@[simp] theorem State.loadByte_total (s : State) (r : Byte) : (s.loadByte r).total = s.total := rfl
@[simp] theorem State.loadByte_nodeW (s : State) (r : Byte) : (s.loadByte r).nodeW = s.nodeW := rfl
@[simp] theorem State.loadByte_nodeL (s : State) (r : Byte) : (s.loadByte r).nodeL = s.nodeL := rfl
@[simp] theorem State.loadByte_nodeR (s : State) (r : Byte) : (s.loadByte r).nodeR = s.nodeR := rfl
@[simp] theorem State.loadByte_nodeAct (s : State) (r : Byte) : (s.loadByte r).nodeAct = s.nodeAct := rfl
@[simp] theorem State.loadByte_nextId (s : State) (r : Byte) : (s.loadByte r).nextId = s.nextId := rfl
@[simp] theorem State.loadByte_root (s : State) (r : Byte) : (s.loadByte r).root = s.root := rfl
@[simp] theorem State.loadByte_treeValid (s : State) (r : Byte) : (s.loadByte r).treeValid = s.treeValid := rfl
@[simp] theorem State.loadByte_codeLen (s : State) (r : Byte) : (s.loadByte r).codeLen = s.codeLen := rfl
@[simp] theorem State.loadByte_codeBits (s : State) (r : Byte) : (s.loadByte r).codeBits = s.codeBits := rfl
@[simp] theorem State.loadByte_ctValid (s : State) (r : Byte) : (s.loadByte r).ctValid = s.ctValid := rfl
@[simp] theorem State.loadByte_hdrBits (s : State) (r : Byte) : (s.loadByte r).hdrBits = s.hdrBits := rfl
@[simp] theorem State.loadByte_phase (s : State) (r : Byte) : (s.loadByte r).phase = s.phase := rfl
@[simp] theorem State.loadByte_mode (s : State) (r : Byte) : (s.loadByte r).mode = s.mode := rfl
@[simp] theorem State.loadByte_cur (s : State) (r : Byte) : (s.loadByte r).cur = s.cur := rfl
@[simp] theorem State.loadByte_portHeld (s : State) (r : Byte) : (s.loadByte r).portHeld = s.portHeld := rfl
@[simp] theorem State.loadByte_err (s : State) (r : Byte) : (s.loadByte r).err = s.err := rfl
@[simp] theorem State.loadByte_errCmd (s : State) (r : Byte) : (s.loadByte r).errCmd = s.errCmd := rfl
@[simp] theorem State.loadByte_bwAcc (s : State) (r : Byte) : (s.loadByte r).bwAcc = s.bwAcc := rfl
@[simp] theorem State.loadByte_bwN (s : State) (r : Byte) : (s.loadByte r).bwN = s.bwN := rfl
@[simp] theorem State.loadByte_bwTotal (s : State) (r : Byte) : (s.loadByte r).bwTotal = s.bwTotal := rfl
@[simp] theorem State.loadByte_brBuf (s : State) (r : Byte) : (s.loadByte r).brBuf = r := rfl
@[simp] theorem State.loadByte_brLeft (s : State) (r : Byte) : (s.loadByte r).brLeft = 8 := rfl
@[simp] theorem State.loadByte_brTotal (s : State) (r : Byte) : (s.loadByte r).brTotal = s.brTotal := rfl
@[simp] theorem State.loadByte_src (s : State) (r : Byte) : (s.loadByte r).src = s.src := rfl
@[simp] theorem State.loadByte_fsink (s : State) (r : Byte) : (s.loadByte r).fsink = s.fsink := rfl
@[simp] theorem State.loadByte_esink (s : State) (r : Byte) : (s.loadByte r).esink = s.esink := rfl
@[simp] theorem State.loadByte_fsrc (s : State) (r : Byte) : (s.loadByte r).fsrc = s.fsrc := rfl
@[simp] theorem State.loadByte_esrc (s : State) (r : Byte) : (s.loadByte r).esrc = s.esrc := rfl
@[simp] theorem State.loadByte_osink (s : State) (r : Byte) : (s.loadByte r).osink = s.osink := rfl
@[simp] theorem State.loadByte_raises (s : State) (r : Byte) : (s.loadByte r).raises = s.raises := rfl
@[simp] theorem State.loadByte_hostMoves (s : State) (r : Byte) : (s.loadByte r).hostMoves = s.hostMoves := rfl
@[simp] theorem State.loadByte_readData (s : State) (r : Byte) : (s.loadByte r).readData = s.readData := rfl
@[simp] theorem State.dropBit_cntW (s : State) : (s.dropBit).cntW = s.cntW := rfl
@[simp] theorem State.dropBit_ftPres (s : State) : (s.dropBit).ftPres = s.ftPres := rfl
@[simp] theorem State.dropBit_ftCnt (s : State) : (s.dropBit).ftCnt = s.ftCnt := rfl
@[simp] theorem State.dropBit_nsyms (s : State) : (s.dropBit).nsyms = s.nsyms := rfl
@[simp] theorem State.dropBit_total (s : State) : (s.dropBit).total = s.total := rfl
@[simp] theorem State.dropBit_nodeW (s : State) : (s.dropBit).nodeW = s.nodeW := rfl
@[simp] theorem State.dropBit_nodeL (s : State) : (s.dropBit).nodeL = s.nodeL := rfl
@[simp] theorem State.dropBit_nodeR (s : State) : (s.dropBit).nodeR = s.nodeR := rfl
@[simp] theorem State.dropBit_nodeAct (s : State) : (s.dropBit).nodeAct = s.nodeAct := rfl
@[simp] theorem State.dropBit_nextId (s : State) : (s.dropBit).nextId = s.nextId := rfl
@[simp] theorem State.dropBit_root (s : State) : (s.dropBit).root = s.root := rfl
@[simp] theorem State.dropBit_treeValid (s : State) : (s.dropBit).treeValid = s.treeValid := rfl
@[simp] theorem State.dropBit_codeLen (s : State) : (s.dropBit).codeLen = s.codeLen := rfl
@[simp] theorem State.dropBit_codeBits (s : State) : (s.dropBit).codeBits = s.codeBits := rfl
@[simp] theorem State.dropBit_ctValid (s : State) : (s.dropBit).ctValid = s.ctValid := rfl
@[simp] theorem State.dropBit_hdrBits (s : State) : (s.dropBit).hdrBits = s.hdrBits := rfl
@[simp] theorem State.dropBit_phase (s : State) : (s.dropBit).phase = s.phase := rfl
@[simp] theorem State.dropBit_mode (s : State) : (s.dropBit).mode = s.mode := rfl
@[simp] theorem State.dropBit_cur (s : State) : (s.dropBit).cur = s.cur := rfl
@[simp] theorem State.dropBit_portHeld (s : State) : (s.dropBit).portHeld = s.portHeld := rfl
@[simp] theorem State.dropBit_err (s : State) : (s.dropBit).err = s.err := rfl
@[simp] theorem State.dropBit_errCmd (s : State) : (s.dropBit).errCmd = s.errCmd := rfl
@[simp] theorem State.dropBit_bwAcc (s : State) : (s.dropBit).bwAcc = s.bwAcc := rfl
@[simp] theorem State.dropBit_bwN (s : State) : (s.dropBit).bwN = s.bwN := rfl
@[simp] theorem State.dropBit_bwTotal (s : State) : (s.dropBit).bwTotal = s.bwTotal := rfl
@[simp] theorem State.dropBit_brBuf (s : State) : (s.dropBit).brBuf = s.brBuf := rfl
@[simp] theorem State.dropBit_brLeft (s : State) : (s.dropBit).brLeft = s.brLeft - 1 := rfl
@[simp] theorem State.dropBit_brTotal (s : State) : (s.dropBit).brTotal = s.brTotal + 1 := rfl
@[simp] theorem State.dropBit_src (s : State) : (s.dropBit).src = s.src := rfl
@[simp] theorem State.dropBit_fsink (s : State) : (s.dropBit).fsink = s.fsink := rfl
@[simp] theorem State.dropBit_esink (s : State) : (s.dropBit).esink = s.esink := rfl
@[simp] theorem State.dropBit_fsrc (s : State) : (s.dropBit).fsrc = s.fsrc := rfl
@[simp] theorem State.dropBit_esrc (s : State) : (s.dropBit).esrc = s.esrc := rfl
@[simp] theorem State.dropBit_osink (s : State) : (s.dropBit).osink = s.osink := rfl
@[simp] theorem State.dropBit_raises (s : State) : (s.dropBit).raises = s.raises := rfl
@[simp] theorem State.dropBit_hostMoves (s : State) : (s.dropBit).hostMoves = s.hostMoves := rfl
@[simp] theorem State.dropBit_readData (s : State) : (s.dropBit).readData = s.readData := rfl

/-! ### The decoder's cursor moved -/

@[simp] theorem State.moveTo_cntW (s : State) (id : NodeId) : (s.moveTo id).cntW = s.cntW := rfl
@[simp] theorem State.moveTo_ftPres (s : State) (id : NodeId) : (s.moveTo id).ftPres = s.ftPres := rfl
@[simp] theorem State.moveTo_ftCnt (s : State) (id : NodeId) : (s.moveTo id).ftCnt = s.ftCnt := rfl
@[simp] theorem State.moveTo_nsyms (s : State) (id : NodeId) : (s.moveTo id).nsyms = s.nsyms := rfl
@[simp] theorem State.moveTo_total (s : State) (id : NodeId) : (s.moveTo id).total = s.total := rfl
@[simp] theorem State.moveTo_nodeW (s : State) (id : NodeId) : (s.moveTo id).nodeW = s.nodeW := rfl
@[simp] theorem State.moveTo_nodeL (s : State) (id : NodeId) : (s.moveTo id).nodeL = s.nodeL := rfl
@[simp] theorem State.moveTo_nodeR (s : State) (id : NodeId) : (s.moveTo id).nodeR = s.nodeR := rfl
@[simp] theorem State.moveTo_nodeAct (s : State) (id : NodeId) : (s.moveTo id).nodeAct = s.nodeAct := rfl
@[simp] theorem State.moveTo_nextId (s : State) (id : NodeId) : (s.moveTo id).nextId = s.nextId := rfl
@[simp] theorem State.moveTo_root (s : State) (id : NodeId) : (s.moveTo id).root = s.root := rfl
@[simp] theorem State.moveTo_treeValid (s : State) (id : NodeId) : (s.moveTo id).treeValid = s.treeValid := rfl
@[simp] theorem State.moveTo_codeLen (s : State) (id : NodeId) : (s.moveTo id).codeLen = s.codeLen := rfl
@[simp] theorem State.moveTo_codeBits (s : State) (id : NodeId) : (s.moveTo id).codeBits = s.codeBits := rfl
@[simp] theorem State.moveTo_ctValid (s : State) (id : NodeId) : (s.moveTo id).ctValid = s.ctValid := rfl
@[simp] theorem State.moveTo_hdrBits (s : State) (id : NodeId) : (s.moveTo id).hdrBits = s.hdrBits := rfl
@[simp] theorem State.moveTo_phase (s : State) (id : NodeId) : (s.moveTo id).phase = s.phase := rfl
@[simp] theorem State.moveTo_mode (s : State) (id : NodeId) : (s.moveTo id).mode = s.mode := rfl
@[simp] theorem State.moveTo_cur (s : State) (id : NodeId) : (s.moveTo id).cur = id := rfl
@[simp] theorem State.moveTo_portHeld (s : State) (id : NodeId) : (s.moveTo id).portHeld = s.portHeld := rfl
@[simp] theorem State.moveTo_err (s : State) (id : NodeId) : (s.moveTo id).err = s.err := rfl
@[simp] theorem State.moveTo_errCmd (s : State) (id : NodeId) : (s.moveTo id).errCmd = s.errCmd := rfl
@[simp] theorem State.moveTo_bwAcc (s : State) (id : NodeId) : (s.moveTo id).bwAcc = s.bwAcc := rfl
@[simp] theorem State.moveTo_bwN (s : State) (id : NodeId) : (s.moveTo id).bwN = s.bwN := rfl
@[simp] theorem State.moveTo_bwTotal (s : State) (id : NodeId) : (s.moveTo id).bwTotal = s.bwTotal := rfl
@[simp] theorem State.moveTo_brBuf (s : State) (id : NodeId) : (s.moveTo id).brBuf = s.brBuf := rfl
@[simp] theorem State.moveTo_brLeft (s : State) (id : NodeId) : (s.moveTo id).brLeft = s.brLeft := rfl
@[simp] theorem State.moveTo_brTotal (s : State) (id : NodeId) : (s.moveTo id).brTotal = s.brTotal := rfl
@[simp] theorem State.moveTo_src (s : State) (id : NodeId) : (s.moveTo id).src = s.src := rfl
@[simp] theorem State.moveTo_fsink (s : State) (id : NodeId) : (s.moveTo id).fsink = s.fsink := rfl
@[simp] theorem State.moveTo_esink (s : State) (id : NodeId) : (s.moveTo id).esink = s.esink := rfl
@[simp] theorem State.moveTo_fsrc (s : State) (id : NodeId) : (s.moveTo id).fsrc = s.fsrc := rfl
@[simp] theorem State.moveTo_esrc (s : State) (id : NodeId) : (s.moveTo id).esrc = s.esrc := rfl
@[simp] theorem State.moveTo_osink (s : State) (id : NodeId) : (s.moveTo id).osink = s.osink := rfl
@[simp] theorem State.moveTo_raises (s : State) (id : NodeId) : (s.moveTo id).raises = s.raises := rfl
@[simp] theorem State.moveTo_hostMoves (s : State) (id : NodeId) : (s.moveTo id).hostMoves = s.hostMoves := rfl
@[simp] theorem State.moveTo_readData (s : State) (id : NodeId) : (s.moveTo id).readData = s.readData := rfl
@[simp] theorem State.toRoot_cntW (s : State) : (s.toRoot).cntW = s.cntW := by unfold State.toRoot; split <;> rfl
@[simp] theorem State.toRoot_ftPres (s : State) : (s.toRoot).ftPres = s.ftPres := by unfold State.toRoot; split <;> rfl
@[simp] theorem State.toRoot_ftCnt (s : State) : (s.toRoot).ftCnt = s.ftCnt := by unfold State.toRoot; split <;> rfl
@[simp] theorem State.toRoot_nsyms (s : State) : (s.toRoot).nsyms = s.nsyms := by unfold State.toRoot; split <;> rfl
@[simp] theorem State.toRoot_total (s : State) : (s.toRoot).total = s.total := by unfold State.toRoot; split <;> rfl
@[simp] theorem State.toRoot_nodeW (s : State) : (s.toRoot).nodeW = s.nodeW := by unfold State.toRoot; split <;> rfl
@[simp] theorem State.toRoot_nodeL (s : State) : (s.toRoot).nodeL = s.nodeL := by unfold State.toRoot; split <;> rfl
@[simp] theorem State.toRoot_nodeR (s : State) : (s.toRoot).nodeR = s.nodeR := by unfold State.toRoot; split <;> rfl
@[simp] theorem State.toRoot_nodeAct (s : State) : (s.toRoot).nodeAct = s.nodeAct := by unfold State.toRoot; split <;> rfl
@[simp] theorem State.toRoot_nextId (s : State) : (s.toRoot).nextId = s.nextId := by unfold State.toRoot; split <;> rfl
@[simp] theorem State.toRoot_root (s : State) : (s.toRoot).root = s.root := by unfold State.toRoot; split <;> rfl
@[simp] theorem State.toRoot_treeValid (s : State) : (s.toRoot).treeValid = s.treeValid := by unfold State.toRoot; split <;> rfl
@[simp] theorem State.toRoot_codeLen (s : State) : (s.toRoot).codeLen = s.codeLen := by unfold State.toRoot; split <;> rfl
@[simp] theorem State.toRoot_codeBits (s : State) : (s.toRoot).codeBits = s.codeBits := by unfold State.toRoot; split <;> rfl
@[simp] theorem State.toRoot_ctValid (s : State) : (s.toRoot).ctValid = s.ctValid := by unfold State.toRoot; split <;> rfl
@[simp] theorem State.toRoot_hdrBits (s : State) : (s.toRoot).hdrBits = s.hdrBits := by unfold State.toRoot; split <;> rfl
@[simp] theorem State.toRoot_phase (s : State) : (s.toRoot).phase = s.phase := by unfold State.toRoot; split <;> rfl
@[simp] theorem State.toRoot_mode (s : State) : (s.toRoot).mode = s.mode := by unfold State.toRoot; split <;> rfl
@[simp] theorem State.toRoot_cur (s : State) : (s.toRoot).cur = if s.treeValid then s.root else s.cur := by unfold State.toRoot; split <;> rfl
@[simp] theorem State.toRoot_portHeld (s : State) : (s.toRoot).portHeld = s.portHeld := by unfold State.toRoot; split <;> rfl
@[simp] theorem State.toRoot_err (s : State) : (s.toRoot).err = s.err := by unfold State.toRoot; split <;> rfl
@[simp] theorem State.toRoot_errCmd (s : State) : (s.toRoot).errCmd = s.errCmd := by unfold State.toRoot; split <;> rfl
@[simp] theorem State.toRoot_bwAcc (s : State) : (s.toRoot).bwAcc = s.bwAcc := by unfold State.toRoot; split <;> rfl
@[simp] theorem State.toRoot_bwN (s : State) : (s.toRoot).bwN = s.bwN := by unfold State.toRoot; split <;> rfl
@[simp] theorem State.toRoot_bwTotal (s : State) : (s.toRoot).bwTotal = s.bwTotal := by unfold State.toRoot; split <;> rfl
@[simp] theorem State.toRoot_brBuf (s : State) : (s.toRoot).brBuf = s.brBuf := by unfold State.toRoot; split <;> rfl
@[simp] theorem State.toRoot_brLeft (s : State) : (s.toRoot).brLeft = s.brLeft := by unfold State.toRoot; split <;> rfl
@[simp] theorem State.toRoot_brTotal (s : State) : (s.toRoot).brTotal = s.brTotal := by unfold State.toRoot; split <;> rfl
@[simp] theorem State.toRoot_src (s : State) : (s.toRoot).src = s.src := by unfold State.toRoot; split <;> rfl
@[simp] theorem State.toRoot_fsink (s : State) : (s.toRoot).fsink = s.fsink := by unfold State.toRoot; split <;> rfl
@[simp] theorem State.toRoot_esink (s : State) : (s.toRoot).esink = s.esink := by unfold State.toRoot; split <;> rfl
@[simp] theorem State.toRoot_fsrc (s : State) : (s.toRoot).fsrc = s.fsrc := by unfold State.toRoot; split <;> rfl
@[simp] theorem State.toRoot_esrc (s : State) : (s.toRoot).esrc = s.esrc := by unfold State.toRoot; split <;> rfl
@[simp] theorem State.toRoot_osink (s : State) : (s.toRoot).osink = s.osink := by unfold State.toRoot; split <;> rfl
@[simp] theorem State.toRoot_raises (s : State) : (s.toRoot).raises = s.raises := by unfold State.toRoot; split <;> rfl
@[simp] theorem State.toRoot_hostMoves (s : State) : (s.toRoot).hostMoves = s.hostMoves := by unfold State.toRoot; split <;> rfl
@[simp] theorem State.toRoot_readData (s : State) : (s.toRoot).readData = s.readData := by unfold State.toRoot; split <;> rfl

/-! ### A host register read -/

@[simp] theorem State.readRegister_cntW (s : State) (r : Nat) : (readRegister r s).cntW = s.cntW := rfl
@[simp] theorem State.readRegister_ftPres (s : State) (r : Nat) : (readRegister r s).ftPres = s.ftPres := rfl
@[simp] theorem State.readRegister_ftCnt (s : State) (r : Nat) : (readRegister r s).ftCnt = s.ftCnt := rfl
@[simp] theorem State.readRegister_nsyms (s : State) (r : Nat) : (readRegister r s).nsyms = s.nsyms := rfl
@[simp] theorem State.readRegister_total (s : State) (r : Nat) : (readRegister r s).total = s.total := rfl
@[simp] theorem State.readRegister_nodeW (s : State) (r : Nat) : (readRegister r s).nodeW = s.nodeW := rfl
@[simp] theorem State.readRegister_nodeL (s : State) (r : Nat) : (readRegister r s).nodeL = s.nodeL := rfl
@[simp] theorem State.readRegister_nodeR (s : State) (r : Nat) : (readRegister r s).nodeR = s.nodeR := rfl
@[simp] theorem State.readRegister_nodeAct (s : State) (r : Nat) : (readRegister r s).nodeAct = s.nodeAct := rfl
@[simp] theorem State.readRegister_nextId (s : State) (r : Nat) : (readRegister r s).nextId = s.nextId := rfl
@[simp] theorem State.readRegister_root (s : State) (r : Nat) : (readRegister r s).root = s.root := rfl
@[simp] theorem State.readRegister_treeValid (s : State) (r : Nat) : (readRegister r s).treeValid = s.treeValid := rfl
@[simp] theorem State.readRegister_codeLen (s : State) (r : Nat) : (readRegister r s).codeLen = s.codeLen := rfl
@[simp] theorem State.readRegister_codeBits (s : State) (r : Nat) : (readRegister r s).codeBits = s.codeBits := rfl
@[simp] theorem State.readRegister_ctValid (s : State) (r : Nat) : (readRegister r s).ctValid = s.ctValid := rfl
@[simp] theorem State.readRegister_hdrBits (s : State) (r : Nat) : (readRegister r s).hdrBits = s.hdrBits := rfl
@[simp] theorem State.readRegister_phase (s : State) (r : Nat) : (readRegister r s).phase = s.phase := rfl
@[simp] theorem State.readRegister_mode (s : State) (r : Nat) : (readRegister r s).mode = s.mode := rfl
@[simp] theorem State.readRegister_cur (s : State) (r : Nat) : (readRegister r s).cur = s.cur := rfl
@[simp] theorem State.readRegister_portHeld (s : State) (r : Nat) : (readRegister r s).portHeld = s.portHeld := rfl
@[simp] theorem State.readRegister_err (s : State) (r : Nat) : (readRegister r s).err = s.err := rfl
@[simp] theorem State.readRegister_errCmd (s : State) (r : Nat) : (readRegister r s).errCmd = s.errCmd := rfl
@[simp] theorem State.readRegister_bwAcc (s : State) (r : Nat) : (readRegister r s).bwAcc = s.bwAcc := rfl
@[simp] theorem State.readRegister_bwN (s : State) (r : Nat) : (readRegister r s).bwN = s.bwN := rfl
@[simp] theorem State.readRegister_bwTotal (s : State) (r : Nat) : (readRegister r s).bwTotal = s.bwTotal := rfl
@[simp] theorem State.readRegister_brBuf (s : State) (r : Nat) : (readRegister r s).brBuf = s.brBuf := rfl
@[simp] theorem State.readRegister_brLeft (s : State) (r : Nat) : (readRegister r s).brLeft = s.brLeft := rfl
@[simp] theorem State.readRegister_brTotal (s : State) (r : Nat) : (readRegister r s).brTotal = s.brTotal := rfl
@[simp] theorem State.readRegister_src (s : State) (r : Nat) : (readRegister r s).src = s.src := rfl
@[simp] theorem State.readRegister_fsink (s : State) (r : Nat) : (readRegister r s).fsink = s.fsink := rfl
@[simp] theorem State.readRegister_esink (s : State) (r : Nat) : (readRegister r s).esink = s.esink := rfl
@[simp] theorem State.readRegister_fsrc (s : State) (r : Nat) : (readRegister r s).fsrc = s.fsrc := rfl
@[simp] theorem State.readRegister_esrc (s : State) (r : Nat) : (readRegister r s).esrc = s.esrc := rfl
@[simp] theorem State.readRegister_osink (s : State) (r : Nat) : (readRegister r s).osink = s.osink := rfl
@[simp] theorem State.readRegister_raises (s : State) (r : Nat) : (readRegister r s).raises = s.raises := rfl
@[simp] theorem State.readRegister_hostMoves (s : State) (r : Nat) : (readRegister r s).hostMoves = s.hostMoves := rfl
@[simp] theorem State.readRegister_readData (s : State) (r : Nat) : (readRegister r s).readData = s.hostRegister r := rfl

/-! ### Streams, held ports and `MAXCNT` after an update -/

@[simp] theorem State.held_setSource (s : State) (p : SourcePort) (st : Source) (n' : Nat) : (s.setSource p st).held n' = s.held n' := by simp [State.held]
@[simp] theorem State.maxCnt_setSource (s : State) (p : SourcePort) (st : Source) : (s.setSource p st).maxCnt = s.maxCnt := by simp [State.maxCnt]
@[simp] theorem State.held_setSink (s : State) (q : SinkPort) (st : Sink) (n' : Nat) : (s.setSink q st).held n' = s.held n' := by simp [State.held]
@[simp] theorem State.maxCnt_setSink (s : State) (q : SinkPort) (st : Sink) : (s.setSink q st).maxCnt = s.maxCnt := by simp [State.maxCnt]
@[simp] theorem State.maxCnt_hold (s : State) (p : Nat) : (s.hold p).maxCnt = s.maxCnt := by simp [State.maxCnt]
@[simp] theorem State.maxCnt_releaseAll (s : State) : (s.releaseAll).maxCnt = s.maxCnt := by simp [State.maxCnt]
@[simp] theorem State.source_spoilSink (s : State) (q : SinkPort) (p' : SourcePort) : (s.spoilSink q).source p' = s.source p' := by cases p' <;> simp [State.source]
@[simp] theorem State.held_spoilSink (s : State) (q : SinkPort) (n' : Nat) : (s.spoilSink q).held n' = s.held n' := by simp [State.held]
@[simp] theorem State.maxCnt_spoilSink (s : State) (q : SinkPort) : (s.spoilSink q).maxCnt = s.maxCnt := by simp [State.maxCnt]
@[simp] theorem State.source_raiseError (s : State) (e : ErrorKind) (cmd : Byte) (p' : SourcePort) : (s.raiseError e cmd).source p' = s.source p' := by cases p' <;> simp [State.source]
@[simp] theorem State.maxCnt_raiseError (s : State) (e : ErrorKind) (cmd : Byte) : (s.raiseError e cmd).maxCnt = s.maxCnt := by simp [State.maxCnt]
@[simp] theorem State.maxCnt_cleared (s : State) : (s.cleared).maxCnt = s.maxCnt := by simp [State.maxCnt]
@[simp] theorem State.source_endSession (s : State) (p' : SourcePort) : (s.endSession).source p' = s.source p' := by cases p' <;> simp [State.source]
@[simp] theorem State.sink_endSession (s : State) (q' : SinkPort) : (s.endSession).sink q' = s.sink q' := by cases q' <;> simp [State.sink]
@[simp] theorem State.maxCnt_endSession (s : State) : (s.endSession).maxCnt = s.maxCnt := by simp [State.maxCnt]
@[simp] theorem State.source_resetBW (s : State) (p' : SourcePort) : (s.resetBW).source p' = s.source p' := by cases p' <;> simp [State.source]
@[simp] theorem State.sink_resetBW (s : State) (q' : SinkPort) : (s.resetBW).sink q' = s.sink q' := by cases q' <;> simp [State.sink]
@[simp] theorem State.held_resetBW (s : State) (n' : Nat) : (s.resetBW).held n' = s.held n' := by simp [State.held]
@[simp] theorem State.maxCnt_resetBW (s : State) : (s.resetBW).maxCnt = s.maxCnt := by simp [State.maxCnt]
@[simp] theorem State.source_resetBR (s : State) (p' : SourcePort) : (s.resetBR).source p' = s.source p' := by cases p' <;> simp [State.source]
@[simp] theorem State.sink_resetBR (s : State) (q' : SinkPort) : (s.resetBR).sink q' = s.sink q' := by cases q' <;> simp [State.sink]
@[simp] theorem State.held_resetBR (s : State) (n' : Nat) : (s.resetBR).held n' = s.held n' := by simp [State.held]
@[simp] theorem State.maxCnt_resetBR (s : State) : (s.resetBR).maxCnt = s.maxCnt := by simp [State.maxCnt]
@[simp] theorem State.source_seeded (s : State) (p' : SourcePort) : (s.seeded).source p' = s.source p' := by cases p' <;> simp [State.source]
@[simp] theorem State.sink_seeded (s : State) (q' : SinkPort) : (s.seeded).sink q' = s.sink q' := by cases q' <;> simp [State.sink]
@[simp] theorem State.held_seeded (s : State) (n' : Nat) : (s.seeded).held n' = s.held n' := by simp [State.held]
@[simp] theorem State.maxCnt_seeded (s : State) : (s.seeded).maxCnt = s.maxCnt := by simp [State.maxCnt]
@[simp] theorem State.source_mergeInto (s : State) (k : Fin 255) (a b : NodeId) (p' : SourcePort) : (s.mergeInto k a b).source p' = s.source p' := by cases p' <;> simp [State.source]
@[simp] theorem State.sink_mergeInto (s : State) (k : Fin 255) (a b : NodeId) (q' : SinkPort) : (s.mergeInto k a b).sink q' = s.sink q' := by cases q' <;> simp [State.sink]
@[simp] theorem State.held_mergeInto (s : State) (k : Fin 255) (a b : NodeId) (n' : Nat) : (s.mergeInto k a b).held n' = s.held n' := by simp [State.held]
@[simp] theorem State.maxCnt_mergeInto (s : State) (k : Fin 255) (a b : NodeId) : (s.mergeInto k a b).maxCnt = s.maxCnt := by simp [State.maxCnt]
@[simp] theorem State.source_setCode (s : State) (b : Symbol) (p : List Bit) (p' : SourcePort) : (s.setCode b p).source p' = s.source p' := by cases p' <;> simp [State.source]
@[simp] theorem State.sink_setCode (s : State) (b : Symbol) (p : List Bit) (q' : SinkPort) : (s.setCode b p).sink q' = s.sink q' := by cases q' <;> simp [State.sink]
@[simp] theorem State.held_setCode (s : State) (b : Symbol) (p : List Bit) (n' : Nat) : (s.setCode b p).held n' = s.held n' := by simp [State.held]
@[simp] theorem State.maxCnt_setCode (s : State) (b : Symbol) (p : List Bit) : (s.setCode b p).maxCnt = s.maxCnt := by simp [State.maxCnt]
@[simp] theorem State.source_deactivate (s : State) (m : NodeId) (p' : SourcePort) : (s.deactivate m).source p' = s.source p' := by cases p' <;> simp [State.source]
@[simp] theorem State.sink_deactivate (s : State) (m : NodeId) (q' : SinkPort) : (s.deactivate m).sink q' = s.sink q' := by cases q' <;> simp [State.sink]
@[simp] theorem State.held_deactivate (s : State) (m : NodeId) (n' : Nat) : (s.deactivate m).held n' = s.held n' := by simp [State.held]
@[simp] theorem State.maxCnt_deactivate (s : State) (m : NodeId) : (s.deactivate m).maxCnt = s.maxCnt := by simp [State.maxCnt]
@[simp] theorem State.source_rootedAt (s : State) (r : NodeId) (p' : SourcePort) : (s.rootedAt r).source p' = s.source p' := by cases p' <;> simp [State.source]
@[simp] theorem State.sink_rootedAt (s : State) (r : NodeId) (q' : SinkPort) : (s.rootedAt r).sink q' = s.sink q' := by cases q' <;> simp [State.sink]
@[simp] theorem State.held_rootedAt (s : State) (r : NodeId) (n' : Nat) : (s.rootedAt r).held n' = s.held n' := by simp [State.held]
@[simp] theorem State.maxCnt_rootedAt (s : State) (r : NodeId) : (s.rootedAt r).maxCnt = s.maxCnt := by simp [State.maxCnt]
@[simp] theorem State.source_noCodes (s : State) (p' : SourcePort) : (s.noCodes).source p' = s.source p' := by cases p' <;> simp [State.source]
@[simp] theorem State.sink_noCodes (s : State) (q' : SinkPort) : (s.noCodes).sink q' = s.sink q' := by cases q' <;> simp [State.sink]
@[simp] theorem State.held_noCodes (s : State) (n' : Nat) : (s.noCodes).held n' = s.held n' := by simp [State.held]
@[simp] theorem State.maxCnt_noCodes (s : State) : (s.noCodes).maxCnt = s.maxCnt := by simp [State.maxCnt]
@[simp] theorem State.source_derived (s : State) (p' : SourcePort) : (s.derived).source p' = s.source p' := by cases p' <;> simp [State.source]
@[simp] theorem State.sink_derived (s : State) (q' : SinkPort) : (s.derived).sink q' = s.sink q' := by cases q' <;> simp [State.sink]
@[simp] theorem State.held_derived (s : State) (n' : Nat) : (s.derived).held n' = s.held n' := by simp [State.held]
@[simp] theorem State.maxCnt_derived (s : State) : (s.derived).maxCnt = s.maxCnt := by simp [State.maxCnt]
@[simp] theorem State.source_countByte (s : State) (b : Symbol) (p' : SourcePort) : (s.countByte b).source p' = s.source p' := by cases p' <;> simp [State.source]
@[simp] theorem State.sink_countByte (s : State) (b : Symbol) (q' : SinkPort) : (s.countByte b).sink q' = s.sink q' := by cases q' <;> simp [State.sink]
@[simp] theorem State.held_countByte (s : State) (b : Symbol) (n' : Nat) : (s.countByte b).held n' = s.held n' := by simp [State.held]
@[simp] theorem State.maxCnt_countByte (s : State) (b : Symbol) : (s.countByte b).maxCnt = s.maxCnt := by simp [State.maxCnt]
@[simp] theorem State.source_enterKey (s : State) (b : Symbol) (n : Nat) (p' : SourcePort) : (s.enterKey b n).source p' = s.source p' := by cases p' <;> simp [State.source]
@[simp] theorem State.sink_enterKey (s : State) (b : Symbol) (n : Nat) (q' : SinkPort) : (s.enterKey b n).sink q' = s.sink q' := by cases q' <;> simp [State.sink]
@[simp] theorem State.held_enterKey (s : State) (b : Symbol) (n : Nat) (n' : Nat) : (s.enterKey b n).held n' = s.held n' := by simp [State.held]
@[simp] theorem State.maxCnt_enterKey (s : State) (b : Symbol) (n : Nat) : (s.enterKey b n).maxCnt = s.maxCnt := by simp [State.maxCnt]
@[simp] theorem State.source_enter (s : State) (v : Phase) (p' : SourcePort) : (s.enter v).source p' = s.source p' := by cases p' <;> simp [State.source]
@[simp] theorem State.sink_enter (s : State) (v : Phase) (q' : SinkPort) : (s.enter v).sink q' = s.sink q' := by cases q' <;> simp [State.sink]
@[simp] theorem State.held_enter (s : State) (v : Phase) (n' : Nat) : (s.enter v).held n' = s.held n' := by simp [State.held]
@[simp] theorem State.maxCnt_enter (s : State) (v : Phase) : (s.enter v).maxCnt = s.maxCnt := by simp [State.maxCnt]
@[simp] theorem State.source_setMode (s : State) (v : Mode) (p' : SourcePort) : (s.setMode v).source p' = s.source p' := by cases p' <;> simp [State.source]
@[simp] theorem State.sink_setMode (s : State) (v : Mode) (q' : SinkPort) : (s.setMode v).sink q' = s.sink q' := by cases q' <;> simp [State.sink]
@[simp] theorem State.held_setMode (s : State) (v : Mode) (n' : Nat) : (s.setMode v).held n' = s.held n' := by simp [State.held]
@[simp] theorem State.maxCnt_setMode (s : State) (v : Mode) : (s.setMode v).maxCnt = s.maxCnt := by simp [State.maxCnt]
@[simp] theorem State.source_setHdr (s : State) (v : BitVec 64) (p' : SourcePort) : (s.setHdr v).source p' = s.source p' := by cases p' <;> simp [State.source]
@[simp] theorem State.sink_setHdr (s : State) (v : BitVec 64) (q' : SinkPort) : (s.setHdr v).sink q' = s.sink q' := by cases q' <;> simp [State.sink]
@[simp] theorem State.held_setHdr (s : State) (v : BitVec 64) (n' : Nat) : (s.setHdr v).held n' = s.held n' := by simp [State.held]
@[simp] theorem State.maxCnt_setHdr (s : State) (v : BitVec 64) : (s.setHdr v).maxCnt = s.maxCnt := by simp [State.maxCnt]
@[simp] theorem State.source_placeBit (s : State) (b : Bit) (p' : SourcePort) : (s.placeBit b).source p' = s.source p' := by cases p' <;> simp [State.source]
@[simp] theorem State.sink_placeBit (s : State) (b : Bit) (q' : SinkPort) : (s.placeBit b).sink q' = s.sink q' := by cases q' <;> simp [State.sink]
@[simp] theorem State.held_placeBit (s : State) (b : Bit) (n' : Nat) : (s.placeBit b).held n' = s.held n' := by simp [State.held]
@[simp] theorem State.maxCnt_placeBit (s : State) (b : Bit) : (s.placeBit b).maxCnt = s.maxCnt := by simp [State.maxCnt]
@[simp] theorem State.source_emptyAcc (s : State) (p' : SourcePort) : (s.emptyAcc).source p' = s.source p' := by cases p' <;> simp [State.source]
@[simp] theorem State.sink_emptyAcc (s : State) (q' : SinkPort) : (s.emptyAcc).sink q' = s.sink q' := by cases q' <;> simp [State.sink]
@[simp] theorem State.held_emptyAcc (s : State) (n' : Nat) : (s.emptyAcc).held n' = s.held n' := by simp [State.held]
@[simp] theorem State.maxCnt_emptyAcc (s : State) : (s.emptyAcc).maxCnt = s.maxCnt := by simp [State.maxCnt]
@[simp] theorem State.source_countBit (s : State) (p' : SourcePort) : (s.countBit).source p' = s.source p' := by cases p' <;> simp [State.source]
@[simp] theorem State.sink_countBit (s : State) (q' : SinkPort) : (s.countBit).sink q' = s.sink q' := by cases q' <;> simp [State.sink]
@[simp] theorem State.held_countBit (s : State) (n' : Nat) : (s.countBit).held n' = s.held n' := by simp [State.held]
@[simp] theorem State.maxCnt_countBit (s : State) : (s.countBit).maxCnt = s.maxCnt := by simp [State.maxCnt]
@[simp] theorem State.source_loadByte (s : State) (r : Byte) (p' : SourcePort) : (s.loadByte r).source p' = s.source p' := by cases p' <;> simp [State.source]
@[simp] theorem State.sink_loadByte (s : State) (r : Byte) (q' : SinkPort) : (s.loadByte r).sink q' = s.sink q' := by cases q' <;> simp [State.sink]
@[simp] theorem State.held_loadByte (s : State) (r : Byte) (n' : Nat) : (s.loadByte r).held n' = s.held n' := by simp [State.held]
@[simp] theorem State.maxCnt_loadByte (s : State) (r : Byte) : (s.loadByte r).maxCnt = s.maxCnt := by simp [State.maxCnt]
@[simp] theorem State.source_dropBit (s : State) (p' : SourcePort) : (s.dropBit).source p' = s.source p' := by cases p' <;> simp [State.source]
@[simp] theorem State.sink_dropBit (s : State) (q' : SinkPort) : (s.dropBit).sink q' = s.sink q' := by cases q' <;> simp [State.sink]
@[simp] theorem State.held_dropBit (s : State) (n' : Nat) : (s.dropBit).held n' = s.held n' := by simp [State.held]
@[simp] theorem State.maxCnt_dropBit (s : State) : (s.dropBit).maxCnt = s.maxCnt := by simp [State.maxCnt]
@[simp] theorem State.source_moveTo (s : State) (id : NodeId) (p' : SourcePort) : (s.moveTo id).source p' = s.source p' := by cases p' <;> simp [State.source]
@[simp] theorem State.sink_moveTo (s : State) (id : NodeId) (q' : SinkPort) : (s.moveTo id).sink q' = s.sink q' := by cases q' <;> simp [State.sink]
@[simp] theorem State.held_moveTo (s : State) (id : NodeId) (n' : Nat) : (s.moveTo id).held n' = s.held n' := by simp [State.held]
@[simp] theorem State.maxCnt_moveTo (s : State) (id : NodeId) : (s.moveTo id).maxCnt = s.maxCnt := by simp [State.maxCnt]
@[simp] theorem State.source_toRoot (s : State) (p' : SourcePort) : (s.toRoot).source p' = s.source p' := by cases p' <;> simp [State.source]
@[simp] theorem State.sink_toRoot (s : State) (q' : SinkPort) : (s.toRoot).sink q' = s.sink q' := by cases q' <;> simp [State.sink]
@[simp] theorem State.held_toRoot (s : State) (n' : Nat) : (s.toRoot).held n' = s.held n' := by simp [State.held]
@[simp] theorem State.maxCnt_toRoot (s : State) : (s.toRoot).maxCnt = s.maxCnt := by simp [State.maxCnt]
@[simp] theorem State.source_readRegister (s : State) (r : Nat) (p' : SourcePort) : (readRegister r s).source p' = s.source p' := by cases p' <;> simp [State.source]
@[simp] theorem State.sink_readRegister (s : State) (r : Nat) (q' : SinkPort) : (readRegister r s).sink q' = s.sink q' := by cases q' <;> simp [State.sink]
@[simp] theorem State.held_readRegister (s : State) (r : Nat) (n' : Nat) : (readRegister r s).held n' = s.held n' := by simp [State.held]
@[simp] theorem State.maxCnt_readRegister (s : State) (r : Nat) : (readRegister r s).maxCnt = s.maxCnt := by simp [State.maxCnt]

end Sys2Proof.Machine
end

