-- ==== Sys2Proof/Laws/Proc.lean ====
section
/-!
SUPPORT. The laws of procedures: what a sequence of two answers, when it answers a result, and what a procedure keeps.
-/

namespace Sys2Proof.Machine

variable {α β : Type}

@[simp] theorem Proc.pure_run (a : α) (s : State) : (pure a : Proc α) s = .ok a s := rfl

@[simp] theorem Proc.get_run (s : State) : (get : Proc State) s = .ok s s := rfl

@[simp] theorem Proc.set_run (t s : State) : (set t : Proc Unit) s = .ok () t := rfl

@[simp] theorem Proc.modify_run (f : State → State) (s : State) : (modify f : Proc Unit) s = .ok () (f s) := rfl

@[simp] theorem Proc.throw_run (e : Stop) (s : State) : (throw e : Proc α) s = .error e s := rfl

theorem Proc.bind_run (x : Proc α) (f : α → Proc β) (s : State) :
    (x >>= f) s = match x s with
      | .ok a t => f a t
      | .error e t => .error e t := by
  cases h : x s <;> simp [bind, EStateM.bind, h]

/-- A sequence whose first part answers a result goes on with it. -/
theorem Proc.bind_of_ok {x : Proc α} {f : α → Proc β} {s t : State} {a : α} (h : x s = .ok a t) :
    (x >>= f) s = f a t := by rw [Proc.bind_run, h]

/-- A sequence whose first part stops, stops there. -/
theorem Proc.bind_of_error {x : Proc α} {f : α → Proc β} {s t : State} {e : Stop} (h : x s = .error e t) :
    (x >>= f) s = .error e t := by rw [Proc.bind_run, h]

/-- A sequence answers a result exactly where both its parts do. -/
theorem Proc.bind_ok_iff {x : Proc α} {f : α → Proc β} {s u : State} {b : β} :
    (x >>= f) s = .ok b u ↔ ∃ a t, x s = .ok a t ∧ f a t = .ok b u := by
  rw [Proc.bind_run]
  cases h : x s with
  | ok a t => simp
  | error e t => simp

/-- A sequence stops exactly where one of its parts does. -/
theorem Proc.bind_error_iff {x : Proc α} {f : α → Proc β} {s u : State} {e : Stop} :
    (x >>= f) s = .error e u ↔ x s = .error e u ∨ ∃ a t, x s = .ok a t ∧ f a t = .error e u := by
  rw [Proc.bind_run]
  cases h : x s with
  | ok a t => simp
  | error e' t => simp

@[simp] theorem Proc.get_bind_run (f : State → Proc β) (s : State) : ((get : Proc State) >>= f) s = f s s := rfl

@[simp] theorem Proc.set_bind_run (t : State) (f : Unit → Proc β) (s : State) :
    ((set t : Proc Unit) >>= f) s = f () t := rfl

@[simp] theorem Proc.modify_bind_run (g : State → State) (f : Unit → Proc β) (s : State) :
    ((modify g : Proc Unit) >>= f) s = f () (g s) := rfl

@[simp] theorem Proc.pure_bind_run (a : α) (f : α → Proc β) (s : State) : ((pure a : Proc α) >>= f) s = f a s := rfl

/-! ### What a procedure keeps -/

/-- The state in which a procedure ends, with a result or at a stop. -/
def endState : EStateM.Result Stop State α → State
  | .ok _ s => s
  | .error _ s => s

@[simp] theorem endState_ok (a : α) (s : State) : endState (.ok a s) = s := rfl

@[simp] theorem endState_error (e : Stop) (s : State) : endState (.error e s : EStateM.Result Stop State α) = s := rfl

/-- A procedure keeps a property of the state: it holds at the end, with a result or at a stop, where it held at the start. -/
def Keeps (P : State → Prop) (x : Proc α) : Prop := ∀ s, P s → P (endState (x s))

variable {P : State → Prop}

theorem Keeps.ok {x : Proc α} (h : Keeps P x) {s t : State} {a : α} (hs : P s) (hx : x s = .ok a t) : P t := by
  have := h s hs
  rwa [hx] at this

theorem Keeps.error {x : Proc α} (h : Keeps P x) {s t : State} {e : Stop} (hs : P s) (hx : x s = .error e t) : P t := by
  have := h s hs
  rwa [hx] at this

theorem Keeps.pure (a : α) : Keeps P (pure a : Proc α) := fun _ h => h

theorem Keeps.throw (e : Stop) : Keeps P (throw e : Proc α) := fun _ h => h

theorem Keeps.get : Keeps P (get : Proc State) := fun _ h => h

theorem Keeps.modify {f : State → State} (h : ∀ s, P s → P (f s)) : Keeps P (modify f : Proc Unit) := h

/-- A sequence keeps what its first part keeps and its second part keeps after every result of the first. -/
theorem Keeps.bind {x : Proc α} {f : α → Proc β} (hx : Keeps P x) (hf : ∀ a, Keeps P (f a)) : Keeps P (x >>= f) := by
  intro s hs
  rw [Proc.bind_run]
  cases h : x s with
  | ok a t => exact hf a t (hx.ok hs h)
  | error e t => exact hx.error hs h

/-- A procedure that reads the state first keeps what it keeps with each state that it may read. -/
theorem Keeps.get_bind {f : State → Proc β} (h : ∀ s, P s → P (endState (f s s))) :
    Keeps P ((MonadState.get : Proc State) >>= f) := h

theorem Keeps.ite {c : Prop} [Decidable c] {x y : Proc α} (hx : Keeps P x) (hy : Keeps P y) :
    Keeps P (if c then x else y) := by
  split
  · exact hx
  · exact hy

end Sys2Proof.Machine
end

