-- ==== Sys2Proof/Laws/Stores.lean ====
section
/-!
SUPPORT. Reading an entry of a store after a write, the children of a node, and the symbols that are present.
-/

namespace Sys2Proof.Machine

variable {α : Type}

theorem symbol_ne_toNat {a b : Symbol} (h : a ≠ b) : a.toNat ≠ b.toNat := fun e => h (BitVec.eq_of_toNat_eq e)

/-- An entry read after it is written gives the value written. -/
@[simp] theorem atSym_putSym_same (v : Vector α 256) (b : Symbol) (x : α) : atSym (putSym v b x) b = x := by
  simp [atSym, putSym]

/-- A write leaves every other entry alone. -/
theorem atSym_putSym_ne (v : Vector α 256) {a b : Symbol} (x : α) (h : a ≠ b) :
    atSym (putSym v b x) a = atSym v a := by
  simp [atSym, putSym, (symbol_ne_toNat h).symm]

theorem atSym_putSym (v : Vector α 256) (a b : Symbol) (x : α) :
    atSym (putSym v b x) a = if a = b then x else atSym v a := by
  split
  · subst_vars; simp
  · exact atSym_putSym_ne v x ‹_›

@[simp] theorem atSym_replicate (x : α) (b : Symbol) : atSym (Vector.replicate 256 x) b = x := by
  simp [atSym]

/-- Two stores indexed by symbol with the same entries are the same. -/
theorem vector_ext_atSym {v w : Vector α 256} (h : ∀ b, atSym v b = atSym w b) : v = w := by
  ext i hi
  have := h (BitVec.ofNat 8 i)
  simpa [atSym, Nat.mod_eq_of_lt hi] using this

@[simp] theorem getElem_tabulate {n : Nat} (f : Fin n → α) (i : Nat) (h : i < n) :
    (tabulate n f)[i] = f ⟨i, h⟩ := by
  simp [tabulate]

/-- `childAt` of an internal node is its entry. -/
theorem childAt_innerId (v : Vector NodeId 255) (k : Fin 255) : childAt v (innerId k) = v[k] := by
  simp [childAt, innerId]

theorem childAt_set_same (v : Vector NodeId 255) (k : Fin 255) (a : NodeId) :
    childAt (v.set k.val a) (innerId k) = a := by
  simp [childAt_innerId]

theorem childAt_set_ne (v : Vector NodeId 255) (k : Fin 255) (a : NodeId) {id : NodeId} (h : id ≠ innerId k) :
    childAt (v.set k.val a) id = childAt v id := by
  unfold childAt
  split
  · rename_i hid
    rw [Vector.getElem_set_ne]
    intro e
    apply h
    apply Fin.ext
    simp [innerId]
    omega
  · rfl

theorem isLeaf_iff (id : NodeId) : isLeaf id = true ↔ id.val < 256 := by simp [isLeaf]

theorem isLeaf_false_iff (id : NodeId) : isLeaf id = false ↔ 256 ≤ id.val := by simp [isLeaf]

@[simp] theorem isLeaf_leafId (b : Symbol) : isLeaf (leafId b) = true := by
  simp [isLeaf, leafId, b.isLt]

@[simp] theorem isLeaf_innerId (k : Fin 255) : isLeaf (innerId k) = false := by
  simp [isLeaf, innerId]

@[simp] theorem symbolOf_leafId (b : Symbol) : symbolOf (leafId b) = b := by
  simp [symbolOf, leafId]

theorem leafId_symbolOf {id : NodeId} (h : isLeaf id = true) : leafId (symbolOf id) = id := by
  rw [isLeaf_iff] at h
  apply Fin.ext
  simp [leafId, symbolOf]
  omega

theorem leafId_injective {a b : Symbol} (h : leafId a = leafId b) : a = b := by
  have := congrArg symbolOf h
  simpa using this

/-! ### The indices at which a bit is set -/

theorem mem_setIndices_iff {ι : Type} {ids : List ι} {bits : List Bool} {x : ι} :
    x ∈ setIndices ids bits ↔ (x, true) ∈ ids.zip bits := by
  simp [setIndices]

theorem setIndices_sublist {ι : Type} (ids : List ι) (bits : List Bool) : (setIndices ids bits).Sublist ids := by
  induction ids generalizing bits with
  | nil => simp [setIndices]
  | cons i ids ih =>
    cases bits with
    | nil => simp [setIndices]
    | cons b bits =>
      cases b with
      | false => simpa [setIndices] using (ih bits).cons i
      | true => simpa [setIndices] using (ih bits).cons_cons i

theorem mem_allSymbols (b : Symbol) : b ∈ allSymbols := by
  simp only [allSymbols, List.mem_map, List.mem_range]
  exact ⟨b.toNat, b.isLt, by simp⟩

theorem allSymbols_nodup : allSymbols.Nodup := by
  unfold allSymbols
  refine List.Nodup.map_on ?_ List.nodup_range
  intro x hx y hy h
  simp only [List.mem_range] at hx hy
  have := congrArg BitVec.toNat h
  simpa [Nat.mod_eq_of_lt hx, Nat.mod_eq_of_lt hy] using this

@[simp] theorem length_allSymbols : allSymbols.length = 256 := by simp [allSymbols]

theorem getElem_allSymbols (i : Nat) (h : i < allSymbols.length) : allSymbols[i] = BitVec.ofNat 8 i := by
  simp [allSymbols]

/-- The entries of a store in the order of the symbols are the store. -/
theorem map_atSym_allSymbols (v : Vector α 256) : allSymbols.map (atSym v) = v.toList := by
  refine List.ext_getElem (by simp) fun i h _ => ?_
  have hi : i < 256 := by simpa using h
  simp [getElem_allSymbols, atSym, Nat.mod_eq_of_lt hi]

/-- The present symbols are the symbols whose bit of `FT_PRES` is set. -/
theorem mem_presentSymbols (s : State) (b : Symbol) : b ∈ s.presentSymbols ↔ atSym s.ftPres b = true := by
  rw [State.presentSymbols, mem_setIndices_iff, List.mem_iff_getElem]
  constructor
  · rintro ⟨i, hi, h⟩
    simp only [List.getElem_zip, Prod.mk.injEq, getElem_allSymbols, Vector.getElem_toList] at h
    obtain ⟨rfl, h⟩ := h
    have hi' : i < 256 := by simp at hi; exact hi
    simpa [atSym, Nat.mod_eq_of_lt hi'] using h
  · intro h
    refine ⟨b.toNat, by simpa using b.isLt, ?_⟩
    simp only [List.getElem_zip, Prod.mk.injEq, getElem_allSymbols, Vector.getElem_toList]
    exact ⟨by simp, h⟩

theorem presentSymbols_nodup (s : State) : s.presentSymbols.Nodup :=
  allSymbols_nodup.sublist (setIndices_sublist _ _)

/-- The active ids are the ids whose bit of `NODE_ACT` is set. -/
theorem mem_activeIds (s : State) (id : NodeId) : id ∈ s.activeIds ↔ s.nodeAct[id] = true := by
  rw [State.activeIds, mem_setIndices_iff, List.mem_iff_getElem]
  constructor
  · rintro ⟨i, hi, h⟩
    simp only [List.getElem_zip, Prod.mk.injEq, List.getElem_finRange, Vector.getElem_toList] at h
    obtain ⟨rfl, h⟩ := h
    exact h
  · intro h
    refine ⟨id.val, by simp, ?_⟩
    simp only [List.getElem_zip, Prod.mk.injEq, List.getElem_finRange, Vector.getElem_toList]
    exact ⟨rfl, h⟩

theorem activeIds_nodup (s : State) : s.activeIds.Nodup :=
  (List.nodup_finRange 511).sublist (setIndices_sublist _ _)

/-! ### The seed of `BUILD` -/

theorem seedActive_toList (s : State) : s.seedActive.toList = s.ftPres.toList ++ List.replicate 255 false := rfl

/-- After the seed a leaf is active exactly where its symbol is present. -/
theorem seedActive_leaf (s : State) (b : Symbol) : s.seedActive[leafId b] = atSym s.ftPres b := by
  have h : s.seedActive.toList[b.toNat]? = s.ftPres.toList[b.toNat]? := by
    rw [seedActive_toList, List.getElem?_append_left (by simpa using b.isLt)]
  rw [List.getElem?_eq_getElem (by rw [Vector.length_toList]; exact (leafId b).isLt),
    List.getElem?_eq_getElem (by simpa using b.isLt), Option.some.injEq] at h
  simpa [leafId, atSym] using h

/-- After the seed no internal node is active. -/
theorem seedActive_inner (s : State) (k : Fin 255) : s.seedActive[innerId k] = false := by
  have h : s.seedActive.toList[256 + k.val]? = some false := by
    rw [seedActive_toList, List.getElem?_append_right (by simp), Vector.length_toList, Nat.add_sub_cancel_left,
      List.getElem?_eq_getElem (by rw [List.length_replicate]; exact k.isLt), List.getElem_replicate]
  rw [List.getElem?_eq_getElem (by rw [Vector.length_toList]; exact (innerId k).isLt), Option.some.injEq] at h
  simpa [innerId] using h

end Sys2Proof.Machine
end

