-- ==== Sys2Proof/Laws/Ops.lean ====
section
/-!
SUPPORT. What each port operation does: its answer where the access goes through, where the environment fails it and where the
port is not held; and what holds of the state whenever it answers a result.
-/

namespace Sys2Proof.Machine

/-! ### The environment's answers -/

theorem failsNext_of_neverFails {fails : List Bool} (h : neverFails fails) : failsNext fails = false := by
  cases fails with
  | nil => rfl
  | cons b bs => exact h b (by simp)

theorem neverFails_tail {fails : List Bool} (h : neverFails fails) : neverFails fails.tail :=
  fun b hb => h b (List.mem_of_mem_tail hb)

@[simp] theorem failsOf_setSource (s : State) (p : SourcePort) (st : Source) (n : Nat) :
    (s.setSource p st).failsOf n = if n = p.num then st.fails else s.failsOf n := by
  cases p <;> unfold State.failsOf <;> split <;> simp_all [State.setSource, SourcePort.num]

@[simp] theorem failsOf_setSink (s : State) (q : SinkPort) (st : Sink) (n : Nat) :
    (s.setSink q st).failsOf n = if n = q.num then st.fails else s.failsOf n := by
  cases q <;> unfold State.failsOf <;> split <;> simp_all [State.setSink, SinkPort.num]

/-- The answers left are those of the six streams. -/
theorem failsOf_congr {s t : State} (h0 : t.src = s.src) (h1 : t.fsink.fails = s.fsink.fails)
    (h2 : t.esink.fails = s.esink.fails) (h3 : t.fsrc = s.fsrc) (h4 : t.esrc = s.esrc)
    (h5 : t.osink.fails = s.osink.fails) : t.failsOf = s.failsOf := by
  funext n
  unfold State.failsOf
  split <;> simp_all

/-- Raising an error takes no answer. -/
@[simp] theorem failsOf_raiseError (s : State) (e : ErrorKind) (cmd : Byte) : (s.raiseError e cmd).failsOf = s.failsOf := by
  refine failsOf_congr ?_ ?_ ?_ ?_ ?_ ?_ <;>
    (simp only [State.raiseError, State.releaseAll, State.spoilSink, State.setSink, State.sink]; repeat' split) <;> rfl

@[simp] theorem failsOf_cleared (s : State) : s.cleared.failsOf = s.failsOf := rfl

theorem neverFails_drop {fails : List Bool} (h : neverFails fails) (n : Nat) : neverFails (fails.drop n) :=
  fun b hb => h b (List.mem_of_mem_drop hb)

/-! ### Held ports -/

theorem setBit_getLsbD {w : Nat} (v : BitVec w) (i j : Nat) (b : Bit) :
    (setBit v i b).getLsbD j = if j = i then decide (i < w) && b else v.getLsbD j := by
  unfold setBit
  by_cases h : j = i
  · subst h
    cases b
    · simp [BitVec.getLsbD_twoPow]
    · by_cases hw : j < w <;> simp [BitVec.getLsbD_twoPow, hw]
  · cases b
    · by_cases hw : j < w
      · simp [h, hw]
      · simp [h, BitVec.getLsbD_of_ge v j (by omega)]
    · by_cases hw : j < w
      · simp [h, hw]
      · simp [h, BitVec.getLsbD_of_ge v j (by omega)]
        omega

/-- A port is held after it is held. -/
@[simp] theorem held_hold_source (s : State) (p : SourcePort) : (s.hold p.num).held p.num = true := by
  cases p <;> simp [State.held, State.hold, setBit_getLsbD, SourcePort.num]

@[simp] theorem held_hold_sink (s : State) (q : SinkPort) : (s.hold q.num).held q.num = true := by
  cases q <;> simp [State.held, State.hold, setBit_getLsbD, SinkPort.num]

/-- Holding a port leaves the other ports as they are. -/
theorem held_hold_ne (s : State) {p n : Nat} (h : n ≠ p) : (s.hold p).held n = s.held n := by
  simp [State.held, State.hold, setBit_getLsbD, h]

@[simp] theorem held_releaseAll (s : State) (n : Nat) : s.releaseAll.held n = false := by
  simp [State.held, State.releaseAll]

/-! ### `Open` -/

theorem openSource_of_go {p : SourcePort} {s : State} (h : failsNext (s.source p).fails = false) :
    openSource p s =
      .ok () ((s.setSource p { s.source p with pos := 0, fails := (s.source p).fails.tail }).hold p.num) := by
  simp [openSource, h]

theorem openSource_of_fail {p : SourcePort} {s : State} (h : failsNext (s.source p).fails = true) :
    openSource p s =
      .error (.raised .ioError) (s.setSource p { s.source p with fails := (s.source p).fails.tail }) := by
  simp [openSource, h]

theorem openSource_ok_inv {p : SourcePort} {s t : State} (h : openSource p s = .ok () t) :
    failsNext (s.source p).fails = false ∧
      t = (s.setSource p { s.source p with pos := 0, fails := (s.source p).fails.tail }).hold p.num := by
  cases hf : failsNext (s.source p).fails with
  | true => simp [openSource_of_fail hf] at h
  | false => simpa [openSource_of_go hf, eq_comm] using h

theorem openSink_of_go {q : SinkPort} {s : State} (h : failsNext (s.sink q).fails = false) :
    openSink q s = .ok () ((s.setSink q { data := [], fails := (s.sink q).fails.tail }).hold q.num) := by
  simp [openSink, h]

theorem openSink_of_fail {q : SinkPort} {s : State} (h : failsNext (s.sink q).fails = true) :
    openSink q s = .error (.raised .ioError) (s.setSink q { s.sink q with fails := (s.sink q).fails.tail }) := by
  simp [openSink, h]

theorem openSink_ok_inv {q : SinkPort} {s t : State} (h : openSink q s = .ok () t) :
    failsNext (s.sink q).fails = false ∧
      t = (s.setSink q { data := [], fails := (s.sink q).fails.tail }).hold q.num := by
  cases hf : failsNext (s.sink q).fails with
  | true => simp [openSink_of_fail hf] at h
  | false => simpa [openSink_of_go hf, eq_comm] using h

/-! ### `Get` -/

theorem getByte_of_byte {p : SourcePort} {s : State} {b : Byte} (hh : s.held p.num = true)
    (hf : failsNext (s.source p).fails = false) (hb : (s.source p).data[(s.source p).pos]? = some b) :
    getByte p s =
      .ok (some b)
        (s.setSource p { s.source p with pos := (s.source p).pos + 1, fails := (s.source p).fails.tail }) := by
  simp [getByte, hh, hf, hb]

theorem getByte_of_end {p : SourcePort} {s : State} (hh : s.held p.num = true)
    (hf : failsNext (s.source p).fails = false) (hb : (s.source p).data.length ≤ (s.source p).pos) :
    getByte p s = .ok none (s.setSource p { s.source p with fails := (s.source p).fails.tail }) := by
  simp [getByte, hh, hf, List.getElem?_eq_none hb]

theorem getByte_of_fail {p : SourcePort} {s : State} (hh : s.held p.num = true)
    (hf : failsNext (s.source p).fails = true) :
    getByte p s =
      .error (.raised .ioError) (s.setSource p { s.source p with fails := (s.source p).fails.tail }) := by
  simp [getByte, hh, hf]

theorem getByte_of_not_held {p : SourcePort} {s : State} (hh : s.held p.num = false) :
    getByte p s = .error (.stuck .portNotHeld) s := by
  simp [getByte, hh]

/-- `Get` answers the byte at the cursor and moves past it, or answers the end and stays. -/
theorem getByte_ok_inv {p : SourcePort} {s t : State} {r : Option Byte} (h : getByte p s = .ok r t) :
    s.held p.num = true ∧ failsNext (s.source p).fails = false ∧
      r = (s.source p).data[(s.source p).pos]? ∧
      t = s.setSource p
        { s.source p with
          pos := if r.isSome then (s.source p).pos + 1 else (s.source p).pos
          fails := (s.source p).fails.tail } := by
  cases hh : s.held p.num with
  | false => simp [getByte_of_not_held hh] at h
  | true =>
    cases hf : failsNext (s.source p).fails with
    | true => simp [getByte_of_fail hh hf] at h
    | false =>
      cases hb : (s.source p).data[(s.source p).pos]? with
      | none =>
        rw [getByte_of_end hh hf (List.getElem?_eq_none_iff.mp hb)] at h
        obtain ⟨rfl, rfl⟩ := EStateM.Result.ok.inj h
        simp
      | some b =>
        rw [getByte_of_byte hh hf hb] at h
        obtain ⟨rfl, rfl⟩ := EStateM.Result.ok.inj h
        simp

/-- `Get` stops by an `IoError`, with the failed access used up, or because the port is not held. -/
theorem getByte_error_inv {p : SourcePort} {s t : State} {e : Stop} (h : getByte p s = .error e t) :
    (s.held p.num = false ∧ e = .stuck .portNotHeld ∧ t = s) ∨
      (s.held p.num = true ∧ failsNext (s.source p).fails = true ∧ e = .raised .ioError ∧
        t = s.setSource p { s.source p with fails := (s.source p).fails.tail }) := by
  cases hh : s.held p.num with
  | false =>
    rw [getByte_of_not_held hh] at h
    obtain ⟨rfl, rfl⟩ := EStateM.Result.error.inj h
    simp
  | true =>
    cases hf : failsNext (s.source p).fails with
    | true =>
      rw [getByte_of_fail hh hf] at h
      obtain ⟨rfl, rfl⟩ := EStateM.Result.error.inj h
      simp
    | false =>
      cases hb : (s.source p).data[(s.source p).pos]? with
      | none =>
        rw [getByte_of_end hh hf (List.getElem?_eq_none_iff.mp hb)] at h
        exact absurd h (by simp)
      | some b =>
        rw [getByte_of_byte hh hf hb] at h
        exact absurd h (by simp)

/-! ### `Put` -/

theorem putByte_of_go {q : SinkPort} {s : State} {b : Byte} (hh : s.held q.num = true)
    (hf : failsNext (s.sink q).fails = false) :
    putByte q b s = .ok () (s.setSink q ⟨(s.sink q).data ++ [b], (s.sink q).fails.tail⟩) := by
  simp [putByte, hh, hf]

theorem putByte_of_fail {q : SinkPort} {s : State} {b : Byte} (hh : s.held q.num = true)
    (hf : failsNext (s.sink q).fails = true) :
    putByte q b s = .error (.raised .ioError) (s.setSink q { s.sink q with fails := (s.sink q).fails.tail }) := by
  simp [putByte, hh, hf]

theorem putByte_of_not_held {q : SinkPort} {s : State} {b : Byte} (hh : s.held q.num = false) :
    putByte q b s = .error (.stuck .portNotHeld) s := by
  simp [putByte, hh]

theorem putByte_ok_inv {q : SinkPort} {s t : State} {b : Byte} (h : putByte q b s = .ok () t) :
    s.held q.num = true ∧ failsNext (s.sink q).fails = false ∧
      t = s.setSink q ⟨(s.sink q).data ++ [b], (s.sink q).fails.tail⟩ := by
  cases hh : s.held q.num with
  | false => simp [putByte_of_not_held hh] at h
  | true =>
    cases hf : failsNext (s.sink q).fails with
    | true => simp [putByte_of_fail hh hf] at h
    | false => simpa [putByte_of_go hh hf, eq_comm] using h

theorem putByte_error_inv {q : SinkPort} {s t : State} {b : Byte} {e : Stop} (h : putByte q b s = .error e t) :
    (s.held q.num = false ∧ e = .stuck .portNotHeld ∧ t = s) ∨
      (s.held q.num = true ∧ failsNext (s.sink q).fails = true ∧ e = .raised .ioError ∧
        t = s.setSink q { s.sink q with fails := (s.sink q).fails.tail }) := by
  cases hh : s.held q.num with
  | false =>
    rw [putByte_of_not_held hh] at h
    obtain ⟨rfl, rfl⟩ := EStateM.Result.error.inj h
    simp
  | true =>
    cases hf : failsNext (s.sink q).fails with
    | true =>
      rw [putByte_of_fail hh hf] at h
      obtain ⟨rfl, rfl⟩ := EStateM.Result.error.inj h
      simp
    | false => simp [putByte_of_go hh hf] at h

/-- Bytes put to a held sink whose accesses go through are appended, in order. -/
theorem putBytes_of_go {q : SinkPort} (bs : List Byte) {s : State} (hh : s.held q.num = true)
    (hf : neverFails (s.sink q).fails) :
    putBytes q bs s = .ok () (s.setSink q ⟨(s.sink q).data ++ bs, (s.sink q).fails.drop bs.length⟩) := by
  induction bs generalizing s with
  | nil =>
    simp only [List.append_nil, List.length_nil, List.drop_zero]
    exact congrArg _ (State.setSink_sink s q).symm
  | cons b bs ih =>
    rw [putBytes, Proc.bind_of_ok (putByte_of_go hh (failsNext_of_neverFails hf)), ih (by simpa using hh)]
    · simp
    · simpa using neverFails_tail hf

/-! ### What the port operations keep -/

variable {P : State → Prop}

theorem Keeps.openSource {p : SourcePort} (hs : ∀ s st, P s → P (s.setSource p st)) (hh : ∀ s, P s → P (s.hold p.num)) :
    Keeps P (openSource p) := by
  intro s h
  cases hf : failsNext (s.source p).fails with
  | true =>
    rw [openSource_of_fail hf]
    exact hs _ _ h
  | false =>
    rw [openSource_of_go hf]
    exact hh _ (hs _ _ h)

theorem Keeps.openSink {q : SinkPort} (hs : ∀ s st, P s → P (s.setSink q st)) (hh : ∀ s, P s → P (s.hold q.num)) :
    Keeps P (openSink q) := by
  intro s h
  cases hf : failsNext (s.sink q).fails with
  | true =>
    rw [openSink_of_fail hf]
    exact hs _ _ h
  | false =>
    rw [openSink_of_go hf]
    exact hh _ (hs _ _ h)

theorem Keeps.getByte {p : SourcePort} (hs : ∀ s st, P s → P (s.setSource p st)) : Keeps P (getByte p) := by
  intro s h
  cases hg : Sys2Proof.Machine.getByte p s with
  | ok r t =>
    obtain ⟨-, -, -, rfl⟩ := getByte_ok_inv hg
    exact hs _ _ h
  | error e t =>
    obtain ⟨-, -, rfl⟩ | ⟨-, -, -, rfl⟩ := getByte_error_inv hg
    · exact h
    · exact hs _ _ h

theorem Keeps.putByte {q : SinkPort} {b : Byte} (hs : ∀ s st, P s → P (s.setSink q st)) : Keeps P (putByte q b) := by
  intro s h
  cases hg : Sys2Proof.Machine.putByte q b s with
  | ok r t =>
    obtain ⟨-, -, rfl⟩ := putByte_ok_inv hg
    exact hs _ _ h
  | error e t =>
    obtain ⟨-, -, rfl⟩ | ⟨-, -, -, rfl⟩ := putByte_error_inv hg
    · exact h
    · exact hs _ _ h

theorem Keeps.putBytes {q : SinkPort} (bs : List Byte) (hs : ∀ s st, P s → P (s.setSink q st)) :
    Keeps P (putBytes q bs) := by
  induction bs with
  | nil => exact Keeps.pure ()
  | cons b bs ih => exact (Keeps.putByte hs).bind fun _ => ih

theorem Keeps.memReadFrom {p : SourcePort} (n acc : Nat) (hs : ∀ s st, P s → P (s.setSource p st)) :
    Keeps P (memReadFrom p n acc) := by
  induction n generalizing acc with
  | zero => exact Keeps.pure _
  | succ n ih =>
    refine (Keeps.getByte hs).bind fun r => ?_
    cases r with
    | none => exact Keeps.pure _
    | some b => exact ih _

theorem Keeps.forEachByte {p : SourcePort} {f : Byte → Proc Unit} (n : Nat)
    (hs : ∀ s st, P s → P (s.setSource p st)) (hf : ∀ b, Keeps P (f b)) : Keeps P (forEachByte p f n) := by
  induction n with
  | zero =>
    refine (Keeps.getByte hs).bind fun r => ?_
    cases r with
    | none => exact Keeps.pure _
    | some b => exact Keeps.throw _
  | succ n ih =>
    refine (Keeps.getByte hs).bind fun r => ?_
    cases r with
    | none => exact Keeps.pure _
    | some b => exact (hf b).bind fun _ => ih

/-! ### Streams stay well formed -/

/-- A source's cursor stays in its stream when it is opened. -/
theorem Source.wf_open (st : Source) (fails : List Bool) : ({ st with pos := 0, fails := fails } : Source).wf :=
  Nat.zero_le _

/-- A source's cursor stays in its stream when a byte is read. -/
theorem Source.wf_get {st : Source} {b : Byte} (fails : List Bool) (hb : st.data[st.pos]? = some b) :
    ({ st with pos := st.pos + 1, fails := fails } : Source).wf := by
  have := (List.getElem?_eq_some_iff.mp hb).1
  exact this

/-- The streams after reset are well formed. -/
theorem reset_streamsOk : State.reset.streamsOk := by decide

theorem streamsOk_setSource {s : State} {p : SourcePort} {st : Source} (h : s.streamsOk) (hst : st.wf) :
    (s.setSource p st).streamsOk := by
  obtain ⟨h1, h2, h3⟩ := h
  cases p
  · exact ⟨hst, h2, h3⟩
  · exact ⟨h1, hst, h3⟩
  · exact ⟨h1, h2, hst⟩

theorem streamsOk_source {s : State} (h : s.streamsOk) (p : SourcePort) : (s.source p).wf := by
  obtain ⟨h1, h2, h3⟩ := h
  cases p
  · exact h1
  · exact h2
  · exact h3

/-- `Open` of a source keeps every cursor in its stream. -/
theorem openSource_keeps_streamsOk (p : SourcePort) : Keeps State.streamsOk (openSource p) := by
  intro s h
  cases hf : failsNext (s.source p).fails with
  | true =>
    rw [openSource_of_fail hf]
    exact streamsOk_setSource h (streamsOk_source h p)
  | false =>
    rw [openSource_of_go hf]
    have := streamsOk_setSource (p := p) h (Source.wf_open (s.source p) (s.source p).fails.tail)
    simpa [State.streamsOk] using this

/-- `Get` keeps every cursor in its stream. -/
theorem getByte_keeps_streamsOk (p : SourcePort) : Keeps State.streamsOk (getByte p) := by
  intro s h
  cases hg : getByte p s with
  | ok r t =>
    obtain ⟨-, -, hr, rfl⟩ := getByte_ok_inv hg
    refine streamsOk_setSource h ?_
    cases r with
    | none => exact streamsOk_source h p
    | some b => exact Source.wf_get _ hr.symm
  | error e t =>
    obtain ⟨-, -, rfl⟩ | ⟨-, -, -, rfl⟩ := getByte_error_inv hg
    · exact h
    · exact streamsOk_setSource h (streamsOk_source h p)

/-- `Open` and `Put` of a sink leave the sources alone. -/
theorem openSink_keeps_streamsOk (q : SinkPort) : Keeps State.streamsOk (openSink q) :=
  Keeps.openSink (fun s st h => by simpa [State.streamsOk] using h) (fun s h => by simpa [State.streamsOk] using h)

theorem putByte_keeps_streamsOk (q : SinkPort) (b : Byte) : Keeps State.streamsOk (putByte q b) :=
  Keeps.putByte fun s st h => by simpa [State.streamsOk] using h

end Sys2Proof.Machine
end

