-- ==== Sys2Proof/Laws/Command.lean ====
section
/-!
SUPPORT. What one command can do (spec/40_control.md R80, R84, R85): the cases of `runCommand` and of a composite, and the
properties that every command keeps.
-/

namespace Sys2Proof.Machine

/-! ### Raising an error -/

theorem raiseError_sink_of_not_held (s : State) (e : ErrorKind) (cmd : Byte) (q : SinkPort) (h : s.held q.num = false) :
    (s.raiseError e cmd).sink q = s.sink q := by
  have spoil_ne : ∀ (t : State) (r : SinkPort), t.held q.num = false → (t.spoilSink r).sink q = t.sink q := by
    intro t r ht
    unfold State.spoilSink
    split
    · rename_i hr
      refine State.sink_setSink_ne _ _ ?_
      rintro rfl
      simp [ht] at hr
    · rfl
  have e1 : (s.raiseError e cmd).sink q = (((s.spoilSink .fsink).spoilSink .esink).spoilSink .osink).sink q := by
    cases q <;> rfl
  rw [e1, spoil_ne _ _ (by simpa using h), spoil_ne _ _ (by simpa using h), spoil_ne _ _ h]

/-- No sink is touched by an error raised while no port is held. -/
theorem raiseError_of_none_held (s : State) (e : ErrorKind) (cmd : Byte) (h : s.portHeld = 0) :
    s.raiseError e cmd = { s with err := some e, errCmd := cmd, phase := .fault, raises := s.raises + 1 } := by
  have h' : ∀ n, s.held n = false := by simp [State.held, h]
  have spoil : ∀ q, s.spoilSink q = s := by
    intro q
    unfold State.spoilSink
    simp [h']
  simp [State.raiseError, spoil, State.releaseAll, h]

/-! ### One command -/

theorem runCommand_of_ignored {i : Instr} {body : Proc Unit} {s : State} (hp : s.phase = .fault)
    (hi : runsInFault i = false) : runCommand i body s = .next s := by
  simp [runCommand, hp, hi]

theorem runCommand_of_illegal {i : Instr} {body : Proc Unit} {s : State} (hp : s.phase ≠ .fault)
    (hl : legal s i = false) : runCommand i body s = .next (s.raiseError .illegalCommand (opcode i)) := by
  simp [runCommand, hp, hl]

theorem runCommand_of_legal {i : Instr} {body : Proc Unit} {s : State} (hp : s.phase ≠ .fault)
    (hl : legal s i = true) : runCommand i body s = finish (opcode i) (body s) := by
  simp [runCommand, hp, hl]

/-- A legal command whose procedure answers a result ends in its state. -/
theorem runCommand_of_ok {i : Instr} {body : Proc Unit} {s t : State} (hp : s.phase ≠ .fault)
    (hl : legal s i = true) (hb : body s = .ok () t) : runCommand i body s = .next t := by
  rw [runCommand_of_legal hp hl, hb]
  rfl

/-- A legal command whose procedure raises an error ends in its fault state. -/
theorem runCommand_of_raised {i : Instr} {body : Proc Unit} {s t : State} {e : ErrorKind} (hp : s.phase ≠ .fault)
    (hl : legal s i = true) (hb : body s = .error (.raised e) t) :
    runCommand i body s = .next (t.raiseError e (opcode i)) := by
  rw [runCommand_of_legal hp hl, hb]
  rfl

theorem finish_next_iff {cmd : Byte} {r : EStateM.Result Stop State Unit} {t : State} :
    finish cmd r = .next t ↔ r = .ok () t ∨ ∃ e u, r = .error (.raised e) u ∧ t = u.raiseError e cmd := by
  cases r with
  | ok a u => simp [finish]
  | error e u => cases e <;> simp [finish, eq_comm]

/-- A command that answers a next state was ignored, was illegal, ran to its end, or raised an error. -/
theorem runCommand_next_cases {i : Instr} {body : Proc Unit} {s t : State} (h : runCommand i body s = .next t) :
    (s.phase = .fault ∧ runsInFault i = false ∧ t = s) ∨
    (legal s i = false ∧ t = s.raiseError .illegalCommand (opcode i)) ∨
    (legal s i = true ∧ body s = .ok () t) ∨
    (legal s i = true ∧ ∃ e u, body s = .error (.raised e) u ∧ t = u.raiseError e (opcode i)) := by
  unfold runCommand at h
  split at h
  · rename_i hc
    exact .inl ⟨hc.1, hc.2, by simpa using h.symm⟩
  · split at h
    · exact .inr (.inl ⟨‹_›, by simpa using h.symm⟩)
    · rename_i hl
      have hl' : legal s i = true := by simpa using hl
      rcases finish_next_iff.mp h with hb | ⟨e, u, hb, ht⟩
      · exact .inr (.inr (.inl ⟨hl', hb⟩))
      · exact .inr (.inr (.inr ⟨hl', e, u, hb, ht⟩))

/-! ### Composites -/

theorem andThen_next_iff {r : Answer} {f : State → Answer} {t : State} :
    andThen r f = .next t ↔
      ∃ u, r = .next u ∧ (u.phase = .fault ∧ t = u ∨ u.phase ≠ .fault ∧ f u = .next t) := by
  cases r with
  | next u =>
    by_cases hu : u.phase = .fault
    · simp [andThen, hu, eq_comm]
    · simp [andThen, hu]
  | fault e => simp [andThen]
  | refused e => simp [andThen]

/-- A composite goes on after a step that did not end in `FAULT`. -/
theorem andThen_of_next {s : State} {f : State → Answer} (h : s.phase ≠ .fault) : andThen (.next s) f = f s := by
  simp [andThen, h]

/-- A composite ends with a step that ended in `FAULT`. -/
theorem andThen_of_fault {s : State} {f : State → Answer} (h : s.phase = .fault) : andThen (.next s) f = .next s := by
  simp [andThen, h]

/-! ### What commands keep -/

/-- A command keeps a property: it holds of every next state it answers from a state of which it holds. -/
def KeepsNext (P : State → Prop) (f : State → Answer) : Prop := ∀ s t, P s → f s = .next t → P t

variable {P : State → Prop}

theorem KeepsNext.runCommand {i : Instr} {body : Proc Unit} (hb : Keeps P body)
    (hr : ∀ s e cmd, P s → P (s.raiseError e cmd)) : KeepsNext P (runCommand i body) := by
  intro s t hs h
  obtain ⟨-, -, rfl⟩ | ⟨-, rfl⟩ | ⟨-, hok⟩ | ⟨-, e, u, herr, rfl⟩ := runCommand_next_cases h
  · exact hs
  · exact hr _ _ _ hs
  · exact hb.ok hs hok
  · exact hr _ _ _ (hb.error hs herr)

theorem KeepsNext.andThen {g f : State → Answer} (hg : KeepsNext P g) (hf : KeepsNext P f) :
    KeepsNext P (fun s => andThen (g s) f) := by
  intro s t hs h
  obtain ⟨u, hu, ⟨-, rfl⟩ | ⟨-, ht⟩⟩ := andThen_next_iff.mp h
  · exact hg s _ hs hu
  · exact hf u t (hg s u hs hu) ht

theorem KeepsNext.ite {c : State → Prop} [DecidablePred c] {f g : State → Answer} (hf : KeepsNext P f)
    (hg : KeepsNext P g) : KeepsNext P (fun s => if c s then f s else g s) := by
  intro s t hs h
  dsimp only at h
  split at h
  · exact hf s t hs h
  · exact hg s t hs h

theorem KeepsNext.stay : KeepsNext P (fun s => .next s) := by
  intro s t hs h
  obtain rfl : s = t := by simpa using h
  exact hs

end Sys2Proof.Machine
end

