-- ==== Sys2Proof/Laws/Bodies.lean ====
section
/-!
SUPPORT. What the procedure of each command keeps: a property of the state that the updates of the procedure keep, each
named, is kept by the whole procedure, where it ends with a result and where it stops.
-/

namespace Sys2Proof.Machine

variable {P : State → Prop}

/-! ### Bits -/

theorem Keeps.putAcc (hq : ∀ s st, P s → P (s.setSink .esink st)) (he : ∀ s, P s → P s.emptyAcc) : Keeps P putAcc :=
  Keeps.get_bind fun s hs => ((Keeps.putByte hq).bind fun _ => Keeps.modify he) s hs

theorem Keeps.putBit (b : Bit) (hp : ∀ s, P s → P (s.placeBit b)) (hc : ∀ s, P s → P s.countBit)
    (hq : ∀ s st, P s → P (s.setSink .esink st)) (he : ∀ s, P s → P s.emptyAcc) : Keeps P (putBit b) :=
  (Keeps.modify hp).bind fun _ => Keeps.get.bind fun _ => Keeps.ite (Keeps.putAcc hq he) (Keeps.modify hc)

theorem Keeps.putBits (bs : List Bit) (hp : ∀ s b, P s → P (s.placeBit b)) (hc : ∀ s, P s → P s.countBit)
    (hq : ∀ s st, P s → P (s.setSink .esink st)) (he : ∀ s, P s → P s.emptyAcc) : Keeps P (putBits bs) := by
  induction bs with
  | nil => exact Keeps.pure ()
  | cons b bs ih => exact (Keeps.putBit b (fun s => hp s b) hc hq he).bind fun _ => ih

theorem Keeps.flushBits (hq : ∀ s st, P s → P (s.setSink .esink st)) (he : ∀ s, P s → P s.emptyAcc) :
    Keeps P flushBits :=
  Keeps.get.bind fun _ => Keeps.ite (Keeps.pure ()) (Keeps.putAcc hq he)

theorem Keeps.getBit (hl : ∀ s r, P s → P (s.loadByte r)) (hd : ∀ s, P s → P s.dropBit)
    (hp : ∀ s st, P s → P (s.setSource .esrc st)) : Keeps P getBit := by
  refine Keeps.bind ?_ fun _ => Keeps.get_bind fun s hs => ((Keeps.modify hd).bind fun _ => Keeps.pure _) s hs
  refine Keeps.get.bind fun _ => Keeps.ite ((Keeps.getByte hp).bind fun r => ?_) (Keeps.pure ())
  cases r with
  | none => exact Keeps.throw _
  | some r => exact Keeps.modify fun s => hl s r

/-! ### The commands -/

/-- `SCAN` (R100, R101). -/
theorem Keeps.scanBody (hm : ∀ s, P s → P (s.setMode .enc)) (hh : ∀ s, P s → P (s.hold 0))
    (hp : ∀ s st, P s → P (s.setSource .src st)) (hc : ∀ s b, P s → P (s.countByte b))
    (he : ∀ s, P s → P (s.enter .table)) : Keeps P scanBody := by
  refine (Keeps.modify hm).bind fun _ => (Keeps.openSource hp hh).bind fun _ => Keeps.get.bind fun t => ?_
  refine (Keeps.forEachByte t.src.unread hp fun b => ?_).bind fun _ => Keeps.modify he
  exact Keeps.get_bind fun s hs => Keeps.ite (Keeps.throw _) (Keeps.modify fun u h => hc s b hs) s hs

/-- `PERSIST` (R102). -/
theorem Keeps.persistBody (hh : ∀ s, P s → P (s.hold 1)) (hq : ∀ s st, P s → P (s.setSink .fsink st))
    (he : ∀ s, P s → P (s.enter .persisted)) : Keeps P persistBody := by
  refine (Keeps.openSink hq hh).bind fun _ => Keeps.get.bind fun t => Keeps.bind ?_ fun _ => Keeps.modify he
  induction t.presentSymbols with
  | nil => exact Keeps.pure ()
  | cons b bs ih => exact Keeps.get.bind fun _ => (Keeps.putBytes _ hq).bind fun _ => ih

theorem Keeps.loadSymbol (k : Nat) (c : Option Byte) (sym : Nat) (hp : ∀ s st, P s → P (s.setSource .fsrc st)) :
    Keeps P (loadSymbol k c sym) := by
  induction k generalizing c sym with
  | zero =>
    unfold Sys2Proof.Machine.loadSymbol
    split
    · exact Keeps.throw _
    · exact Keeps.pure _
  | succ k ih =>
    unfold Sys2Proof.Machine.loadSymbol
    split
    · exact Keeps.throw _
    · exact (Keeps.getByte hp).bind fun _ => ih _ _

theorem Keeps.loadCount (fuel n ndig : Nat) (hp : ∀ s st, P s → P (s.setSource .fsrc st)) :
    Keeps P (loadCount fuel n ndig) := by
  induction fuel generalizing n ndig with
  | zero => exact Keeps.throw _
  | succ fuel ih =>
    refine (Keeps.getByte hp).bind fun r => ?_
    cases r with
    | none => exact Keeps.throw _
    | some c =>
      dsimp only
      split
      · exact Keeps.get.bind fun _ => Keeps.ite (Keeps.throw _) (ih _ _)
      · exact Keeps.ite (Keeps.pure _) (Keeps.throw _)

theorem Keeps.loadLine (c : Byte) (hp : ∀ s st, P s → P (s.setSource .fsrc st))
    (hk : ∀ s b n, P s → P (s.enterKey b n)) : Keeps P (loadLine c) := by
  refine (Keeps.loadSymbol 7 _ 0 hp).bind fun sym => Keeps.bind ?_ fun _ => Keeps.get.bind fun t =>
    (Keeps.loadCount _ 0 0 hp).bind fun n => Keeps.get_bind fun s hs => ?_
  · exact (Keeps.getByte hp).bind fun _ => Keeps.ite (Keeps.pure ()) (Keeps.throw _)
  · exact Keeps.ite (Keeps.throw _) (Keeps.ite (Keeps.throw _) (Keeps.modify fun _ _ => hk s _ n hs)) s hs

/-- `LOAD` (R104, R105). -/
theorem Keeps.loadBody (hm : ∀ s, P s → P (s.setMode .dec)) (hh : ∀ s, P s → P (s.hold 3))
    (hp : ∀ s st, P s → P (s.setSource .fsrc st)) (hk : ∀ s b n, P s → P (s.enterKey b n))
    (he : ∀ s, P s → P (s.enter .table)) : Keeps P loadBody := by
  refine (Keeps.modify hm).bind fun _ => (Keeps.openSource hp hh).bind fun _ => Keeps.get.bind fun t => ?_
  refine Keeps.bind ?_ fun _ => Keeps.modify he
  generalize t.fsrc.unread + 1 = fuel
  induction fuel with
  | zero => exact Keeps.throw _
  | succ fuel ih =>
    refine (Keeps.getByte hp).bind fun r => ?_
    cases r with
    | none => exact Keeps.pure ()
    | some c => exact (Keeps.loadLine c hp hk).bind fun _ => ih

theorem Keeps.extractMin (hd : ∀ s m, P s → P (s.deactivate m)) : Keeps P extractMin := by
  refine Keeps.get_bind fun s hs => ?_
  cases s.leastOf s.activeIds with
  | none => exact hs
  | some m => exact hd s m hs

theorem Keeps.mergeStep (hd : ∀ s m, P s → P (s.deactivate m)) (hm : ∀ s k a b, P s → P (s.mergeInto k a b)) :
    Keeps P mergeStep := by
  refine (Keeps.extractMin hd).bind fun a => (Keeps.extractMin hd).bind fun b => Keeps.get_bind fun s hs => ?_
  by_cases h : 256 ≤ s.nextId.toNat ∧ s.nextId.toNat < 511
  · rw [dif_pos h]
    exact hm _ _ _ _ hs
  · rw [dif_neg h]
    exact hs

/-- `BUILD` (R120, R125). -/
theorem Keeps.buildBody (hs : ∀ s, P s → P s.seeded) (hd : ∀ s m, P s → P (s.deactivate m))
    (hm : ∀ s k a b, P s → P (s.mergeInto k a b)) (hr : ∀ s r, P s → P (s.rootedAt r)) : Keeps P buildBody := by
  refine Keeps.get.bind fun t => Keeps.ite (Keeps.throw _) ?_
  refine (Keeps.modify hs).bind fun _ => Keeps.get.bind fun u => Keeps.bind ?_ fun _ => ?_
  · induction u.nsyms.toNat - 1 with
    | zero => exact Keeps.pure ()
    | succ n ih => exact (Keeps.mergeStep hd hm).bind fun _ => ih
  · refine Keeps.get_bind fun s h => ?_
    rcases s.activeIds with _ | ⟨r, _ | ⟨x, xs⟩⟩
    · exact h
    · exact hr s r h
    · exact h

theorem Keeps.deriveFrom (fuel : Nat) (n : NodeId) (p : List Bit) (hc : ∀ s b p, P s → P (s.setCode b p)) :
    Keeps P (deriveFrom fuel n p) := by
  induction fuel generalizing n p with
  | zero => exact Keeps.throw _
  | succ fuel ih =>
    refine Keeps.get_bind fun s hs => ?_
    exact Keeps.ite (Keeps.modify fun _ _ => hc s _ _ hs) ((ih _ _).bind fun _ => ih _ _) s hs

/-- `DERIVE` (R130, R132). -/
theorem Keeps.deriveBody (hn : ∀ s, P s → P s.noCodes) (hc : ∀ s b p, P s → P (s.setCode b p))
    (hd : ∀ s, P s → P s.derived) : Keeps P deriveBody := by
  refine (Keeps.modify hn).bind fun _ => Keeps.bind ?_ fun _ => Keeps.modify hd
  exact Keeps.get_bind fun s hs =>
    Keeps.ite (Keeps.modify fun _ _ => hc s _ _ hs) (Keeps.deriveFrom _ _ _ hc) s hs

/-- `WRHDR` (R141). -/
theorem Keeps.wrhdrBody (hv : ∀ s v, P s → P (s.setHdr v)) (hh : ∀ s, P s → P (s.hold 2))
    (hq : ∀ s st, P s → P (s.setSink .esink st)) (hb : ∀ s, P s → P s.resetBW) (he : ∀ s, P s → P (s.enter .hdr)) :
    Keeps P wrhdrBody :=
  (Keeps.modify fun s h => hv s _ h).bind fun _ => (Keeps.openSink hq hh).bind fun _ => Keeps.get.bind fun _ =>
    (Keeps.putBytes _ hq).bind fun _ => Keeps.modify fun s h => he _ (hb s h)

/-- `EMIT` (R142, R143). -/
theorem Keeps.emitBody (hh : ∀ s, P s → P (s.hold 0)) (hp : ∀ s st, P s → P (s.setSource .src st))
    (hb : ∀ s b, P s → P (s.placeBit b)) (hc : ∀ s, P s → P s.countBit)
    (hq : ∀ s st, P s → P (s.setSink .esink st)) (ha : ∀ s, P s → P s.emptyAcc)
    (he : ∀ s, P s → P (s.enter .streamed)) : Keeps P emitBody := by
  refine (Keeps.openSource hp hh).bind fun _ => Keeps.get.bind fun t => ?_
  refine (Keeps.forEachByte t.src.unread hp fun b => ?_).bind fun _ => Keeps.modify he
  exact Keeps.get.bind fun _ => Keeps.ite (Keeps.throw _) (Keeps.get.bind fun _ => Keeps.putBits _ hb hc hq ha)

/-- `FLUSH` (R144). -/
theorem Keeps.flushBody (hq : ∀ s st, P s → P (s.setSink .esink st)) (ha : ∀ s, P s → P s.emptyAcc)
    (he : ∀ s, P s → P s.endSession) : Keeps P flushBody :=
  (Keeps.flushBits hq ha).bind fun _ => Keeps.get_bind fun s hs =>
    Keeps.ite (Keeps.modify fun _ _ => he s hs) (Keeps.throw _) s hs

/-- `RDHDR` (R161). -/
theorem Keeps.rdhdrBody (hh : ∀ s, P s → P (s.hold 4)) (hp : ∀ s st, P s → P (s.setSource .esrc st))
    (hv : ∀ s v, P s → P (s.setHdr v)) (hb : ∀ s, P s → P s.resetBR) (he : ∀ s, P s → P (s.enter .hdr)) :
    Keeps P rdhdrBody := by
  refine (Keeps.openSource hp hh).bind fun _ => (Keeps.memReadFrom _ 0 hp).bind fun r => ?_
  cases r with
  | none => exact Keeps.throw _
  | some v => exact Keeps.modify fun s h => he _ (hb _ (hv s _ h))

theorem Keeps.walkStep (b : Bit) (hm : ∀ s id, P s → P (s.moveTo id)) (hq : ∀ s st, P s → P (s.setSink .osink st)) :
    Keeps P (walkStep b) := by
  refine Keeps.get.bind fun t => Keeps.ite (Keeps.putByte hq) ?_
  refine (Keeps.modify fun s h => hm s _ h).bind fun _ => ?_
  split
  · exact (Keeps.putByte hq).bind fun _ => Keeps.modify fun s h => hm s _ h
  · exact Keeps.pure ()

/-- `WALK` (R162 to R166). -/
theorem Keeps.walkBody (hh : ∀ s, P s → P (s.hold 5)) (hq : ∀ s st, P s → P (s.setSink .osink st))
    (hp : ∀ s st, P s → P (s.setSource .esrc st)) (hl : ∀ s r, P s → P (s.loadByte r)) (hd : ∀ s, P s → P s.dropBit)
    (hm : ∀ s id, P s → P (s.moveTo id)) (he : ∀ s, P s → P s.endSession) : Keeps P walkBody := by
  refine Keeps.get.bind fun t => Keeps.ite (Keeps.throw _) ?_
  refine (Keeps.openSink hq hh).bind fun _ => Keeps.bind ?_ fun _ => Keeps.bind ?_ fun _ => ?_
  · refine Keeps.modify fun s h => ?_
    unfold State.toRoot
    split
    · exact hm s _ h
    · exact h
  · induction t.hdrBits.toNat - t.brTotal.toNat with
    | zero => exact Keeps.pure ()
    | succ n ih => exact (Keeps.getBit hl hd hp).bind fun b => (Keeps.walkStep b hm hq).bind fun _ => ih
  · exact Keeps.get_bind fun s hs => Keeps.ite (Keeps.throw _) (Keeps.modify fun _ _ => he s hs) s hs

end Sys2Proof.Machine
end

