-- ==== Sys2Proof/Laws/Decode.lean ====
section
/-!
SUPPORT. The opcode table of spec/30_encoding.md R61: fourteen rows, no two of which cover the same byte, each with the opcode of its
command.
-/

namespace Sys2Proof

theorem length_opcodeTable : opcodeTable.length = 14 := by decide

/-- A row covers exactly its opcode: all 8 bits are compared (R61). -/
theorem covers_iff_of_mem {r : OpcodeRow} (h : r ∈ opcodeTable) (v : Byte) : r.covers v = true ↔ v = opcode r.instr := by
  have all : ∀ r ∈ opcodeTable, r.mask = 0xFF ∧ r.value = opcode r.instr := by decide
  obtain ⟨hm, hv⟩ := all r h
  have ones : v &&& (0xFF : Byte) = v := BitVec.and_allOnes
  rw [OpcodeRow.covers, hm, hv, ones, beq_iff_eq]

/-- No two rows have the same opcode: decoding is unambiguous (R61, R64). -/
theorem opcodeTable_values_nodup : (opcodeTable.map OpcodeRow.value).Nodup := by decide

/-- No two rows have the same command. -/
theorem opcodeTable_instrs_nodup : (opcodeTable.map OpcodeRow.instr).Nodup := by decide

end Sys2Proof
end

