-- ==== Sys2Proof/Laws/PerInstr.lean ====
section
/-!
SUPPORT. The statements made for each command: its row of the opcode table and what the decoder reads from its opcode
(spec/30_encoding.md R61, R62).
-/

namespace Sys2Proof.Laws.Encoding

/-- A command is well formed, has a row of its own in the opcode table, and its opcode decodes to it. -/
def Statement (i : Instr) : Prop :=
  i.wellFormed = true ∧ (⟨0xFF, opcode i, i⟩ : OpcodeRow) ∈ opcodeTable ∧ (decodeByte (opcode i)).toOption = some i

theorem nop : Statement .nop := by unfold Statement; decide
theorem clear : Statement .clear := by unfold Statement; decide
theorem scan : Statement .scan := by unfold Statement; decide
theorem persist : Statement .persist := by unfold Statement; decide
theorem load : Statement .load := by unfold Statement; decide
theorem build : Statement .build := by unfold Statement; decide
theorem derive : Statement .derive := by unfold Statement; decide
theorem wrhdr : Statement .wrhdr := by unfold Statement; decide
theorem emit : Statement .emit := by unfold Statement; decide
theorem flush : Statement .flush := by unfold Statement; decide
theorem rdhdr : Statement .rdhdr := by unfold Statement; decide
theorem walk : Statement .walk := by unfold Statement; decide
theorem encode : Statement .encode := by unfold Statement; decide
theorem decode : Statement .decode := by unfold Statement; decide

end Sys2Proof.Laws.Encoding
end

