-- ==== Sys2Proof/Tests/Slice0.lean ====
section
/-!
SUPPORT. Tests of the model, each on one step of a small state, with expected values from the worked vectors of
spec/95_test_vectors.md (named in each docstring), and for each statement of Certificates/Slice0/Obligations.lean that has hypotheses a
state and operands that meet them.
-/

namespace Sys2Proof.Tests

open Sys2Proof.Machine

/- Each theorem is checked before the next is read: many kernel evaluations at once need more memory than the limit. -/
set_option Elab.async false

/-! ### States for the tests -/

/-- The frequency record of `"aaab"` (V1). -/
def recordAaab : List Byte :=
  [0x30, 0x31, 0x31, 0x30, 0x30, 0x30, 0x30, 0x31, 0x3A, 0x33, 0x0A] ++
  [0x30, 0x31, 0x31, 0x30, 0x30, 0x30, 0x31, 0x30, 0x3A, 0x31, 0x0A]

/-- The header for the count `n < 256`. -/
def header (n : Byte) : List Byte := [0, 0, 0, 0, 0, 0, 0, n]

/-- After reset, with the streams of V1 bound. -/
def bound : State :=
  { State.reset with
    src := ⟨[0x61, 0x61, 0x61, 0x62], 0, []⟩, fsrc := ⟨recordAaab, 0, []⟩, esrc := ⟨header 4 ++ [0xE0], 0, []⟩ }

/-- With the table of V1. -/
def tableAaab : State :=
  { bound with
    ftPres := putSym (putSym bound.ftPres 0x61 true) 0x62 true, ftCnt := putSym (putSym bound.ftCnt 0x61 3) 0x62 1
    nsyms := 2, total := 4 }

/-- With the tree of V1. -/
def treeAaab : State :=
  { tableAaab with
    nodeW := ((tableAaab.nodeW.set 0x61 3).set 0x62 1).set 256 4
    nodeL := tableAaab.nodeL.set 0 0x62, nodeR := tableAaab.nodeR.set 0 0x61
    nodeAct := tableAaab.nodeAct.set 256 true, nextId := 257, root := 256, treeValid := true }

/-- With the codes of V1. -/
def codesAaab : State :=
  { treeAaab with
    codeLen := putSym (putSym treeAaab.codeLen 0x61 1) 0x62 1
    codeBits := putSym treeAaab.codeBits 0x61 (BitVec.twoPow 255 254), ctValid := true }

/-- With the bit count of V1. -/
def announcedAaab : State := { codesAaab with hdrBits := 4 }

/-- With a table of one symbol, `z` four times (V3), and its tree. -/
def treeZ : State :=
  { bound with
    ftPres := putSym bound.ftPres 0x7A true, ftCnt := putSym bound.ftCnt 0x7A 4, nsyms := 1, total := 4
    nodeW := bound.nodeW.set 0x7A 4, nodeAct := bound.nodeAct.set 0x7A true, root := 0x7A, treeValid := true }

/-- With the tree of `a` twice, `b` once, `c` once (V12): its root is 257, whose children are `a` and 256. -/
def treeAabc : State :=
  { bound with
    nodeL := (bound.nodeL.set 0 0x62).set 1 0x61, nodeR := (bound.nodeR.set 0 0x63).set 1 256
    nextId := 258, root := 257, treeValid := true }

/-- A state in a phase and a mode, with the ports of that phase held. -/
def inPhase (s : State) (p : Phase) (m : Mode) : State := { s with phase := p, mode := m, portHeld := heldIn p m }

/-- After reset, with this record bound to `FSRC`. -/
def loading (data : List Byte) : State := { State.reset with fsrc := ⟨data, 0, []⟩ }

/-- The answer is a next state of which this holds. -/
def answers (r : Answer) (p : State → Bool) : Bool :=
  match r with
  | .next t => p t
  | _ => false

/-- The next state of an answer that has one. -/
def stateOf (r : Answer) : State :=
  match r with
  | .next t => t
  | _ => State.reset

theorem eq_next_stateOf {r : Answer} {p : State → Bool} (h : answers r p = true) : r = .next (stateOf r) := by
  cases r <;> simp_all [answers, stateOf]

/-- The stores of a state but `NODE_W` as lists, which the kernel compares quickly, its registers and its streams. -/
def stores (s : State) :=
  ((s.ftPres.toList, s.ftCnt.toList, s.codeLen.toList, s.codeBits.toList),
    (s.nodeL.toList, s.nodeR.toList, s.nodeAct.toList))
def registers (s : State) :=
  (s.cntW, s.nsyms, s.total, s.nextId)
def tree (s : State) := (s.root, s.treeValid, s.ctValid, s.hdrBits)
def control (s : State) := (s.phase, s.mode, s.cur, s.portHeld, s.err, s.errCmd)
def bits (s : State) := (s.bwAcc, s.bwN, s.bwTotal, s.brBuf, s.brLeft, s.brTotal)
def streams (s : State) :=
  ((s.src, s.fsink, s.esink, s.fsrc, s.esrc, s.osink), (s.raises, s.hostMoves, s.readData))

theorem eq_of_parts {t s : State} (hw : t.nodeW = s.nodeW) (h1 : stores t = stores s) (h2 : registers t = registers s)
    (h6 : tree t = tree s) (h5 : control t = control s) (h3 : bits t = bits s) (h4 : streams t = streams s) : t = s := by
  cases t
  cases s
  simp only [stores, registers, tree, control, bits, streams, Prod.mk.injEq, Vector.toList_inj] at h1 h2 h3 h4 h5 h6
  simp_all

/-- The answer is this state: its parts agree, and it has the answer's `NODE_W`. -/
theorem eq_next_of_answers {r : Answer} {s : State} (hw : (stateOf r).nodeW = s.nodeW)
    (h : answers r (fun t => decide (stores t = stores s) && decide (registers t = registers s) &&
      decide (tree t = tree s) && decide (control t = control s) && decide (bits t = bits s) && decide (streams t = streams s)) = true) : r = .next s := by
  cases r with
  | next t =>
    simp only [answers, Bool.and_eq_true, decide_eq_true_eq] at h
    obtain ⟨⟨⟨⟨⟨h1, h2⟩, h6⟩, h5⟩, h3⟩, h4⟩ := h
    exact congrArg _ (eq_of_parts hw h1 h2 h6 h5 h3 h4)
  | fault e => simp [answers] at h
  | refused e => simp [answers] at h

/-! ### Well-formedness: the parameter check refuses values outside its range -/

theorem test_cntWOk_refuses_zero : cntWOk 0 = false := by decide
theorem test_cntWOk_refuses_57 : cntWOk 57 = false := by decide
theorem test_cntWOk_takes_its_range : cntWOk 1 = true ∧ cntWOk 32 = true ∧ cntWOk 56 = true := by decide

/-! ### Decoding: the words of the table of spec/30_encoding.md R61, group in bits 7 to 4, function in bits 3 to 0 -/

theorem test_decode_control :
    (decode [0b00000000]).toOption = some (.nop, []) ∧ (decode [0b00000001]).toOption = some (.clear, []) := by decide
theorem test_decode_frequency_table :
    (decode [0b00010000]).toOption = some (.scan, []) ∧ (decode [0b00010001]).toOption = some (.persist, []) ∧
    (decode [0b00010010]).toOption = some (.load, []) := by decide
theorem test_decode_tree_and_code_table :
    (decode [0b00100000]).toOption = some (.build, []) ∧ (decode [0b00100001]).toOption = some (.derive, []) := by decide
theorem test_decode_bitstream :
    (decode [0b00110000]).toOption = some (.wrhdr, []) ∧ (decode [0b00110001]).toOption = some (.emit, []) ∧
    (decode [0b00110010]).toOption = some (.flush, []) ∧ (decode [0b00110011]).toOption = some (.rdhdr, []) ∧
    (decode [0b00110100]).toOption = some (.walk, []) := by decide
theorem test_decode_composite :
    (decode [0b01000000]).toOption = some (.encode, []) ∧ (decode [0b01000001]).toOption = some (.decode, []) := by decide
/-- V4: reserved values. -/
theorem test_decode_reserved :
    ∀ v ∈ ([0x02, 0x0F, 0x13, 0x22, 0x35, 0x42, 0x50, 0x80, 0xFF] : List Byte), (decode [v]).toOption = none := by decide

/-! ### Control and the host interface -/

/-- V4: `NOP` in `FAULT` changes nothing. -/
theorem test_nop_in_fault :
    answers (exec .nop { State.reset with phase := .fault, err := some .truncatedStreamError, errCmd := 0x34 })
      (fun t => t.status == 0x000F && t.errReg == 0x3403) = true := by decide +kernel
/-- V4 and P5: `CLEAR` leaves `FAULT`; the sinks keep what is in them. -/
theorem test_clear :
    answers (exec .clear { tableAaab with phase := .fault, err := some .formatError, errCmd := 0x12, fsink := ⟨[1], []⟩ })
      (fun t => t.status == 0 && t.errReg == 0 && t.nsyms == 0 && atSym t.ftCnt 0x61 == 0 && t.nextId == 256 &&
        t.fsink.data == [1]) = true := by decide +kernel
/-- P7: a reserved value after a finished session; the outputs stay. -/
theorem test_reserved_command :
    answers (step { inPhase announcedAaab .done .enc with hostMoves := [.write 0 0x50], esink := ⟨[7], []⟩ })
      (fun t => t.status == 0x00DF && t.errReg == 0x5006 && t.esink.data == [7]) = true := by decide +kernel
/-- V4: `DERIVE` in `IDLE`. -/
theorem test_illegal_command :
    answers (step (State.reset.withFetchWord 8 0x21)) (fun t => t.status == 0x000F && t.errReg == 0x2106) = true := by
  decide +kernel
/-- V25: the host registers after the encode of V1. -/
theorem test_host_registers :
    (List.range 10).map (inPhase { announcedAaab with bwTotal := 4 } .done .enc).hostRegister =
      [0, 0x00D7, 0, 2, 4, 4, 0x100, 4, 0, 0] := by decide +kernel

/-! ### The frequency table -/

/-- P1 step 1. -/
theorem test_scan :
    answers (exec .scan bound) (fun t => t.status == 0x0111 && t.nsyms == 2 && t.total == 4 && atSym t.ftCnt 0x61 == 3 &&
      atSym t.ftCnt 0x62 == 1 && atSym t.ftPres 0x61 && t.src.pos == 4) = true := by decide +kernel
/-- V11: 16 bytes with `CNT_W = 4`. -/
theorem test_scan_over_capacity :
    answers (exec .scan { State.reset with cntW := 4, src := ⟨List.replicate 16 0x61, 0, []⟩ })
      (fun t => t.errReg == 0x1005 && atSym t.ftCnt 0x61 == 15 && t.portHeld == 0) = true := by decide +kernel
/-- P1 step 2. -/
theorem test_persist :
    answers (exec .persist (inPhase tableAaab .table .enc)) (fun t => t.status == 0x0312 && t.fsink.data == recordAaab) =
      true := by decide +kernel
/-- V26: the `Open` of `PERSIST` fails. -/
theorem test_persist_io_error :
    answers (exec .persist { inPhase tableAaab .table .enc with fsink := ⟨[9], [true]⟩ })
      (fun t => t.status == 0x001F && t.errReg == 0x1101 && t.fsink.data == [9] && t.total == 4) = true := by
  decide +kernel
/-- P2 step 1. -/
theorem test_load :
    answers (exec .load bound) (fun t => t.status == 0x0821 && t.nsyms == 2 && t.total == 4 && atSym t.ftCnt 0x61 == 3 &&
      atSym t.ftCnt 0x62 == 1 && t.fsrc.pos == 22) = true := by decide +kernel
/-- V11: `01100001:99999999999x`. -/
theorem test_load_over_capacity :
    answers (exec .load (loading (bin8 0x61 ++ [0x3A] ++ List.replicate 11 0x39 ++ [0x78])))
      (fun t => t.errReg == 0x1205 && t.fsrc.pos == 19 && t.nsyms == 0) = true := by decide +kernel

/-! ### The tree and the codes -/

/-- P1 step 3. -/
theorem test_build :
    answers (exec .build (inPhase tableAaab .persisted .enc)) (fun t => t.status == 0x0353 && t.root == 256 &&
      t.nextId == 257 && t.nodeW[256] == 4 && t.nodeL[0] == 0x62 && t.nodeR[0] == 0x61 && t.activeIds == [256]) =
      true := by decide +kernel
/-- V12: `a` twice, `b` twice, `c` once, where ties are broken by the id. -/
theorem test_build_ties :
    answers (exec .build (inPhase { tableAaab with
        ftPres := putSym tableAaab.ftPres 0x63 true
        ftCnt := putSym (putSym (putSym tableAaab.ftCnt 0x61 2) 0x62 2) 0x63 1, nsyms := 3, total := 5 } .table .dec))
      (fun t => t.root == 257 && t.nodeW[256] == 3 && t.nodeL[0] == 0x63 && t.nodeR[0] == 0x61 && t.nodeW[257] == 5 &&
        t.nodeL[1] == 0x62 && t.nodeR[1] == 256) = true := by decide +kernel
/-- P1 step 4. -/
theorem test_derive :
    answers (exec .derive (inPhase treeAaab .built .enc)) (fun t => t.status == 0x03D4 && t.codeOf 0x61 == [true] &&
      t.codeOf 0x62 == [false] && atSym t.codeLen 0x63 == 0) = true := by decide +kernel
/-- P4: the leaf-root's code is the one bit 0. -/
theorem test_derive_leaf_root :
    answers (exec .derive (inPhase treeZ .built .enc)) (fun t => t.codeOf 0x7A == [false] && t.ctValid) = true := by
  decide +kernel

/-! ### Bitstreams -/

/-- P1 step 5. -/
theorem test_wrhdr :
    answers (exec .wrhdr (inPhase codesAaab .derived .enc))
      (fun t => t.status == 0x07D5 && t.hdrBits == 4 && t.esink.data == header 4) = true := by decide +kernel
/-- V26: the fifth `Put` of the header fails. -/
theorem test_wrhdr_io_error :
    answers (exec .wrhdr { inPhase announcedAaab .derived .enc with
        esink := ⟨[], [false, false, false, false, false, true]⟩ })
      (fun t => t.status == 0x00DF && t.errReg == 0x3001 && t.hdrBits == 4) = true := by decide +kernel
/-- P1 step 6. -/
theorem test_emit :
    answers (exec .emit { inPhase announcedAaab .hdr .enc with esink := ⟨header 4, []⟩ })
      (fun t => t.status == 0x07D6 && t.bwAcc == 0xE0 && t.bwN == 4 && t.bwTotal == 4 && t.src.pos == 4 &&
        t.esink.data == header 4) = true := by decide +kernel
/-- P1 step 7. -/
theorem test_flush :
    answers (exec .flush { inPhase announcedAaab .streamed .enc with
        esink := ⟨header 4, []⟩, bwAcc := 0xE0, bwN := 4, bwTotal := 4 })
      (fun t => t.status == 0x00D7 && t.esink.data == header 4 ++ [0xE0] && t.bwAcc == 0 && t.bwN == 0) = true := by
  decide +kernel
/-- spec/45_encoder.md R144: a bit count that differs from the header's. -/
theorem test_flush_mismatch :
    answers (exec .flush { inPhase announcedAaab .streamed .enc with bwTotal := 3 })
      (fun t => t.errReg == 0x3204 && t.portHeld == 0) = true := by decide +kernel
/-- P2 step 3. -/
theorem test_rdhdr :
    answers (exec .rdhdr (inPhase { treeAaab with brLeft := 3 } .built .dec))
      (fun t => t.status == 0x1865 && t.hdrBits == 4 && t.esrc.pos == 8 && t.brLeft == 0) = true := by decide +kernel
/-- V17b: a stream shorter than its header. -/
theorem test_rdhdr_short :
    answers (exec .rdhdr { inPhase treeAaab .built .dec with esrc := ⟨[0, 0, 0, 0, 0], 0, []⟩ })
      (fun t => t.errReg == 0x3303 && t.hdrBits == 0) = true := by decide +kernel
/-- P2 step 4. -/
theorem test_walk :
    answers (exec .walk { inPhase announcedAaab .hdr .dec with esrc := ⟨header 4 ++ [0xE0], 8, []⟩, ctValid := false })
      (fun t => t.status == 0x0067 && t.osink.data == [0x61, 0x61, 0x61, 0x62] && t.cur == 256 && t.brBuf == 0xE0 &&
        t.brLeft == 4 && t.brTotal == 4 && t.esrc.pos == 9) = true := by decide +kernel
/-- V18: the leaf-root does not look at the bits. -/
theorem test_walk_leaf_root :
    answers (exec .walk { inPhase treeZ .hdr .dec with hdrBits := 4, esrc := ⟨header 4 ++ [0xF0], 8, []⟩ })
      (fun t => t.osink.data == [0x7A, 0x7A, 0x7A, 0x7A] && t.cur == 0x7A) = true := by decide +kernel

/-! ### Composites -/

/-- P3: the empty input, from a state that another session left. -/
theorem test_encode_empty :
    answers (exec .encode { inPhase announcedAaab .done .dec with src := ⟨[], 0, []⟩ })
      (fun t => t.status == 0x0017 && t.fsink.data == [] && t.esink.data == header 0) = true := by decide +kernel
/-- V3: one distinct symbol. -/
theorem test_encode_one_symbol :
    answers (exec .encode { State.reset with src := ⟨[0x7A, 0x7A, 0x7A, 0x7A], 0, []⟩ })
      (fun t => t.status == 0x00D7 && t.esink.data == header 4 ++ [0x00] && t.root == 0x7A) = true := by decide +kernel
/-- V1, decoded. -/
theorem test_decode_session :
    answers (exec .decode { inPhase announcedAaab .fault .enc with err := some .ioError })
      (fun t => t.status == 0x0067 && t.osink.data == [0x61, 0x61, 0x61, 0x62] && t.errReg == 0) = true := by
  decide +kernel
/-- V21: bits without a table. -/
theorem test_decode_session_no_tree :
    answers (exec .decode { bound with fsrc := ⟨[], 0, []⟩, osink := ⟨[5], []⟩ })
      (fun t => t.errReg == 0x3404 && t.osink.data == [5]) = true := by decide +kernel

/-! ### Witnesses: the hypotheses of each statement are met together -/

/-- A host that writes this byte to `CMD` next. -/
def writing (s : State) (v : Byte) : State := { s with hostMoves := [.write 0 v] }

/-- A state in `FAULT`. -/
def faulted : State := { bound with phase := .fault, err := some .ioError, errCmd := 0x10 }

theorem bound_childrenBelow : bound.childrenBelow := by
  intro k
  simp [bound, State.reset]

theorem tableAaab_ok : tableAaab.TableOk where
  absent b h := by
    simp only [tableAaab, atSym_putSym] at h ⊢
    split at h
    · simp at h
    · split at h
      · simp at h
      · simp_all [bound, State.reset]
  nsyms := by decide +kernel
  total := by rw [map_atSym_allSymbols]; decide +kernel
  fits := by decide

theorem treeZ_tableOk : treeZ.TableOk where
  absent b h := by
    simp only [treeZ, atSym_putSym] at h ⊢
    split at h
    · simp at h
    · simp_all [bound, State.reset]
  nsyms := by decide +kernel
  total := by rw [map_atSym_allSymbols]; decide +kernel
  fits := by decide

theorem treeAaab_childrenBelow : treeAaab.childrenBelow := by
  intro k
  simp only [treeAaab, tableAaab, bound, State.reset, Fin.getElem_fin, Vector.getElem_set, Vector.getElem_replicate]
  constructor <;> split <;> simp <;> omega

theorem treeAaab_leaves : (inPhase treeAaab .built .enc).leaves = [0x62, 0x61] := by decide +kernel

theorem treeAaab_ok : (inPhase treeAaab .built .enc).TreeOk where
  below := treeAaab_childrenBelow
  distinct := by rw [treeAaab_leaves]; decide
  present b := by
    rw [treeAaab_leaves]
    simp only [inPhase, treeAaab, tableAaab, atSym_putSym]
    by_cases h1 : b = 0x61 <;> by_cases h2 : b = 0x62 <;> simp [h1, h2, bound, State.reset]

theorem witness_ReservedAndIllegalCommandsFault :
    (∀ v ∈ ([0x02, 0xFF] : List Byte),
      v ∉ ([0x00, 0x01, 0x10, 0x11, 0x12, 0x20, 0x21, 0x30, 0x31, 0x32, 0x33, 0x34, 0x40, 0x41] : List Byte)) ∧
    bound.phase ≠ .fault ∧ faulted.phase = .fault ∧ ¬ legalWhen .derive bound.phase bound.mode bound.nsyms.toNat :=
  ⟨by decide, by decide, rfl, fun h => absurd h.1 (by decide)⟩

theorem witness_StepRunsTheDecodedCommand :
    (writing bound 0x10).hostMoves = .write 0 0x10 :: [] ∧ decode [0x10] = .ok (.scan, []) := ⟨rfl, rfl⟩

theorem witness_LegalityTableHolds :
    (bound.phase ≠ .fault ∧ ¬ legalWhen .derive bound.phase bound.mode bound.nsyms.toNat) ∧
    (legalWhen .scan bound.phase bound.mode bound.nsyms.toNat ∧ ∃ t, exec .scan bound = .next t) := by
  refine ⟨⟨by decide, fun h => absurd h.1 (by decide)⟩, rfl, stateOf (exec .scan bound), ?_⟩
  exact eq_next_stateOf (p := fun t => t.phase == .table) (by decide +kernel)

theorem witness_ClearAndResetRestoreTheCore :
    ({ tableAaab with hostMoves := [.reset] } : State).hostMoves = .reset :: [] := rfl

theorem witness_ResetValues : ∃ s, exec .clear s = .next State.reset := ⟨State.reset, rfl⟩

theorem witness_FaultIgnoresCommands :
    faulted.phase = .fault ∧ (∀ i ∈ [Instr.nop, .scan, .persist, .load, .build, .derive, .wrhdr, .emit, .flush, .rdhdr, .walk],
      i ≠ .clear) ∧ decodeByte 0x50 = .error (.reserved 0x50) := ⟨rfl, by decide, rfl⟩

/-- A state in a phase and a mode in which every port is held and these are the environment's answers at every port. -/
def withFails (p : Phase) (m : Mode) (fails : List Bool) : State :=
  { announcedAaab with
    phase := p, mode := m, portHeld := 0b111111, nsyms := 0, bwN := 1
    src := ⟨[0x61], 0, fails⟩, fsrc := ⟨[0x61], 0, fails⟩, esrc := ⟨[0x61], 0, fails⟩
    fsink := ⟨[], fails⟩, esink := ⟨[], fails⟩, osink := ⟨[], fails⟩ }

theorem witness_FailedAccessEndsInIoError :
    ((∀ fails ∈ [[true], [true, false]], failsNext fails = true) ∧ (∀ fails ∈ [[], [false]], failsNext fails = false)) ∧
    (∀ p ∈ [SourcePort.src, .fsrc, .esrc], (withFails .hdr .enc [true]).held p.num = true ∧
      ((withFails .hdr .enc []).source p).pos < ((withFails .hdr .enc []).source p).data.length) ∧
    ([0x61] : List Byte).length ≤ ({ bound.src with data := [0x61], pos := 1 } : Source).pos ∧
    (∀ q ∈ [SinkPort.fsink, .esink, .osink], (withFails .hdr .enc [true]).held q.num = true) ∧
    (legalWhen .scan .idle .none 0 ∧ legalWhen .persist .table .enc 0 ∧ legalWhen .load .idle .none 0 ∧
      legalWhen .wrhdr .derived .enc 2 ∧ legalWhen .wrhdr .persisted .enc 0 ∧ legalWhen .emit .hdr .enc 0 ∧
      legalWhen .flush .streamed .enc 0 ∧ legalWhen .rdhdr .built .dec 2 ∧ legalWhen .rdhdr .table .dec 0 ∧
      legalWhen .walk .hdr .dec 0) ∧
    ((withFails .streamed .enc [true]).held 2 = true ∧ (withFails .streamed .enc [true]).bwN ≠ 0 ∧
      (withFails .hdr .dec [true]).treeValid = true ∧ bound.hdrBits = 0) :=
  ⟨by decide, by decide, by decide, by decide, by simp [legalWhen], by decide⟩

/-- V26: the fifth `Put` of the header fails, and the answers up to it have been used. -/
theorem witness_FailedAccessEndsInIoError_later :
    let s : State := { inPhase announcedAaab .derived .enc with esink := ⟨[], [false, false, false, false, false, true, false]⟩ }
    s.phase ≠ .fault ∧ answers (exec .wrhdr s) (fun t => t.phase == .fault && t.err == some .ioError &&
      s.failsOf 2 == [false, false, false, false, false, true] ++ t.failsOf 2) = true := by decide +kernel

theorem witness_OnlyTheListedErrorsAreRaised :
    let s : State := { bound with src := ⟨[0x61], 0, [true]⟩ }
    s.phase ≠ .fault ∧ ∃ t, exec .scan s = .next t ∧ t.phase = .fault := by
  refine ⟨by decide, stateOf (exec .scan { bound with src := ⟨[0x61], 0, [true]⟩ }), ?_, by decide +kernel⟩
  exact eq_next_stateOf (p := fun t => t.phase == .fault) (by decide +kernel)

theorem witness_HostRegisters :
    bound.total < 2 ^ 64 ∧ 9 ≤ 9 ∧ ({ bound with hostMoves := [.read 4] } : State).hostMoves = .read 4 :: [] ∧
      ({ bound with hostMoves := [.write 3 5] } : State).hostMoves = .write 3 5 :: [] ∧ 3 ≠ 0 := by decide

theorem witness_HostMovesOnStreams :
    bound.hostMoves = [] ∧
    ({ bound with hostMoves := [.bindSource .src [1] [true]] } : State).hostMoves = .bindSource .src [1] [true] :: [] ∧
    bound.held SourcePort.src.num = false ∧ (inPhase bound .table .enc).held SourcePort.src.num = true ∧
    ({ bound with hostMoves := [.bindSink .osink [1] []] } : State).hostMoves = .bindSink .osink [1] [] :: [] ∧
    bound.held SinkPort.osink.num = false ∧ ({ bound with portHeld := 0b100000 } : State).held SinkPort.osink.num = true := by
  decide

/-- After reset with `CNT_W = 2`, so `MAXCNT = 3`, and a source of this length. -/
def counting (n : Nat) : State := { State.reset with cntW := 2, src := ⟨List.replicate n 0x61, 0, []⟩ }

theorem witness_ScanCountsTheSource :
    (counting 3).atReset ∧ (counting 3).src.data.length ≤ (counting 3).maxCnt ∧ neverFails (counting 3).src.fails :=
  ⟨rfl, by decide, by decide⟩

theorem witness_ScanStepCountsOneByte :
    ({ counting 0 with total := 3 } : State).total = ({ counting 0 with total := 3 } : State).maxCnt ∧
      ({ counting 0 with total := 2 } : State).total ≠ ({ counting 0 with total := 2 } : State).maxCnt := by decide

theorem witness_ScanOverCapacityFaults :
    (counting 4).atReset ∧ (counting 4).maxCnt < (counting 4).src.data.length ∧ neverFails (counting 4).src.fails :=
  ⟨rfl, by decide, by decide⟩

theorem witness_PersistWritesTheRecord :
    (inPhase tableAaab .table .enc).phase = .table ∧ (inPhase tableAaab .table .enc).mode = .enc ∧
      neverFails (inPhase tableAaab .table .enc).fsink.fails := by decide

theorem witness_RecordFieldsSpellTheirValues : 0 < 8 ∧ 7 < 8 ∧ 0 < 1 ∧ 0 ≤ 2 ^ 32 - 1 ∧ 2 ^ 32 - 1 ≤ 2 ^ 32 - 1 := by
  decide

/-- The lines of the record of V1. -/
def linesAaab : List (Symbol × List Byte) := [(0x61, [0x33]), (0x62, [0x31])]

theorem linesAaab_ok : RecordOk bound.maxCnt linesAaab where
  counts := by decide
  distinct := by decide
  fits := by decide

theorem noLines_ok (m : Nat) : RecordOk m [] where
  counts := by simp
  distinct := by simp
  fits := by simp

theorem witness_LoadReadsAnyRecord :
    bound.atReset ∧ RecordOk bound.maxCnt linesAaab ∧ bound.fsrc.data = linesAaab.flatMap lineOf ∧
      neverFails bound.fsrc.fails := ⟨rfl, linesAaab_ok, by decide, by decide⟩

/-- The decimal form of `MAXCNT` and of the number after it, for `CNT_W = 32`. -/
def digitsMax : List Byte := [0x34, 0x32, 0x39, 0x34, 0x39, 0x36, 0x37, 0x32, 0x39, 0x35]
def digitsOver : List Byte := [0x34, 0x32, 0x39, 0x34, 0x39, 0x36, 0x37, 0x32, 0x39, 0x36]

theorem witness_LoadRefusesBadLines :
    (∀ bad : List Byte, (loading (linesAaab.flatMap lineOf ++ bad ++ [])).atReset ∧
      (loading (linesAaab.flatMap lineOf ++ bad ++ [])).fsrc.data = linesAaab.flatMap lineOf ++ bad ++ [] ∧
      neverFails (loading (linesAaab.flatMap lineOf ++ bad ++ [])).fsrc.fails) ∧
    RecordOk State.reset.maxCnt linesAaab ∧
    (0 < 8 ∧ 7 < 8 ∧ (0x0A : Byte) ≠ 0x30 ∧ (0x0A : Byte) ≠ 0x31) ∧ (0x39 : Byte) ≠ 0x3A ∧
    (isCount digitsMax ∧ digitsValue digitsMax ≤ State.reset.maxCnt ∧
      (∀ c ∈ ([0x2F, 0x3A] : List Byte), ¬ ((0x30 : Byte) ≤ c ∧ c ≤ 0x39) ∧ c ≠ 0x0A)) ∧
    (areDigits [] ∧ digitsValue [] ≤ State.reset.maxCnt ∧ areDigits digitsMax) ∧ (0 < 1 ∧ 1 ≤ 8 ∧ 0 < 8 ∧ 8 ≤ 8) ∧
    ((0x61 : Symbol) ∈ linesAaab.map (·.1) ∧ (0x63 : Symbol) ∉ linesAaab.map (·.1)) ∧
    (isCount digitsOver ∧ State.reset.maxCnt < digitsValue digitsOver) ∧
    State.reset.maxCnt < (linesAaab.map fun l => digitsValue l.2).sum + digitsValue digitsMax :=
  ⟨fun _ => ⟨rfl, rfl, fun _ h => absurd h List.not_mem_nil⟩, linesAaab_ok, by decide, by decide, by decide, by decide, by decide,
    by decide, by decide, by decide⟩

/-- A session that encodes one byte: before it, scanned, persisted, and done. -/
def sourceA : State := { State.reset with src := ⟨[0x61], 0, []⟩ }
def scannedA : State :=
  inPhase { sourceA with
    ftPres := putSym sourceA.ftPres 0x61 true, ftCnt := putSym sourceA.ftCnt 0x61 1, nsyms := 1, total := 1
    src := ⟨[0x61], 1, []⟩ } .table .enc
def persistedA : State :=
  { inPhase scannedA .persisted .enc with
    fsink := ⟨[0x30, 0x31, 0x31, 0x30, 0x30, 0x30, 0x30, 0x31, 0x3A, 0x31, 0x0A], []⟩ }
def encodedA : State := stateOf (exec .encode sourceA)

theorem exec_scannedA : exec .scan sourceA = .next scannedA := eq_next_of_answers (Vector.toList_inj.mp (by decide +kernel)) (by decide +kernel)
theorem exec_persistedA : exec .persist scannedA = .next persistedA :=
  eq_next_of_answers (Vector.toList_inj.mp (by decide +kernel)) (by decide +kernel)
theorem exec_encodedA : exec .encode sourceA = .next encodedA :=
  eq_next_stateOf (p := fun t => t.phase == .done) (by decide +kernel)
theorem encodedA_phase : encodedA.phase = .done := by decide +kernel

theorem witness_TableFidelity :
    sourceA.atReset ∧ exec .scan sourceA = .next scannedA ∧ scannedA.phase = .table ∧
    exec .persist scannedA = .next persistedA ∧ persistedA.phase = .persisted ∧
    (loading persistedA.fsink.data).atReset ∧ (loading persistedA.fsink.data).cntW = sourceA.cntW ∧
    (loading persistedA.fsink.data).fsrc.data = persistedA.fsink.data ∧
    neverFails (loading persistedA.fsink.data).fsrc.fails :=
  ⟨rfl, exec_scannedA, rfl, exec_persistedA, rfl, rfl, rfl, rfl, fun _ h => absurd h List.not_mem_nil⟩

theorem witness_ExtractMinTakesTheFirst : ∃ id : NodeId, treeAaab.nodeAct[id] = true := ⟨256, by decide +kernel⟩

/-- Two active leaves and this next id. -/
def merging (next : BitVec 10) : State :=
  { tableAaab with nodeAct := (tableAaab.nodeAct.set 0x61 true).set 0x62 true, nextId := next }

theorem witness_MergeStepJoinsTheTwoFirst :
    (merging 256).nextId.toNat = 256 + (0 : Fin 255).val ∧ (merging 510).nextId.toNat = 256 + (254 : Fin 255).val ∧
      ∃ x y : NodeId, x ≠ y ∧ (merging 510).nodeAct[x] = true ∧ (merging 510).nodeAct[y] = true :=
  ⟨by decide, by decide, 0x61, 0x62, by decide, by decide +kernel, by decide +kernel⟩

theorem inPhase_tableOk {s : State} (h : s.TableOk) (p : Phase) (m : Mode) : (inPhase s p m).TableOk :=
  ⟨h.absent, h.nsyms, h.total, h.fits⟩

theorem tableOk_of_eq {s t : State} (h : s.TableOk) (h1 : t.ftPres = s.ftPres) (h2 : t.ftCnt = s.ftCnt)
    (h3 : t.nsyms = s.nsyms) (h4 : t.total = s.total) (h5 : t.cntW = s.cntW) : t.TableOk := by
  obtain ⟨ha, hn, ht, hf⟩ := h
  exact ⟨by rwa [h1, h2], by rwa [State.presentSymbols, h1, h3], by rwa [h2, h4], by rwa [State.maxCnt, h4, h5]⟩

theorem codesTable_ok : announcedAaab.TableOk := tableOk_of_eq tableAaab_ok rfl rfl rfl rfl rfl

theorem witness_BuildMakesTheTree :
    (inPhase tableAaab .persisted .enc).TableOk ∧ (inPhase tableAaab .persisted .enc).childrenBelow ∧
    (inPhase tableAaab .persisted .enc).nsyms ≠ 0 ∧ legalWhen .build .persisted .enc 2 ∧
    (inPhase tableAaab .table .dec).TableOk ∧ legalWhen .build .table .dec 2 :=
  ⟨inPhase_tableOk tableAaab_ok .persisted .enc, bound_childrenBelow, by decide, .inl ⟨rfl, rfl⟩, inPhase_tableOk tableAaab_ok .table .dec, .inr ⟨rfl, rfl⟩⟩

theorem witness_BuildOfOneSymbolIsALeaf :
    (inPhase treeZ .persisted .enc).TableOk ∧ (inPhase treeZ .persisted .enc).nsyms = 1 ∧
      atSym (inPhase treeZ .persisted .enc).ftPres 0x7A = true ∧ legalWhen .build .persisted .enc 1 :=
  ⟨inPhase_tableOk treeZ_tableOk _ _, rfl, by decide +kernel,
    .inl ⟨rfl, rfl⟩⟩

theorem witness_BuildOfTheEmptyTableFaults :
    (inPhase bound .table .dec).nsyms = 0 ∧ legalWhen .build (inPhase bound .table .dec).phase (inPhase bound .table .dec).mode 0 :=
  ⟨rfl, .inr ⟨rfl, rfl⟩⟩

/-- The tree that `BUILD` makes of the table of V1 and the codes that `DERIVE` makes of it (P1 steps 3 and 4). -/
def builtAaab : State :=
  { inPhase treeAaab .built .enc with nodeW := (stateOf (exec .build (inPhase tableAaab .persisted .enc))).nodeW }
def derivedAaab : State := stateOf (exec .derive builtAaab)

theorem exec_builtAaab : exec .build (inPhase tableAaab .persisted .enc) = .next builtAaab :=
  eq_next_of_answers (by simp only [builtAaab]) (by decide +kernel)

theorem exec_derivedAaab : exec .derive builtAaab = .next derivedAaab :=
  eq_next_stateOf (p := fun t => t.ctValid) (by decide +kernel)
theorem derivedAaab_phase : derivedAaab.phase = .derived := by decide +kernel

theorem witness_WeightsAreTheSumsOfTheLeaves :
    (inPhase tableAaab .persisted .enc).TableOk ∧ (inPhase tableAaab .persisted .enc).nsyms ≠ 0 ∧
      legalWhen .build .persisted .enc 2 ∧ exec .build (inPhase tableAaab .persisted .enc) = .next builtAaab :=
  ⟨inPhase_tableOk tableAaab_ok .persisted .enc, by decide, .inl ⟨rfl, rfl⟩, exec_builtAaab⟩

theorem witness_BuildDependsOnTheTableOnly :
    (inPhase tableAaab .persisted .enc).TableOk ∧ exec .build (inPhase tableAaab .persisted .enc) = .next builtAaab ∧
      builtAaab.phase = .built ∧ (inPhase tableAaab .persisted .enc).phase ≠ .built ∧
      exec .derive builtAaab = .next derivedAaab ∧ derivedAaab.phase = .derived :=
  ⟨inPhase_tableOk tableAaab_ok .persisted .enc, exec_builtAaab, rfl, by decide, exec_derivedAaab, derivedAaab_phase⟩

theorem witness_DeriveGivesThePaths :
    (inPhase treeAaab .built .enc).TreeOk ∧ isLeaf (inPhase treeAaab .built .enc).root = false ∧
      (inPhase treeAaab .built .enc).phase = .built ∧ (inPhase treeAaab .built .enc).mode = .enc :=
  ⟨treeAaab_ok, by decide, rfl, rfl⟩

theorem witness_DeriveOfALeafRootIsOneBit :
    isLeaf (inPhase treeZ .built .enc).root = true ∧ (inPhase treeZ .built .enc).phase = .built ∧
      (inPhase treeZ .built .enc).mode = .enc := by decide

theorem witness_CodesArePrefixFree :
    (inPhase treeAaab .built .enc).TreeOk ∧ (inPhase treeAaab .built .enc).phase = .built ∧
      (inPhase treeAaab .built .enc).mode = .enc ∧ (∃ t, exec .derive (inPhase treeAaab .built .enc) = .next t) ∧
      atSym treeAaab.ftPres 0x61 = true ∧ atSym treeAaab.ftPres 0x62 = true ∧ (0x61 : Symbol) ≠ 0x62 :=
  ⟨treeAaab_ok, rfl, rfl, ⟨_, eq_next_stateOf (p := fun t => t.ctValid) (by decide +kernel)⟩,
    by decide +kernel, by decide +kernel, by decide⟩

theorem witness_HeavierSymbolsHaveNoLongerCodes :
    (inPhase tableAaab .persisted .enc).TableOk ∧ (inPhase tableAaab .persisted .enc).nsyms ≠ 0 ∧
      (inPhase tableAaab .persisted .enc).phase = .persisted ∧ (inPhase tableAaab .persisted .enc).mode = .enc ∧
      exec .build (inPhase tableAaab .persisted .enc) = .next builtAaab ∧ exec .derive builtAaab = .next derivedAaab ∧
      atSym tableAaab.ftPres 0x61 = true ∧ atSym tableAaab.ftPres 0x62 = true ∧
      atSym tableAaab.ftCnt 0x62 < atSym tableAaab.ftCnt 0x61 :=
  ⟨inPhase_tableOk tableAaab_ok .persisted .enc, by decide, rfl, rfl, exec_builtAaab, exec_derivedAaab, by decide +kernel, by decide +kernel,
    by decide +kernel⟩

theorem witness_PayloadBitsAreTheInternalWeights :
    (inPhase tableAaab .persisted .enc).TableOk ∧ (inPhase tableAaab .persisted .enc).nsyms ≠ 0 ∧
      (inPhase tableAaab .persisted .enc).phase = .persisted ∧ (inPhase tableAaab .persisted .enc).mode = .enc ∧
      exec .build (inPhase tableAaab .persisted .enc) = .next builtAaab ∧ exec .derive builtAaab = .next derivedAaab :=
  ⟨inPhase_tableOk tableAaab_ok .persisted .enc, by decide, rfl, rfl, exec_builtAaab, exec_derivedAaab⟩

/-- A bit writer with this many pending bits, all 0, and these answers of the environment. -/
def bitWriter (n : Fin 8) (fails : List Bool) : State :=
  { inPhase announcedAaab .hdr .enc with bwN := n, bwAcc := 0, esink := ⟨[], fails⟩ }

theorem witness_BitWriterFillsBytesFromTheTop :
    (bitWriter 0 []).bwN.val < 7 ∧ (bitWriter 6 []).bwN.val < 7 ∧
    (∀ i < 8, i + (bitWriter 6 []).bwN.val ≤ 7 → (bitWriter 6 []).bwAcc.getLsbD i = false) ∧
    ((bitWriter 7 []).held 2 = true ∧ (bitWriter 7 []).bwN = 7 ∧ failsNext (bitWriter 7 []).esink.fails = false) ∧
    ((bitWriter 7 [true]).held 2 = true ∧ (bitWriter 7 [true]).bwN = 7 ∧
      failsNext (bitWriter 7 [true]).esink.fails = true) ∧
    (bitWriter 0 []).bwN = 0 ∧ ((bitWriter 1 []).bwN ≠ 0 ∧ failsNext (bitWriter 1 []).esink.fails = false) ∧
    ((bitWriter 1 [true]).bwN ≠ 0 ∧ failsNext (bitWriter 1 [true]).esink.fails = true) := by decide

/-- A bit reader with this many bits left, at this position of the encoded stream of V1. -/
def bitReader (n : Fin 9) (pos : Nat) (fails : List Bool) : State :=
  { inPhase announcedAaab .hdr .dec with brLeft := n, esrc := ⟨header 4 ++ [0xE0], pos, fails⟩ }

theorem witness_GetBitReadsBytesFromTheTop :
    ((bitReader 1 9 []).held 4 = true ∧ (bitReader 1 9 []).brLeft ≠ 0 ∧ (bitReader 8 9 []).brLeft ≠ 0) ∧
    ((bitReader 0 8 []).brLeft = 0 ∧ failsNext (bitReader 0 8 []).esrc.fails = false ∧
      (bitReader 0 8 []).esrc.data[(bitReader 0 8 []).esrc.pos]? = some 0xE0) ∧
    ((bitReader 0 9 []).brLeft = 0 ∧ failsNext (bitReader 0 9 []).esrc.fails = false ∧
      (bitReader 0 9 []).esrc.data.length ≤ (bitReader 0 9 []).esrc.pos) ∧
    ((bitReader 0 9 [true]).brLeft = 0 ∧ failsNext (bitReader 0 9 [true]).esrc.fails = true) := by decide

theorem witness_WrittenBitsReadBack :
    (bitWriter 0 []).held 2 = true ∧ neverFails (bitWriter 0 []).esink.fails ∧ (bitReader 0 8 []).held 4 = true ∧
      neverFails (bitReader 0 8 []).esrc.fails ∧ (bitReader 0 8 []).esrc.data = header 4 ++ [0xE0] ++ [] ∧
      (bitReader 0 8 []).esrc.pos = (header 4).length := by decide

theorem witness_WrhdrWritesTheBitCount :
    legalWhen .wrhdr .derived .enc 2 ∧ legalWhen .wrhdr .persisted .enc 0 ∧
      neverFails (inPhase announcedAaab .derived .enc).esink.fails ∧ (inPhase announcedAaab .derived .enc).TableOk ∧
      cntWOk (inPhase announcedAaab .derived .enc).cntW = true :=
  ⟨⟨rfl, .inl rfl⟩, ⟨rfl, .inr ⟨rfl, rfl⟩⟩, by decide,
    inPhase_tableOk codesTable_ok _ _, by decide⟩

theorem witness_EmitWritesTheCodes :
    (inPhase announcedAaab .hdr .enc).phase = .hdr ∧ (inPhase announcedAaab .hdr .enc).mode = .enc ∧
      (inPhase announcedAaab .hdr .enc).held 2 = true ∧ (∀ b ∈ (inPhase announcedAaab .hdr .enc).src.data, atSym codesAaab.codeLen b ≠ 0) ∧
      neverFails (inPhase announcedAaab .hdr .enc).src.fails ∧ neverFails (inPhase announcedAaab .hdr .enc).esink.fails := by
  decide +kernel

theorem witness_EmitWithoutACodeFaults :
    let s : State := { inPhase announcedAaab .hdr .enc with src := ⟨[0x61, 0x63, 0x62], 0, []⟩ }
    s.phase = .hdr ∧ s.mode = .enc ∧ s.held 2 = true ∧ s.src.data = [0x61] ++ 0x63 :: [0x62] ∧
      (∀ a ∈ ([0x61] : List Byte), atSym s.codeLen a ≠ 0) ∧ atSym s.codeLen 0x63 = 0 ∧ neverFails s.src.fails ∧
      neverFails s.esink.fails := by decide +kernel

theorem witness_FlushEndsTheSession :
    let s : State := { inPhase announcedAaab .streamed .enc with bwN := 4, bwAcc := 0xE0, bwTotal := 4 }
    s.phase = .streamed ∧ s.held 2 = true ∧ neverFails s.esink.fails ∧ s.bwTotal = s.hdrBits ∧
      ({ s with bwTotal := 5 } : State).bwTotal ≠ s.hdrBits := by decide

theorem witness_EncodeOfAnyInput :
    (cntWOk (counting 3).cntW = true ∧ (counting 3).noAccessFails ∧ (counting 3).src.data.length ≤ (counting 3).maxCnt) ∧
    (cntWOk (counting 4).cntW = true ∧ (counting 4).noAccessFails ∧ (counting 4).maxCnt < (counting 4).src.data.length) ∧
    exec .encode sourceA = .next encodedA ∧ encodedA.phase = .done :=
  ⟨by decide, by decide, exec_encodedA, encodedA_phase⟩

theorem witness_RdhdrReadsTheBitCount :
    legalWhen .rdhdr .built .dec 2 ∧ legalWhen .rdhdr .table .dec 0 ∧ neverFails bound.esrc.fails ∧
      8 ≤ (header 4).length ∧ ((header 4).take 7).length < 8 :=
  ⟨⟨rfl, .inl rfl⟩, ⟨rfl, .inr ⟨rfl, rfl⟩⟩, by decide, by decide, by decide⟩

/-- The codes of V1. -/
def pathAaab (b : Symbol) : List Bit := if b = 0x61 then [true] else [false]

theorem witness_WalkDecodesThePaths :
    let s : State := { inPhase announcedAaab .hdr .dec with esrc := ⟨header 4 ++ [0xE0] ++ [0xAA], 8, []⟩ }
    let syms : List Symbol := [0x61, 0x61, 0x61, 0x62]
    s.phase = .hdr ∧ s.mode = .dec ∧ s.held 4 = true ∧ s.treeValid = true ∧ isLeaf s.root = false ∧
      (∀ b ∈ syms, s.isPath s.root (pathAaab b) b) ∧ s.hdrBits.toNat = (syms.flatMap pathAaab).length ∧
      s.brLeft = 0 ∧ s.brTotal = 0 ∧ s.esrc.data = header 4 ++ payloadOf (syms.flatMap pathAaab) ++ [0xAA] ∧
      s.esrc.pos = (header 4).length ∧ neverFails s.esrc.fails ∧ neverFails s.osink.fails := by decide +kernel

theorem witness_WalkOfALeafRootIgnoresTheBits :
    let s : State := { inPhase treeZ .hdr .dec with hdrBits := 8, esrc := ⟨header 8 ++ [0xF0], 8, []⟩ }
    s.phase = .hdr ∧ s.mode = .dec ∧ s.held 4 = true ∧ s.treeValid = true ∧ isLeaf s.root = true ∧
      s.brTotal ≤ s.hdrBits ∧ s.hdrBits.toNat - s.brTotal.toNat ≤ s.brLeft.val + 8 * s.esrc.unread ∧
      neverFails s.esrc.fails ∧ neverFails s.osink.fails := by decide

theorem witness_WalkWithoutATree :
    let s : State := inPhase bound .hdr .dec
    s.phase = .hdr ∧ s.mode = .dec ∧ s.treeValid = false ∧ s.hdrBits = 0 ∧ neverFails s.osink.fails ∧
      ({ s with hdrBits := 1 } : State).hdrBits ≠ 0 := by decide

theorem treeAabc_childrenBelow : treeAabc.childrenBelow := by
  intro k
  simp only [treeAabc, bound, State.reset, Fin.getElem_fin, Vector.getElem_set, Vector.getElem_replicate]
  constructor <;> split <;> (try split) <;> simp <;> omega

theorem witness_WalkDetectsTruncation :
    (let s : State := { inPhase announcedAaab .hdr .dec with hdrBits := 9, esrc := ⟨header 9 ++ [0xE0], 8, []⟩ }
     s.phase = .hdr ∧ s.mode = .dec ∧ s.held 4 = true ∧ s.treeValid = true ∧ neverFails s.esrc.fails ∧
      neverFails s.osink.fails ∧ s.brLeft.val + 8 * s.esrc.unread < s.hdrBits.toNat - s.brTotal.toNat) ∧
    (let s : State := { inPhase treeAabc .hdr .dec with hdrBits := 2, esrc := ⟨header 2 ++ [0x40], 8, []⟩ }
     s.phase = .hdr ∧ s.mode = .dec ∧ s.held 4 = true ∧ s.treeValid = true ∧
      (∀ b ∈ ([0x61] : List Symbol), s.isPath s.root [false] b) ∧ [true] ≠ ([] : List Bit) ∧
      (∀ i ≤ [true].length, isLeaf (s.follow s.root ([true].take i)) = false) ∧ s.hdrBits.toNat = ([false] ++ [true]).length ∧
      s.brLeft = 0 ∧ s.brTotal = 0 ∧ s.esrc.data = header 2 ++ payloadOf ([false] ++ [true]) ++ [] ∧
      s.esrc.pos = (header 2).length) ∧ treeAabc.childrenBelow :=
  ⟨by decide +kernel, by decide +kernel, treeAabc_childrenBelow⟩

theorem linesZ_ok : RecordOk bound.maxCnt [(0x7A, [0x34])] where
  counts := by decide
  distinct := by decide
  fits := by decide

/-- V1 with bytes after the payload, the tree's paths, no symbols, one symbol (V3, V18) and the empty record. -/
theorem witness_DecodeGivesTheSymbols :
    (RecordOk bound.maxCnt linesAaab ∧ RecordOk bound.maxCnt [] ∧ RecordOk bound.maxCnt [(0x7A, [0x34])] ∧
      bound.maxCnt = Config.maxCntOf bound.cntW) ∧
    (bound.fsrc.data = linesAaab.flatMap lineOf ∧ bound.esrc.data = bytesBE 8 4 ++ [0xE0] ∧ bound.noAccessFails) ∧
    (let syms : List Symbol := [0x61, 0x61, 0x61, 0x62]
     (∀ b ∈ syms, b ∈ linesAaab.map (·.1) ∧ (inPhase treeAaab .done .dec).isPath 256 (pathAaab b) b) ∧
      4 = (syms.flatMap pathAaab).length ∧ ([0xE0, 0xAA] : List Byte) = payloadOf (syms.flatMap pathAaab) ++ [0xAA]) ∧
    (0 = (([] : List Symbol).flatMap pathAaab).length ∧ ([0xAA] : List Byte) = payloadOf [] ++ [0xAA]) ∧
    (8 ≤ 8 * ([0xF0] : List Byte).length ∧ 2 ^ 64 - 1 < 2 ^ 64) :=
  ⟨⟨linesAaab_ok, noLines_ok _, linesZ_ok, rfl⟩, by decide, by decide +kernel, by decide, by decide⟩

/-- After reset, with what that session wrote bound to the decoder's sources. -/
def decodingA : State :=
  { State.reset with fsrc := ⟨encodedA.fsink.data, 0, []⟩, esrc := ⟨encodedA.esink.data, 0, []⟩ }

theorem witness_RoundTrip :
    cntWOk sourceA.cntW = true ∧ sourceA.src.data.length ≤ sourceA.maxCnt ∧ sourceA.noAccessFails ∧
      exec .encode sourceA = .next encodedA ∧ decodingA.cntW = sourceA.cntW ∧
      decodingA.fsrc.data = encodedA.fsink.data ∧ decodingA.esrc.data = encodedA.esink.data ∧
      decodingA.noAccessFails := by
  refine ⟨by decide, by decide, by decide, exec_encodedA, rfl, ?_, ?_, ?_⟩
  · simp only [decodingA]
  · simp only [decodingA]
  · simp [decodingA, State.reset, Source.empty, Sink.empty]

/-- A state in the middle of an encode session. -/
def between : State := inPhase announcedAaab .hdr .enc

theorem between_inv : between.Inv where
  width := by decide
  table := inPhase_tableOk codesTable_ok _ _
  ports := rfl
  modes := rfl
  below := treeAaab_childrenBelow
  idle := fun h => absurd h (by decide)
  error := rfl
  quiet := fun _ => rfl
  unfilled := fun _ i _ => by simp [show between.bwAcc = 0 from rfl]
  tree := ⟨fun _ => rfl, fun _ h => absurd h (by decide)⟩
  codes := ⟨fun h => absurd h (by decide), fun _ _ => .inl rfl⟩

theorem witness_StepKeepsTheInvariant : between.Inv ∧ ∃ t, step (writing between 0x31) = .next t :=
  ⟨between_inv, _, eq_next_stateOf (p := fun t => t.phase == .streamed) (by decide +kernel)⟩

theorem witness_NoCommandStops : between.Inv := between_inv

theorem witness_CompositesEndTheSession :
    exec .encode sourceA = .next encodedA ∧
      ∃ t, exec .decode { bound with fsrc := ⟨[], 0, []⟩, esrc := ⟨header 0, 0, []⟩ } = .next t :=
  ⟨exec_encodedA, _, eq_next_stateOf (p := fun t => t.phase == .done) (by decide +kernel)⟩

theorem witness_PhaseNeverDecreases :
    Instr.build ≠ .clear ∧ Instr.build ≠ .encode ∧ Instr.build ≠ .decode ∧
      exec .build (inPhase tableAaab .persisted .enc) = .next builtAaab :=
  ⟨by decide, by decide, by decide, exec_builtAaab⟩

theorem witness_OnlyScanAndLoadWriteTheTable :
    exec .build (inPhase tableAaab .persisted .enc) = .next builtAaab ∧ Instr.build ≠ .scan ∧ Instr.build ≠ .load ∧
      Instr.build ≠ .clear ∧ Instr.build ≠ .encode ∧ Instr.build ≠ .decode :=
  ⟨exec_builtAaab, by decide, by decide, by decide, by decide, by decide⟩

theorem witness_OnlyBuildAndDeriveWriteTreeAndCodes :
    exec .derive builtAaab = .next derivedAaab ∧ exec .build (inPhase tableAaab .persisted .enc) = .next builtAaab ∧
      (∀ i ∈ [Instr.clear, .encode, .decode, .build], Instr.derive ≠ i) ∧
      (∀ i ∈ [Instr.clear, .encode, .decode, .derive], Instr.build ≠ i) :=
  ⟨exec_derivedAaab, exec_builtAaab, by decide, by decide⟩

theorem witness_BitRegistersAreWrittenByTheirCommands :
    exec .build (inPhase tableAaab .persisted .enc) = .next builtAaab ∧
      (∀ i ∈ [Instr.scan, .load, .wrhdr, .rdhdr, .walk, .emit, .flush, .clear, .encode, .decode], Instr.build ≠ i) :=
  ⟨exec_builtAaab, by decide⟩

theorem witness_SourcesAreOnlyRead :
    exec .build (inPhase tableAaab .persisted .enc) = .next builtAaab ∧
      (∀ i ∈ [Instr.scan, .emit, .encode, .load, .decode, .rdhdr, .walk], Instr.build ≠ i) ∧
      (inPhase tableAaab .persisted .enc).streamsOk := ⟨exec_builtAaab, by decide, by decide⟩

theorem witness_OtherSinksAreUntouched :
    exec .build (inPhase tableAaab .persisted .enc) = .next builtAaab ∧
      (∀ i ∈ [Instr.persist, .encode, .wrhdr, .emit, .flush, .walk, .decode], Instr.build ≠ i) ∧
      (inPhase tableAaab .persisted .enc).held 2 = false ∧ (inPhase tableAaab .persisted .enc).held 5 = false ∧
      builtAaab.phase ≠ .fault ∧
      (∃ t, exec .decode { bound with fsrc := ⟨[], 0, []⟩, esrc := ⟨header 0, 0, []⟩ } = .next t) ∧
      exec .encode sourceA = .next encodedA :=
  ⟨exec_builtAaab, by decide, by decide, by decide, by decide,
    ⟨_, eq_next_stateOf (p := fun t => t.phase == .done) (by decide +kernel)⟩, exec_encodedA⟩

end Sys2Proof.Tests
end

section
/-!
PROOFS. The state after reset and after `CLEAR` (spec/10_state.md R35).
-/

namespace Sys2Proof.Machine

/-- `CLEAR` is legal in every phase and no phase ignores it (R81, R83, R84). -/
@[simp] theorem exec_clear (s : State) : exec .clear s = .next s.cleared := by
  have runs : runsInFault .clear = true := rfl
  have isLegal : legal s .clear = true := rfl
  calc exec .clear s = runCommand .clear (modify State.cleared) s := rfl
    _ = finish (opcode .clear) ((modify State.cleared : Proc Unit) s) := by simp [runCommand, runs, isLegal]
    _ = .next s.cleared := rfl

@[simp] theorem State.cleared_reset : State.reset.cleared = State.reset := rfl

/-- The reset state and the states that `CLEAR` answers are the cleared states. -/
theorem eq_reset_or_exec_clear_iff (t : State) :
    (t = State.reset ∨ ∃ s, exec .clear s = .next t) ↔ ∃ s : State, s.cleared = t := by
  constructor
  · rintro (rfl | ⟨s, hs⟩)
    · exact ⟨State.reset, State.cleared_reset⟩
    · exact ⟨s, by simpa using hs⟩
  · rintro ⟨s, rfl⟩
    exact .inr ⟨s, exec_clear s⟩

theorem State.cleared_frequencyTable (s : State) (b : Symbol) :
    atSym s.cleared.ftPres b = false ∧ atSym s.cleared.ftCnt b = 0 :=
  ⟨atSym_replicate false b, atSym_replicate 0 b⟩

theorem State.cleared_nodes (s : State) (id : NodeId) :
    s.cleared.nodeW[id] = 0 ∧ s.cleared.nodeAct[id] = false :=
  ⟨Vector.getElem_replicate id.isLt, Vector.getElem_replicate id.isLt⟩

theorem State.cleared_children (s : State) (k : Fin 255) :
    s.cleared.nodeL[k] = 0 ∧ s.cleared.nodeR[k] = 0 :=
  ⟨Vector.getElem_replicate k.isLt, Vector.getElem_replicate k.isLt⟩

theorem State.cleared_codeTable (s : State) (b : Symbol) :
    atSym s.cleared.codeLen b = 0 ∧ atSym s.cleared.codeBits b = 0 :=
  ⟨atSym_replicate 0 b, atSym_replicate 0 b⟩

/-- Settles O8: both kinds of state are cleared states, whose stores are constant and whose registers are written out. -/
theorem resetValues : Obligations.ResetValues := by
  unfold Obligations.ResetValues
  intro t ht
  obtain ⟨s, rfl⟩ := (eq_reset_or_exec_clear_iff t).mp ht
  refine ⟨s.cleared_frequencyTable, rfl, rfl, s.cleared_nodes, s.cleared_children, rfl, rfl, rfl,
    s.cleared_codeTable, ?registers⟩
  case registers => simp [State.reset]

end Sys2Proof.Machine
end

section
/-!
PROOFS. Reserved values of `CMD` and commands that are not legal (spec/30_encoding.md R63, spec/40_control.md R81).
-/

namespace Sys2Proof

/-- The decoder refuses exactly the bytes that no row of the opcode table lists (R63). -/
theorem decodeByte_eq_reserved_iff (v : Byte) :
    decodeByte v = .error (.reserved v) ↔ v ∉ opcodeTable.map OpcodeRow.value := by
  have value_of_mem : ∀ r ∈ opcodeTable, r.value = opcode r.instr := by decide
  have noRow : opcodeTable.find? (·.covers v) = none ↔ v ∉ opcodeTable.map OpcodeRow.value := by
    simp only [List.find?_eq_none, List.mem_map, not_exists, not_and]
    refine forall₂_congr fun r hr => ?_
    rw [covers_iff_of_mem hr, value_of_mem r hr, eq_comm]
  rw [← noRow, decodeByte]
  cases opcodeTable.find? (·.covers v) with
  | none => simp
  | some r => simp

end Sys2Proof

namespace Sys2Proof.Machine

theorem writeCmd_of_reserved {v : Byte} (h : decodeByte v = .error (.reserved v)) (s : State) :
    writeCmd v s = reservedCommand v s := by
  have noCommand : decode [v] = .error (.reserved v) := by simp [decode, h, Except.map]
  simp [writeCmd, noCommand]

/-- The model's test of legality is the column "legal when" of R81. -/
theorem legal_iff_legalWhen (s : State) (i : Instr) :
    legal s i = true ↔ legalWhen i s.phase s.mode s.nsyms.toNat := by
  have nsyms_zero : s.nsyms.toNat = 0 ↔ s.nsyms = 0 := by rw [← BitVec.toNat_inj]; rfl
  cases i <;> simp [legal, legalWhen, nsyms_zero]

/-- Every command that can be illegal is a primitive one, which R80 dispatches; the composites are legal in every phase. -/
theorem exec_of_illegal {i : Instr} {s : State} (hp : s.phase ≠ .fault) (hl : legal s i = false) :
    exec i s = .next (s.raiseError .illegalCommand (opcode i)) := by
  cases i with
  | encode | decode => exact nomatch (hl : true = false)
  | _ => exact runCommand_of_illegal hp hl

/-- The opcodes of R61, written out. -/
theorem opcodeTable_values : opcodeTable.map OpcodeRow.value =
    [0x00, 0x01, 0x10, 0x11, 0x12, 0x20, 0x21, 0x30, 0x31, 0x32, 0x33, 0x34, 0x40, 0x41] := rfl

/-- Of the 256 symbols, those outside a list of different symbols are as many as the list leaves. -/
theorem length_filter_not_mem_allSymbols {l : List Symbol} (h : l.Nodup) :
    (allSymbols.filter (· ∉ l)).length = 256 - l.length := by
  have inside : (allSymbols.filter (· ∈ l)).Perm l := by
    refine (List.perm_ext_iff_of_nodup (allSymbols_nodup.filter _) h).mpr fun v => ?_
    simp [mem_allSymbols]
  have split := List.length_eq_length_filter_add (l := allSymbols) (· ∈ l)
  rw [inside.length_eq, length_allSymbols] at split
  simp only [decide_not]
  omega

/-- Settles O2: reserved are the bytes outside the opcode table, and only primitive commands can be illegal. -/
theorem reservedAndIllegalCommandsFault : Obligations.ReservedAndIllegalCommandsFault := by
  unfold Obligations.ReservedAndIllegalCommandsFault
  rw [← opcodeTable_values]
  refine ⟨?count, fun v hv => ?reserved, fun i s hp hl => ?illegal⟩
  case count =>
    simp only [decodeByte_eq_reserved_iff]
    have bytes := length_filter_not_mem_allSymbols opcodeTable_values_nodup
    rwa [List.length_map, length_opcodeTable, allSymbols, List.filter_map, List.length_map] at bytes
  case reserved =>
    have isReserved := (decodeByte_eq_reserved_iff v).mpr hv
    refine ⟨isReserved, fun s => ?_⟩
    rw [writeCmd_of_reserved isReserved, reservedCommand]
    exact ⟨fun hp => if_pos hp, fun hp => if_neg hp⟩
  case illegal =>
    rw [← legal_iff_legalWhen, Bool.not_eq_true] at hl
    exact exec_of_illegal hp hl

end Sys2Proof.Machine
end

section
/-!
PROOFS. The fields of a line of the frequency record: `bin8` (spec/30_encoding.md R72) and `decimal`
(spec/42_freqtable.md R103).
-/

namespace Sys2Proof.Machine

/-! ### The symbol field -/

theorem getElem?_bin8 (b : Symbol) {i : Nat} (h : i < 8) : (bin8 b)[i]? = some (binChar (b.getLsbD (7 - i))) := by
  simp [bin8, h]

@[simp] theorem toNat_binChar (b : Bit) : (binChar b).toNat - 0x30 = b.toNat := by
  cases b <;> rfl

/-- The first `k` characters of the symbol field spell the symbol's upper `k` bits. -/
theorem foldl_take_bin8 (b : Symbol) {k : Nat} (h : k ≤ 8) :
    ((List.range k).map fun i => binChar (b.getLsbD (7 - i))).foldl (fun n c => 2 * n + (c.toNat - 0x30)) 0 =
      b.toNat / 2 ^ (8 - k) := by
  induction k with
  | zero => simp [Nat.div_eq_of_lt b.isLt]
  | succ k ih =>
    have shift : b.toNat / 2 ^ (8 - k) = b.toNat / 2 ^ (7 - k) / 2 := by
      rw [Nat.div_div_eq_div_mul, ← Nat.pow_succ, Nat.succ_eq_add_one, show 7 - k + 1 = 8 - k by omega]
    have low : (b.getLsbD (7 - k)).toNat = b.toNat / 2 ^ (7 - k) % 2 := Nat.toNat_testBit b.toNat (7 - k)
    rw [List.range_succ, List.map_append, List.foldl_append, ih (by omega), shift]
    simp only [List.map_cons, List.map_nil, List.foldl_cons, List.foldl_nil, toNat_binChar, low,
      show 8 - (k + 1) = 7 - k by omega]
    omega

/-! ### The count field -/

theorem toNat_decChar {d : Nat} (h : d < 10) : (decChar d).toNat = 0x30 + d := by
  rw [decChar, BitVec.toNat_ofNat]
  omega

/-- From a positive number the repeated division puts its decimal digits, most significant first, before what is there. -/
theorem decimalDigits_eq_digits (fuel n : Nat) (acc : List Byte) (hn : 0 < n) (hf : n < fuel) :
    decimalDigits fuel n acc = (Nat.digits 10 n).reverse.map decChar ++ acc := by
  induction fuel generalizing n acc with
  | zero => omega
  | succ fuel ih =>
    rw [decimalDigits]
    split
    · next small => simp [Nat.digits_of_lt 10 n (by omega) small]
    · next large =>
      rw [ih (n / 10) _ (by omega) (by omega), Nat.digits_def' (by decide) hn]
      simp

@[simp] theorem decimal_zero : decimal 0 = [0x30] := rfl

theorem decimal_of_pos {n : Nat} (hn : 0 < n) : decimal n = (Nat.digits 10 n).reverse.map decChar := by
  rw [decimal, decimalDigits_eq_digits _ _ _ hn (Nat.lt_succ_self n), List.append_nil]

/-- Reading the characters of digits, most significant first, gives the number of those digits. -/
theorem digitsValue_map_decChar {ds : List Nat} (h : ∀ d ∈ ds, d < 10) :
    digitsValue (ds.reverse.map decChar) = Nat.ofDigits 10 ds := by
  rw [digitsValue, List.foldl_map, List.foldl_reverse, Nat.ofDigits_eq_foldr]
  induction ds with
  | nil => rfl
  | cons d ds ih =>
    have hd := toNat_decChar (h d List.mem_cons_self)
    rw [List.foldr_cons, List.foldr_cons, ih fun d' hd' => h d' (List.mem_cons_of_mem d hd'), hd]
    simp [Nat.add_comm]

theorem areDigits_decimal (n : Nat) : areDigits (decimal n) := by
  rcases Nat.eq_zero_or_pos n with rfl | hn
  · decide
  · rw [decimal_of_pos hn]
    intro c hc
    simp only [List.mem_map, List.mem_reverse] at hc
    obtain ⟨d, hd, rfl⟩ := hc
    have hlt : d < 10 := Nat.digits_lt_base (by decide) hd
    have hc := toNat_decChar hlt
    exact ⟨BitVec.le_def.mpr (by rw [hc]; exact Nat.le_add_right _ _),
      BitVec.le_def.mpr (by rw [hc]; exact Nat.add_le_add_left (Nat.le_of_lt_succ hlt) _)⟩

@[simp] theorem digitsValue_decimal (n : Nat) : digitsValue (decimal n) = n := by
  rcases Nat.eq_zero_or_pos n with rfl | hn
  · rfl
  · rw [decimal_of_pos hn, digitsValue_map_decChar fun d hd => Nat.digits_lt_base (by decide) hd, Nat.ofDigits_digits]

theorem decimal_ne_nil (n : Nat) : decimal n ≠ [] := by
  rcases Nat.eq_zero_or_pos n with rfl | hn
  · decide
  · simp [decimal_of_pos hn, Nat.digits_eq_nil_iff_eq_zero, hn.ne']

/-- The first character is the number's leading digit, which is not 0. -/
theorem head?_decimal_ne_zero {n : Nat} (hn : 0 < n) : (decimal n).head? ≠ some 0x30 := by
  have hne : Nat.digits 10 n ≠ [] := Nat.digits_ne_nil_iff_ne_zero.mpr hn.ne'
  have lead_ne : (Nat.digits 10 n).getLast hne ≠ 0 := Nat.getLast_digit_ne_zero 10 hn.ne'
  have lead_lt : (Nat.digits 10 n).getLast hne < 10 := Nat.digits_lt_base (by decide) (List.getLast_mem hne)
  rw [decimal_of_pos hn, List.head?_map, List.head?_reverse, List.getLast?_eq_some_getLast hne]
  intro h
  have hc := congrArg BitVec.toNat (Option.some.inj h)
  rw [toNat_decChar lead_lt] at hc
  exact lead_ne (Nat.add_left_cancel hc)

theorem length_decimal_le_iff {n k : Nat} (hk : 0 < k) : (decimal n).length ≤ k ↔ n < 10 ^ k := by
  rcases Nat.eq_zero_or_pos n with rfl | hn
  · simp [Nat.succ_le_iff, hk]
  · rw [decimal_of_pos hn, List.length_map, List.length_reverse, Nat.digits_length_le_iff (by decide)]

/-- Settles O19: the symbol field's characters are the symbol's bits, and the count field's are Mathlib's decimal digits of
the number in reverse. -/
theorem recordFieldsSpellTheirValues : Obligations.RecordFieldsSpellTheirValues := by
  unfold Obligations.RecordFieldsSpellTheirValues
  refine ⟨fun b => ⟨?width, ?bits, ?value⟩, fun n => ⟨?digits, digitsValue_decimal n, decimal_zero,
    head?_decimal_ne_zero, fun hn => ⟨?nonempty, ?short⟩⟩⟩
  case width => simp [bin8]
  case bits => exact fun i hi => getElem?_bin8 b hi
  case value => exact (foldl_take_bin8 b (Nat.le_refl 8)).trans (Nat.div_one _)
  case digits => exact areDigits_decimal n
  case nonempty => exact List.length_pos_iff.mpr (decimal_ne_nil n)
  case short => exact (length_decimal_le_iff (by decide)).mpr (by omega)

end Sys2Proof.Machine
end

section
/-!
PROOFS. The dispatch of a primitive command (spec/40_control.md R80), `NOP` (R82) and the commands that `FAULT` ignores
(R84).
-/

namespace Sys2Proof.Machine

/-- The procedure of a primitive command; a composite has none of its own. -/
def bodyOf : Instr → Proc Unit
  | .nop | .encode | .decode => pure ()
  | .clear => modify State.cleared
  | .scan => scanBody
  | .persist => persistBody
  | .load => loadBody
  | .build => buildBody
  | .derive => deriveBody
  | .wrhdr => wrhdrBody
  | .emit => emitBody
  | .flush => flushBody
  | .rdhdr => rdhdrBody
  | .walk => walkBody

/-- Every command that is its own only step is dispatched with its procedure (R66, R80). -/
theorem exec_eq_runCommand {i : Instr} (hi : expansionOf i = [i]) : exec i = runCommand i (bodyOf i) := by
  cases i with
  | encode | decode => simp [expansionOf] at hi
  | _ => rfl

theorem expansionOf_of_ignored {i : Instr} (hi : runsInFault i = false) : expansionOf i = [i] := by
  cases i with
  | nop | clear | encode | decode => exact nomatch hi
  | _ => rfl

/-- In `FAULT` the primitives but `NOP` and `CLEAR` are ignored (R84). -/
theorem exec_of_ignored {i : Instr} {s : State} (hp : s.phase = .fault) (hi : runsInFault i = false) :
    exec i s = .next s := by
  rw [exec_eq_runCommand (expansionOf_of_ignored hi), runCommand_of_ignored hp hi]

/-- `NOP` is legal in every phase, no phase ignores it, and its procedure does nothing (R81, R82, R84). -/
@[simp] theorem exec_nop (s : State) : exec .nop s = .next s := by
  have runs : runsInFault .nop = true := rfl
  have isLegal : legal s .nop = true := rfl
  calc exec .nop s = runCommand .nop (pure ()) s := rfl
    _ = finish (opcode .nop) ((pure () : Proc Unit) s) := by simp [runCommand, runs, isLegal]
    _ = .next s := rfl

/-- Settles O6: the equation of `NOP`. -/
theorem nopChangesNothing : Obligations.NopChangesNothing := exec_nop

/-- Settles O9: `NOP` changes nothing anywhere, the ten other primitives are those that `FAULT` ignores, and a reserved
value is tested against `FAULT` first. -/
theorem faultIgnoresCommands : Obligations.FaultIgnoresCommands := by
  unfold Obligations.FaultIgnoresCommands
  refine fun s hp => ⟨fun i hi => ?command, fun v hv => ?reserved⟩
  case command =>
    obtain rfl | ignored := List.mem_cons.mp hi
    · exact exec_nop s
    · have tenIgnored : ∀ j ∈ [Instr.scan, .persist, .load, .build, .derive, .wrhdr, .emit, .flush, .rdhdr, .walk],
          runsInFault j = false := by decide
      exact exec_of_ignored hp (tenIgnored i ignored)
  case reserved => rw [writeCmd_of_reserved hv, reservedCommand, if_pos hp]

end Sys2Proof.Machine
end

section
/-!
PROOFS. Which errors each procedure raises (spec/60_exceptions.md R181).
-/

namespace Sys2Proof.Machine

variable {α β : Type} {E : ErrorKind → Bool}

/-- Every error that a procedure raises is one of `E`. -/
def RaisesOnly (E : ErrorKind → Bool) (x : Proc α) : Prop :=
  ∀ s e t, x s = .error (.raised e) t → E e = true

/-- A procedure that always answers a result raises nothing. -/
theorem RaisesOnly.of_ok {x : Proc α} (h : ∀ s, ∃ a t, x s = .ok a t) : RaisesOnly E x := by
  intro s e t herr
  obtain ⟨a, u, hok⟩ := h s
  simp [hok] at herr

theorem RaisesOnly.pure (a : α) : RaisesOnly E (pure a : Proc α) := .of_ok fun s => ⟨a, s, rfl⟩

theorem RaisesOnly.get : RaisesOnly E (get : Proc State) := .of_ok fun s => ⟨s, s, rfl⟩

theorem RaisesOnly.set (t : State) : RaisesOnly E (set t : Proc Unit) := .of_ok fun _ => ⟨(), t, rfl⟩

theorem RaisesOnly.modify (f : State → State) : RaisesOnly E (modify f : Proc Unit) :=
  .of_ok fun s => ⟨(), f s, rfl⟩

theorem RaisesOnly.raise {e : ErrorKind} (he : E e = true) : RaisesOnly E (throw (.raised e) : Proc α) := by
  rintro s e' t h
  obtain ⟨rfl, -⟩ : e = e' ∧ s = t := by simpa using h
  exact he

theorem RaisesOnly.stuck (f : Fault) : RaisesOnly E (throw (.stuck f) : Proc α) := by
  intro s e t h
  simp at h

theorem RaisesOnly.bind {x : Proc α} {f : α → Proc β} (hx : RaisesOnly E x) (hf : ∀ a, RaisesOnly E (f a)) :
    RaisesOnly E (x >>= f) := by
  intro s e t h
  obtain h | ⟨a, u, -, h⟩ := Proc.bind_error_iff.mp h
  · exact hx s e t h
  · exact hf a u e t h

theorem RaisesOnly.ite {c : Prop} [Decidable c] {x y : Proc α} (hx : RaisesOnly E x) (hy : RaisesOnly E y) :
    RaisesOnly E (if c then x else y) := by
  split
  · exact hx
  · exact hy

/-! ### Port accesses raise `IoError` alone (R42 to R44, R47) -/

section Ports
variable (io : E .ioError = true)
include io

theorem RaisesOnly.openSource (p : SourcePort) : RaisesOnly E (openSource p) := by
  intro s e t h
  cases hf : failsNext (s.source p).fails with
  | true =>
    rw [openSource_of_fail hf] at h
    obtain ⟨⟨⟩, -⟩ := EStateM.Result.error.inj h
    exact io
  | false => simp [openSource_of_go hf] at h

theorem RaisesOnly.openSink (q : SinkPort) : RaisesOnly E (openSink q) := by
  intro s e t h
  cases hf : failsNext (s.sink q).fails with
  | true =>
    rw [openSink_of_fail hf] at h
    obtain ⟨⟨⟩, -⟩ := EStateM.Result.error.inj h
    exact io
  | false => simp [openSink_of_go hf] at h

theorem RaisesOnly.getByte (p : SourcePort) : RaisesOnly E (getByte p) := by
  intro s e t h
  obtain ⟨-, ⟨⟩, -⟩ | ⟨-, -, ⟨⟩, -⟩ := getByte_error_inv h
  exact io

theorem RaisesOnly.putByte (q : SinkPort) (b : Byte) : RaisesOnly E (putByte q b) := by
  intro s e t h
  obtain ⟨-, ⟨⟩, -⟩ | ⟨-, -, ⟨⟩, -⟩ := putByte_error_inv h
  exact io

theorem RaisesOnly.putBytes (q : SinkPort) (bs : List Byte) : RaisesOnly E (putBytes q bs) := by
  induction bs with
  | nil => exact .pure ()
  | cons b bs ih => exact (RaisesOnly.putByte io q b).bind fun _ => ih

theorem RaisesOnly.memReadFrom (p : SourcePort) (n acc : Nat) : RaisesOnly E (memReadFrom p n acc) := by
  induction n generalizing acc with
  | zero => exact .pure _
  | succ n ih =>
    refine (RaisesOnly.getByte io p).bind fun r => ?_
    cases r with
    | none => exact .pure _
    | some b => exact ih _

theorem RaisesOnly.forEachByte (p : SourcePort) {f : Byte → Proc Unit} (hf : ∀ b, RaisesOnly E (f b)) (n : Nat) :
    RaisesOnly E (forEachByte p f n) := by
  induction n with
  | zero =>
    refine (RaisesOnly.getByte io p).bind fun r => ?_
    cases r with
    | none => exact .pure _
    | some b => exact .stuck _
  | succ n ih =>
    refine (RaisesOnly.getByte io p).bind fun r => ?_
    cases r with
    | none => exact .pure _
    | some b => exact (hf b).bind fun _ => ih

theorem RaisesOnly.putAcc : RaisesOnly E putAcc :=
  RaisesOnly.get.bind fun _ => (RaisesOnly.putByte io _ _).bind fun _ => .modify _

theorem RaisesOnly.putBits (bs : List Bit) : RaisesOnly E (putBits bs) := by
  induction bs with
  | nil => exact .pure ()
  | cons b bs ih =>
    refine RaisesOnly.bind ?_ fun _ => ih
    exact (RaisesOnly.modify _).bind fun _ => RaisesOnly.get.bind fun _ => .ite (RaisesOnly.putAcc io) (.modify _)

theorem RaisesOnly.getBit (truncated : E .truncatedStreamError = true) : RaisesOnly E getBit := by
  refine RaisesOnly.bind ?_ fun _ => RaisesOnly.get.bind fun _ => (RaisesOnly.set _).bind fun _ => .pure _
  refine RaisesOnly.get.bind fun _ => .ite ((RaisesOnly.getByte io _).bind fun r => ?_) (.pure ())
  cases r with
  | none => exact .raise truncated
  | some r => exact .modify _

end Ports

/-! ### The commands (R181) -/

theorem raisesOnly_scanBody : RaisesOnly (mayRaise .scan) scanBody := by
  have step (b : Byte) : RaisesOnly (mayRaise .scan) (scanStep b) :=
    RaisesOnly.get.bind fun _ => .ite (.raise rfl) (.set _)
  exact (RaisesOnly.modify _).bind fun _ => (RaisesOnly.openSource rfl _).bind fun _ => RaisesOnly.get.bind fun _ =>
    (RaisesOnly.forEachByte rfl _ step _).bind fun _ => .modify _

theorem raisesOnly_persistBody : RaisesOnly (mayRaise .persist) persistBody := by
  have lines (bs : List Symbol) : RaisesOnly (mayRaise .persist) (persistLines bs) := by
    induction bs with
    | nil => exact .pure ()
    | cons b bs ih => exact RaisesOnly.get.bind fun _ => (RaisesOnly.putBytes rfl _ _).bind fun _ => ih
  exact (RaisesOnly.openSink rfl _).bind fun _ => RaisesOnly.get.bind fun _ => (lines _).bind fun _ => .modify _

theorem raisesOnly_loadSymbol (k : Nat) (c : Option Byte) (sym : Nat) :
    RaisesOnly (mayRaise .load) (loadSymbol k c sym) := by
  induction k generalizing c sym with
  | zero =>
    unfold loadSymbol
    split
    · exact .raise rfl
    · exact .pure _
  | succ k ih =>
    unfold loadSymbol
    split
    · exact .raise rfl
    · exact (RaisesOnly.getByte rfl _).bind fun _ => ih _ _

theorem raisesOnly_loadCount (fuel n ndig : Nat) : RaisesOnly (mayRaise .load) (loadCount fuel n ndig) := by
  induction fuel generalizing n ndig with
  | zero => exact .stuck _
  | succ fuel ih =>
    refine (RaisesOnly.getByte rfl _).bind fun r => ?_
    cases r with
    | none => exact .raise rfl
    | some c =>
      dsimp only
      split
      · exact RaisesOnly.get.bind fun _ => .ite (.raise rfl) (ih _ _)
      · exact .ite (.pure _) (.raise rfl)

theorem raisesOnly_loadLine (c : Byte) : RaisesOnly (mayRaise .load) (loadLine c) := by
  have colon : RaisesOnly (mayRaise .load) loadColon :=
    (RaisesOnly.getByte rfl _).bind fun _ => .ite (.pure ()) (.raise rfl)
  have entry (b : Symbol) (n : Nat) : RaisesOnly (mayRaise .load) (loadEntry b n) :=
    RaisesOnly.get.bind fun _ => .ite (.raise rfl) (.ite (.raise rfl) (.set _))
  exact (raisesOnly_loadSymbol 7 _ 0).bind fun _ => colon.bind fun _ => RaisesOnly.get.bind fun _ =>
    (raisesOnly_loadCount _ 0 0).bind fun _ => entry _ _

theorem raisesOnly_loadBody : RaisesOnly (mayRaise .load) loadBody := by
  have lines (fuel : Nat) : RaisesOnly (mayRaise .load) (loadLines fuel) := by
    induction fuel with
    | zero => exact .stuck _
    | succ fuel ih =>
      refine (RaisesOnly.getByte rfl _).bind fun r => ?_
      cases r with
      | none => exact .pure ()
      | some c => exact (raisesOnly_loadLine c).bind fun _ => ih
  exact (RaisesOnly.modify _).bind fun _ => (RaisesOnly.openSource rfl _).bind fun _ => RaisesOnly.get.bind fun _ =>
    (lines _).bind fun _ => .modify _

theorem raisesOnly_extractMin : RaisesOnly E extractMin := by
  refine RaisesOnly.get.bind fun s => ?_
  split
  · exact .stuck _
  · exact (RaisesOnly.set _).bind fun _ => .pure _

theorem raisesOnly_mergeLoop (n : Nat) : RaisesOnly E (mergeLoop n) := by
  induction n with
  | zero => exact .pure ()
  | succ n ih =>
    refine RaisesOnly.bind ?_ fun _ => ih
    refine raisesOnly_extractMin.bind fun _ => raisesOnly_extractMin.bind fun _ => RaisesOnly.get.bind fun s => ?_
    split
    · exact .set _
    · exact .stuck _

theorem raisesOnly_buildBody : RaisesOnly (mayRaise .build) buildBody := by
  have root : RaisesOnly (mayRaise .build) takeRoot := by
    refine RaisesOnly.get.bind fun s => ?_
    split
    · exact .set _
    · exact .stuck _
  exact RaisesOnly.get.bind fun _ => .ite (.raise rfl) <| (RaisesOnly.modify _).bind fun _ =>
    RaisesOnly.get.bind fun _ => (raisesOnly_mergeLoop _).bind fun _ => root

theorem raisesOnly_deriveBody : RaisesOnly (mayRaise .derive) deriveBody := by
  have codes (fuel : Nat) (n : NodeId) (p : List Bit) : RaisesOnly (mayRaise .derive) (deriveFrom fuel n p) := by
    induction fuel generalizing n p with
    | zero => exact .stuck _
    | succ fuel ih => exact RaisesOnly.get.bind fun _ => .ite (.set _) ((ih _ _).bind fun _ => ih _ _)
  exact (RaisesOnly.modify _).bind fun _ =>
    (RaisesOnly.get.bind fun _ => .ite (.set _) (codes _ _ _)).bind fun _ => .modify _

theorem raisesOnly_wrhdrBody : RaisesOnly (mayRaise .wrhdr) wrhdrBody :=
  (RaisesOnly.modify _).bind fun _ => (RaisesOnly.openSink rfl _).bind fun _ => RaisesOnly.get.bind fun _ =>
    (RaisesOnly.putBytes rfl _ _).bind fun _ => .modify _

theorem raisesOnly_emitBody : RaisesOnly (mayRaise .emit) emitBody := by
  have step (b : Symbol) : RaisesOnly (mayRaise .emit) (emitStep b) :=
    RaisesOnly.get.bind fun _ => .ite (.raise rfl) (RaisesOnly.get.bind fun _ => RaisesOnly.putBits rfl _)
  exact (RaisesOnly.openSource rfl _).bind fun _ => RaisesOnly.get.bind fun _ =>
    (RaisesOnly.forEachByte rfl _ step _).bind fun _ => .modify _

theorem raisesOnly_flushBody : RaisesOnly (mayRaise .flush) flushBody := by
  have flush : RaisesOnly (mayRaise .flush) flushBits :=
    RaisesOnly.get.bind fun _ => .ite (.pure ()) (RaisesOnly.putAcc rfl)
  exact flush.bind fun _ => RaisesOnly.get.bind fun _ => .ite (.set _) (.raise rfl)

theorem raisesOnly_rdhdrBody : RaisesOnly (mayRaise .rdhdr) rdhdrBody := by
  refine (RaisesOnly.openSource rfl _).bind fun _ => (RaisesOnly.memReadFrom rfl _ _ 0).bind fun r => ?_
  cases r with
  | none => exact .raise rfl
  | some v => exact .modify _

theorem raisesOnly_walkLoop (n : Nat) : RaisesOnly (mayRaise .walk) (walkLoop n) := by
  have arrive (id : NodeId) : RaisesOnly (mayRaise .walk) (arriveAt id) :=
    (RaisesOnly.modify _).bind fun _ => .ite ((RaisesOnly.putByte rfl _ _).bind fun _ => .modify _) (.pure ())
  have step (b : Bit) : RaisesOnly (mayRaise .walk) (walkStep b) :=
    RaisesOnly.get.bind fun _ => .ite (RaisesOnly.putByte rfl _ _) (arrive _)
  induction n with
  | zero => exact .pure ()
  | succ n ih => exact (RaisesOnly.getBit rfl rfl).bind fun _ => (step _).bind fun _ => ih

theorem raisesOnly_walkBody : RaisesOnly (mayRaise .walk) walkBody :=
  RaisesOnly.get.bind fun _ => .ite (.raise rfl) <| (RaisesOnly.openSink rfl _).bind fun _ =>
    (RaisesOnly.modify _).bind fun _ => (raisesOnly_walkLoop _).bind fun _ =>
      RaisesOnly.get.bind fun _ => .ite (.raise rfl) (.set _)

/-- The procedure of each command raises the errors of its row of R181 alone. -/
theorem raisesOnly_bodyOf (i : Instr) : RaisesOnly (mayRaise i) (bodyOf i) := by
  cases i with
  | nop | encode | decode => exact .pure ()
  | clear => exact .modify _
  | scan => exact raisesOnly_scanBody
  | persist => exact raisesOnly_persistBody
  | load => exact raisesOnly_loadBody
  | build => exact raisesOnly_buildBody
  | derive => exact raisesOnly_deriveBody
  | wrhdr => exact raisesOnly_wrhdrBody
  | emit => exact raisesOnly_emitBody
  | flush => exact raisesOnly_flushBody
  | rdhdr => exact raisesOnly_rdhdrBody
  | walk => exact raisesOnly_walkBody

/-- No procedure raises `IllegalCommand`: the dispatch alone does (R80). -/
theorem mayRaise_illegalCommand (i : Instr) : mayRaise i .illegalCommand = false := by
  cases i <;> rfl

end Sys2Proof.Machine
end

section
/-!
PROOFS. The phase and the mode after a command that is legal (spec/40_control.md R81).
-/

namespace Sys2Proof.Machine

variable {α β : Type} {Q R : State → Prop}

/-! ### The state in which a procedure answers a result -/

/-- Every state in which a procedure answers a result has the property. -/
def ResultsIn (Q : State → Prop) (x : Proc α) : Prop := ∀ s a t, x s = .ok a t → Q t

/-- A sequence that answers a result ends as its last part does. -/
theorem ResultsIn.bind {x : Proc α} {f : α → Proc β} (hf : ∀ a, ResultsIn Q (f a)) : ResultsIn Q (x >>= f) := by
  intro s b u h
  obtain ⟨a, t, -, h⟩ := Proc.bind_ok_iff.mp h
  exact hf a t b u h

theorem ResultsIn.modify {f : State → State} (h : ∀ s, Q (f s)) : ResultsIn Q (modify f : Proc Unit) := by
  rintro s a t ht
  obtain rfl : f s = t := by simpa using ht
  exact h s

theorem ResultsIn.set {t : State} (h : Q t) : ResultsIn Q (set t : Proc Unit) := ResultsIn.modify fun _ => h

theorem ResultsIn.throw (e : Stop) : ResultsIn Q (throw e : Proc α) := by
  intro s a t h
  simp at h

theorem ResultsIn.ite {c : Prop} [Decidable c] {x y : Proc α} (hx : ResultsIn Q x) (hy : ResultsIn Q y) :
    ResultsIn Q (if c then x else y) := by
  split
  · exact hx
  · exact hy

theorem resultsIn_takeRoot : ResultsIn (·.phase = .built) takeRoot := by
  refine .bind fun s => ?_
  split
  · exact .set rfl
  · exact .throw _

theorem resultsIn_rdhdrBody : ResultsIn (·.phase = .hdr) rdhdrBody := by
  refine .bind fun _ => .bind fun r => ?_
  cases r with
  | none => exact .throw _
  | some v => exact .modify fun _ => rfl

/-- A command whose procedure answers a result enters the phase of its row (R81). -/
theorem phase_of_bodyOf_ok {i : Instr} (hi : expansionOf i = [i]) {s t : State} (h : bodyOf i s = .ok () t) :
    t.phase = phaseAfter i s.phase := by
  have enters {p : Phase} (hb : ResultsIn (·.phase = p) (bodyOf i)) : t.phase = p := hb s () t h
  cases i with
  | nop =>
    obtain rfl : s = t := by simpa [bodyOf] using h
    rfl
  | clear => exact enters (.modify fun _ => rfl)
  | scan | load => exact enters (.bind fun _ => .bind fun _ => .bind fun _ => .bind fun _ => .modify fun _ => rfl)
  | persist | emit => exact enters (.bind fun _ => .bind fun _ => .bind fun _ => .modify fun _ => rfl)
  | build =>
    exact enters (.bind fun _ => .ite (.throw _) (.bind fun _ => .bind fun _ => .bind fun _ => resultsIn_takeRoot))
  | derive => exact enters (.bind fun _ => .bind fun _ => .modify fun _ => rfl)
  | wrhdr => exact enters (.bind fun _ => .bind fun _ => .bind fun _ => .bind fun _ => .modify fun _ => rfl)
  | flush => exact enters (.bind fun _ => .bind fun _ => .ite (.set rfl) (.throw _))
  | rdhdr => exact enters resultsIn_rdhdrBody
  | walk =>
    exact enters (.bind fun _ => .ite (.throw _) (.bind fun _ => .bind fun _ => .bind fun _ => .bind fun _ =>
      .ite (.throw _) (.set rfl)))
  | encode | decode => simp [expansionOf] at hi

/-! ### The mode -/

/-- The procedures but those of `CLEAR`, `SCAN` and `LOAD` keep the mode (R26). -/
theorem keeps_mode_bodyOf (m : Mode) {i : Instr} (hc : i ≠ .clear) (hs : i ≠ .scan) (hl : i ≠ .load) :
    Keeps (·.mode = m) (bodyOf i) := by
  cases i with
  | nop | encode | decode => exact Keeps.pure ()
  | clear | scan | load => contradiction
  | persist => apply Keeps.persistBody <;> simp
  | build => apply Keeps.buildBody <;> simp
  | derive => apply Keeps.deriveBody <;> simp
  | wrhdr => apply Keeps.wrhdrBody <;> simp
  | emit => apply Keeps.emitBody <;> simp
  | flush => apply Keeps.flushBody <;> simp
  | rdhdr => apply Keeps.rdhdrBody <;> simp
  | walk => apply Keeps.walkBody <;> simp

/-- `SCAN` sets the mode first, so its procedure runs as from the state in which it is set (R100). -/
theorem scanBody_setMode (s : State) : scanBody (s.setMode .enc) = scanBody s := rfl

/-- `LOAD` sets the mode first, so its procedure runs as from the state in which it is set (R104). -/
theorem loadBody_setMode (s : State) : loadBody (s.setMode .dec) = loadBody s := rfl

/-- A command whose procedure answers a result leaves the mode of its row (R81). -/
theorem mode_of_bodyOf_ok {i : Instr} (hi : expansionOf i = [i]) {s t : State} (h : bodyOf i s = .ok () t) :
    t.mode = modeAfter i s.mode := by
  have kept (hc : i ≠ .clear) (hs : i ≠ .scan) (hl : i ≠ .load) : t.mode = s.mode :=
    (keeps_mode_bodyOf s.mode hc hs hl).ok rfl h
  cases i with
  | clear =>
    obtain rfl : s.cleared = t := by simpa [bodyOf] using h
    rfl
  | scan =>
    have keeps : Keeps (·.mode = .enc) scanBody := by apply Keeps.scanBody <;> simp
    exact keeps.ok (State.setMode_mode s .enc) ((scanBody_setMode s).trans h)
  | load =>
    have keeps : Keeps (·.mode = .dec) loadBody := by apply Keeps.loadBody <;> simp
    exact keeps.ok (State.setMode_mode s .dec) ((loadBody_setMode s).trans h)
  | encode | decode => simp [expansionOf] at hi
  | _ => exact kept nofun nofun nofun

/-! ### Where a legal command leads -/

/-- In `FAULT`, with an error that is not `IllegalCommand`. -/
def State.failed (s : State) : Prop := s.phase = .fault ∧ ∃ e, s.err = some e ∧ e ≠ .illegalCommand

/-- Every next state has the property or is in `FAULT` with an error that is not `IllegalCommand`. -/
def Reaches (Q : State → Prop) (r : Answer) : Prop := ∀ t, r = .next t → Q t ∨ t.failed

/-- A command that `FAULT` ignores is not legal there (R81, R84). -/
theorem phase_ne_fault_of_legalWhen {i : Instr} {p : Phase} {m : Mode} {n : Nat} (hi : runsInFault i = false)
    (hl : legalWhen i p m n) : p ≠ .fault := by
  rintro rfl
  cases i with
  | nop | clear | encode | decode => exact nomatch hi
  | _ => simp [legalWhen] at hl

theorem raiseError_failed (s : State) {e : ErrorKind} (he : e ≠ .illegalCommand) (cmd : Byte) :
    (s.raiseError e cmd).failed := ⟨rfl, e, rfl, he⟩

/-- R81 for a primitive command: where it is legal, the phase and the mode after it are those of its row. -/
theorem exec_reaches_row {i : Instr} (hi : expansionOf i = [i]) {s : State} (hl : legal s i = true) :
    Reaches (fun t => t.phase = phaseAfter i s.phase ∧ t.mode = modeAfter i s.mode) (exec i s) := by
  intro t ht
  rw [exec_eq_runCommand hi] at ht
  obtain ⟨hp, ignored, -⟩ | ⟨illegal, -⟩ | ⟨-, ok⟩ | ⟨-, e, u, raised, rfl⟩ := runCommand_next_cases ht
  · exact absurd hp (phase_ne_fault_of_legalWhen ignored ((legal_iff_legalWhen s i).mp hl))
  · simp [hl] at illegal
  · exact .inl ⟨phase_of_bodyOf_ok hi ok, mode_of_bodyOf_ok hi ok⟩
  · refine .inr (raiseError_failed u ?_ _)
    rintro rfl
    simpa [mayRaise_illegalCommand] using raisesOnly_bodyOf i s _ u raised

/-- The next step of a composite leads where it leads from the states that the steps before it reach outside `FAULT`. -/
theorem Reaches.andThen {r : Answer} {f : State → Answer} (hr : Reaches R r) (hR : ∀ u, R u → u.phase ≠ .fault)
    (hf : ∀ u, R u → Reaches Q (f u)) : Reaches Q (andThen r f) := by
  intro t ht
  obtain ⟨u, hu, ⟨fault, rfl⟩ | ⟨running, hfu⟩⟩ := andThen_next_iff.mp ht
  · exact .inr ((hr t hu).resolve_left fun h => hR t h fault)
  · exact hf u ((hr u hu).resolve_right fun h => running h.1) t hfu

/-- The phase and the mode of a state. -/
abbrev State.isAt (p : Phase) (m : Mode) (s : State) : Prop := s.phase = p ∧ s.mode = m

theorem exec_reaches_isAt {i : Instr} {p : Phase} {m : Mode} (hi : expansionOf i = [i]) {s : State} (hs : s.isAt p m)
    (hl : legalWhen i p m s.nsyms.toNat) : Reaches (State.isAt (phaseAfter i p) (modeAfter i m)) (exec i s) := by
  obtain ⟨rfl, rfl⟩ := hs
  exact exec_reaches_row hi ((legal_iff_legalWhen s i).mpr hl)

/-- A step of a composite that is legal after the steps before it takes the session to the next row. -/
theorem Reaches.step {r : Answer} {p : Phase} {m : Mode} (hr : Reaches (State.isAt p m) r) (i : Instr)
    (hi : expansionOf i = [i]) (hp : p ≠ .fault) (hl : ∀ n, legalWhen i p m n) :
    Reaches (State.isAt (phaseAfter i p) (modeAfter i m)) (Machine.andThen r (exec i)) :=
  hr.andThen (fun _ hu hf => hp (hu.1.symm.trans hf)) fun _ hu => exec_reaches_isAt hi hu (hl _)

/-- After `BUILD` and `DERIVE`, or where there is no symbol to build from, `WRHDR` is legal (R81, R150). -/
theorem buildAndDerive_reaches {s : State} (hs : s.isAt .persisted .enc) :
    Reaches (fun t => legalWhen .wrhdr t.phase t.mode t.nsyms.toNat) (buildAndDerive s) := by
  unfold buildAndDerive
  split
  · have built : Reaches (State.isAt .built .enc) (exec .build s) := exec_reaches_isAt rfl hs (.inl ⟨rfl, rfl⟩)
    intro t ht
    exact (built.step .derive rfl nofun (fun _ => ⟨rfl, rfl⟩) t ht).imp_left fun ht => ⟨ht.2, .inl ht.1⟩
  · next noSymbol =>
    rintro t ⟨⟩
    exact .inl ⟨hs.2, .inr ⟨hs.1, by rw [not_ne_iff.mp noSymbol]; rfl⟩⟩

/-- After `BUILD`, or where there is no symbol to build from, `RDHDR` is legal (R81, R170). -/
theorem buildIfAny_reaches {s : State} (hs : s.isAt .table .dec) :
    Reaches (fun t => legalWhen .rdhdr t.phase t.mode t.nsyms.toNat) (buildIfAny s) := by
  unfold buildIfAny
  split
  · have built : Reaches (State.isAt .built .dec) (exec .build s) := exec_reaches_isAt rfl hs (.inr ⟨rfl, rfl⟩)
    intro t ht
    exact (built t ht).imp_left fun ht => ⟨ht.2, .inl ht.1⟩
  · next noSymbol =>
    rintro t ⟨⟩
    exact .inl ⟨hs.2, .inr ⟨hs.1, by rw [not_ne_iff.mp noSymbol]; rfl⟩⟩

theorem wrhdr_reaches {s : State} (h : legalWhen .wrhdr s.phase s.mode s.nsyms.toNat) :
    Reaches (State.isAt .hdr .enc) (exec .wrhdr s) :=
  exec_reaches_isAt (p := s.phase) rfl ⟨rfl, h.1⟩ ⟨rfl, h.2⟩

theorem rdhdr_reaches {s : State} (h : legalWhen .rdhdr s.phase s.mode s.nsyms.toNat) :
    Reaches (State.isAt .hdr .dec) (exec .rdhdr s) :=
  exec_reaches_isAt (p := s.phase) rfl ⟨rfl, h.1⟩ ⟨rfl, h.2⟩

/-- `ENCODE` passes through the rows of its expansion (R150). -/
theorem encode_reaches (s : State) : Reaches (State.isAt .done .enc) (exec .encode s) := by
  have cleared : Reaches (State.isAt .idle .none) (exec .clear s) := exec_reaches_row rfl rfl
  have scanned := cleared.step .scan rfl nofun fun _ => rfl
  have persisted := scanned.step .persist rfl nofun fun _ => ⟨rfl, rfl⟩
  have derived := persisted.andThen (fun _ hu hf => nomatch hu.1.symm.trans hf) fun _ => buildAndDerive_reaches
  have announced := derived.andThen (fun _ => phase_ne_fault_of_legalWhen rfl) fun _ => wrhdr_reaches
  have streamed := announced.step .emit rfl nofun fun _ => ⟨rfl, rfl⟩
  exact streamed.step .flush rfl nofun fun _ => rfl

/-- `DECODE` passes through the rows of its expansion (R170). -/
theorem decode_reaches (s : State) : Reaches (State.isAt .done .dec) (exec .decode s) := by
  have cleared : Reaches (State.isAt .idle .none) (exec .clear s) := exec_reaches_row rfl rfl
  have loaded := cleared.step .load rfl nofun fun _ => rfl
  have built := loaded.andThen (fun _ hu hf => nomatch hu.1.symm.trans hf) fun _ => buildIfAny_reaches
  have announced := built.andThen (fun _ => phase_ne_fault_of_legalWhen rfl) fun _ => rdhdr_reaches
  exact announced.step .walk rfl nofun fun _ => ⟨rfl, rfl⟩

/-- Settles O5: a primitive command is dispatched by its row, and a composite passes through the rows of its expansion. -/
theorem legalityTableHolds : Obligations.LegalityTableHolds := by
  unfold Obligations.LegalityTableHolds
  refine fun i s => ⟨fun hp hl => ?illegal, fun hl => ?legal⟩
  case illegal =>
    rw [← legal_iff_legalWhen, Bool.not_eq_true] at hl
    exact exec_of_illegal hp hl
  case legal =>
    rw [← legal_iff_legalWhen] at hl
    cases i with
    | encode => exact encode_reaches s
    | decode => exact decode_reaches s
    | _ => exact exec_reaches_row rfl hl

end Sys2Proof.Machine
end

section
/-!
PROOFS. `SCAN`, `PERSIST` and `LOAD` never stop without an effect: their ports are held after `Open`, and each byte read
leaves one byte less to read (spec/20_memory.md R42 to R44, spec/42_freqtable.md R100 to R105).
-/

namespace Sys2Proof.Machine

variable {α β : Type} {P R : State → Prop} {Q : α → State → Prop}

/-- From a state with `P` a procedure answers a result, with `Q`, or raises an error; it is never stuck. -/
def Runs (P : State → Prop) (x : Proc α) (Q : α → State → Prop) : Prop :=
  ∀ s, P s → (∃ a t, x s = .ok a t ∧ Q a t) ∨ ∃ e t, x s = .error (.raised e) t

theorem Runs.pure {a : α} (h : ∀ s, P s → Q a s) : Runs P (pure a) Q := fun s hs => .inl ⟨a, s, rfl, h s hs⟩

theorem Runs.raise (e : ErrorKind) : Runs P (throw (.raised e) : Proc α) Q := fun s _ => .inr ⟨e, s, rfl⟩

theorem Runs.modify {f : State → State} {Q : Unit → State → Prop} (h : ∀ s, P s → Q () (f s)) :
    Runs P (modify f) Q := fun s hs => .inl ⟨(), f s, rfl, h s hs⟩

theorem Runs.bind {x : Proc α} {f : α → Proc β} {Q' : β → State → Prop} (hx : Runs P x Q)
    (hf : ∀ a, Runs (Q a) (f a) Q') : Runs P (x >>= f) Q' := by
  intro s hs
  obtain ⟨a, t, ok, ht⟩ | ⟨e, t, raised⟩ := hx s hs
  · rw [Proc.bind_of_ok ok]
    exact hf a t ht
  · exact .inr ⟨e, t, Proc.bind_of_error raised⟩

/-- A procedure that reads the state first runs if it runs with each state that it may read. -/
theorem Runs.get_bind {f : State → Proc α} (h : ∀ s, P s → Runs (· = s) (f s) Q) :
    Runs P ((MonadState.get : Proc State) >>= f) Q := fun s hs => h s hs s rfl

theorem Runs.ite {c : Prop} [Decidable c] {x y : Proc α} (hx : Runs P x Q) (hy : Runs P y Q) :
    Runs P (if c then x else y) Q := by
  split
  · exact hx
  · exact hy

theorem Runs.weaken {x : Proc α} {Q' : α → State → Prop} (hx : Runs P x Q) (hQ : ∀ a s, Q a s → Q' a s) :
    Runs P x Q' :=
  fun s hs => (hx s hs).imp_left fun ⟨a, t, ok, ht⟩ => ⟨a, t, ok, hQ a t ht⟩

theorem Runs.of_pre {x : Proc α} (hx : Runs R x Q) (hP : ∀ s, P s → R s) : Runs P x Q := fun s hs => hx s (hP s hs)

/-- What runs from every state with a property runs from one such state. -/
theorem Runs.at {x : Proc α} (hx : Runs R x Q) {s : State} (hs : R s) : Runs (· = s) x Q :=
  hx.of_pre fun _ ht => ht ▸ hs

/-! ### The port operations -/

/-- A source port is held and at most `n` of its bytes are unread. -/
def State.reading (p : SourcePort) (n : Nat) (s : State) : Prop := s.held p.num = true ∧ (s.source p).unread ≤ n

theorem State.reading.mono {p : SourcePort} {m n : Nat} {s : State} (h : s.reading p m) (hmn : m ≤ n) : s.reading p n :=
  ⟨h.1, h.2.trans hmn⟩

theorem State.reading_of_held {p : SourcePort} {s : State} (h : s.held p.num = true) :
    s.reading p (s.source p).unread :=
  ⟨h, le_rfl⟩

theorem Runs.openSource (p : SourcePort) : Runs P (openSource p) fun _ t => t.held p.num = true := by
  intro s _
  cases hf : failsNext (s.source p).fails with
  | true => exact .inr ⟨_, _, openSource_of_fail hf⟩
  | false => exact .inl ⟨_, _, openSource_of_go hf, held_hold_source _ p⟩

theorem Runs.openSink (q : SinkPort) : Runs P (openSink q) fun _ t => t.held q.num = true := by
  intro s _
  cases hf : failsNext (s.sink q).fails with
  | true => exact .inr ⟨_, _, openSink_of_fail hf⟩
  | false => exact .inl ⟨_, _, openSink_of_go hf, held_hold_sink _ q⟩

/-- `Get` of a held port answers: a byte leaves one byte less to read, the end none more. -/
theorem Runs.getByte (p : SourcePort) (n : Nat) :
    Runs (State.reading p n) (getByte p)
      fun r t => t.held p.num = true ∧ (t.source p).unread + r.toList.length ≤ n := by
  rintro s ⟨hh, hn⟩
  cases hg : Sys2Proof.Machine.getByte p s with
  | error e t =>
    obtain ⟨notHeld, -⟩ | ⟨-, -, rfl, -⟩ := getByte_error_inv hg
    · simp [hh] at notHeld
    · exact .inr ⟨_, _, rfl⟩
  | ok r t =>
    obtain ⟨-, -, hr, rfl⟩ := getByte_ok_inv hg
    refine .inl ⟨_, _, rfl, by simpa using hh, ?_⟩
    cases r with
    | none => simpa [Source.unread] using hn
    | some b =>
      have inside := (List.getElem?_eq_some_iff.mp hr.symm).1
      simp only [Source.unread] at hn
      simp only [State.source_setSource_same, Source.unread, Option.isSome_some, if_true, Option.toList_some,
        List.length_singleton]
      omega

theorem Runs.putBytes (q : SinkPort) (bs : List Byte) :
    Runs (fun s => s.held q.num = true) (putBytes q bs) fun _ t => t.held q.num = true := by
  induction bs with
  | nil => exact .pure fun _ h => h
  | cons b bs ih =>
    refine Runs.bind (Q := fun _ t => t.held q.num = true) (fun s hh => ?_) fun _ => ih
    cases hf : failsNext (s.sink q).fails with
    | true => exact .inr ⟨_, _, putByte_of_fail hh hf⟩
    | false => exact .inl ⟨_, _, putByte_of_go hh hf, by simpa using hh⟩

/-- A loop over a source ends within its bound if its body reads nothing of the source. -/
theorem Runs.forEachByte {p : SourcePort} {f : Byte → Proc Unit}
    (hf : ∀ b n, Runs (State.reading p n) (f b) fun _ => State.reading p n) (n : Nat) :
    Runs (State.reading p n) (forEachByte p f n) fun _ => State.reading p n := by
  induction n with
  | zero =>
    refine (Runs.getByte p 0).bind fun r => ?_
    cases r with
    | none => exact .pure fun _ h => h
    | some b => exact fun s h => absurd h.2 (by simp)
  | succ n ih =>
    refine (Runs.getByte p (n + 1)).bind fun r => ?_
    cases r with
    | none => exact .pure fun _ h => h
    | some b =>
      refine (((hf b n).bind fun _ => ih).of_pre fun s h => ⟨h.1, ?_⟩).weaken fun _ s h => h.mono n.le_succ
      simpa using h.2

/-! ### `SCAN` and `PERSIST` -/

theorem runs_scanBody : Runs (fun _ => True) scanBody fun _ _ => True := by
  have step (b : Byte) (n : Nat) : Runs (State.reading .src n) (scanStep b) fun _ => State.reading .src n :=
    .get_bind fun s hs => .ite (.raise _) (.modify fun _ _ => hs)
  refine (Runs.modify (Q := fun _ _ => True) fun _ _ => trivial).bind fun _ => (Runs.openSource .src).bind fun _ =>
    .get_bind fun s hs => Runs.bind (Q := fun _ _ => True) ?loop fun _ => .modify fun _ _ => trivial
  exact ((Runs.forEachByte step _).at (State.reading_of_held hs)).weaken fun _ _ _ => trivial

theorem runs_persistBody : Runs (fun _ => True) persistBody fun _ _ => True := by
  have lines (bs : List Symbol) : Runs (·.held 1 = true) (persistLines bs) fun _ t => t.held 1 = true := by
    induction bs with
    | nil => exact .pure fun _ h => h
    | cons b bs ih =>
      exact .get_bind fun s hs => ((Runs.putBytes .fsink _).bind fun _ => ih).at hs
  exact (Runs.openSink .fsink).bind fun _ => .get_bind fun s hs =>
    ((lines _).bind fun _ => .modify fun _ _ => trivial).at hs

/-! ### `LOAD` -/

/-- Reading a character of the record leaves no more to read than before. -/
theorem Runs.getChar (n : Nat) :
    Runs (State.reading .fsrc n) (Machine.getByte .fsrc) fun _ => State.reading .fsrc n :=
  (Runs.getByte .fsrc n).weaken fun _ _ h => ⟨h.1, (Nat.le_add_right _ _).trans h.2⟩

theorem runs_loadSymbol (n k : Nat) (c : Option Byte) (sym : Nat) :
    Runs (State.reading .fsrc n) (loadSymbol k c sym) fun _ => State.reading .fsrc n := by
  induction k generalizing c sym with
  | zero =>
    unfold loadSymbol
    split
    · exact .raise _
    · exact .pure fun _ h => h
  | succ k ih =>
    unfold loadSymbol
    split
    · exact .raise _
    · exact (Runs.getChar n).bind fun _ => ih _ _

theorem runs_loadCount {fuel n : Nat} (hf : n < fuel) (v ndig : Nat) :
    Runs (State.reading .fsrc n) (loadCount fuel v ndig) fun _ => State.reading .fsrc n := by
  induction fuel generalizing n v ndig with
  | zero => omega
  | succ fuel ih =>
    refine (Runs.getByte .fsrc n).bind fun r => ?_
    cases r with
    | none => exact .raise _
    | some c =>
      have afterByte (s : State) (h : s.held 3 = true ∧ s.fsrc.unread + 1 ≤ n) :
          s.reading .fsrc (n - 1) ∧ n - 1 < fuel := ⟨⟨h.1, Nat.le_sub_one_of_lt h.2⟩, by omega⟩
      dsimp only
      split
      · refine .get_bind fun s hs => .ite (.raise _) ?_
        obtain ⟨hs, less⟩ := afterByte s hs
        exact ((ih less _ _).at hs).weaken fun _ _ h => h.mono n.pred_le
      · exact .ite (.pure fun s hs => (afterByte s hs).1.mono n.pred_le) (.raise _)

theorem runs_loadEntry (n : Nat) (b : Symbol) (v : Nat) :
    Runs (State.reading .fsrc n) (loadEntry b v) fun _ => State.reading .fsrc n :=
  .get_bind fun _ hs => .ite (.raise _) (.ite (.raise _) (.modify fun _ _ => hs))

theorem runs_loadLine (n : Nat) (c : Byte) :
    Runs (State.reading .fsrc n) (loadLine c) fun _ => State.reading .fsrc n := by
  have colon : Runs (State.reading .fsrc n) loadColon fun _ => State.reading .fsrc n :=
    (Runs.getChar n).bind fun _ => .ite (.pure fun _ h => h) (.raise _)
  refine (runs_loadSymbol n 7 _ 0).bind fun _ => colon.bind fun _ => .get_bind fun s hs =>
    Runs.bind (Q := fun _ => State.reading .fsrc n) ?count fun _ => runs_loadEntry n _ _
  exact ((runs_loadCount (Nat.lt_succ_self _) 0 0).at (State.reading_of_held hs.1)).weaken fun _ _ h => h.mono hs.2

theorem runs_loadLines {fuel n : Nat} (hf : n < fuel) :
    Runs (State.reading .fsrc n) (loadLines fuel) fun _ _ => True := by
  induction fuel generalizing n with
  | zero => omega
  | succ fuel ih =>
    refine (Runs.getByte .fsrc n).bind fun r => ?_
    cases r with
    | none => exact .pure fun _ _ => trivial
    | some c =>
      intro s hs
      have less : s.fsrc.unread + 1 ≤ n := hs.2
      exact ((runs_loadLine (n - 1) c).bind fun _ => ih (by omega)) s ⟨hs.1, Nat.le_sub_one_of_lt less⟩

theorem runs_loadBody : Runs (fun _ => True) loadBody fun _ _ => True := by
  refine (Runs.modify (Q := fun _ _ => True) fun _ _ => trivial).bind fun _ => (Runs.openSource .fsrc).bind fun _ =>
    .get_bind fun s hs => Runs.bind (Q := fun _ _ => True) ?loop fun _ => .modify fun _ _ => trivial
  exact (runs_loadLines (Nat.lt_succ_self _)).at (State.reading_of_held hs)

/-- A command whose procedure runs from every state answers a next state from every state. -/
theorem runCommand_next_of_runs {body : Proc Unit} {Q : Unit → State → Prop} (h : Runs (fun _ => True) body Q)
    (i : Instr) (s : State) : ∃ t, runCommand i body s = .next t := by
  unfold runCommand
  split
  · exact ⟨s, rfl⟩
  · split
    · exact ⟨_, rfl⟩
    · obtain ⟨a, t, ok, -⟩ | ⟨e, t, raised⟩ := h s trivial
      · exact ⟨t, by rw [ok, finish]⟩
      · exact ⟨t.raiseError e (opcode i), by rw [raised, finish]⟩

end Sys2Proof.Machine
end

section
/-!
PROOFS. Composites and the commands of their expansions issued one after another (spec/40_control.md R85).
-/

namespace Sys2Proof.Machine

/-- A step that changes nothing in `FAULT` runs after every step. -/
theorem andThen_next_of_ignored {s : State} {f : State → Answer} (h : s.phase = .fault → f s = .next s) :
    andThen (.next s) f = f s := by
  by_cases hp : s.phase = .fault
  · rw [andThen_of_fault hp, h hp]
  · exact andThen_of_next hp

@[simp] theorem runAll_singleton (i : Instr) (s : State) : runAll [i] s = exec i s := by
  rw [runAll]
  cases exec i s <;> rfl

/-- One more command issued after others is one more step of a composite, if `FAULT` ignores it. -/
theorem runAll_concat {i : Instr} (hi : runsInFault i = false) (is : List Instr) (s : State) :
    runAll (is ++ [i]) s = andThen (runAll is s) (exec i) := by
  induction is generalizing s with
  | nil =>
    rw [runAll, andThen_next_of_ignored fun hp => exec_of_ignored hp hi, List.nil_append, runAll_singleton]
  | cons j is ih =>
    simp only [List.cons_append, runAll]
    cases exec j s with
    | next t => exact ih t
    | fault f => rfl
    | refused r => rfl

theorem runAll_of_next {i : Instr} {s t : State} (h : exec i s = .next t) (is : List Instr) :
    runAll (i :: is) s = runAll is t := by
  rw [runAll, h]

/-- In `FAULT` a sequence of ignored commands changes nothing. -/
theorem runAll_of_ignored {is : List Instr} (his : ∀ i ∈ is, runsInFault i = false) {s : State}
    (hp : s.phase = .fault) : runAll is s = .next s := by
  induction is with
  | nil => rfl
  | cons i is ih =>
    rw [runAll_of_next (exec_of_ignored hp (his i List.mem_cons_self))]
    exact ih fun j hj => his j (List.mem_cons_of_mem i hj)

/-- `BUILD; DERIVE` of R150 as commands. -/
theorem buildAndDerive_eq_runAll (s : State) :
    buildAndDerive s = runAll (if s.nsyms = 0 then [] else [.build, .derive]) s := by
  have both : runAll [.build, .derive] s = andThen (exec .build s) (exec .derive) := by
    rw [← runAll_singleton .build s, ← runAll_concat rfl]
    rfl
  by_cases hn : s.nsyms = 0
  · simp [buildAndDerive, hn, runAll]
  · rw [buildAndDerive, if_pos hn, if_neg hn, both]
    rfl

/-- `BUILD` of R170 as a command. -/
theorem buildIfAny_eq_runAll (s : State) : buildIfAny s = runAll (if s.nsyms = 0 then [] else [.build]) s := by
  by_cases hn : s.nsyms = 0
  · simp [buildIfAny, hn, runAll]
  · rw [buildIfAny, if_pos hn, if_neg hn, runAll_singleton]
    rfl

/-- The table is scanned and persisted from every state: no step of the expansion stops (R85, R150). -/
theorem runAll_scan_persist_next (s : State) : ∃ t, runAll [.clear, .scan, .persist] s = .next t := by
  obtain ⟨u, scanned⟩ : ∃ u, exec .scan s.cleared = .next u := runCommand_next_of_runs runs_scanBody .scan s.cleared
  obtain ⟨t, persisted⟩ : ∃ t, exec .persist u = .next t := runCommand_next_of_runs runs_persistBody .persist u
  exact ⟨t, by rw [runAll_of_next (exec_clear s), runAll_of_next scanned, runAll_singleton, persisted]⟩

/-- A table is loaded from every state, or `LOAD` ends in an error (R85, R170). -/
theorem runAll_load_next (s : State) : ∃ t, runAll [.clear, .load] s = .next t := by
  obtain ⟨t, loaded⟩ : ∃ t, exec .load s.cleared = .next t := runCommand_next_of_runs runs_loadBody .load s.cleared
  exact ⟨t, by rw [runAll_of_next (exec_clear s), runAll_singleton, loaded]⟩

/-- `ENCODE` goes on from where `CLEAR; SCAN; PERSIST` lead, in `FAULT` too, where the rest is ignored (R84, R85). -/
theorem exec_encode_of_persisted {s t : State} (h : runAll [.clear, .scan, .persist] s = .next t) :
    exec .encode s =
      runAll (if t.nsyms = 0 then [.wrhdr, .emit, .flush] else [.build, .derive, .wrhdr, .emit, .flush]) t := by
  have first : andThen (andThen (exec .clear s) (exec .scan)) (exec .persist) = .next t := by
    rw [← h, ← runAll_singleton .clear s, ← runAll_concat rfl, ← runAll_concat rfl]
    rfl
  have middle : andThen (.next t) buildAndDerive = runAll (if t.nsyms = 0 then [] else [.build, .derive]) t := by
    rw [andThen_next_of_ignored fun hp => ?ignored, buildAndDerive_eq_runAll]
    rw [buildAndDerive_eq_runAll]
    exact runAll_of_ignored (by split <;> decide) hp
  calc exec .encode s
      = andThen (andThen (andThen (andThen (andThen (andThen (exec .clear s) (exec .scan)) (exec .persist))
          buildAndDerive) (exec .wrhdr)) (exec .emit)) (exec .flush) := rfl
    _ = runAll ((if t.nsyms = 0 then [] else [.build, .derive]) ++ [.wrhdr] ++ [.emit] ++ [.flush]) t := by
      rw [first, middle, ← runAll_concat rfl, ← runAll_concat rfl, ← runAll_concat rfl]
    _ = _ := by split <;> rfl

/-- `DECODE` goes on from where `CLEAR; LOAD` lead, in `FAULT` too, where the rest is ignored (R84, R85). -/
theorem exec_decode_of_loaded {s t : State} (h : runAll [.clear, .load] s = .next t) :
    exec .decode s = runAll (if t.nsyms = 0 then [.rdhdr, .walk] else [.build, .rdhdr, .walk]) t := by
  have first : andThen (exec .clear s) (exec .load) = .next t := by
    rw [← h, ← runAll_singleton .clear s, ← runAll_concat rfl]
    rfl
  have middle : andThen (.next t) buildIfAny = runAll (if t.nsyms = 0 then [] else [.build]) t := by
    rw [andThen_next_of_ignored fun hp => ?ignored, buildIfAny_eq_runAll]
    rw [buildIfAny_eq_runAll]
    exact runAll_of_ignored (by split <;> decide) hp
  calc exec .decode s
      = andThen (andThen (andThen (andThen (exec .clear s) (exec .load)) buildIfAny) (exec .rdhdr)) (exec .walk) := rfl
    _ = runAll ((if t.nsyms = 0 then [] else [.build]) ++ [.rdhdr] ++ [.walk]) t := by
      rw [first, middle, ← runAll_concat rfl, ← runAll_concat rfl]
    _ = _ := by split <;> rfl

/-- Settles O42: the first steps of both expansions always answer a next state, and the composite goes on from it. -/
theorem compositesAreTheirExpansions : Obligations.CompositesAreTheirExpansions := by
  unfold Obligations.CompositesAreTheirExpansions
  intro s
  obtain ⟨t, persisted⟩ := runAll_scan_persist_next s
  obtain ⟨u, loaded⟩ := runAll_load_next s
  exact ⟨⟨t, persisted, exec_encode_of_persisted persisted⟩, u, loaded, exec_decode_of_loaded loaded⟩

end Sys2Proof.Machine
end

section
/-!
PROOFS. One byte of the source counted, or refused at capacity (spec/42_freqtable.md R101).
-/

namespace Sys2Proof.Machine

/-- The capacity check comes before any change (R101). -/
theorem scanStep_of_full {s : State} (h : s.total = s.maxCnt) (b : Symbol) :
    scanStep b s = .error (.raised .capacityError) s := by
  rw [scanStep, Proc.get_bind_run, if_pos h, Proc.throw_run]

theorem scanStep_of_room {s : State} (h : s.total ≠ s.maxCnt) (b : Symbol) :
    scanStep b s = .ok () (s.countByte b) := by
  rw [scanStep, Proc.get_bind_run, if_neg h, Proc.set_run]

theorem State.atSym_countByte_ftPres (s : State) (a b : Symbol) :
    atSym (s.countByte b).ftPres a = (atSym s.ftPres a || a == b) := by
  rw [State.countByte_ftPres, atSym_putSym]
  by_cases h : a = b <;> simp [h]

theorem State.atSym_countByte_ftCnt (s : State) (a b : Symbol) :
    atSym (s.countByte b).ftCnt a = atSym s.ftCnt a + if a = b then 1 else 0 := by
  rw [State.countByte_ftCnt, atSym_putSym]
  by_cases h : a = b <;> simp [h]

/-- Only the frequency table and its two totals change, and `NSYMS` counts new symbols (R101). -/
theorem State.countByte_frame (s : State) (b : Symbol) :
    s.countByte b = { s with
      ftPres := (s.countByte b).ftPres, ftCnt := (s.countByte b).ftCnt
      nsyms := if atSym s.ftPres b = false then s.nsyms + 1 else s.nsyms
      total := s.total + 1 } := by
  cases h : atSym s.ftPres b <;> simp [State.countByte, h]

/-- Settles O16: at capacity the step raises its error at once, and below it the step counts the byte. -/
theorem scanStepCountsOneByte : Obligations.ScanStepCountsOneByte := by
  unfold Obligations.ScanStepCountsOneByte
  exact fun s b => ⟨fun full => scanStep_of_full full b, fun room =>
    ⟨s.countByte b, scanStep_of_room room b, fun a => s.atSym_countByte_ftPres a b,
      fun a => s.atSym_countByte_ftCnt a b, s.countByte_frame b⟩⟩

end Sys2Proof.Machine
end

section
/-!
PROOFS. `ExtractMin` (spec/43_treebuilder.md R121, R122).
-/

namespace Sys2Proof.Machine

/-- What the order of R122 compares first to last: the weight, then the id. -/
def State.weightThenId (s : State) (x : NodeId) : ℕ ×ₗ NodeId := toLex (s.nodeW[x], x)

theorem State.weightThenId_lt_iff (s : State) (x y : NodeId) :
    s.weightThenId x < s.weightThenId y ↔ s.nodeW[x] < s.nodeW[y] ∨ (s.nodeW[x] = s.nodeW[y] ∧ x < y) :=
  Prod.Lex.toLex_lt_toLex

theorem State.weightThenId_injective (s : State) : Function.Injective s.weightThenId :=
  fun _ _ h => congrArg (fun key => (ofLex key).2) h

/-- The test of R122 is the lexicographic order by weight and id. -/
theorem State.before_iff (s : State) (x y : NodeId) :
    s.before x y = true ↔ s.weightThenId x < s.weightThenId y := by
  rw [s.weightThenId_lt_iff]
  simp [State.before]

/-- The model's search through a list of ids is the library's search for a least key. -/
theorem State.leastOf_eq_argmin (s : State) (ids : List NodeId) : s.leastOf ids = ids.argmin s.weightThenId := by
  cases ids with
  | nil => rfl
  | cons x xs =>
    refine (List.foldl_hom some fun m y => ?_).symm
    simp only [List.argAux, s.before_iff, apply_ite some]

theorem extractMin_of_least {s : State} {m : NodeId} (h : s.leastOf s.activeIds = some m) :
    extractMin s = .ok m (s.deactivate m) := by
  rw [extractMin, Proc.get_bind_run, h]
  rfl

theorem State.deactivate_nodeAct_apply (s : State) (m x : NodeId) :
    (s.deactivate m).nodeAct[x] = (s.nodeAct[x] && x != m) := by
  rw [State.deactivate_nodeAct]
  by_cases h : x = m
  · simp [h]
  · simp [h, Fin.val_ne_of_ne (Ne.symm h)]

/-- With an active node, `ExtractMin` removes an active node that comes before every other (R121, R122). -/
theorem extractMin_of_active {s : State} {id : NodeId} (active : s.nodeAct[id] = true) :
    ∃ m, extractMin s = .ok m (s.deactivate m) ∧ s.nodeAct[m] = true ∧
      ∀ x : NodeId, s.nodeAct[x] = true → x ≠ m → s.weightThenId m < s.weightThenId x := by
  obtain ⟨m, least⟩ : ∃ m, s.activeIds.argmin s.weightThenId = some m := by
    refine Option.ne_none_iff_exists'.mp fun noLeast => ?_
    exact List.ne_nil_of_mem ((mem_activeIds s id).mpr active) (List.argmin_eq_none.mp noLeast)
  refine ⟨m, extractMin_of_least (by rw [s.leastOf_eq_argmin, least]),
    (mem_activeIds s m).mp (List.argmin_mem least), fun x hx hne => ?_⟩
  have le : s.weightThenId m ≤ s.weightThenId x := List.le_of_mem_argmin ((mem_activeIds s x).mpr hx) least
  exact le.lt_of_ne fun same => hne (s.weightThenId_injective same).symm

/-- Settles O23: the search finds a least key, and different ids have different keys. -/
theorem extractMinTakesTheFirst : Obligations.ExtractMinTakesTheFirst := by
  unfold Obligations.ExtractMinTakesTheFirst
  rintro s ⟨id, active⟩
  obtain ⟨m, runs, chosen, before⟩ := extractMin_of_active active
  exact ⟨m, s.deactivate m, runs, chosen, fun x hx hne => (s.weightThenId_lt_iff m x).mp (before x hx hne),
    s.deactivate_nodeAct_apply m, rfl⟩

end Sys2Proof.Machine
end

section
/-!
PROOFS. The seed of `BUILD`, and `BUILD` of a table with one symbol (spec/43_treebuilder.md R120, R124).
-/

namespace Sys2Proof.Machine

/-! ### The seed -/

/-- A node is the leaf of a symbol or an internal node (R21). -/
theorem eq_leafId_or_eq_innerId (id : NodeId) : (∃ c, id = leafId c) ∨ ∃ k, id = innerId k := by
  by_cases h : id.val < 256
  · exact .inl ⟨symbolOf id, (leafId_symbolOf ((isLeaf_iff id).mpr h)).symm⟩
  · exact .inr ⟨⟨id.val - 256, by omega⟩, Fin.ext (by simp only [innerId]; omega)⟩

theorem leafId_inj {a b : Symbol} : leafId a = leafId b ↔ a = b := ⟨leafId_injective, congrArg leafId⟩

theorem innerId_ne_leafId (k : Fin 255) (b : Symbol) : innerId k ≠ leafId b := by
  intro h
  simpa using congrArg isLeaf h

/-- The seeded nodes are the leaves of the present symbols (R120). -/
theorem seedActive_iff (s : State) (id : NodeId) :
    s.seedActive[id] = true ↔ ∃ c ∈ s.presentSymbols, leafId c = id := by
  obtain ⟨c, rfl⟩ | ⟨k, rfl⟩ := eq_leafId_or_eq_innerId id
  · rw [seedActive_leaf, ← mem_presentSymbols]
    simp [leafId_inj]
  · rw [seedActive_inner]
    simp [(innerId_ne_leafId k _).symm]

theorem activeIds_seeded_perm (s : State) : s.seeded.activeIds.Perm (s.presentSymbols.map leafId) := by
  have leaves_nodup := (presentSymbols_nodup s).map fun _ _ => leafId_injective
  refine (List.perm_ext_iff_of_nodup (activeIds_nodup _) leaves_nodup).mpr fun id => ?_
  rw [mem_activeIds, State.seeded_nodeAct, seedActive_iff, List.mem_map]

theorem seedWeight_leafId (s : State) (c : Symbol) :
    s.seedWeight (leafId c) = if atSym s.ftPres c then atSym s.ftCnt c else s.nodeW[leafId c] :=
  dif_pos c.isLt

theorem seedWeight_innerId (s : State) (k : Fin 255) : s.seedWeight (innerId k) = s.nodeW[innerId k] :=
  dif_neg (by simp [innerId])

/-- The present symbols' leaves weigh their counts after the seed, and every other weight stays (R120). -/
theorem State.seeded_nodeW_apply (s : State) (id : NodeId) : s.seeded.nodeW[id] = s.seedWeight id := by
  rw [State.seeded_nodeW]
  exact getElem_tabulate _ _ id.isLt

/-! ### One present symbol -/

theorem takeRoot_of_singleton {s : State} {r : NodeId} (h : s.activeIds = [r]) :
    takeRoot s = .ok () (s.rootedAt r) := by
  rw [takeRoot, Proc.get_bind_run, h]
  rfl

section OneSymbol

variable {s : State} {b : Symbol}

theorem presentSymbols_eq_singleton (ok : s.TableOk) (one : s.nsyms = 1) (present : atSym s.ftPres b = true) :
    s.presentSymbols = [b] := by
  have length_one : s.presentSymbols.length = 1 := by rw [← ok.nsyms, one]; rfl
  obtain ⟨c, only⟩ := List.length_eq_one_iff.mp length_one
  have mem : b ∈ s.presentSymbols := (mem_presentSymbols s b).mpr present
  rw [only, List.mem_singleton] at mem
  rw [only, mem]

theorem activeIds_seeded_of_singleton (h : s.presentSymbols = [b]) : s.seeded.activeIds = [leafId b] := by
  have perm := activeIds_seeded_perm s
  rwa [h, List.map_singleton, List.perm_singleton] at perm

theorem seedActive_of_singleton (h : s.presentSymbols = [b]) (id : NodeId) :
    s.seedActive[id] = (id == leafId b) := by
  have leaf : (∃ c ∈ s.presentSymbols, leafId c = id) ↔ id = leafId b := by simp [h, eq_comm]
  rw [Bool.eq_iff_iff, seedActive_iff, leaf, beq_iff_eq]

theorem seedWeight_of_singleton (h : s.presentSymbols = [b]) (id : NodeId) :
    s.seedWeight id = if id = leafId b then atSym s.ftCnt b else s.nodeW[id] := by
  obtain ⟨c, rfl⟩ | ⟨k, rfl⟩ := eq_leafId_or_eq_innerId id
  · have isPresent : atSym s.ftPres c = true ↔ c = b := by rw [← mem_presentSymbols, h, List.mem_singleton]
    rw [seedWeight_leafId]
    by_cases hc : c = b
    · rw [if_pos (isPresent.mpr hc), if_pos (congrArg leafId hc), hc]
    · rw [if_neg (mt isPresent.mp hc), if_neg (mt leafId_injective hc)]
  · rw [seedWeight_innerId, if_neg (innerId_ne_leafId k b)]

/-- The merge loop of R120 runs `NSYMS - 1` times, so one symbol leaves its leaf as the root (R124). -/
theorem buildBody_of_one_symbol (one : s.nsyms = 1) (h : s.presentSymbols = [b]) :
    buildBody s = .ok () (s.seeded.rootedAt (leafId b)) := by
  have nonempty : s.nsyms ≠ 0 := by rw [one]; decide
  have noMerge : s.seeded.nsyms.toNat - 1 = 0 := by rw [State.seeded_nsyms, one]; rfl
  rw [buildBody, Proc.get_bind_run, if_neg nonempty, Proc.modify_bind_run, Proc.get_bind_run, noMerge, mergeLoop,
    Proc.pure_bind_run, takeRoot_of_singleton (activeIds_seeded_of_singleton h)]

end OneSymbol

/-- Settles O26: the seed has one active leaf, no merge runs, and the seeded state is rooted at that leaf. -/
theorem buildOfOneSymbolIsALeaf : Obligations.BuildOfOneSymbolIsALeaf := by
  unfold Obligations.BuildOfOneSymbolIsALeaf
  intro s b ok one present hl
  have only := presentSymbols_eq_singleton ok one present
  have built : exec .build s = .next (s.seeded.rootedAt (leafId b)) := runCommand_of_ok
    (phase_ne_fault_of_legalWhen rfl hl) ((legal_iff_legalWhen s .build).mpr hl) (buildBody_of_one_symbol one only)
  refine ⟨_, built, fun id => ⟨?active, ?weight⟩, ?frame⟩
  case active => exact seedActive_of_singleton only id
  case weight => exact (s.seeded_nodeW_apply id).trans (seedWeight_of_singleton only id)
  case frame => simp only [State.rootedAt, State.seeded]

end Sys2Proof.Machine
end

section
/-!
PROOFS. `DERIVE` of a leaf-root (spec/44_codetable.md R130, R132).
-/

namespace Sys2Proof.Machine

/-- The procedure of `DERIVE` on a leaf-root gives the root's symbol the one bit 0 and walks no tree (R132). -/
theorem deriveBody_of_leafRoot {s : State} (leaf : isLeaf s.root = true) :
    deriveBody s = .ok () (s.noCodes.setCode (symbolOf s.root) [false]).derived := by
  have codes : deriveCodes s.noCodes = .ok () (s.noCodes.setCode (symbolOf s.root) [false]) := by
    rw [deriveCodes, Proc.get_bind_run, State.noCodes_root, if_pos leaf, Proc.set_run]
  rw [deriveBody, Proc.modify_bind_run, Proc.bind_of_ok codes, Proc.modify_run]

/-- Placing a 0 in a cleared register leaves it cleared, so the code "0" differs from no code by its length alone. -/
theorem placeCode_false_zero (i : Nat) : placeCode i [false] 0 = 0 := by
  simp [placeCode, setBit]

/-! ### One code of the one bit 0 in a cleared code table -/

theorem State.noCodes_setCode_false_codeLen (s : State) (a b : Symbol) :
    (atSym (s.noCodes.setCode b [false]).codeLen a).toNat = if a = b then 1 else 0 := by
  rw [State.setCode_codeLen, State.noCodes_codeLen, atSym_putSym, atSym_replicate]
  split <;> rfl

theorem State.noCodes_setCode_false_codeBits (s : State) (a b : Symbol) :
    atSym (s.noCodes.setCode b [false]).codeBits a = 0 := by
  rw [State.setCode_codeBits, State.noCodes_codeBits, atSym_putSym, atSym_replicate, atSym_replicate,
    placeCode_false_zero, ite_self]

theorem State.noCodes_setCode_false_codeOf (s : State) (b : Symbol) :
    (s.noCodes.setCode b [false]).codeOf b = [false] := by
  rw [State.codeOf, s.noCodes_setCode_false_codeLen, s.noCodes_setCode_false_codeBits, if_pos rfl]
  simp [takeCode]

/-- Settles O31: the cleared code table gets the one code "0" for the root's symbol, and the tree is not walked. -/
theorem deriveOfALeafRootIsOneBit : Obligations.DeriveOfALeafRootIsOneBit := by
  unfold Obligations.DeriveOfALeafRootIsOneBit
  intro s leaf built enc
  have hl : legalWhen .derive s.phase s.mode s.nsyms.toNat := ⟨built, enc⟩
  have derives : exec .derive s = .next (s.noCodes.setCode (symbolOf s.root) [false]).derived := runCommand_of_ok
    (phase_ne_fault_of_legalWhen rfl hl) ((legal_iff_legalWhen s .derive).mpr hl) (deriveBody_of_leafRoot leaf)
  exact ⟨_, derives, s.noCodes_setCode_false_codeOf _,
    fun b => ⟨s.noCodes_setCode_false_codeLen b _, s.noCodes_setCode_false_codeBits b _⟩, rfl⟩

end Sys2Proof.Machine
end

section
/-!
PROOFS. `GetBit` where bits are left to read (spec/41_bitio.md R94).
-/

namespace Sys2Proof.Machine

/-! ### The two cases of the fetch -/

theorem fetchByte_of_left {s : State} (left : s.brLeft ≠ 0) : fetchByte s = .ok () s := by
  rw [fetchByte, Proc.get_bind_run, if_neg left, Proc.pure_run]

theorem fetchByte_of_byte {s : State} {r : Byte} (empty : s.brLeft = 0) (held : s.held 4 = true)
    (go : failsNext s.esrc.fails = false) (byte : s.esrc.data[s.esrc.pos]? = some r) :
    fetchByte s =
      .ok () ((s.setSource .esrc { s.esrc with pos := s.esrc.pos + 1, fails := s.esrc.fails.tail }).loadByte r) := by
  rw [fetchByte, Proc.get_bind_run, if_pos empty, Proc.bind_of_ok (getByte_of_byte (p := .esrc) held go byte)]
  rfl

theorem getBit_of_fetchByte {s t : State} (fetched : fetchByte s = .ok () t) :
    getBit s = .ok (t.brBuf.getLsbD (t.brLeft.val - 1)) t.dropBit := by
  rw [getBit, Proc.bind_of_ok fetched]
  rfl

/-! ### Reading one of the bits that are left -/

/-- The next `n` bits can be read: `ESRC` is held, no access to it fails, and that many bits are left in `BR_BUF` and in
the unread bytes. -/
structure State.CanRead (n : Nat) (s : State) : Prop where
  held   : s.held 4 = true
  go     : neverFails s.esrc.fails
  enough : n ≤ s.brLeft.val + 8 * s.esrc.unread

/-- Fetching where bits are left loses none of them, changes nothing else, and leaves a bit in `BR_BUF`. -/
theorem State.CanRead.fetchByte {n : Nat} {s : State} (h : s.CanRead (n + 1)) :
    ∃ t, Machine.fetchByte s = .ok () t ∧ t.CanRead (n + 1) ∧ t.brLeft ≠ 0 ∧
      t = { s with
        brBuf := t.brBuf, brLeft := t.brLeft
        esrc := { s.esrc with pos := t.esrc.pos, fails := t.esrc.fails } } := by
  by_cases empty : s.brLeft = 0
  · have unread : n + 1 ≤ 8 * s.esrc.unread := by simpa [empty] using h.enough
    have inside : s.esrc.pos < s.esrc.data.length := Nat.lt_of_sub_pos (show 0 < s.esrc.unread by omega)
    refine ⟨_, fetchByte_of_byte empty h.held (failsNext_of_neverFails h.go) (List.getElem?_eq_getElem inside),
      ⟨by simpa using h.held, neverFails_tail h.go, ?enough⟩, nofun, rfl⟩
    case enough =>
      change n + 1 ≤ 8 + 8 * (s.esrc.data.length - (s.esrc.pos + 1))
      rw [Source.unread] at unread
      omega
  · exact ⟨s, fetchByte_of_left empty, h, empty, rfl⟩

/-- Counting a bit of `BR_BUF` leaves one bit less to read. -/
theorem State.CanRead.dropBit {n : Nat} {s : State} (h : s.CanRead (n + 1)) (left : s.brLeft ≠ 0) :
    s.dropBit.CanRead n where
  held := by simpa using h.held
  go := h.go
  enough := by
    have less : (s.brLeft - 1).val = s.brLeft.val - 1 := Fin.val_sub_one_of_ne_zero left
    have enough := h.enough
    rw [State.dropBit_brLeft, State.dropBit_esrc, less]
    omega

/-- `GetBit` where bits are left answers a bit, counts it, and moves the reader alone (R94). -/
theorem State.CanRead.getBit {n : Nat} {s : State} (h : s.CanRead (n + 1)) :
    ∃ b t, Machine.getBit s = .ok b t ∧ t.CanRead n ∧
      t = { s with
        brBuf := t.brBuf, brLeft := t.brLeft, brTotal := s.brTotal + 1
        esrc := { s.esrc with pos := t.esrc.pos, fails := t.esrc.fails } } := by
  obtain ⟨t, fetched, canRead, left, frame⟩ := h.fetchByte
  exact ⟨_, t.dropBit, getBit_of_fetchByte fetched, canRead.dropBit left, congrArg State.dropBit frame⟩

end Sys2Proof.Machine
end

section
/-!
PROOFS. The beginning and the end of `WALK`, and `WALK` without a tree (spec/46_decoder.md R162, R164, R166).
-/

namespace Sys2Proof.Machine

/-- The state in which the payload bits are walked: `OSINK` is open and the cursor is at the root of the tree, if there is
one (R162). -/
def State.atWalk (s : State) : State := ((s.setSink .osink ⟨[], s.osink.fails.tail⟩).hold 5).toRoot

/-- Without a tree the cursor stays where it is (R162). -/
theorem State.atWalk_of_noTree {s : State} (noTree : s.treeValid = false) :
    s.atWalk = { s with osink := ⟨[], s.osink.fails.tail⟩, portHeld := setBit s.portHeld 5 true } :=
  if_neg (noTree ▸ Bool.false_ne_true)

theorem State.atWalk_of_tree {s : State} (tree : s.treeValid = true) :
    s.atWalk = { s with osink := ⟨[], s.osink.fails.tail⟩, portHeld := setBit s.portHeld 5 true, cur := s.root } :=
  if_pos tree

theorem walkBody_of_go {s : State} (tree : s.hdrBits = 0 ∨ s.treeValid = true) (go : neverFails s.osink.fails) :
    walkBody s = (walkLoop (s.hdrBits.toNat - s.brTotal.toNat) >>= fun _ => endWalk) s.atWalk := by
  have walks : ¬ (0 < s.hdrBits ∧ s.treeValid = false) := by
    rintro ⟨announced, noTree⟩
    obtain noBits | valid := tree
    · simp [noBits] at announced
    · simp [valid] at noTree
  rw [walkBody, Proc.get_bind_run, if_neg walks,
    Proc.bind_of_ok (openSink_of_go (q := .osink) (failsNext_of_neverFails go)), Proc.modify_bind_run]
  rfl

theorem walkBody_of_noTree {s : State} (announced : s.hdrBits ≠ 0) (noTree : s.treeValid = false) :
    walkBody s = .error (.raised .internalInvariantError) s := by
  have positive : 0 < s.hdrBits := (BitVec.pos_iff_ne_zero _).mpr announced
  rw [walkBody, Proc.get_bind_run, if_pos ⟨positive, noTree⟩, Proc.throw_run]

theorem endWalk_of_atRoot {s : State} (atRoot : s.treeValid = true → s.cur = s.root) :
    endWalk s = .ok () s.endSession := by
  rw [endWalk, Proc.get_bind_run, if_neg fun h => h.2 (atRoot h.1), Proc.set_run]

section Legal
variable {s t : State} (hdr : s.phase = .hdr) (dec : s.mode = .dec)
include hdr dec

theorem exec_walk_of_ok (walked : walkBody s = .ok () t) : exec .walk s = .next t :=
  have hl : legalWhen .walk s.phase s.mode s.nsyms.toNat := ⟨hdr, dec⟩
  runCommand_of_ok (phase_ne_fault_of_legalWhen rfl hl) ((legal_iff_legalWhen s .walk).mpr hl) walked

theorem exec_walk_of_raised {e : ErrorKind} (raised : walkBody s = .error (.raised e) t) :
    exec .walk s = .next (t.raiseError e 0x34) :=
  have hl : legalWhen .walk s.phase s.mode s.nsyms.toNat := ⟨hdr, dec⟩
  runCommand_of_raised (phase_ne_fault_of_legalWhen rfl hl) ((legal_iff_legalWhen s .walk).mpr hl) raised

end Legal

/-- A session that announces no bit opens its sink and ends (R162, R166). -/
theorem walkBody_of_noBits {s : State} (noBits : s.hdrBits = 0) (noTree : s.treeValid = false)
    (go : neverFails s.osink.fails) : walkBody s = .ok () s.atWalk.endSession := by
  have noLoop : s.hdrBits.toNat - s.brTotal.toNat = 0 := by simp [noBits]
  rw [walkBody_of_go (.inl noBits) go, noLoop, walkLoop, Proc.pure_bind_run,
    endWalk_of_atRoot fun valid => by simp [State.atWalk, noTree] at valid]

/-- Settles O47: without a tree the cursor does not move, so only the opened sink and the end of the session show; the
test for the tree comes before the sink is opened. -/
theorem walkWithoutATree : Obligations.WalkWithoutATree := by
  unfold Obligations.WalkWithoutATree
  refine fun s hdr dec noTree => ⟨fun noBits go => ?empty, fun announced => ?error⟩
  case empty =>
    rw [exec_walk_of_ok hdr dec (walkBody_of_noBits noBits noTree go), State.atWalk_of_noTree noTree]
    rfl
  case error => exact exec_walk_of_raised hdr dec (walkBody_of_noTree announced noTree)

end Sys2Proof.Machine
end

section
/-!
PROOFS. `WALK` of a leaf-root (spec/46_decoder.md R165).
-/

namespace Sys2Proof.Machine

/-- `n` more bits of the payload can be walked with a leaf as root: they can be read, and `OSINK` takes a byte for each. -/
structure State.LeafWalk (n : Nat) (s : State) : Prop where
  canRead : s.CanRead n
  leaf    : isLeaf s.root = true
  held    : s.held 5 = true
  go      : neverFails s.osink.fails

/-- `t` is `s` after `n` bits of the payload, for each of which the root's symbol was put (R165). -/
def State.RootEmitted (s : State) (n : Nat) (t : State) : Prop :=
  t = { s with
    brBuf := t.brBuf, brLeft := t.brLeft, brTotal := s.brTotal + BitVec.ofNat 64 n
    esrc := { s.esrc with pos := t.esrc.pos, fails := t.esrc.fails }
    osink := ⟨s.osink.data ++ List.replicate n (symbolOf s.root), t.osink.fails⟩ }

theorem State.RootEmitted.refl (s : State) : s.RootEmitted 0 s := by
  simp [State.RootEmitted]

theorem State.RootEmitted.trans {s t u : State} {m n : Nat} (first : s.RootEmitted m t) (rest : t.RootEmitted n u) :
    s.RootEmitted (m + n) u := by
  unfold State.RootEmitted at first rest ⊢
  rw [BitVec.ofNat_add, ← BitVec.add_assoc, List.replicate_add, ← List.append_assoc]
  exact rest.trans (by rw [first])

theorem walkStep_of_leafRoot {s : State} (leaf : isLeaf s.root = true) (held : s.held 5 = true)
    (go : neverFails s.osink.fails) (b : Bit) :
    walkStep b s = .ok () (s.setSink .osink ⟨s.osink.data ++ [symbolOf s.root], s.osink.fails.tail⟩) := by
  rw [walkStep, Proc.get_bind_run, if_pos leaf]
  exact putByte_of_go (q := .osink) held (failsNext_of_neverFails go)

/-- One payload bit is read, its value is not looked at, and the root's symbol is put (R165). -/
theorem State.LeafWalk.step {n : Nat} {s : State} (h : s.LeafWalk (n + 1)) :
    ∃ t, (getBit >>= walkStep) s = .ok () t ∧ t.LeafWalk n ∧ s.RootEmitted 1 t := by
  obtain ⟨b, u, read, canRead, frame⟩ := h.canRead.getBit
  have root : u.root = s.root := by rw [frame]
  have osink : u.osink = s.osink := by rw [frame]
  have held : u.held 5 = s.held 5 := by rw [frame]; rfl
  have leaf' : isLeaf u.root = true := root ▸ h.leaf
  have held' : u.held 5 = true := held.trans h.held
  have go' : neverFails u.osink.fails := osink ▸ h.go
  refine ⟨_, (Proc.bind_of_ok read).trans (walkStep_of_leafRoot leaf' held' go' b),
    ⟨⟨?_, canRead.go, canRead.enough⟩, leaf', ?_, neverFails_tail go'⟩, ?emitted⟩
  · simpa using canRead.held
  · simpa using held'
  case emitted =>
    rw [root, osink]
    exact congrArg (State.setSink · .osink ⟨s.osink.data ++ [symbolOf s.root], s.osink.fails.tail⟩) frame

theorem State.LeafWalk.walkLoop {n : Nat} {s : State} (h : s.LeafWalk n) :
    ∃ t, Machine.walkLoop n s = .ok () t ∧ s.RootEmitted n t := by
  induction n generalizing s with
  | zero => exact ⟨s, rfl, .refl s⟩
  | succ n ih =>
    obtain ⟨t, stepped, ready, emitted⟩ := h.step
    obtain ⟨u, looped, rest⟩ := ih ready
    refine ⟨u, ?_, Nat.add_comm n 1 ▸ emitted.trans rest⟩
    calc Machine.walkLoop (n + 1) s
        = ((getBit >>= walkStep) >>= fun _ => Machine.walkLoop n) s := by rw [Machine.walkLoop, bind_assoc]
      _ = .ok () u := (Proc.bind_of_ok stepped).trans looped

/-- Settles O46: every step of the loop puts the root's symbol and leaves the cursor at the root, where the walk ends. -/
theorem walkOfALeafRootIgnoresTheBits : Obligations.WalkOfALeafRootIgnoresTheBits := by
  unfold Obligations.WalkOfALeafRootIgnoresTheBits
  intro s hdr dec held tree leaf total_le enough readGo putGo
  have ready : s.atWalk.LeafWalk (s.hdrBits.toNat - s.brTotal.toNat) := by
    rw [State.atWalk_of_tree tree]
    exact ⟨⟨(held_hold_ne s (by decide)).trans held, readGo, enough⟩, leaf, held_hold_sink s .osink,
      neverFails_tail putGo⟩
  obtain ⟨t, looped, emitted⟩ := ready.walkLoop
  have total : s.brTotal + BitVec.ofNat 64 (s.hdrBits.toNat - s.brTotal.toNat) = s.hdrBits := by
    bv_omega
  rw [State.atWalk_of_tree tree, State.RootEmitted, List.nil_append, total] at emitted
  have atRoot : t.cur = t.root := (congrArg State.cur emitted).trans (congrArg State.root emitted).symm
  refine ⟨t.endSession, exec_walk_of_ok hdr dec ?walked, ?frame⟩
  case walked => rw [walkBody_of_go (.inr tree) putGo, Proc.bind_of_ok looped, endWalk_of_atRoot fun _ => atRoot]
  case frame => exact congrArg State.endSession emitted

end Sys2Proof.Machine
end

section
/-!
PROOFS. The decoder is the inverse of the encoder (spec/30_encoding.md R60, R61).
-/

namespace Sys2Proof

/-- The table lists every command with its opcode. -/
theorem exists_row_of_instr (i : Instr) : ∃ r ∈ opcodeTable, r.instr = i := by
  cases i <;> decide

/-- A byte decodes to a command exactly where it is the command's opcode: the rows are those of the opcodes (R61). -/
theorem decodeByte_eq_ok_iff (v : Byte) (i : Instr) : decodeByte v = .ok i ↔ v = opcode i := by
  unfold decodeByte
  cases found : opcodeTable.find? (·.covers v) with
  | some r =>
    have covers : r.covers v = true := List.find?_some (p := fun r : OpcodeRow => r.covers v) found
    have covered : v = opcode r.instr := (covers_iff_of_mem (List.mem_of_find?_eq_some found) v).mp covers
    have opcode_injective : ∀ i j : Instr, opcode i = opcode j → i = j := by
      intro i j; cases i <;> cases j <;> decide
    simp only [Except.ok.injEq]
    exact ⟨fun h => h ▸ covered, fun h => opcode_injective _ _ (covered.symm.trans h)⟩
  | none =>
    obtain ⟨r, mem, rfl⟩ := exists_row_of_instr i
    have notCovered := List.find?_eq_none.mp found r mem
    rw [covers_iff_of_mem mem] at notCovered
    simp [notCovered]

theorem decode_eq_ok_iff (bytes rest : List Byte) (i : Instr) :
    decode bytes = .ok (i, rest) ↔ bytes = encode i ++ rest := by
  cases bytes with
  | nil => simp [decode, encode]
  | cons v bs =>
    have decoded : decode (v :: bs) = .ok (i, rest) ↔ decodeByte v = .ok i ∧ bs = rest := by
      rw [decode]
      cases decodeByte v <;> simp [Except.map]
    rw [decoded, decodeByte_eq_ok_iff]
    simp [encode]

/-- Settles O3: one byte decides the command, and the bytes after it are the rest. -/
theorem decodeMatchesEncode : Obligations.DecodeMatchesEncode := decode_eq_ok_iff

/-- Settles O1: the encodings are the opcodes written out, and the decoder inverts the encoder. -/
theorem specOpcodesDecode : Obligations.SpecOpcodesDecode := by
  unfold Obligations.SpecOpcodesDecode
  have both (i : Instr) (v : Byte) (h : encode i = [v]) : decode [v] = .ok (i, []) ∧ encode i = [v] :=
    ⟨(decode_eq_ok_iff [v] [] i).mpr (by rw [h]; rfl), h⟩
  exact ⟨both _ _ rfl, both _ _ rfl, both _ _ rfl, both _ _ rfl, both _ _ rfl, both _ _ rfl, both _ _ rfl,
    both _ _ rfl, both _ _ rfl, both _ _ rfl, both _ _ rfl, both _ _ rfl, both _ _ rfl, both _ _ rfl⟩

end Sys2Proof
end

section
/-!
PROOFS. The host's moves and registers (spec/10_state.md R33, spec/40_control.md R80, spec/70_reset_and_hazards.md R200
to R204).
-/

namespace Sys2Proof.Machine

/-! ### The next move -/

theorem step_of_move {s : State} {m : HostMove} {ms : List HostMove} (h : s.hostMoves = m :: ms) :
    step s = hostMove m { s with hostMoves := ms } := by
  simp [step, nextMove, fetchMove, h]

theorem step_of_noMove {s : State} (h : s.hostMoves = []) : step s = .next s := by
  simp [step, nextMove, fetchMove, h]

theorem writeCmd_of_decode {v : Byte} {i : Instr} (h : decode [v] = .ok (i, [])) (s : State) :
    writeCmd v s = exec i s := by
  simp [writeCmd, h]

theorem withFetchWord_opcode (s : State) (i : Instr) :
    s.withFetchWord 8 (opcode i).toNat = { s with hostMoves := .write 0 (opcode i) :: s.hostMoves } := by
  have word : tableWordBytes 8 (opcode i).toNat = [opcode i] := by simp [tableWordBytes]
  rw [State.withFetchWord, word]
  rfl

/-- Settles O4: a step takes the first of the host's moves, and a write to `CMD` runs what its byte decodes to. -/
theorem stepRunsTheDecodedCommand : Obligations.StepRunsTheDecodedCommand := by
  unfold Obligations.StepRunsTheDecodedCommand
  refine ⟨fun s v ms i moves decoded => ?_, fun s v ms moves => step_of_move moves, fun i s => ?_⟩
  · exact (step_of_move moves).trans (writeCmd_of_decode decoded _)
  · rw [withFetchWord_opcode]
    have decoded : decode [opcode i] = .ok (i, []) := (decode_eq_ok_iff _ _ i).mpr rfl
    exact (step_of_move (m := .write 0 (opcode i)) rfl).trans (writeCmd_of_decode decoded s)

/-- Settles O7: `CLEAR` is the clearing of the core, and so is the host's reset. -/
theorem clearAndResetRestoreTheCore : Obligations.ClearAndResetRestoreTheCore := by
  unfold Obligations.ClearAndResetRestoreTheCore
  exact fun s => ⟨exec_clear s, fun ms moves => (step_of_move moves).trans (exec_clear _).symm⟩

theorem bindSource_of_held {s : State} {p : SourcePort} (h : s.held p.num = true) (data : List Byte)
    (fails : List Bool) : bindSource p data fails s = .refused .streamHeld := if_pos h

theorem bindSource_of_free {s : State} {p : SourcePort} (h : s.held p.num = false) (data : List Byte)
    (fails : List Bool) : bindSource p data fails s = .next (s.setSource p ⟨data, 0, fails⟩) :=
  if_neg (h ▸ Bool.false_ne_true)

theorem bindSink_of_held {s : State} {q : SinkPort} (h : s.held q.num = true) (data : List Byte)
    (fails : List Bool) : bindSink q data fails s = .refused .streamHeld := if_pos h

theorem bindSink_of_free {s : State} {q : SinkPort} (h : s.held q.num = false) (data : List Byte)
    (fails : List Bool) : bindSink q data fails s = .next (s.setSink q ⟨data, fails⟩) :=
  if_neg (h ▸ Bool.false_ne_true)

/-- Settles O14: the two cases of each binding, by the bit of `PORT_HELD`. -/
theorem hostMovesOnStreams : Obligations.HostMovesOnStreams := by
  unfold Obligations.HostMovesOnStreams
  refine fun s => ⟨step_of_noMove, fun p data fails ms moves => ?_, fun q data fails ms moves => ?_⟩
  · rw [step_of_move moves]
    exact ⟨fun held => bindSource_of_held (s := { s with hostMoves := ms }) held data fails,
      fun free => bindSource_of_free (s := { s with hostMoves := ms }) free data fails⟩
  · rw [step_of_move moves]
    exact ⟨fun held => bindSink_of_held (s := { s with hostMoves := ms }) held data fails,
      fun free => bindSink_of_free (s := { s with hostMoves := ms }) free data fails⟩

/-! ### The registers -/

/-- The field in the middle of a word. -/
theorem extractLsb'_append_append {n m k : Nat} (high : BitVec n) (mid : BitVec m) (low : BitVec k) :
    (high ++ mid ++ low).extractLsb' k m = mid := by
  rw [BitVec.extractLsb'_append_eq_of_le (Nat.le_refl k), Nat.sub_self, BitVec.extractLsb'_append_eq_right]

/-- The fields of a word laid out as `STATUS` is. -/
theorem statusWord_fields {ports : BitVec 6} {codes tree : Bool} {m : BitVec 2} {p : BitVec 4} {v : BitVec 64}
    (hv : v = (0#2 ++ ports ++ BitVec.ofBool codes ++ BitVec.ofBool tree ++ m ++ p).setWidth 64) :
    v.extractLsb' 0 4 = p ∧ v.extractLsb' 4 2 = m ∧ v.getLsbD 6 = tree ∧ v.getLsbD 7 = codes ∧
      v.extractLsb' 8 6 = ports ∧ v.toNat < 2 ^ 14 := by
  have bit (i : Nat) : v.getLsbD i =
      if i < 4 then p.getLsbD i else if i < 6 then m.getLsbD (i - 4) else if i < 7 then tree
      else if i < 8 then codes else ports.getLsbD (i - 8) := by
    subst hv
    rw [BitVec.getLsbD_setWidth]
    by_cases inside : i < 16
    · repeat rw [BitVec.getLsbD_append]
      interval_cases i <;> simp
    · rw [BitVec.getLsbD_of_ge _ i (by omega), Bool.and_false, if_neg (by omega), if_neg (by omega), if_neg (by omega),
        if_neg (by omega), BitVec.getLsbD_of_ge _ _ (by omega)]
  refine ⟨?phase, ?mode, bit 6, bit 7, ?ports, ?zeros⟩
  case phase =>
    ext i hi
    simp [bit, hi]
  case mode =>
    ext i hi
    simp [bit, hi, show 4 + i < 6 by omega]
  case ports =>
    ext i hi
    simp [bit, hi, show ¬ 8 + i < 4 by omega, show ¬ 8 + i < 6 by omega, show ¬ 8 + i < 7 by omega]
  case zeros =>
    refine Nat.lt_pow_two_of_testBit _ fun i hi => ?_
    rw [BitVec.testBit_toNat, bit, if_neg (by omega), if_neg (by omega), if_neg (by omega), if_neg (by omega)]
    exact BitVec.getLsbD_of_ge _ _ (by omega)

theorem hostRegister_status (s : State) :
    (s.hostRegister 1).extractLsb' 0 4 = s.phase.code ∧ (s.hostRegister 1).extractLsb' 4 2 = s.mode.code ∧
      (s.hostRegister 1).getLsbD 6 = s.treeValid ∧ (s.hostRegister 1).getLsbD 7 = s.ctValid ∧
      (s.hostRegister 1).extractLsb' 8 6 = s.portHeld ∧ (s.hostRegister 1).toNat < 2 ^ 14 :=
  statusWord_fields rfl

theorem hostRegister_errReg (s : State) :
    (s.hostRegister 2).extractLsb' 0 3 = errCode s.err ∧ (s.hostRegister 2).extractLsb' 3 5 = 0 ∧
      (s.hostRegister 2).extractLsb' 8 8 = s.errCmd ∧ (s.hostRegister 2).toNat < 2 ^ 16 := by
  have widened : s.hostRegister 2 = s.errReg.setWidth 64 := rfl
  rw [widened, BitVec.extractLsb'_setWidth_of_le (by decide), BitVec.extractLsb'_setWidth_of_le (by decide),
    BitVec.extractLsb'_setWidth_of_le (by decide), State.errReg]
  refine ⟨?error, ?zeros, ?command, ?width⟩
  case error => exact BitVec.extractLsb'_append_eq_right
  case zeros => exact extractLsb'_append_append s.errCmd 0#5 (errCode s.err)
  case command =>
    calc (s.errCmd ++ 0#5 ++ errCode s.err).extractLsb' 8 8
        = (s.errCmd ++ 0#5).extractLsb' 5 8 := BitVec.extractLsb'_append_eq_of_le (by decide)
      _ = s.errCmd.extractLsb' 0 8 := BitVec.extractLsb'_append_eq_of_le (by decide)
      _ = s.errCmd := BitVec.extractLsb'_eq_self
  case width => exact (BitVec.toNat_setWidth_of_le (by decide)).trans_lt (BitVec.isLt _)

/-- Settles O13: the packed registers are concatenations of their fields, and the others are widened. -/
theorem hostRegisters : Obligations.HostRegisters := by
  unfold Obligations.HostRegisters
  refine ⟨⟨rfl, rfl, rfl, rfl, rfl, rfl, rfl, rfl, rfl⟩, ⟨rfl, rfl, rfl⟩, ⟨rfl, rfl, rfl, rfl, rfl, rfl, rfl⟩,
    fun s => ⟨rfl, hostRegister_status s, hostRegister_errReg s, ?nsyms, ?total, rfl, ?root, rfl, rfl, ?others, ?read,
      ?write⟩⟩
  case nsyms => exact BitVec.toNat_setWidth_of_le (by decide)
  case total => exact fun fits => Nat.mod_eq_of_lt fits
  case root =>
    have fits : s.root.val < 2 ^ 64 := s.root.isLt.trans (by decide)
    have register : s.hostRegister 6 = if s.treeValid then BitVec.ofNat 64 s.root.val else 0 := rfl
    rw [register]
    split
    · exact Nat.mod_eq_of_lt fits
    · rfl
  case others =>
    rintro n hn
    obtain ⟨k, rfl⟩ := Nat.exists_eq_add_of_le' hn
    rfl
  case read => exact fun n ms moves => step_of_move moves
  case write =>
    intro n v ms moves notCmd
    rw [step_of_move moves]
    exact if_neg notCmd

end Sys2Proof.Machine
end

section
/-!
PROOFS. Raising an error as one update of the state (spec/60_exceptions.md R183, R184).
-/

namespace Sys2Proof.Machine

theorem State.spoilSink_eq (s : State) (q : SinkPort) :
    s.spoilSink q = s.setSink q
      (if s.held q.num then { s.sink q with data := Config.unspecifiedSink s.raises q.num } else s.sink q) := by
  unfold State.spoilSink
  split
  · rfl
  · exact (s.setSink_sink q).symm

/-- Settles O10: each spoiling writes one sink, by a test that the others do not touch. -/
theorem raiseRecordsAndReleases : Obligations.RaiseRecordsAndReleases := by
  unfold Obligations.RaiseRecordsAndReleases
  intro s e cmd
  simp only [State.raiseError, State.spoilSink_eq, State.setSink, State.sink, State.releaseAll, State.held,
    SinkPort.num]
  rfl

end Sys2Proof.Machine
end

section
/-!
PROOFS. The session invariant in the cleared states (spec/10_state.md R25, R35).
-/

namespace Sys2Proof.Machine

theorem State.cleared_cleared (s : State) : s.cleared.cleared = s.cleared := rfl

theorem presentSymbols_cleared (s : State) : s.cleared.presentSymbols = [] := by
  refine List.eq_nil_iff_forall_not_mem.mpr fun b hb => ?_
  rw [mem_presentSymbols, (s.cleared_frequencyTable b).1] at hb
  exact Bool.false_ne_true hb

theorem State.cleared_tableOk (s : State) : s.cleared.TableOk where
  absent b _ := (s.cleared_frequencyTable b).2
  nsyms := by rw [presentSymbols_cleared]; rfl
  total := (List.sum_eq_zero fun n hn => by
    obtain ⟨b, -, rfl⟩ := List.mem_map.mp hn
    exact (s.cleared_frequencyTable b).2).symm
  fits := Nat.zero_le _

/-- A cleared core of a legal width meets the invariant. -/
theorem State.cleared_inv {s : State} (width : cntWOk s.cntW = true) : s.cleared.Inv where
  width := width
  table := s.cleared_tableOk
  ports := rfl
  modes := rfl
  below k := by
    obtain ⟨left, right⟩ := s.cleared_children k
    rw [left, right]
    exact ⟨Nat.lt_add_right _ (by decide), Nat.lt_add_right _ (by decide)⟩
  idle _ := s.cleared_cleared
  error := rfl
  quiet _ := rfl
  unfilled _ i _ := BitVec.getLsbD_zero
  tree := ⟨by simp [State.reset], by simp [State.reset]⟩
  codes := ⟨by simp [State.reset], by simp [State.reset]⟩

/-- Settles O51: the reset state is cleared, of the default width. -/
theorem resetMeetsTheInvariant : Obligations.ResetMeetsTheInvariant :=
  State.cleared_inv (s := State.reset) (by decide)

end Sys2Proof.Machine
end

section
/-!
PROOFS. What the procedure of each command is made of: writes of its own registers, accesses to its own ports, and
its own errors. Every property of one command that follows from this is proved by one induction.
-/

namespace Sys2Proof.Machine

variable {α β : Type}

/-! ### What each command may write -/

/-- The source port that a command reads (R81, R184). -/
def readsFrom : Instr → Option SourcePort
  | .scan | .emit => some .src
  | .load => some .fsrc
  | .rdhdr | .walk => some .esrc
  | _ => none

/-- The sink port that a command writes (R81, R184). -/
def writesTo : Instr → Option SinkPort
  | .persist => some .fsink
  | .wrhdr | .emit | .flush => some .esink
  | .walk => some .osink
  | _ => none

/-- The phases that end a procedure by `PHASE <- v` alone. -/
def entersPhase : Instr → Option Phase
  | .scan | .load => some .table
  | .persist => some .persisted
  | .wrhdr | .rdhdr => some .hdr
  | .emit => some .streamed
  | _ => none

/-- The updates of the registers and stores of the core that occur in a command's procedure. -/
inductive Writes : Instr → State → State → Prop where
  | clear (s : State) : Writes .clear s s.cleared
  | scanMode (s : State) : Writes .scan s (s.setMode .enc)
  | loadMode (s : State) : Writes .load s (s.setMode .dec)
  | countByte (s : State) (b : Symbol) : Writes .scan s (s.countByte b)
  | enterKey (s : State) (b : Symbol) (n : Nat) : Writes .load s (s.enterKey b n)
  | seeded (s : State) : Writes .build s s.seeded
  | deactivate (s : State) (m : NodeId) : Writes .build s (s.deactivate m)
  | mergeInto (s : State) (k : Fin 255) (a b : NodeId) : Writes .build s (s.mergeInto k a b)
  | rootedAt (s : State) (r : NodeId) : Writes .build s (s.rootedAt r)
  | noCodes (s : State) : Writes .derive s s.noCodes
  | setCode (s : State) (b : Symbol) (p : List Bit) : Writes .derive s (s.setCode b p)
  | derived (s : State) : Writes .derive s s.derived
  | announce (s : State) (v : BitVec 64) : Writes .wrhdr s (s.setHdr v)
  | resetBW (s : State) : Writes .wrhdr s s.resetBW
  | placeBit (s : State) (b : Bit) : Writes .emit s (s.placeBit b)
  | countBit (s : State) : Writes .emit s s.countBit
  | emptyAcc (s : State) : Writes .emit s s.emptyAcc
  | flushAcc (s : State) : Writes .flush s s.emptyAcc
  | readHdr (s : State) (v : BitVec 64) : Writes .rdhdr s (s.setHdr v)
  | resetBR (s : State) : Writes .rdhdr s s.resetBR
  | loadByte (s : State) (r : Byte) : Writes .walk s (s.loadByte r)
  | dropBit (s : State) : Writes .walk s s.dropBit
  | moveTo (s : State) (id : NodeId) : Writes .walk s (s.moveTo id)
  | flushed (s : State) : Writes .flush s s.endSession
  | walked (s : State) : Writes .walk s s.endSession
  | enter {i : Instr} {p : Phase} (s : State) (h : entersPhase i = some p) : Writes i s (s.enter p)

/-- The updates of the state that occur in a command's procedure: its writes, and the accesses to its ports. -/
inductive Update : Instr → State → State → Prop where
  | write {i : Instr} {s t : State} (h : Writes i s t) : Update i s t
  | source {i : Instr} {p : SourcePort} (s : State) (st : Source) (h : readsFrom i = some p)
      (data : st.data = (s.source p).data) (wf : (s.source p).wf → st.wf) : Update i s (s.setSource p st)
  | holdSource {i : Instr} {p : SourcePort} (s : State) (h : readsFrom i = some p) : Update i s (s.hold p.num)
  | sink {i : Instr} {q : SinkPort} (s : State) (st : Sink) (h : writesTo i = some q) : Update i s (s.setSink q st)
  | holdSink {i : Instr} {q : SinkPort} (s : State) (h : writesTo i = some q) : Update i s (s.hold q.num)

/-! ### Procedures made of a command's operations -/

/-- The state in which the environment will fail no access (R47). -/
def State.calm (s : State) : State :=
  { s with
    src := { s.src with fails := [] }, fsrc := { s.fsrc with fails := [] }, esrc := { s.esrc with fails := [] }
    fsink := { s.fsink with fails := [] }, esink := { s.esink with fails := [] }
    osink := { s.osink with fails := [] } }

/-- A procedure made of the operations of a command. What it does between two accesses depends on the state but not
on the environment's answers to come. -/
inductive MadeOf (i : Instr) : {α : Type} → Proc α → Prop where
  | pure {α : Type} (a : α) : MadeOf i (pure a : Proc α)
  | raise {α : Type} (e : ErrorKind) (listed : mayRaise i e = true) (notIo : e ≠ .ioError) :
      MadeOf i (throw (.raised e) : Proc α)
  | stuck {α : Type} (f : Fault) : MadeOf i (throw (.stuck f) : Proc α)
  | bind {α β : Type} {x : Proc α} {f : α → Proc β} (hx : MadeOf i x) (hf : ∀ a, MadeOf i (f a)) : MadeOf i (x >>= f)
  | modify (f : State → State) (writes : ∀ s, Writes i s (f s)) (calm : ∀ s, f s.calm = (f s).calm) :
      MadeOf i (modify f : Proc Unit)
  | locally {α : Type} {x : Proc α} (y : State → Proc α) (hy : ∀ s, MadeOf i (y s)) (same : ∀ s, x s = y s s)
      (calm : ∀ s, x s.calm = y s s.calm) : MadeOf i x
  | openSource {p : SourcePort} (h : readsFrom i = some p) : MadeOf i (openSource p)
  | getByte {p : SourcePort} (h : readsFrom i = some p) : MadeOf i (getByte p)
  | openSink {q : SinkPort} (h : writesTo i = some q) : MadeOf i (openSink q)
  | putByte {q : SinkPort} (b : Byte) (h : writesTo i = some q) : MadeOf i (putByte q b)

variable {i : Instr}

theorem MadeOf.ite {c : Prop} [Decidable c] {x y : Proc α} (hx : MadeOf i x) (hy : MadeOf i y) :
    MadeOf i (if c then x else y) := by
  split
  · exact hx
  · exact hy

/-- A procedure that first looks at the state, but not at the answers to come. -/
theorem MadeOf.getBind {f : State → Proc α} (hf : ∀ s, MadeOf i (f s)) (calm : ∀ s, f s.calm = f s) :
    MadeOf i ((MonadState.get : Proc State) >>= f) :=
  .locally f hf (fun _ => rfl) fun s => congrFun (calm s) s.calm

/-- A procedure that looks at the state, stops where a test says so, and writes once elsewhere. -/
theorem madeOf_getIteSet {c : State → Prop} [DecidablePred c] {stop : Proc Unit} {f : State → State}
    (hs : MadeOf i stop) (writes : ∀ s, Writes i s (f s)) (same : ∀ s, c s.calm ↔ c s)
    (calm : ∀ s, f s.calm = (f s).calm) :
    MadeOf i ((MonadState.get : Proc State) >>= fun s => if c s then stop else set (f s)) := by
  refine .locally (fun s => if c s then stop else modify f) (fun s => .ite hs (.modify f writes calm)) (fun s => ?_)
    fun s => ?_
  · rw [Proc.get_bind_run]
    split <;> rfl
  · rw [Proc.get_bind_run, if_congr (same s) rfl rfl]
    split <;> rfl

/-! ### Shared operations -/

theorem MadeOf.putBytes {q : SinkPort} (h : writesTo i = some q) (bs : List Byte) : MadeOf i (putBytes q bs) := by
  induction bs with
  | nil => exact .pure ()
  | cons b bs ih => exact (MadeOf.putByte b h).bind fun _ => ih

theorem MadeOf.memReadFrom {p : SourcePort} (h : readsFrom i = some p) (n acc : Nat) :
    MadeOf i (memReadFrom p n acc) := by
  induction n generalizing acc with
  | zero => exact .pure _
  | succ n ih =>
    refine (MadeOf.getByte h).bind fun r => ?_
    cases r with
    | none => exact .pure _
    | some b => exact ih _

theorem MadeOf.forEachByte {p : SourcePort} (h : readsFrom i = some p) {f : Byte → Proc Unit}
    (hf : ∀ b, MadeOf i (f b)) (n : Nat) : MadeOf i (forEachByte p f n) := by
  induction n with
  | zero =>
    refine (MadeOf.getByte h).bind fun r => ?_
    cases r with
    | none => exact .pure _
    | some b => exact .stuck _
  | succ n ih =>
    refine (MadeOf.getByte h).bind fun r => ?_
    cases r with
    | none => exact .pure _
    | some b => exact (hf b).bind fun _ => ih

theorem MadeOf.putAcc (h : writesTo i = some .esink) (writes : ∀ s, Writes i s s.emptyAcc) : MadeOf i putAcc :=
  .getBind (fun _ => (MadeOf.putByte _ h).bind fun _ => .modify _ writes fun _ => rfl) fun _ => rfl

/-! ### The commands -/

theorem madeOf_scanBody : MadeOf .scan scanBody := by
  have step (b : Byte) : MadeOf .scan (scanStep b) :=
    madeOf_getIteSet (.raise _ rfl nofun) (fun s => .countByte s b) (fun _ => .rfl) fun _ => rfl
  exact (MadeOf.modify _ .scanMode fun _ => rfl).bind fun _ => (MadeOf.openSource rfl).bind fun _ =>
    .getBind (fun s => (MadeOf.forEachByte rfl step _).bind fun _ => .modify _ (fun s => .enter s rfl) fun _ => rfl)
      fun _ => rfl

theorem madeOf_persistBody : MadeOf .persist persistBody := by
  have lines (bs : List Symbol) : MadeOf .persist (persistLines bs) := by
    induction bs with
    | nil => exact .pure ()
    | cons b bs ih => exact .getBind (fun _ => (MadeOf.putBytes rfl _).bind fun _ => ih) fun _ => rfl
  exact (MadeOf.openSink rfl).bind fun _ =>
    .getBind (fun _ => (lines _).bind fun _ => .modify _ (fun s => .enter s rfl) fun _ => rfl) fun _ => rfl

theorem madeOf_loadSymbol (k : Nat) (c : Option Byte) (sym : Nat) : MadeOf .load (loadSymbol k c sym) := by
  induction k generalizing c sym with
  | zero =>
    unfold loadSymbol
    split
    · exact .raise _ rfl nofun
    · exact .pure _
  | succ k ih =>
    unfold loadSymbol
    split
    · exact .raise _ rfl nofun
    · exact (MadeOf.getByte rfl).bind fun _ => ih _ _

theorem madeOf_loadCount (fuel n ndig : Nat) : MadeOf .load (loadCount fuel n ndig) := by
  induction fuel generalizing n ndig with
  | zero => exact .stuck _
  | succ fuel ih =>
    refine (MadeOf.getByte rfl).bind fun r => ?_
    cases r with
    | none => exact .raise _ rfl nofun
    | some c =>
      dsimp only
      split
      · exact .getBind (fun _ => .ite (.raise _ rfl nofun) (ih _ _)) fun _ => rfl
      · exact .ite (.pure _) (.raise _ rfl nofun)

theorem madeOf_loadEntry (b : Symbol) (n : Nat) : MadeOf .load (loadEntry b n) := by
  refine .locally (fun s => if atSym s.ftPres b then throw (.raised .formatError)
    else if s.total + n > s.maxCnt then throw (.raised .capacityError) else modify (·.enterKey b n)) (fun s => ?_)
    (fun s => ?_) fun s => ?_
  · exact .ite (.raise _ rfl nofun) (.ite (.raise _ rfl nofun) (.modify _ (fun s => .enterKey s b n) fun _ => rfl))
  · rw [loadEntry, Proc.get_bind_run]
    split
    · rfl
    · split <;> rfl
  · rw [loadEntry, Proc.get_bind_run]
    change (if atSym s.ftPres b then _ else if s.total + n > s.maxCnt then _ else _ : Proc Unit) s.calm = _
    split
    · rfl
    · split <;> rfl

theorem madeOf_loadLine (c : Byte) : MadeOf .load (loadLine c) := by
  have colon : MadeOf .load loadColon := (MadeOf.getByte rfl).bind fun _ => .ite (.pure ()) (.raise _ rfl nofun)
  exact (madeOf_loadSymbol 7 _ 0).bind fun _ => colon.bind fun _ =>
    .getBind (fun _ => (madeOf_loadCount _ 0 0).bind fun _ => madeOf_loadEntry _ _) fun _ => rfl

theorem madeOf_loadBody : MadeOf .load loadBody := by
  have lines (fuel : Nat) : MadeOf .load (loadLines fuel) := by
    induction fuel with
    | zero => exact .stuck _
    | succ fuel ih =>
      refine (MadeOf.getByte rfl).bind fun r => ?_
      cases r with
      | none => exact .pure ()
      | some c => exact (madeOf_loadLine c).bind fun _ => ih
  exact (MadeOf.modify _ .loadMode fun _ => rfl).bind fun _ => (MadeOf.openSource rfl).bind fun _ =>
    .getBind (fun _ => (lines _).bind fun _ => .modify _ (fun s => .enter s rfl) fun _ => rfl) fun _ => rfl

theorem State.activeIds_calm (s : State) : s.calm.activeIds = s.activeIds := rfl

theorem State.leastOf_calm (s : State) (ids : List NodeId) : s.calm.leastOf ids = s.leastOf ids := rfl

theorem madeOf_extractMin : MadeOf .build extractMin := by
  refine .locally (fun s => match s.leastOf s.activeIds with
    | none => throw (.stuck .extractFromEmpty)
    | some m => modify (·.deactivate m) >>= fun _ => pure m) (fun s => ?_) (fun s => ?_) fun s => ?_
  · split
    · exact .stuck _
    · exact (MadeOf.modify _ (fun s => .deactivate s _) fun _ => rfl).bind fun _ => .pure _
  · rw [extractMin, Proc.get_bind_run]
    cases s.leastOf s.activeIds <;> rfl
  · rw [extractMin, Proc.get_bind_run, State.activeIds_calm, State.leastOf_calm]
    cases s.leastOf s.activeIds <;> rfl

/-- The second half of a merge, after both nodes are extracted (R123). -/
theorem madeOf_mergeStep : MadeOf .build mergeStep := by
  refine madeOf_extractMin.bind fun a => madeOf_extractMin.bind fun b => ?_
  refine .locally (fun s => if h : 256 ≤ s.nextId.toNat ∧ s.nextId.toNat < 511 then
    modify (·.mergeInto ⟨s.nextId.toNat - 256, by omega⟩ a b) else throw (.stuck .nodeStoreFull)) (fun s => ?_)
    (fun s => ?_) fun s => ?_
  · split
    · exact .modify _ (fun s => .mergeInto s _ a b) fun _ => rfl
    · exact .stuck _
  · rw [Proc.get_bind_run]
    split <;> rfl
  · rw [Proc.get_bind_run]
    split
    · next room =>
      rw [dif_pos (show 256 ≤ s.nextId.toNat ∧ s.nextId.toNat < 511 from room)]
      rfl
    · next full => rw [dif_neg (show ¬ (256 ≤ s.nextId.toNat ∧ s.nextId.toNat < 511) from full)]

theorem madeOf_takeRoot : MadeOf .build takeRoot := by
  refine .locally (fun s => match s.activeIds with
    | [r] => modify (·.rootedAt r)
    | _ => throw (.stuck .rootNotUnique)) (fun s => ?_) (fun s => ?_) fun s => ?_
  · split
    · exact .modify _ (fun s => .rootedAt s _) fun _ => rfl
    · exact .stuck _
  · rw [takeRoot, Proc.get_bind_run]
    rcases s.activeIds with _ | ⟨r, _ | ⟨x, xs⟩⟩ <;> rfl
  · rw [takeRoot, Proc.get_bind_run, State.activeIds_calm]
    rcases s.activeIds with _ | ⟨r, _ | ⟨x, xs⟩⟩ <;> rfl

theorem madeOf_mergeLoop (n : Nat) : MadeOf .build (mergeLoop n) := by
  induction n with
  | zero => exact .pure ()
  | succ n ih => exact madeOf_mergeStep.bind fun _ => ih

theorem madeOf_buildBody : MadeOf .build buildBody :=
  .getBind (fun _ => .ite (.raise _ rfl nofun) <| (MadeOf.modify _ .seeded fun _ => rfl).bind fun _ =>
    .getBind (fun _ => (madeOf_mergeLoop _).bind fun _ => madeOf_takeRoot) fun _ => rfl) fun _ => rfl

theorem madeOf_deriveFrom (fuel : Nat) (n : NodeId) (p : List Bit) : MadeOf .derive (deriveFrom fuel n p) := by
  induction fuel generalizing n p with
  | zero => exact .stuck _
  | succ fuel ih =>
    refine .locally (fun s => if isLeaf n then modify (·.setCode (symbolOf n) p) else do
      deriveFrom fuel (s.left n) (p ++ [false])
      deriveFrom fuel (s.right n) (p ++ [true])) (fun s => ?_) (fun s => ?_) fun s => ?_
    · exact .ite (.modify _ (fun s => .setCode s _ p) fun _ => rfl) ((ih _ _).bind fun _ => ih _ _)
    · rw [deriveFrom, Proc.get_bind_run]
      split <;> rfl
    · rw [deriveFrom, Proc.get_bind_run]
      split <;> rfl

theorem madeOf_deriveBody : MadeOf .derive deriveBody := by
  have codes : MadeOf .derive deriveCodes := by
    refine .locally (fun s => if isLeaf s.root then modify (·.setCode (symbolOf s.root) [false])
      else deriveFrom (Config.maxLen + 1) s.root []) (fun s => ?_) (fun s => ?_) fun s => ?_
    · exact .ite (.modify _ (fun s => .setCode s _ _) fun _ => rfl) (madeOf_deriveFrom _ _ _)
    · rw [deriveCodes, Proc.get_bind_run]
      split <;> rfl
    · rw [deriveCodes, Proc.get_bind_run]
      change (if isLeaf s.root then _ else _ : Proc Unit) s.calm = _
      split <;> rfl
  exact (MadeOf.modify _ .noCodes fun _ => rfl).bind fun _ => codes.bind fun _ => .modify _ .derived fun _ => rfl

theorem madeOf_wrhdrBody : MadeOf .wrhdr wrhdrBody :=
  (MadeOf.modify _ (fun s => .announce s _) fun _ => rfl).bind fun _ => (MadeOf.openSink rfl).bind fun _ =>
    .getBind (fun _ => (MadeOf.putBytes rfl _).bind fun _ =>
      (MadeOf.modify _ .resetBW fun _ => rfl).bind fun _ => .modify _ (fun s => .enter s rfl) fun _ => rfl) fun _ => rfl

theorem madeOf_emitBody : MadeOf .emit emitBody := by
  have bit (b : Bit) : MadeOf .emit (putBit b) :=
    (MadeOf.modify _ (fun s => .placeBit s b) fun _ => rfl).bind fun _ =>
      .getBind (fun _ => .ite (.putAcc rfl .emptyAcc) (.modify _ .countBit fun _ => rfl)) fun _ => rfl
  have bits (bs : List Bit) : MadeOf .emit (putBits bs) := by
    induction bs with
    | nil => exact .pure ()
    | cons b bs ih => exact (bit b).bind fun _ => ih
  have step (b : Symbol) : MadeOf .emit (emitStep b) :=
    .getBind (fun _ => .ite (.raise _ rfl nofun) (.getBind (fun _ => bits _) fun _ => rfl)) fun _ => rfl
  exact (MadeOf.openSource rfl).bind fun _ =>
    .getBind (fun s => (MadeOf.forEachByte rfl step _).bind fun _ => .modify _ (fun s => .enter s rfl) fun _ => rfl)
      fun _ => rfl

theorem madeOf_flushBody : MadeOf .flush flushBody := by
  have flush : MadeOf .flush flushBits :=
    .getBind (fun _ => .ite (.pure ()) (.putAcc rfl .flushAcc)) fun _ => rfl
  refine flush.bind fun _ => .locally (fun s => if s.bwTotal = s.hdrBits then modify State.endSession
    else throw (.raised .internalInvariantError)) (fun s => ?_) (fun s => ?_) fun s => ?_
  · exact .ite (.modify _ .flushed fun _ => rfl) (.raise _ rfl nofun)
  · rw [Proc.get_bind_run]
    split <;> rfl
  · rw [Proc.get_bind_run]
    change (if s.bwTotal = s.hdrBits then _ else _ : Proc Unit) s.calm = _
    split <;> rfl

theorem madeOf_rdhdrBody : MadeOf .rdhdr rdhdrBody := by
  refine (MadeOf.openSource rfl).bind fun _ => (MadeOf.memReadFrom rfl _ 0).bind fun r => ?_
  cases r with
  | none => exact .raise _ rfl nofun
  | some v =>
    exact (MadeOf.modify _ (fun s => .readHdr s (BitVec.ofNat 64 v)) fun _ => rfl).bind fun _ =>
      (MadeOf.modify _ .resetBR fun _ => rfl).bind fun _ => .modify _ (fun s => .enter s rfl) fun _ => rfl

theorem madeOf_getBit : MadeOf .walk getBit := by
  have fetch : MadeOf .walk fetchByte := by
    refine .getBind (fun _ => .ite ((MadeOf.getByte rfl).bind fun r => ?_) (.pure ())) fun _ => rfl
    cases r with
    | none => exact .raise _ rfl nofun
    | some r => exact .modify _ (fun s => .loadByte s r) fun _ => rfl
  refine fetch.bind fun _ => .locally
    (fun s => modify State.dropBit >>= fun _ => pure (s.brBuf.getLsbD (s.brLeft.val - 1))) (fun s => ?_) (fun _ => rfl)
    fun _ => rfl
  exact (MadeOf.modify _ .dropBit fun _ => rfl).bind fun _ => .pure _

theorem madeOf_walkBody : MadeOf .walk walkBody := by
  have arrive (id : NodeId) : MadeOf .walk (arriveAt id) :=
    (MadeOf.modify _ (fun s => .moveTo s id) fun _ => rfl).bind fun _ =>
      .ite ((MadeOf.putByte _ rfl).bind fun _ => .modify _ (fun s => .moveTo s _) fun _ => rfl) (.pure ())
  have step (b : Bit) : MadeOf .walk (walkStep b) :=
    .getBind (fun _ => .ite (.putByte _ rfl) (arrive _)) fun _ => rfl
  have loop (n : Nat) : MadeOf .walk (walkLoop n) := by
    induction n with
    | zero => exact .pure ()
    | succ n ih => exact madeOf_getBit.bind fun _ => (step _).bind fun _ => ih
  have toRoot : MadeOf .walk (modify State.toRoot : Proc Unit) := by
    refine .locally (fun s => if s.treeValid then modify fun s => s.moveTo s.root else pure ()) (fun s => ?_)
      (fun s => ?_) fun s => ?_
    · exact .ite (.modify _ (fun s => .moveTo s _) fun _ => rfl) (.pure ())
    · rw [Proc.modify_run, State.toRoot]
      split <;> rfl
    · rw [Proc.modify_run, State.toRoot]
      change EStateM.Result.ok () (if s.treeValid then _ else _) = _
      split <;> rfl
  have finish : MadeOf .walk endWalk :=
    madeOf_getIteSet (.raise _ rfl nofun) .walked (fun _ => .rfl) fun _ => rfl
  exact .getBind (fun _ => .ite (.raise _ rfl nofun) <| (MadeOf.openSink rfl).bind fun _ => toRoot.bind fun _ =>
    (loop _).bind fun _ => finish) fun _ => rfl

/-- The procedure of each command is made of the operations of the command. -/
theorem madeOf_bodyOf (i : Instr) : MadeOf i (bodyOf i) := by
  cases i with
  | nop | encode | decode => exact .pure ()
  | clear => exact .modify _ .clear fun _ => rfl
  | scan => exact madeOf_scanBody
  | persist => exact madeOf_persistBody
  | load => exact madeOf_loadBody
  | build => exact madeOf_buildBody
  | derive => exact madeOf_deriveBody
  | wrhdr => exact madeOf_wrhdrBody
  | emit => exact madeOf_emitBody
  | flush => exact madeOf_flushBody
  | rdhdr => exact madeOf_rdhdrBody
  | walk => exact madeOf_walkBody

end Sys2Proof.Machine
end

section
/-!
PROOFS. What every command keeps: a property that each update of its procedure and the raising of an error keep.
-/

namespace Sys2Proof.Machine

variable {α : Type} {i : Instr} {P : State → Prop}

/-- A procedure made of a command's operations keeps what the command's updates keep. -/
theorem MadeOf.keeps {x : Proc α} (hx : MadeOf i x) (hP : ∀ s t, Update i s t → P s → P t) : Keeps P x := by
  induction hx with
  | pure a => exact Keeps.pure a
  | raise e => exact Keeps.throw _
  | stuck f => exact Keeps.throw _
  | bind _ _ ihx ihf => exact ihx.bind ihf
  | modify f writes => exact Keeps.modify fun s hs => hP s _ (.write (writes s)) hs
  | locally y _ same _ ih =>
    intro s hs
    rw [same s]
    exact ih s s hs
  | @openSource p h =>
    intro s hs
    cases hf : failsNext (s.source p).fails with
    | true =>
      rw [openSource_of_fail hf]
      exact hP s _ (.source s _ h rfl id) hs
    | false =>
      rw [openSource_of_go hf]
      exact hP _ _ (.holdSource _ h) (hP s _ (.source s _ h rfl fun _ => Source.wf_open _ _) hs)
  | @getByte p h =>
    intro s hs
    cases hg : Machine.getByte p s with
    | ok r t =>
      obtain ⟨-, -, hr, rfl⟩ := getByte_ok_inv hg
      refine hP s _ (.source s _ h rfl fun wf => ?_) hs
      cases r with
      | none => exact wf
      | some b => exact Source.wf_get _ hr.symm
    | error e t =>
      obtain ⟨-, -, rfl⟩ | ⟨-, -, -, rfl⟩ := getByte_error_inv hg
      · exact hs
      · exact hP s _ (.source s _ h rfl id) hs
  | @openSink q h =>
    intro s hs
    cases hf : failsNext (s.sink q).fails with
    | true =>
      rw [openSink_of_fail hf]
      exact hP s _ (.sink s _ h) hs
    | false =>
      rw [openSink_of_go hf]
      exact hP _ _ (.holdSink _ h) (hP s _ (.sink s _ h) hs)
  | @putByte q b h =>
    intro s hs
    cases hg : Machine.putByte q b s with
    | ok r t =>
      obtain ⟨-, -, rfl⟩ := putByte_ok_inv hg
      exact hP s _ (.sink s _ h) hs
    | error e t =>
      obtain ⟨-, -, rfl⟩ | ⟨-, -, -, rfl⟩ := putByte_error_inv hg
      · exact hs
      · exact hP s _ (.sink s _ h) hs

theorem keeps_bodyOf (hP : ∀ s t, Update i s t → P s → P t) : Keeps P (bodyOf i) := (madeOf_bodyOf i).keeps hP

theorem exec_encode_eq :
    exec .encode = fun s => andThen (andThen (andThen (andThen (andThen (andThen (exec .clear s) (exec .scan))
      (exec .persist)) buildAndDerive) (exec .wrhdr)) (exec .emit)) (exec .flush) := rfl

theorem exec_decode_eq :
    exec .decode = fun s => andThen (andThen (andThen (andThen (exec .clear s) (exec .load)) buildIfAny)
      (exec .rdhdr)) (exec .walk) := rfl

theorem buildAndDerive_eq :
    buildAndDerive = fun s => if s.nsyms ≠ 0 then andThen (exec .build s) (exec .derive) else .next s := rfl

theorem buildIfAny_eq : buildIfAny = fun s => if s.nsyms ≠ 0 then exec .build s else .next s := rfl

/-- A command keeps what each of its steps keeps. -/
theorem exec_keepsNext_of_steps (step : ∀ j ∈ expansionOf i, expansionOf j = [j] → KeepsNext P (exec j)) :
    KeepsNext P (exec i) := by
  cases i with
  | encode =>
    rw [exec_encode_eq]
    refine .andThen (.andThen (.andThen (.andThen (.andThen (.andThen ?_ ?_) ?_) ?tree) ?_) ?_) ?_
    case tree =>
      rw [buildAndDerive_eq]
      exact .ite (.andThen (step .build (by decide) rfl) (step .derive (by decide) rfl)) .stay
    all_goals exact step _ (by decide) rfl
  | decode =>
    rw [exec_decode_eq]
    refine .andThen (.andThen (.andThen (.andThen ?_ ?_) ?tree) ?_) ?_
    case tree =>
      rw [buildIfAny_eq]
      exact .ite (step .build (by decide) rfl) .stay
    all_goals exact step _ (by decide) rfl
  | _ => exact step _ (List.mem_singleton_self _) rfl

/-- Every command keeps what the updates of its steps and the raising of an error keep. -/
theorem exec_keepsNext (hP : ∀ j ∈ expansionOf i, ∀ s t, Update j s t → P s → P t)
    (hR : ∀ s e cmd, P s → P (s.raiseError e cmd)) : KeepsNext P (exec i) := by
  refine exec_keepsNext_of_steps fun j mem hj => ?_
  rw [exec_eq_runCommand hj]
  exact .runCommand (keeps_bodyOf (hP j mem)) hR

/-- A primitive command keeps what its updates and the raising of an error keep. -/
theorem exec_keepsNext_primitive (hi : expansionOf i = [i]) (hP : ∀ s t, Update i s t → P s → P t)
    (hR : ∀ s e cmd, P s → P (s.raiseError e cmd)) : KeepsNext P (exec i) :=
  exec_keepsNext (by simpa [hi] using hP) hR

theorem expansionOf_of_primitive (encode : i ≠ .encode) (decode : i ≠ .decode) : expansionOf i = [i] := by
  cases i with
  | encode | decode => contradiction
  | _ => rfl

/-- A primitive command leaves alone what its updates and the raising of an error leave alone. -/
theorem exec_frame {β : Type} (g : State → β) (hi : expansionOf i = [i]) (hg : ∀ {s t}, Update i s t → g t = g s)
    (hR : ∀ s e cmd, g (s.raiseError e cmd) = g s) {s t : State} (ran : exec i s = .next t) : g t = g s :=
  exec_keepsNext_primitive (P := (g · = g s)) hi (fun _ _ hu hs => (hg hu).trans hs)
    (fun u e cmd hs => (hR u e cmd).trans hs) s t rfl ran

/-! ### What the updates of a command leave alone -/

section Frames
variable {s t : State} (h : Update i s t)
include h

theorem Update.table_eq (scan : i ≠ .scan) (load : i ≠ .load) (clear : i ≠ .clear) :
    (t.ftPres, t.ftCnt, t.nsyms, t.total) = (s.ftPres, s.ftCnt, s.nsyms, s.total) := by
  cases h with
  | write h => cases h <;> simp at *
  | _ => simp

theorem Update.model_eq : (t.cntW, t.hostMoves, t.readData) = (s.cntW, s.hostMoves, s.readData) := by
  cases h with
  | write h => cases h <;> simp
  | _ => simp

theorem Update.tree_eq (build : i ≠ .build) (clear : i ≠ .clear) :
    (t.nodeW, t.nodeL, t.nodeR, t.nodeAct, t.nextId, t.root, t.treeValid) =
      (s.nodeW, s.nodeL, s.nodeR, s.nodeAct, s.nextId, s.root, s.treeValid) := by
  cases h with
  | write h => cases h <;> simp at *
  | _ => simp

theorem Update.codes_eq (derive : i ≠ .derive) (clear : i ≠ .clear) :
    (t.codeLen, t.codeBits) = (s.codeLen, s.codeBits) := by
  cases h with
  | write h => cases h <;> simp at *
  | _ => simp

theorem Update.ctValid_eq (derive : i ≠ .derive) (build : i ≠ .build) (clear : i ≠ .clear) :
    t.ctValid = s.ctValid := by
  cases h with
  | write h => cases h <;> simp at *
  | _ => simp

theorem Update.mode_eq (scan : i ≠ .scan) (load : i ≠ .load) (clear : i ≠ .clear) : t.mode = s.mode := by
  cases h with
  | write h => cases h <;> simp at *
  | _ => simp

theorem Update.hdrBits_eq (wrhdr : i ≠ .wrhdr) (rdhdr : i ≠ .rdhdr) (clear : i ≠ .clear) :
    t.hdrBits = s.hdrBits := by
  cases h with
  | write h => cases h <;> simp at *
  | _ => simp

theorem Update.cur_eq (walk : i ≠ .walk) (clear : i ≠ .clear) : t.cur = s.cur := by
  cases h with
  | write h => cases h <;> simp at *
  | _ => simp

theorem Update.acc_eq (wrhdr : i ≠ .wrhdr) (emit : i ≠ .emit) (flush : i ≠ .flush) (clear : i ≠ .clear) :
    (t.bwAcc, t.bwN) = (s.bwAcc, s.bwN) := by
  cases h with
  | write h => cases h <;> simp at *
  | _ => simp

theorem Update.bwTotal_eq (wrhdr : i ≠ .wrhdr) (emit : i ≠ .emit) (clear : i ≠ .clear) : t.bwTotal = s.bwTotal := by
  cases h with
  | write h => cases h <;> simp at *
  | _ => simp

theorem Update.reader_eq (rdhdr : i ≠ .rdhdr) (walk : i ≠ .walk) (clear : i ≠ .clear) :
    (t.brBuf, t.brLeft, t.brTotal) = (s.brBuf, s.brLeft, s.brTotal) := by
  cases h with
  | write h => cases h <;> simp at *
  | _ => simp

end Frames

/-- Settles O56: of the updates, only those of `SCAN`, `LOAD` and `CLEAR` write the table, and none writes the other
three fields. -/
theorem onlyScanAndLoadWriteTheTable : Obligations.OnlyScanAndLoadWriteTheTable := by
  unfold Obligations.OnlyScanAndLoadWriteTheTable
  intro s t i ran
  refine ⟨fun scan load clear encode decode => ?table, ?model⟩
  case table =>
    have same := exec_frame (fun s => (s.ftPres, s.ftCnt, s.nsyms, s.total)) (expansionOf_of_primitive encode decode)
      (fun hu => hu.table_eq scan load clear) (by simp) ran
    simpa using same
  case model =>
    have same : (t.cntW, t.hostMoves, t.readData) = (s.cntW, s.hostMoves, s.readData) :=
      exec_keepsNext (P := fun t => (t.cntW, t.hostMoves, t.readData) = (s.cntW, s.hostMoves, s.readData))
        (fun _ _ _ _ hu hs => hu.model_eq.trans hs) (by simp) s t rfl ran
    simpa using same

/-- Settles O57: the updates that write the tree are those of `BUILD`, and those that write codes are those of
`DERIVE`. -/
theorem onlyBuildAndDeriveWriteTreeAndCodes : Obligations.OnlyBuildAndDeriveWriteTreeAndCodes := by
  unfold Obligations.OnlyBuildAndDeriveWriteTreeAndCodes
  intro s t i ran clear encode decode
  have primitive := expansionOf_of_primitive encode decode
  refine ⟨fun build => ?tree, fun derive => ?codes, fun derive build => ?valid⟩
  case tree =>
    have same := exec_frame (fun s => (s.nodeW, s.nodeL, s.nodeR, s.nodeAct, s.nextId, s.root, s.treeValid)) primitive
      (fun hu => hu.tree_eq build clear) (by simp) ran
    simpa using same
  case codes =>
    have same := exec_frame (fun s => (s.codeLen, s.codeBits)) primitive (fun hu => hu.codes_eq derive clear)
      (by simp) ran
    simpa using same
  case valid => exact exec_frame State.ctValid primitive (fun hu => hu.ctValid_eq derive build clear) (by simp) ran

/-- Settles O58: for each register, the commands with an update that writes it are the commands excepted. -/
theorem bitRegistersAreWrittenByTheirCommands : Obligations.BitRegistersAreWrittenByTheirCommands := by
  unfold Obligations.BitRegistersAreWrittenByTheirCommands
  intro s t i ran clear encode decode
  have primitive := expansionOf_of_primitive encode decode
  refine ⟨fun scan load => ?mode, fun wrhdr rdhdr => ?hdr, fun walk => ?cur, fun wrhdr emit flush => ?acc,
    fun wrhdr emit => ?count, fun rdhdr walk => ?reader⟩
  case mode => exact exec_frame State.mode primitive (fun hu => hu.mode_eq scan load clear) (by simp) ran
  case hdr => exact exec_frame State.hdrBits primitive (fun hu => hu.hdrBits_eq wrhdr rdhdr clear) (by simp) ran
  case cur => exact exec_frame State.cur primitive (fun hu => hu.cur_eq walk clear) (by simp) ran
  case acc =>
    have same := exec_frame (fun s => (s.bwAcc, s.bwN)) primitive (fun hu => hu.acc_eq wrhdr emit flush clear)
      (by simp) ran
    simpa using same
  case count => exact exec_frame State.bwTotal primitive (fun hu => hu.bwTotal_eq wrhdr emit clear) (by simp) ran
  case reader =>
    have same := exec_frame (fun s => (s.brBuf, s.brLeft, s.brTotal)) primitive
      (fun hu => hu.reader_eq rdhdr walk clear)
      (by simp) ran
    simpa using same

end Sys2Proof.Machine
end

section
/-!
PROOFS. Whose streams a command touches (spec/20_memory.md R41, spec/60_exceptions.md R184).
-/

namespace Sys2Proof.Machine

variable {i : Instr} {s t : State}

/-! ### Sources -/

theorem Writes.source_eq (h : Writes i s t) (p : SourcePort) : t.source p = s.source p := by
  cases h <;> simp

theorem Writes.sink_eq (h : Writes i s t) (q : SinkPort) : t.sink q = s.sink q := by
  cases h <;> simp

/-- A command's own writes release every port or none. -/
theorem Writes.portHeld_eq (h : Writes i s t) : t.portHeld = s.portHeld ∨ t.portHeld = 0 := by
  cases h <;> simp [State.reset]

/-- The updates of a command leave alone every source that it does not read. -/
theorem Update.source_eq (h : Update i s t) {p : SourcePort} (notRead : readsFrom i ≠ some p) :
    t.source p = s.source p := by
  cases h with
  | write h => exact h.source_eq p
  | source _ st reads _ _ =>
    refine State.source_setSource_ne s st ?_
    rintro rfl
    exact notRead reads
  | _ => simp

theorem Update.source_data_eq (h : Update i s t) (p : SourcePort) : (t.source p).data = (s.source p).data := by
  cases h with
  | write h => rw [h.source_eq p]
  | @source q _ st _ data _ =>
    by_cases same : p = q
    · subst same
      rw [State.source_setSource_same, data]
    · rw [State.source_setSource_ne s st same]
  | _ => simp

theorem Update.source_wf (h : Update i s t) {p : SourcePort} (wf : (s.source p).wf) : (t.source p).wf := by
  cases h with
  | write h => rwa [h.source_eq p]
  | @source q _ st _ _ keeps =>
    by_cases same : p = q
    · subst same
      rw [State.source_setSource_same]
      exact keeps wf
    · rwa [State.source_setSource_ne s st same]
  | _ => simpa using wf

/-- A command leaves alone every source that none of its steps reads. -/
theorem source_eq_of_exec {p : SourcePort} (notRead : ∀ j ∈ expansionOf i, readsFrom j ≠ some p)
    (ran : exec i s = .next t) : t.source p = s.source p :=
  exec_keepsNext (P := fun t => t.source p = s.source p)
    (fun j mem _ _ hu hs => (hu.source_eq (notRead j mem)).trans hs) (by simp) s t rfl ran

theorem source_data_eq_of_exec (p : SourcePort) (ran : exec i s = .next t) : (t.source p).data = (s.source p).data :=
  exec_keepsNext (P := fun t => (t.source p).data = (s.source p).data)
    (fun _ _ _ _ hu hs => (hu.source_data_eq p).trans hs) (by simp) s t rfl ran

theorem source_wf_of_exec (p : SourcePort) (ran : exec i s = .next t) (wf : (s.source p).wf) : (t.source p).wf :=
  exec_keepsNext (P := fun t => (t.source p).wf) (fun _ _ _ _ hu hs => hu.source_wf hs) (by simp) s t wf ran

/-- Settles O59: the only updates of a source move its cursor within its bytes, and they are those of the commands
that read it. -/
theorem sourcesAreOnlyRead : Obligations.SourcesAreOnlyRead := by
  unfold Obligations.SourcesAreOnlyRead
  intro s t i ran
  refine ⟨source_data_eq_of_exec .src ran, source_data_eq_of_exec .fsrc ran, source_data_eq_of_exec .esrc ran,
    fun scan emit encode => source_eq_of_exec (p := .src) ?src ran,
    fun load decode => source_eq_of_exec (p := .fsrc) ?fsrc ran,
    fun rdhdr walk decode => source_eq_of_exec (p := .esrc) ?esrc ran,
    fun ⟨src, fsrc, esrc⟩ => ⟨source_wf_of_exec .src ran src, source_wf_of_exec .fsrc ran fsrc,
      source_wf_of_exec .esrc ran esrc⟩⟩
  case src =>
    revert scan emit encode
    cases i <;> decide
  case fsrc =>
    revert load decode
    cases i <;> decide
  case esrc =>
    revert rdhdr walk decode
    cases i <;> decide

/-! ### Sinks -/

theorem SinkPort.num_ne_source (q : SinkPort) (p : SourcePort) : q.num ≠ p.num := by
  cases q <;> cases p <;> decide

theorem SinkPort.num_injective {q r : SinkPort} (h : q.num = r.num) : q = r := by
  revert h
  cases q <;> cases r <;> decide

/-- The updates of a command leave alone every sink that it does not write. -/
theorem Update.sink_eq (h : Update i s t) {q : SinkPort} (notWritten : writesTo i ≠ some q) :
    t.sink q = s.sink q := by
  cases h with
  | write h => exact h.sink_eq q
  | sink _ st writes =>
    refine State.sink_setSink_ne s st ?_
    rintro rfl
    exact notWritten writes
  | _ => simp

/-- A command never begins to hold a sink that it does not write. -/
theorem Update.not_held (h : Update i s t) {q : SinkPort} (notWritten : writesTo i ≠ some q)
    (free : s.held q.num = false) : t.held q.num = false := by
  cases h with
  | write h =>
    obtain same | released := h.portHeld_eq
    · rwa [State.held, same]
    · simp [State.held, released]
  | @holdSource p _ _ => rwa [held_hold_ne s (q.num_ne_source p)]
  | @holdSink r _ writes =>
    rw [held_hold_ne s]
    · exact free
    · intro same
      exact notWritten (SinkPort.num_injective same ▸ writes)
  | _ => simpa using free

theorem sink_eq_of_exec_of_free {q : SinkPort} (notWritten : ∀ j ∈ expansionOf i, writesTo j ≠ some q)
    (ran : exec i s = .next t) (free : s.held q.num = false) : t.sink q = s.sink q := by
  refine (exec_keepsNext (P := fun t => t.sink q = s.sink q ∧ t.held q.num = false) (fun j mem u v hu hs => ?update)
    (fun u e cmd hs => ?raise) s t ⟨rfl, free⟩ ran).1
  case update => exact ⟨(hu.sink_eq (notWritten j mem)).trans hs.1, hu.not_held (notWritten j mem) hs.2⟩
  case raise =>
    exact ⟨(raiseError_sink_of_not_held u e cmd q hs.2).trans hs.1, by simp [State.held]⟩

/-- A composite begins with `CLEAR`, so it runs as from the cleared state (R66, R83). -/
theorem exec_composite_cleared (composite : i = .encode ∨ i = .decode) (s : State) : exec i s.cleared = exec i s := by
  obtain rfl | rfl := composite
  · simp only [exec_encode_eq, exec_clear, State.cleared_cleared]
  · simp only [exec_decode_eq, exec_clear, State.cleared_cleared]

/-- A command that ends outside `FAULT` without being ignored or illegal has run its procedure to the end. -/
theorem exec_not_fault_cases (hi : expansionOf i = [i]) (ran : exec i s = .next t) (running : t.phase ≠ .fault) :
    t = s ∨ legal s i = true ∧ bodyOf i s = .ok () t := by
  rw [exec_eq_runCommand hi] at ran
  obtain ⟨-, -, rfl⟩ | ⟨-, rfl⟩ | ok | ⟨-, e, u, -, rfl⟩ := runCommand_next_cases ran
  · exact .inl rfl
  · exact absurd (State.raiseError_phase _ _ _) running
  · exact .inr ok
  · exact absurd (State.raiseError_phase _ _ _) running

/-- A command leaves alone every sink that none of its steps writes, unless it raises an error while the sink is
held. -/
theorem sink_eq_of_exec {q : SinkPort} (notWritten : ∀ j ∈ expansionOf i, writesTo j ≠ some q)
    (ran : exec i s = .next t)
    (unspoiled : s.held q.num = false ∨ t.phase ≠ .fault ∨ i = .encode ∨ i = .decode) : t.sink q = s.sink q := by
  by_cases composite : i = .encode ∨ i = .decode
  · rw [← exec_composite_cleared composite] at ran
    rw [sink_eq_of_exec_of_free notWritten ran (by simp [State.held, State.reset]), State.sink_cleared]
  · obtain ⟨encode, decode⟩ := not_or.mp composite
    have primitive := expansionOf_of_primitive encode decode
    obtain free | running | composite' := unspoiled
    · exact sink_eq_of_exec_of_free notWritten ran free
    · obtain rfl | ⟨-, ok⟩ := exec_not_fault_cases primitive ran running
      · rfl
      · have own : writesTo i ≠ some q := notWritten i (by simp [primitive])
        exact (keeps_bodyOf (P := (·.sink q = s.sink q)) fun _ _ hu hs => (hu.sink_eq own).trans hs).ok rfl ok
    · exact absurd composite' composite

/-- Settles O60: an update of a sink is one of a command that writes it, and the raising of an error spoils held sinks
alone; a composite holds none at its beginning. -/
theorem otherSinksAreUntouched : Obligations.OtherSinksAreUntouched := by
  unfold Obligations.OtherSinksAreUntouched
  intro s t i ran
  refine ⟨fun persist encode unspoiled => sink_eq_of_exec (q := .fsink) ?fsink ran ?_,
    fun wrhdr emit flush encode unspoiled => sink_eq_of_exec (q := .esink) ?esink ran ?_,
    fun walk decode unspoiled => sink_eq_of_exec (q := .osink) ?osink ran ?_⟩
  case fsink =>
    revert persist encode
    cases i <;> decide
  case esink =>
    revert wrhdr emit flush encode
    cases i <;> decide
  case osink =>
    revert walk decode
    cases i <;> decide
  · exact unspoiled.imp_right (Or.imp_right .inr)
  · exact unspoiled.imp_right (Or.imp_right .inr)
  · exact unspoiled.imp_right (Or.imp_right .inl)

end Sys2Proof.Machine
end

section
/-!
PROOFS. Phases and errors after a command (spec/40_control.md R81, R86, spec/60_exceptions.md R181,
spec/70_reset_and_hazards.md R206).
-/

namespace Sys2Proof.Machine

variable {i : Instr} {s t : State}

/-! ### The phase within a session -/

theorem Phase.code_le_fault (p : Phase) : p.code ≤ Phase.code .fault := by
  cases p <;> decide

/-- No row of R81 but that of `CLEAR` leads to an earlier phase. -/
theorem code_le_phaseAfter {p : Phase} {m : Mode} {n : Nat} (clear : i ≠ .clear) (encode : i ≠ .encode)
    (decode : i ≠ .decode) (hl : legalWhen i p m n) : p.code ≤ (phaseAfter i p).code := by
  cases i with
  | nop => exact BitVec.le_refl _
  | clear | encode | decode => contradiction
  | scan | load | flush =>
    obtain rfl : p = _ := hl
    decide
  | persist | derive | emit | walk =>
    obtain ⟨rfl, -⟩ := hl
    decide
  | build => obtain ⟨rfl, -⟩ | ⟨rfl, -⟩ := hl <;> decide
  | wrhdr | rdhdr => obtain ⟨-, rfl | ⟨rfl, -⟩⟩ := hl <;> decide

/-- Settles O55: a command that does not end in `FAULT` was ignored or enters the phase of its row. -/
theorem phaseNeverDecreases : Obligations.PhaseNeverDecreases := by
  unfold Obligations.PhaseNeverDecreases
  intro s t i clear encode decode ran
  by_cases fault : t.phase = .fault
  · exact fault ▸ s.phase.code_le_fault
  · have primitive := expansionOf_of_primitive encode decode
    obtain rfl | ⟨isLegal, ok⟩ := exec_not_fault_cases primitive ran fault
    · exact BitVec.le_refl _
    · rw [phase_of_bodyOf_ok primitive ok]
      exact code_le_phaseAfter clear encode decode ((legal_iff_legalWhen s i).mp isLegal)

/-! ### The end of a session -/

theorem phaseAfter_ne_fault (ignored : runsInFault i = false) (p : Phase) : phaseAfter i p ≠ .fault := by
  revert ignored
  cases i <;> simp [runsInFault, phaseAfter]

/-- There is an error exactly in `FAULT`, `ERR_CMD` is 0 where there is none, and no port is held in `FAULT` and
`DONE`. -/
structure State.Settled (s : State) : Prop where
  error : s.err.isSome = (s.phase == .fault)
  quiet : s.err = none → s.errCmd = 0
  free  : s.phase = .fault ∨ s.phase = .done → s.portHeld = 0

theorem State.cleared_settled (s : State) : s.cleared.Settled := ⟨rfl, fun _ => rfl, fun _ => rfl⟩

theorem State.raiseError_settled (s : State) (e : ErrorKind) (cmd : Byte) : (s.raiseError e cmd).Settled :=
  ⟨rfl, nofun, fun _ => rfl⟩

theorem Update.err_eq (h : Update i s t) (clear : i ≠ .clear) : (t.err, t.errCmd) = (s.err, s.errCmd) := by
  cases h with
  | write h => cases h <;> simp at *
  | _ => simp

/-- A procedure that ends in phase `DONE` released every port. -/
theorem portHeld_of_flushBody_ok : ResultsIn (·.portHeld = 0) flushBody :=
  .bind fun _ => .bind fun _ => .ite (.set rfl) (.throw _)

theorem portHeld_of_walkBody_ok : ResultsIn (·.portHeld = 0) walkBody :=
  .bind fun _ => .ite (.throw _) (.bind fun _ => .bind fun _ => .bind fun _ => .bind fun _ =>
    .ite (.throw _) (.set rfl))

theorem exec_keeps_settled (hi : expansionOf i = [i]) : KeepsNext State.Settled (exec i) := by
  intro s t settled ran
  rw [exec_eq_runCommand hi] at ran
  obtain ⟨-, -, rfl⟩ | ⟨-, rfl⟩ | ⟨isLegal, ok⟩ | ⟨-, e, u, -, rfl⟩ := runCommand_next_cases ran
  · exact settled
  · exact s.raiseError_settled _ _
  · have phase := phase_of_bodyOf_ok hi ok
    by_cases special : i = .clear ∨ i = .nop
    · obtain rfl | rfl := special
      · obtain rfl : s.cleared = t := by simpa [bodyOf] using ok
        exact s.cleared_settled
      · obtain rfl : s = t := by simpa [bodyOf] using ok
        exact settled
    · obtain ⟨clear, nop⟩ := not_or.mp special
      have same : (t.err, t.errCmd) = (s.err, s.errCmd) :=
        (keeps_bodyOf (P := fun t => (t.err, t.errCmd) = (s.err, s.errCmd)) fun _ _ hu hs =>
          (hu.err_eq clear).trans hs).ok rfl ok
      obtain ⟨err, errCmd⟩ := Prod.mk.inj same
      have ignored : runsInFault i = false := by
        revert hi clear nop
        cases i <;> decide
      have before : s.phase ≠ .fault :=
        phase_ne_fault_of_legalWhen ignored ((legal_iff_legalWhen s i).mp isLegal)
      have after : t.phase ≠ .fault := by
        rw [phase]
        exact phaseAfter_ne_fault ignored s.phase
      refine ⟨?_, ?_, ?_⟩
      · rw [err, settled.error]
        simp [before, after]
      · rw [err, errCmd]
        exact settled.quiet
      · rintro (fault | done)
        · exact absurd fault after
        · cases i with
          | flush => exact portHeld_of_flushBody_ok s () t ok
          | walk => exact portHeld_of_walkBody_ok s () t ok
          | nop | clear => contradiction
          | encode | decode => exact nomatch hi
          | _ => exact nomatch phase.symm.trans done
  · exact u.raiseError_settled _ _

/-- Settles O54: a composite runs from the cleared state through commands that keep the error and the ports settled,
and it ends in `DONE` or `FAULT`. -/
theorem compositesEndTheSession : Obligations.CompositesEndTheSession := by
  unfold Obligations.CompositesEndTheSession
  intro s t i composite ran
  have ends : t.phase = .done ∨ t.phase = .fault := by
    obtain rfl | rfl := composite
    · exact (encode_reaches s t ran).imp (·.1) (·.1)
    · exact (decode_reaches s t ran).imp (·.1) (·.1)
  rw [← exec_composite_cleared composite] at ran
  have settled : t.Settled :=
    exec_keepsNext_of_steps (fun j _ hj => exec_keeps_settled hj) s.cleared t s.cleared_settled ran
  exact ⟨ends, settled.free ends.symm, settled.error⟩

end Sys2Proof.Machine
end

section
/-!
PROOFS. Which step of a command ends in `FAULT`, and with which error (spec/60_exceptions.md R181).
-/

namespace Sys2Proof.Machine

variable {i : Instr} {s t : State}

/-- A next state in `FAULT` is one that a step from these answered outside `FAULT`. -/
def FaultsBy (js : List Instr) (r : Answer) : Prop :=
  ∀ t, r = .next t → t.phase = .fault →
    ∃ j ∈ js, expansionOf j = [j] ∧ ∃ u, u.phase ≠ .fault ∧ exec j u = .next t

theorem FaultsBy.step {js : List Instr} {j : Instr} (mem : j ∈ js) (hj : expansionOf j = [j]) {u : State}
    (running : u.phase ≠ .fault) : FaultsBy js (exec j u) :=
  fun _ ran _ => ⟨j, mem, hj, u, running, ran⟩

theorem FaultsBy.stay {js : List Instr} {u : State} (running : u.phase ≠ .fault) : FaultsBy js (.next u) := by
  rintro t ⟨⟩ fault
  exact absurd fault running

theorem FaultsBy.andThen {js : List Instr} {r : Answer} {f : State → Answer} (hr : FaultsBy js r)
    (hf : ∀ u, u.phase ≠ .fault → FaultsBy js (f u)) : FaultsBy js (andThen r f) := by
  intro t ran fault
  obtain ⟨u, hu, ⟨-, rfl⟩ | ⟨running, hfu⟩⟩ := andThen_next_iff.mp ran
  · exact hr t hu fault
  · exact hf u running t hfu fault

/-- A relation between the state before and the answer holds of a command if it holds of its steps outside `FAULT`
and passes through the sequencing of a composite (R85). -/
theorem exec_by_steps {R : State → Answer → Prop} (cleared : ∀ s, R s (.next s.cleared))
    (stay : ∀ s, s.phase ≠ .fault → R s (.next s))
    (andThen : ∀ s r f, R s r → (∀ u, u.phase ≠ .fault → R u (f u)) → R s (Machine.andThen r f))
    (step : ∀ j ∈ expansionOf i, expansionOf j = [j] → ∀ u, u.phase ≠ .fault → R u (exec j u))
    (hs : s.phase ≠ .fault ∨ i = .encode ∨ i = .decode) : R s (exec i s) := by
  by_cases composite : i = .encode ∨ i = .decode
  · obtain rfl | rfl := composite
    · simp only [exec_encode_eq, exec_clear]
      refine andThen _ _ _ (andThen _ _ _ (andThen _ _ _ (andThen _ _ _ (andThen _ _ _ (andThen _ _ _
        (cleared s) ?_) ?_) ?tree) ?_) ?_) ?_
      case tree =>
        intro u running
        rw [buildAndDerive]
        split
        · exact andThen _ _ _ (step .build (by decide) rfl u running) (step .derive (by decide) rfl)
        · exact stay u running
      all_goals exact step _ (by decide) rfl
    · simp only [exec_decode_eq, exec_clear]
      refine andThen _ _ _ (andThen _ _ _ (andThen _ _ _ (andThen _ _ _ (cleared s) ?_) ?tree) ?_) ?_
      case tree =>
        intro u running
        rw [buildIfAny]
        split
        · exact step .build (by decide) rfl u running
        · exact stay u running
      all_goals exact step _ (by decide) rfl
  · obtain ⟨encode, decode⟩ := not_or.mp composite
    have primitive := expansionOf_of_primitive encode decode
    exact step i (by simp [primitive]) primitive s (hs.resolve_right composite)

/-- A command faults by one of its steps. -/
theorem exec_faultsBy (hs : s.phase ≠ .fault ∨ i = .encode ∨ i = .decode) : FaultsBy (expansionOf i) (exec i s) :=
  exec_by_steps (R := fun _ => FaultsBy (expansionOf i)) (fun _ => .stay nofun) (fun _ => .stay)
    (fun _ _ _ => .andThen) (fun _ mem hj _ => .step mem hj) hs

/-- A primitive command that faults was not legal, or raised an error of its row. -/
theorem exec_fault_cases (hi : expansionOf i = [i]) (running : s.phase ≠ .fault) (ran : exec i s = .next t)
    (fault : t.phase = .fault) :
    (legal s i = false ∧ t = s.raiseError .illegalCommand (opcode i)) ∨
      (legal s i = true ∧ ∃ e u, bodyOf i s = .error (.raised e) u ∧ mayRaise i e = true ∧
        t = u.raiseError e (opcode i)) := by
  rw [exec_eq_runCommand hi] at ran
  obtain ⟨hp, -, -⟩ | illegal | ⟨isLegal, ok⟩ | ⟨isLegal, e, u, raised, rfl⟩ := runCommand_next_cases ran
  · exact absurd hp running
  · exact .inl illegal
  · have reaches := phase_of_bodyOf_ok hi ok
    by_cases special : i = .nop
    · subst special
      exact absurd (reaches.symm.trans fault) running
    · have row : phaseAfter i s.phase ≠ .fault := by
        revert hi special
        cases i <;> simp [phaseAfter, expansionOf]
      exact absurd (reaches.symm.trans fault) row
  · exact .inr ⟨isLegal, e, u, raised, raisesOnly_bodyOf i s e u raised, rfl⟩

/-- Settles O12: the step that faults was not legal or raised an error of its row, and the steps of a composite are
legal. -/
theorem onlyTheListedErrorsAreRaised : Obligations.OnlyTheListedErrorsAreRaised := by
  unfold Obligations.OnlyTheListedErrorsAreRaised
  intro s t i hs ran fault
  by_cases composite : i = .encode ∨ i = .decode
  · have notIllegal : t.failed := by
      obtain rfl | rfl := composite
      · exact (encode_reaches s t ran).resolve_left fun h => nomatch h.1.symm.trans fault
      · exact (decode_reaches s t ran).resolve_left fun h => nomatch h.1.symm.trans fault
    obtain ⟨j, mem, hj, u, running, stepped⟩ := exec_faultsBy hs t ran fault
    obtain ⟨-, rfl⟩ | ⟨-, e, v, -, listed, rfl⟩ := exec_fault_cases hj running stepped fault
    · obtain ⟨-, e, same, ne⟩ := notIllegal
      exact absurd (Option.some.inj same).symm ne
    · exact ⟨e, rfl, rfl, .inr ⟨j, mem, rfl, listed⟩⟩
  · obtain ⟨encode, decode⟩ := not_or.mp composite
    have primitive := expansionOf_of_primitive encode decode
    obtain ⟨illegal, rfl⟩ | ⟨-, e, u, -, listed, rfl⟩ :=
      exec_fault_cases primitive (hs.resolve_right composite) ran fault
    · refine ⟨.illegalCommand, rfl, rfl, .inl ⟨rfl, ?_, rfl⟩⟩
      rw [← legal_iff_legalWhen, illegal]
      exact Bool.false_ne_true
    · exact ⟨e, rfl, rfl, .inr ⟨i, by simp [primitive], rfl, listed⟩⟩

end Sys2Proof.Machine
end

section
/-!
PROOFS. The environment's answers that a command uses (spec/20_memory.md R42 to R47).
-/

namespace Sys2Proof.Machine

variable {α : Type} {i : Instr} {s t u : State} {used used' : Nat → List Bool}

/-- `t` is left with the answers that `s` had, without those used. -/
def Uses (s : State) (used : Nat → List Bool) (t : State) : Prop := ∀ p, s.failsOf p = used p ++ t.failsOf p

/-- No used answer is a failure. -/
def Clean (used : Nat → List Bool) : Prop := ∀ p, neverFails (used p)

/-- Of the used answers of each port none but the last is a failure, and one is. -/
def EndsInFailure (used : Nat → List Bool) : Prop := (∀ p, neverFails (used p).dropLast) ∧ ∃ p, true ∈ used p

theorem Uses.refl (s : State) : Uses s (fun _ => []) s := fun _ => rfl

theorem Uses.of_failsOf_eq (h : t.failsOf = s.failsOf) : Uses s (fun _ => []) t := fun p => congrFun h.symm p

theorem Uses.trans (first : Uses s used t) (rest : Uses t used' u) : Uses s (fun p => used p ++ used' p) u := by
  intro p
  rw [first p, rest p, List.append_assoc]

theorem Clean.nil : Clean fun _ => [] := fun _ => nofun

theorem Clean.append (first : Clean used) (rest : Clean used') : Clean fun p => used p ++ used' p := by
  intro p b hb
  exact (List.mem_append.mp hb).elim (first p b) (rest p b)

theorem Clean.append_endsInFailure (first : Clean used) (rest : EndsInFailure used') :
    EndsInFailure fun p => used p ++ used' p := by
  obtain ⟨last, p, failure⟩ := rest
  refine ⟨fun p b hb => ?_, p, List.mem_append_right _ failure⟩
  by_cases none : used' p = []
  · exact first p b (List.mem_of_mem_dropLast (by simpa [none] using hb))
  · rw [List.dropLast_append_of_ne_nil none] at hb
    exact (List.mem_append.mp hb).elim (first p b) (last p b)

theorem Clean.dropLast (h : Clean used) (p : Nat) : neverFails (used p).dropLast :=
  fun b hb => h p b (List.mem_of_mem_dropLast hb)

/-- The answers that a procedure uses: a failure is the last one, and it ends the procedure in `IoError`, which
nothing else does. -/
def UsesAnswers (s : State) : EStateM.Result Stop State α → Prop
  | .ok _ t => ∃ used, Uses s used t ∧ Clean used
  | .error (.raised .ioError) t => ∃ used, Uses s used t ∧ EndsInFailure used
  | .error _ t => ∃ used, Uses s used t ∧ Clean used

/-! ### One access -/

/-- The one answer that an access to a port uses, if there is one left. -/
def firstAnswer (fails : List Bool) (n : Nat) : Nat → List Bool := fun p => if p = n then fails.take 1 else []

theorem uses_firstAnswer_setSource (s : State) (p : SourcePort) (st : Source)
    (h : st.fails = (s.source p).fails.tail) : Uses s (firstAnswer (s.source p).fails p.num) (s.setSource p st) := by
  intro n
  rw [failsOf_setSource, firstAnswer]
  split
  · next same =>
    have port : s.failsOf n = (s.source p).fails := by subst same; cases p <;> rfl
    rw [port, h, ← List.drop_one, List.take_append_drop]
  · rfl

theorem uses_firstAnswer_setSink (s : State) (q : SinkPort) (st : Sink)
    (h : st.fails = (s.sink q).fails.tail) : Uses s (firstAnswer (s.sink q).fails q.num) (s.setSink q st) := by
  intro n
  rw [failsOf_setSink, firstAnswer]
  split
  · next same =>
    have port : s.failsOf n = (s.sink q).fails := by subst same; cases q <;> rfl
    rw [port, h, ← List.drop_one, List.take_append_drop]
  · rfl

theorem clean_firstAnswer {fails : List Bool} (go : failsNext fails = false) (n : Nat) :
    Clean (firstAnswer fails n) := by
  intro p
  rw [firstAnswer]
  split
  · cases fails with
    | nil => simp
    | cons b bs => simpa [failsNext] using go
  · simp

theorem endsInFailure_firstAnswer {fails : List Bool} (fail : failsNext fails = true) (n : Nat) :
    EndsInFailure (firstAnswer fails n) := by
  have first : fails.take 1 = [true] := by
    cases fails with
    | nil => exact nomatch fail
    | cons b bs => simpa [failsNext] using fail
  refine ⟨fun p => ?_, n, by simp [firstAnswer, first]⟩
  rw [firstAnswer]
  split <;> simp [first]

theorem Writes.failsOf_eq (h : Writes i s t) : t.failsOf = s.failsOf := by
  have source := h.source_eq
  have sink := h.sink_eq
  exact failsOf_congr (source .src) (congrArg _ (sink .fsink)) (congrArg _ (sink .esink)) (source .fsrc)
    (source .esrc) (congrArg _ (sink .osink))

/-- A procedure made of a command's operations uses the answers one after another, up to the first failure. -/
theorem MadeOf.usesAnswers {x : Proc α} (hx : MadeOf i x) (s : State) : UsesAnswers s (x s) := by
  induction hx generalizing s with
  | pure a => exact ⟨_, .refl s, .nil⟩
  | raise e listed notIo =>
    cases e with
    | ioError => exact absurd rfl notIo
    | _ => exact ⟨_, .refl s, .nil⟩
  | stuck f => exact ⟨_, .refl s, .nil⟩
  | @bind _ _ x f _ _ ihx ihf =>
    rw [Proc.bind_run]
    have first := ihx s
    cases hr : x s with
    | error e t =>
      rw [hr] at first
      rcases e with (_ | _ | _ | _ | _ | _) | _ <;> exact first
    | ok a t =>
      rw [hr] at first
      obtain ⟨used, uses, clean⟩ := first
      have rest := ihf a t
      dsimp only
      revert rest
      cases f a t with
      | ok b v => exact fun ⟨used', uses', clean'⟩ => ⟨_, uses.trans uses', clean.append clean'⟩
      | error e v =>
        cases e with
        | stuck f => exact fun ⟨used', uses', clean'⟩ => ⟨_, uses.trans uses', clean.append clean'⟩
        | raised e =>
          cases e with
          | ioError => exact fun ⟨used', uses', fails⟩ => ⟨_, uses.trans uses', clean.append_endsInFailure fails⟩
          | _ => exact fun ⟨used', uses', clean'⟩ => ⟨_, uses.trans uses', clean.append clean'⟩
  | modify f writes => exact ⟨_, .of_failsOf_eq (writes s).failsOf_eq, .nil⟩
  | locally y _ same _ ih =>
    rw [same s]
    exact ih s s
  | @openSource p h =>
    cases hf : failsNext (s.source p).fails with
    | true =>
      rw [openSource_of_fail hf]
      exact ⟨_, uses_firstAnswer_setSource s p _ rfl, endsInFailure_firstAnswer hf _⟩
    | false =>
      rw [openSource_of_go hf]
      exact ⟨_, uses_firstAnswer_setSource s p { s.source p with pos := 0, fails := (s.source p).fails.tail } rfl,
        clean_firstAnswer hf _⟩
  | @getByte p h =>
    cases hg : Machine.getByte p s with
    | ok r t =>
      obtain ⟨-, hf, -, rfl⟩ := getByte_ok_inv hg
      exact ⟨_, uses_firstAnswer_setSource s p _ rfl, clean_firstAnswer hf _⟩
    | error e t =>
      obtain ⟨-, rfl, rfl⟩ | ⟨-, hf, rfl, rfl⟩ := getByte_error_inv hg
      · exact ⟨_, .refl _, .nil⟩
      · exact ⟨_, uses_firstAnswer_setSource s p _ rfl, endsInFailure_firstAnswer hf _⟩
  | @openSink q h =>
    cases hf : failsNext (s.sink q).fails with
    | true =>
      rw [openSink_of_fail hf]
      exact ⟨_, uses_firstAnswer_setSink s q _ rfl, endsInFailure_firstAnswer hf _⟩
    | false =>
      rw [openSink_of_go hf]
      exact ⟨_, uses_firstAnswer_setSink s q ⟨[], (s.sink q).fails.tail⟩ rfl, clean_firstAnswer hf _⟩
  | @putByte q b h =>
    cases hg : Machine.putByte q b s with
    | ok r t =>
      obtain ⟨-, hf, rfl⟩ := putByte_ok_inv hg
      exact ⟨_, uses_firstAnswer_setSink s q _ rfl, clean_firstAnswer hf _⟩
    | error e t =>
      obtain ⟨-, rfl, rfl⟩ | ⟨-, hf, rfl, rfl⟩ := putByte_error_inv hg
      · exact ⟨_, .refl _, .nil⟩
      · exact ⟨_, uses_firstAnswer_setSink s q _ rfl, endsInFailure_firstAnswer hf _⟩

/-! ### Commands -/

/-- The command, or one of its steps, ended in `FAULT` with `IoError`, which it raises, and with no port held. -/
def State.IoFault (js : List Instr) (t : State) : Prop :=
  t.phase = .fault ∧ t.err = some .ioError ∧ t.portHeld = 0 ∧
    ∃ j ∈ js, t.errCmd = opcode j ∧ mayRaise j .ioError = true

/-- The answers that are used up to a next state: with no failure, and the state is not one of an `IoError`, or with a
failure as the last one, and it is. -/
def AnswerUses (js : List Instr) (s : State) (r : Answer) : Prop :=
  ∀ t, r = .next t → ∃ used, Uses s used t ∧
    (Clean used ∧ ¬ (t.phase = .fault ∧ t.err = some .ioError) ∨ EndsInFailure used ∧ t.IoFault js)

theorem AnswerUses.stay {js : List Instr} (running : s.phase ≠ .fault) : AnswerUses js s (.next s) := by
  rintro t ⟨⟩
  exact ⟨_, .refl s, .inl ⟨.nil, fun h => running h.1⟩⟩

theorem AnswerUses.andThen {js : List Instr} {r : Answer} {f : State → Answer} (hr : AnswerUses js s r)
    (hf : ∀ u, u.phase ≠ .fault → AnswerUses js u (f u)) : AnswerUses js s (Machine.andThen r f) := by
  intro t ran
  obtain ⟨u, hu, ⟨-, rfl⟩ | ⟨running, hfu⟩⟩ := andThen_next_iff.mp ran
  · exact hr t hu
  · obtain ⟨used, uses, ⟨clean, -⟩ | ⟨-, fault, -⟩⟩ := hr u hu
    · obtain ⟨used', uses', rest⟩ := hf u running t hfu
      exact ⟨_, uses.trans uses', rest.imp (.imp_left clean.append) (.imp_left clean.append_endsInFailure)⟩
    · exact absurd fault running

theorem exec_answerUses_step {js : List Instr} (mem : i ∈ js) (hi : expansionOf i = [i]) (running : s.phase ≠ .fault) :
    AnswerUses js s (exec i s) := by
  intro t ran
  have answers := (madeOf_bodyOf i).usesAnswers s
  by_cases fault : t.phase = .fault
  · obtain ⟨-, rfl⟩ | ⟨-, e, u, raised, listed, rfl⟩ := exec_fault_cases hi running ran fault
    · exact ⟨_, .of_failsOf_eq (failsOf_raiseError ..), .inl ⟨.nil, by simp⟩⟩
    · rw [raised] at answers
      have same := Uses.of_failsOf_eq (failsOf_raiseError u e (opcode i))
      cases e with
      | ioError =>
        obtain ⟨used, uses, fails⟩ := answers
        exact ⟨used, fun p => by rw [failsOf_raiseError]; exact uses p,
          .inr ⟨fails, rfl, rfl, rfl, i, mem, rfl, listed⟩⟩
      | _ =>
        obtain ⟨used, uses, clean⟩ := answers
        exact ⟨used, fun p => by rw [failsOf_raiseError]; exact uses p, .inl ⟨clean, by simp⟩⟩
  · obtain rfl | ⟨-, ok⟩ := exec_not_fault_cases hi ran fault
    · exact AnswerUses.stay running t rfl
    · rw [ok] at answers
      obtain ⟨used, uses, clean⟩ := answers
      exact ⟨used, uses, .inl ⟨clean, fun h => fault h.1⟩⟩

theorem AnswerUses.cleared {js : List Instr} (s : State) : AnswerUses js s (.next s.cleared) := by
  rintro t ⟨⟩
  exact ⟨_, .of_failsOf_eq (failsOf_cleared s), .inl ⟨.nil, fun h => nomatch h.1⟩⟩

theorem exec_answerUses (hs : s.phase ≠ .fault ∨ i = .encode ∨ i = .decode) :
    AnswerUses (expansionOf i) s (exec i s) :=
  exec_by_steps .cleared (fun _ => .stay) (fun _ _ _ => .andThen) (fun _ mem hj _ => exec_answerUses_step mem hj) hs

/-- Outside `FAULT`, or for a composite, the answers are used as R47 says; in `FAULT` the other commands use none. -/
theorem exec_usedAnswers (ran : exec i s = .next t) : ∃ used, Uses s used t ∧
    (Clean used ∧ ((s.phase ≠ .fault ∨ i = .encode ∨ i = .decode) → ¬ (t.phase = .fault ∧ t.err = some .ioError)) ∨
      EndsInFailure used ∧ t.IoFault (expansionOf i)) := by
  by_cases hs : s.phase ≠ .fault ∨ i = .encode ∨ i = .decode
  · obtain ⟨used, uses, rest⟩ := exec_answerUses hs t ran
    exact ⟨used, uses, rest.imp_left fun ⟨clean, noIo⟩ => ⟨clean, fun _ => noIo⟩⟩
  · obtain ⟨fault, composite⟩ := not_or.mp hs
    have same : t.failsOf = s.failsOf := by
      cases i with
      | clear =>
        obtain rfl : s.cleared = t := by simpa using ran
        exact failsOf_cleared s
      | nop =>
        obtain rfl : s = t := by simpa using ran
        rfl
      | encode | decode => simp at composite
      | _ =>
        rw [exec_of_ignored (not_not.mp fault) rfl] at ran
        obtain rfl : s = t := by simpa using ran
        rfl
    exact ⟨_, .of_failsOf_eq same, .inl ⟨.nil, fun h => absurd h hs⟩⟩

/-! ### The first access of each command -/

/-- A legal command whose procedure stops at a failing access ends in `FAULT` with `IoError` and its own opcode. -/
theorem exec_ioError (hi : runsInFault i = false) (hl : legalWhen i s.phase s.mode s.nsyms.toNat)
    (failed : ∃ u, bodyOf i s = .error (.raised .ioError) u) :
    ∃ t, exec i s = .next t ∧ t.phase = .fault ∧ t.err = some .ioError ∧ t.errCmd = opcode i ∧ t.portHeld = 0 := by
  obtain ⟨u, failed⟩ := failed
  refine ⟨u.raiseError .ioError (opcode i), ?_, rfl, rfl, rfl, rfl⟩
  rw [exec_eq_runCommand (expansionOf_of_ignored hi)]
  exact runCommand_of_raised (phase_ne_fault_of_legalWhen hi hl) ((legal_iff_legalWhen s i).mpr hl) failed

/-- R42 and R43 for a source port. -/
theorem source_access_rules (s : State) (p : SourcePort) :
    let st := s.source p
    let failed : State := s.setSource p { st with fails := st.fails.tail }
    (failsNext st.fails = true → openSource p s = .error (.raised .ioError) failed) ∧
    (failsNext st.fails = false → ∃ t, openSource p s = .ok () t ∧ (∀ n, t.held n = (n == p.num || s.held n)) ∧
      t = State.setSource { s with portHeld := t.portHeld } p { st with pos := 0, fails := st.fails.tail }) ∧
    (s.held p.num = true →
      (failsNext st.fails = true → getByte p s = .error (.raised .ioError) failed) ∧
      (failsNext st.fails = false →
        (∀ h : st.pos < st.data.length, getByte p s =
          .ok (some st.data[st.pos]) (s.setSource p { st with pos := st.pos + 1, fails := st.fails.tail })) ∧
        (st.data.length ≤ st.pos → getByte p s = .ok none (s.setSource p { st with fails := st.fails.tail })))) := by
  refine ⟨openSource_of_fail, fun go => ⟨_, openSource_of_go go, fun n => ?held, ?frame⟩, fun hh =>
    ⟨getByte_of_fail hh, fun go => ⟨fun h => getByte_of_byte hh go (List.getElem?_eq_getElem h), getByte_of_end hh go⟩⟩⟩
  case held =>
    by_cases own : n = p.num
    · subst own
      simp
    · rw [held_hold_ne _ own]
      simp [own]
  case frame => cases p <;> rfl

/-- R42 and R44 for a sink port. -/
theorem sink_access_rules (s : State) (q : SinkPort) (b : Byte) :
    let st := s.sink q
    let failed : State := s.setSink q { st with fails := st.fails.tail }
    (failsNext st.fails = true → openSink q s = .error (.raised .ioError) failed) ∧
    (failsNext st.fails = false → ∃ t, openSink q s = .ok () t ∧ (∀ n, t.held n = (n == q.num || s.held n)) ∧
      t = State.setSink { s with portHeld := t.portHeld } q ⟨[], st.fails.tail⟩) ∧
    (s.held q.num = true →
      (failsNext st.fails = true → putByte q b s = .error (.raised .ioError) failed) ∧
      (failsNext st.fails = false → putByte q b s = .ok () (s.setSink q ⟨st.data ++ [b], st.fails.tail⟩))) := by
  refine ⟨openSink_of_fail, fun go => ⟨_, openSink_of_go go, fun n => ?held, ?frame⟩, fun hh =>
    ⟨putByte_of_fail hh, putByte_of_go hh⟩⟩
  case held =>
    by_cases own : n = q.num
    · subst own
      simp
    · rw [held_hold_ne _ own]
      simp [own]
  case frame => cases q <;> rfl

/-- A procedure that opens its port after one write stops where that access fails. -/
theorem walkBody_of_openFails (tree : s.hdrBits = 0 ∨ s.treeValid = true) (fail : failsNext s.osink.fails = true) :
    walkBody s = .error (.raised .ioError) (s.setSink .osink { s.osink with fails := s.osink.fails.tail }) := by
  have walks : ¬ (0 < s.hdrBits ∧ s.treeValid = false) := by
    rintro ⟨announced, noTree⟩
    obtain noBits | valid := tree
    · simp [noBits] at announced
    · simp [valid] at noTree
  rw [walkBody, Proc.get_bind_run, if_neg walks, Proc.bind_of_error (openSink_of_fail (q := .osink) fail)]
  rfl

theorem flushBody_of_putFails (held : s.held 2 = true) (pending : s.bwN ≠ 0) (fail : failsNext s.esink.fails = true) :
    flushBody s = .error (.raised .ioError) (s.setSink .esink { s.esink with fails := s.esink.fails.tail }) := by
  refine Proc.bind_of_error (x := flushBits) ?_
  rw [flushBits, Proc.get_bind_run, if_neg pending, putAcc, Proc.get_bind_run]
  exact Proc.bind_of_error (putByte_of_fail (q := .esink) held fail)

/-- Settles O11: the rules of one access; each command's procedure begins with one; and a procedure made of accesses
and of writes that do not look at the answers uses them up to the first failure. -/
theorem failedAccessEndsInIoError : Obligations.FailedAccessEndsInIoError := by
  unfold Obligations.FailedAccessEndsInIoError
  refine ⟨source_access_rules, sink_access_rules, fun s => ?first, fun s t i ran => ?all⟩
  case first =>
    refine ⟨fun hl fail => exec_ioError rfl hl ?_, fun hl fail => exec_ioError rfl hl ?_,
      fun hl fail => exec_ioError rfl hl ?_, fun hl fail => exec_ioError rfl hl ?_,
      fun hl fail => exec_ioError rfl hl ?_,
      fun hl held pending fail => exec_ioError rfl hl ⟨_, flushBody_of_putFails held pending fail⟩,
      fun hl fail => exec_ioError rfl hl ?_, fun hl tree fail => exec_ioError rfl hl
        ⟨_, walkBody_of_openFails tree fail⟩⟩
    · exact ⟨_, (Proc.modify_bind_run _ _ s).trans <| Proc.bind_of_error <|
        openSource_of_fail (p := .src) (s := s.setMode .enc) fail⟩
    · exact ⟨_, Proc.bind_of_error (openSink_of_fail (q := .fsink) fail)⟩
    · exact ⟨_, (Proc.modify_bind_run _ _ s).trans <| Proc.bind_of_error <|
        openSource_of_fail (p := .fsrc) (s := s.setMode .dec) fail⟩
    · exact ⟨_, (Proc.modify_bind_run _ _ s).trans <| Proc.bind_of_error <|
        openSink_of_fail (q := .esink) (s := s.setHdr (BitVec.ofNat 64 s.payloadBits)) fail⟩
    · exact ⟨_, Proc.bind_of_error (openSource_of_fail (p := .src) fail)⟩
    · exact ⟨_, Proc.bind_of_error (openSource_of_fail (p := .esrc) fail)⟩
  case all =>
    obtain ⟨used, uses, ⟨clean, noIo⟩ | ⟨fails, fault⟩⟩ := exec_usedAnswers ran
    · refine ⟨used, fun p => ⟨uses p, clean.dropLast p⟩, fun ⟨p, failure⟩ => (nomatch clean p true failure), ?_⟩
      exact fun hs fault io => absurd ⟨fault, io⟩ (noIo hs)
    · exact ⟨used, fun p => ⟨uses p, fails.1 p⟩, fun _ => fault, fun _ _ _ => fails.2⟩

end Sys2Proof.Machine
end

section
/-!
PROOFS. Reading a source whose next bytes are known (spec/20_memory.md R42, R43), and held ports as bits of `PORT_HELD`.
-/

namespace Sys2Proof.Machine

variable {p : SourcePort} {b : Byte} {bytes : List Byte} {s : State}

/-- The state after `n` bytes of a source have been read, with no failing access. -/
def State.advance (p : SourcePort) (n : Nat) (s : State) : State :=
  s.setSource p { s.source p with pos := (s.source p).pos + n, fails := (s.source p).fails.drop n }

/-- The state after the end of a source has been seen, with no failing access. -/
def State.sawEnd (p : SourcePort) (s : State) : State :=
  s.setSource p { s.source p with fails := (s.source p).fails.tail }

/-- These bytes are what is left of a source from its cursor on; it is held, and no access to it fails. -/
structure State.Ahead (p : SourcePort) (bytes : List Byte) (s : State) : Prop where
  held : s.held p.num = true
  go   : neverFails (s.source p).fails
  left : (s.source p).data.drop (s.source p).pos = bytes

theorem State.Ahead.advance {front : List Byte} (h : s.Ahead p (front ++ bytes)) :
    (s.advance p front.length).Ahead p bytes where
  held := by simpa [State.advance] using h.held
  go := by simpa [State.advance] using neverFails_drop h.go _
  left := by simp [State.advance, ← List.drop_drop, h.left]

theorem State.Ahead.tail (h : s.Ahead p (b :: bytes)) : (s.advance p 1).Ahead p bytes :=
  State.Ahead.advance (front := [b]) h

theorem State.advance_advance (m n : Nat) : (s.advance p m).advance p n = s.advance p (m + n) := by
  simp [State.advance, Nat.add_assoc]

theorem State.advance_zero : s.advance p 0 = s := s.setSource_source p

theorem State.Ahead.getByte (h : s.Ahead p (b :: bytes)) : getByte p s = .ok (some b) (s.advance p 1) := by
  have byte : (s.source p).data[(s.source p).pos]? = some b := by
    rw [← List.head?_drop, h.left]
    rfl
  rw [getByte_of_byte h.held (failsNext_of_neverFails h.go) byte, State.advance, List.drop_one]

theorem State.Ahead.getByte_end (h : s.Ahead p []) : Machine.getByte p s = .ok none (s.sawEnd p) :=
  getByte_of_end h.held (failsNext_of_neverFails h.go) (List.drop_eq_nil_iff.mp h.left)

theorem State.Ahead.unread (h : s.Ahead p bytes) : (s.source p).unread = bytes.length := by
  rw [← h.left, List.length_drop, Source.unread]

/-- The state after `Open` of a source, with no failing access. -/
def State.opened (p : SourcePort) (s : State) : State :=
  (s.setSource p { s.source p with pos := 0, fails := (s.source p).fails.tail }).hold p.num

theorem openSource_of_neverFails (go : neverFails (s.source p).fails) : openSource p s = .ok () (s.opened p) :=
  openSource_of_go (failsNext_of_neverFails go)

theorem State.opened_ahead (go : neverFails (s.source p).fails) : (s.opened p).Ahead p (s.source p).data where
  held := held_hold_source _ p
  go := by simpa [State.opened] using neverFails_tail go
  left := by simp [State.opened]

/-- The state after `Open` of a sink, with no failing access. -/
def State.emptied (q : SinkPort) (s : State) : State :=
  (s.setSink q ⟨[], (s.sink q).fails.tail⟩).hold q.num

theorem openSink_of_neverFails {q : SinkPort} (go : neverFails (s.sink q).fails) :
    openSink q s = .ok () (s.emptied q) :=
  openSink_of_go (failsNext_of_neverFails go)

theorem forEachByte_cons (h : s.Ahead p (b :: bytes)) (f : Byte → Proc Unit) (n : Nat) :
    forEachByte p f (n + 1) s = (f b >>= fun _ => forEachByte p f n) (s.advance p 1) :=
  Proc.bind_of_ok h.getByte

theorem forEachByte_nil (h : s.Ahead p []) (f : Byte → Proc Unit) (n : Nat) :
    forEachByte p f n s = .ok () (s.sawEnd p) := by
  cases n with
  | zero => exact Proc.bind_of_ok h.getByte_end
  | succ n => exact Proc.bind_of_ok h.getByte_end

/-- To hold a port is to set its bit. -/
theorem setBit_true {w : Nat} (v : BitVec w) (i : Nat) : setBit v i true = v ||| BitVec.twoPow w i := by
  ext j hj
  rw [← BitVec.getLsbD_eq_getElem, ← BitVec.getLsbD_eq_getElem, setBit_getLsbD, BitVec.getLsbD_or,
    BitVec.getLsbD_twoPow]
  split
  · next same =>
    subst same
    simp [hj]
  · next ne => simp [Ne.symm ne]

end Sys2Proof.Machine
end

section
/-!
PROOFS. The frequency table's registers agree after each key that is counted or entered (spec/10_state.md R12 to R14).
-/

namespace Sys2Proof.Machine

variable {s t : State} {b : Symbol}

theorem presentSymbols_eq_filter (s : State) : s.presentSymbols = allSymbols.filter (atSym s.ftPres ·) := by
  rw [State.presentSymbols, ← map_atSym_allSymbols]
  generalize allSymbols = ids
  induction ids with
  | nil => rfl
  | cons b ids ih =>
    rw [List.map_cons, List.filter_cons, ← ih]
    cases h : atSym s.ftPres b <;> simp [setIndices]

theorem sum_map_ite_eq_count_mul {α : Type} [DecidableEq α] (l : List α) (b : α) (n : Nat) :
    (l.map fun a => if a = b then n else 0).sum = l.count b * n := by
  induction l with
  | nil => simp
  | cons a l ih =>
    rw [List.map_cons, List.sum_cons, ih, List.count_cons]
    by_cases h : a = b <;> simp [h, Nat.add_mul, Nat.add_comm]

/-- The sum of a function that is `n` greater at one element of a list without repetitions. -/
theorem sum_map_add_ite {α : Type} [DecidableEq α] {l : List α} (distinct : l.Nodup) {b : α} (mem : b ∈ l) (f : α → Nat)
    (n : Nat) : (l.map fun a => f a + if a = b then n else 0).sum = (l.map f).sum + n := by
  rw [List.sum_map_add, sum_map_ite_eq_count_mul, List.count_eq_one_of_mem distinct mem, Nat.one_mul]

/-- The sum over the symbols of a function that is `n` greater at one of them. -/
theorem sum_allSymbols_add_ite (f : Symbol → Nat) (b : Symbol) (n : Nat) :
    (allSymbols.map fun a => f a + if a = b then n else 0).sum = (allSymbols.map f).sum + n :=
  sum_map_add_ite allSymbols_nodup (mem_allSymbols b) f n

/-- The presence bits after a symbol has become present, and how many symbols are. -/
theorem length_presentSymbols_of_insert (h : ∀ a, atSym t.ftPres a = (atSym s.ftPres a || a == b))
    (absent : atSym s.ftPres b = false) : t.presentSymbols.length = s.presentSymbols.length + 1 := by
  have fresh : b ∉ s.presentSymbols := by simp [mem_presentSymbols, absent]
  have perm : t.presentSymbols.Perm (b :: s.presentSymbols) := by
    refine (List.perm_ext_iff_of_nodup (presentSymbols_nodup t)
      (List.nodup_cons.mpr ⟨fresh, presentSymbols_nodup s⟩)).mpr fun a => ?_
    simp [mem_presentSymbols, h, or_comm]
  rw [perm.length_eq, List.length_cons]

theorem length_presentSymbols_le (s : State) : s.presentSymbols.length ≤ 256 := by
  rw [presentSymbols_eq_filter]
  exact (List.length_filter_le _ _).trans_eq length_allSymbols

theorem presentSymbols_congr (h : t.ftPres = s.ftPres) : t.presentSymbols = s.presentSymbols := by
  rw [State.presentSymbols, h, State.presentSymbols]

theorem toNat_nsyms_add_one (ok : s.nsyms.toNat = s.presentSymbols.length) :
    (s.nsyms + 1).toNat = s.presentSymbols.length + 1 := by
  have bound := length_presentSymbols_le s
  rw [BitVec.toNat_add, ok]
  exact Nat.mod_eq_of_lt (by simp; omega)

/-- Counting a byte below capacity keeps the table's registers in agreement (R101). -/
theorem State.TableOk.countByte (ok : s.TableOk) (room : s.total < s.maxCnt) (b : Symbol) :
    (s.countByte b).TableOk where
  absent a h := by
    rw [s.atSym_countByte_ftPres] at h
    simp only [Bool.or_eq_false_iff, beq_eq_false_iff_ne] at h
    rw [s.atSym_countByte_ftCnt, ok.absent a h.1, if_neg h.2]
  nsyms := by
    rw [State.countByte_nsyms]
    split
    · next present =>
      rw [ok.nsyms]
      have same : ∀ a, atSym (s.countByte b).ftPres a = atSym s.ftPres a := by
        intro a
        rw [s.atSym_countByte_ftPres]
        by_cases h : a = b <;> simp [h, present]
      rw [presentSymbols_congr (vector_ext_atSym same)]
    · next absent =>
      rw [length_presentSymbols_of_insert (fun a => s.atSym_countByte_ftPres a b) (by simpa using absent)]
      exact toNat_nsyms_add_one ok.nsyms
  total := by
    rw [funext fun a => s.atSym_countByte_ftCnt a b, sum_allSymbols_add_ite, State.countByte_total]
    exact congrArg (· + 1) ok.total
  fits := by
    simpa using room

theorem State.atSym_enterKey_ftPres (s : State) (a b : Symbol) (n : Nat) :
    atSym (s.enterKey b n).ftPres a = (atSym s.ftPres a || a == b) := by
  rw [State.enterKey_ftPres, atSym_putSym]
  by_cases h : a = b <;> simp [h]

theorem State.atSym_enterKey_ftCnt (s : State) (a b : Symbol) (n : Nat) :
    atSym (s.enterKey b n).ftCnt a = if a = b then n else atSym s.ftCnt a := by
  rw [State.enterKey_ftCnt, atSym_putSym]

/-- Entering a new key within capacity keeps the table's registers in agreement (R105). -/
theorem State.TableOk.enterKey (ok : s.TableOk) (absent : atSym s.ftPres b = false) {n : Nat}
    (room : s.total + n ≤ s.maxCnt) : (s.enterKey b n).TableOk where
  absent a h := by
    rw [s.atSym_enterKey_ftPres] at h
    simp only [Bool.or_eq_false_iff, beq_eq_false_iff_ne] at h
    rw [s.atSym_enterKey_ftCnt, if_neg h.2, ok.absent a h.1]
  nsyms := by
    rw [length_presentSymbols_of_insert (fun a => s.atSym_enterKey_ftPres a b n) absent]
    exact toNat_nsyms_add_one ok.nsyms
  total := by
    have added : ∀ a, atSym (s.enterKey b n).ftCnt a = atSym s.ftCnt a + if a = b then n else 0 := by
      intro a
      rw [s.atSym_enterKey_ftCnt]
      by_cases h : a = b
      · simp [h, ok.absent b absent]
      · simp [h]
    rw [funext added, sum_allSymbols_add_ite, State.enterKey_total]
    exact congrArg (· + n) ok.total
  fits := by simpa using room

end Sys2Proof.Machine
end

section
/-!
PROOFS. `SCAN` of a source with no failing access (spec/42_freqtable.md R100, R101).
-/

namespace Sys2Proof.Machine

variable {s : State}

/-- The state after the next bytes of `SRC` have been read and counted. -/
def State.scanned (s : State) (bytes : List Byte) : State :=
  bytes.foldl (fun s b => (s.advance .src 1).countByte b) s

theorem State.scanned_cons (s : State) (b : Byte) (bytes : List Byte) :
    s.scanned (b :: bytes) = ((s.advance .src 1).countByte b).scanned bytes := rfl

/-- `SRC` and the table's four registers are all that scanning writes. -/
theorem State.scanned_frame (s : State) (bytes : List Byte) :
    s.scanned bytes = { s with
      ftPres := (s.scanned bytes).ftPres, ftCnt := (s.scanned bytes).ftCnt, nsyms := (s.scanned bytes).nsyms
      total := s.total + bytes.length
      src := { s.src with pos := s.src.pos + bytes.length, fails := (s.scanned bytes).src.fails } } := by
  induction bytes generalizing s with
  | nil => rfl
  | cons b bytes ih =>
    rw [State.scanned_cons]
    conv_lhs => rw [ih]
    simp [State.advance, State.setSource, State.countByte, Nat.add_assoc, Nat.add_comm 1]

theorem State.scanned_ftPres (s : State) (bytes : List Byte) (a : Symbol) :
    atSym (s.scanned bytes).ftPres a = (atSym s.ftPres a || bytes.contains a) := by
  induction bytes generalizing s with
  | nil => simp [State.scanned]
  | cons b bytes ih =>
    rw [State.scanned_cons, ih, State.atSym_countByte_ftPres, List.contains_cons, Bool.or_assoc]
    simp [State.advance]

theorem State.scanned_ftCnt (s : State) (bytes : List Byte) (a : Symbol) :
    atSym (s.scanned bytes).ftCnt a = atSym s.ftCnt a + bytes.count a := by
  induction bytes generalizing s with
  | nil => simp [State.scanned]
  | cons b bytes ih =>
    have advanced : (s.advance .src 1).ftCnt = s.ftCnt := rfl
    rw [State.scanned_cons, ih, State.atSym_countByte_ftCnt, advanced, List.count_cons, Nat.add_assoc,
      Nat.add_comm (bytes.count a)]
    simp only [beq_iff_eq, eq_comm (a := b) (b := a)]

theorem State.TableOk.scanned {bytes : List Byte} (ok : s.TableOk) (room : s.total + bytes.length ≤ s.maxCnt) :
    (s.scanned bytes).TableOk := by
  induction bytes generalizing s with
  | nil => exact ok
  | cons b bytes ih =>
    rw [List.length_cons] at room
    have advanced : (s.advance .src 1).TableOk := ⟨ok.absent, ok.nsyms, ok.total, ok.fits⟩
    refine ih (advanced.countByte (show s.total < s.maxCnt by omega) b) ?_
    change s.total + 1 + bytes.length ≤ s.maxCnt
    omega

/-- Below capacity the loop counts the bytes ahead one after another. -/
theorem scanLoop_of_room {bytes rest : List Byte} (ahead : s.Ahead .src (bytes ++ rest))
    (room : s.total + bytes.length ≤ s.maxCnt) (n : Nat) :
    forEachByte .src scanStep (bytes.length + n) s = forEachByte .src scanStep n (s.scanned bytes) ∧
      (s.scanned bytes).Ahead .src rest := by
  induction bytes generalizing s with
  | nil => exact ⟨by rw [List.length_nil, Nat.zero_add]; rfl, ahead⟩
  | cons b bytes ih =>
    rw [List.length_cons] at room
    have counted : scanStep b (s.advance .src 1) = .ok () ((s.advance .src 1).countByte b) :=
      scanStep_of_room (s := s.advance .src 1) (show s.total ≠ s.maxCnt by omega) b
    have tail : ((s.advance .src 1).countByte b).Ahead .src (bytes ++ rest) :=
      have h := State.Ahead.tail ahead
      ⟨h.held, h.go, h.left⟩
    obtain ⟨looped, left⟩ := ih tail (show s.total + 1 + bytes.length ≤ s.maxCnt by omega)
    refine ⟨?_, left⟩
    rw [List.length_cons, Nat.add_right_comm, forEachByte_cons ahead, Proc.bind_of_ok counted, looped,
      State.scanned_cons]

/-- The state in which `SCAN` begins its loop. -/
def State.atScan (s : State) : State := (s.setMode .enc).opened .src

theorem scanBody_of_go (go : neverFails s.src.fails) :
    scanBody s = (forEachByte .src scanStep s.src.data.length >>= fun _ => modify (·.enter .table)) s.atScan := by
  have unread := (State.opened_ahead (p := .src) (s := s.setMode .enc) go).unread
  rw [scanBody, Proc.modify_bind_run, Proc.bind_of_ok (openSource_of_neverFails (p := .src) (s := s.setMode .enc) go),
    Proc.get_bind_run]
  exact congrArg (fun n => (forEachByte .src scanStep n >>= fun _ => modify (·.enter .table)) s.atScan) unread

/-- A legal command that `FAULT` ignores, and so a primitive one, ends where its procedure ends. -/
theorem exec_of_ok {i : Instr} {t : State} (ignored : runsInFault i = false)
    (isLegal : legalWhen i s.phase s.mode s.nsyms.toNat) (ok : bodyOf i s = .ok () t) : exec i s = .next t := by
  rw [exec_eq_runCommand (expansionOf_of_ignored ignored)]
  exact runCommand_of_ok (phase_ne_fault_of_legalWhen ignored isLegal) ((legal_iff_legalWhen s i).mpr isLegal) ok

/-- A legal command that `FAULT` ignores raises what its procedure raises. -/
theorem exec_of_raised {i : Instr} {t : State} {e : ErrorKind} (ignored : runsInFault i = false)
    (isLegal : legalWhen i s.phase s.mode s.nsyms.toNat) (raised : bodyOf i s = .error (.raised e) t) :
    exec i s = .next (t.raiseError e (opcode i)) := by
  rw [exec_eq_runCommand (expansionOf_of_ignored ignored)]
  exact runCommand_of_raised (phase_ne_fault_of_legalWhen ignored isLegal)
    ((legal_iff_legalWhen s i).mpr isLegal) raised

theorem exec_scan_of_ok {t : State} (idle : s.phase = .idle) (ok : scanBody s = .ok () t) : exec .scan s = .next t :=
  exec_of_ok rfl idle ok

theorem exec_scan_of_raised {t : State} {e : ErrorKind} (idle : s.phase = .idle)
    (raised : scanBody s = .error (.raised e) t) : exec .scan s = .next (t.raiseError e 0x10) :=
  exec_of_raised rfl idle raised

theorem State.atReset.tableOk {s : State} (h : s.atReset) : s.TableOk := h ▸ s.cleared_tableOk

theorem State.atReset.phase_eq {s : State} (h : s.atReset) : s.phase = .idle := by rw [← h]; rfl

theorem State.atReset.total_eq {s : State} (h : s.atReset) : s.total = 0 := by rw [← h]; rfl

theorem State.atReset.portHeld_eq {s : State} (h : s.atReset) : s.portHeld = 0 := by rw [← h]; rfl

theorem State.atReset.ftPres_eq {s : State} (h : s.atReset) (b : Symbol) : atSym s.ftPres b = false := by
  rw [← h]
  exact (s.cleared_frequencyTable b).1

theorem State.atReset.ftCnt_eq {s : State} (h : s.atReset) (b : Symbol) : atSym s.ftCnt b = 0 := by
  rw [← h]
  exact (s.cleared_frequencyTable b).2

theorem scanBody_of_fits (table : s.total = 0) (go : neverFails s.src.fails) (fits : s.src.data.length ≤ s.maxCnt) :
    scanBody s = .ok () (((s.atScan.scanned s.src.data).sawEnd .src).enter .table) := by
  have ahead : s.atScan.Ahead .src (s.src.data ++ []) := by
    rw [List.append_nil]
    exact State.opened_ahead (p := .src) (s := s.setMode .enc) go
  have room : s.atScan.total + s.src.data.length ≤ s.atScan.maxCnt := by
    change s.total + s.src.data.length ≤ s.maxCnt
    omega
  obtain ⟨looped, left⟩ := scanLoop_of_room ahead room 0
  rw [Nat.add_zero, forEachByte_nil left] at looped
  rw [scanBody_of_go go, Proc.bind_of_ok looped]
  rfl

/-- `SCAN` of a source that fits gives a table whose registers agree and which counts the source's bytes. -/
theorem exec_scan_of_fits (reset : s.atReset) (fits : s.src.data.length ≤ s.maxCnt) (go : neverFails s.src.fails) :
    ∃ t, exec .scan s = .next t ∧ t.TableOk ∧
      (∀ b, atSym t.ftPres b = s.src.data.contains b ∧ atSym t.ftCnt b = s.src.data.count b) ∧
      t = { s with
        mode := .enc, phase := .table, portHeld := 0b000001
        ftPres := t.ftPres, ftCnt := t.ftCnt, nsyms := t.nsyms, total := s.src.data.length
        src := { s.src with pos := s.src.data.length, fails := t.src.fails } } := by
  have scanned := exec_scan_of_ok reset.phase_eq (scanBody_of_fits reset.total_eq go fits)
  have opened : s.atScan.TableOk :=
    have ok := reset.tableOk
    ⟨ok.absent, ok.nsyms, ok.total, ok.fits⟩
  have room : s.atScan.total + s.src.data.length ≤ s.atScan.maxCnt := by
    change s.total + s.src.data.length ≤ s.maxCnt
    rw [reset.total_eq]
    omega
  have ok := opened.scanned room
  refine ⟨_, scanned, ⟨ok.absent, ok.nsyms, ok.total, ok.fits⟩, fun b => ⟨?pres, ?count⟩, ?frame⟩
  case pres =>
    refine (s.atScan.scanned_ftPres s.src.data b).trans ?_
    rw [show atSym s.atScan.ftPres b = false from reset.ftPres_eq b, Bool.false_or]
  case count =>
    refine (s.atScan.scanned_ftCnt s.src.data b).trans ?_
    rw [show atSym s.atScan.ftCnt b = 0 from reset.ftCnt_eq b, Nat.zero_add]
  case frame =>
    have begins : s.atScan =
        { s with mode := .enc, portHeld := 0b000001, src := { s.src with pos := 0, fails := s.src.fails.tail } } := by
      have held : setBit s.portHeld 0 true = 0b000001 := by
        rw [reset.portHeld_eq]
        decide
      rw [← held]
      rfl
    have total : s.total + s.src.data.length = s.src.data.length := by rw [reset.total_eq, Nat.zero_add]
    refine (congrArg (fun v => (v.sawEnd .src).enter .table) (s.atScan.scanned_frame s.src.data)).trans ?_
    simp only [begins, total, State.sawEnd, State.enter, State.setSource, State.source, Nat.zero_add]

/-- Settles O15: the loop counts the bytes one after another, and the table's registers stay in agreement. -/
theorem scanCountsTheSource : Obligations.ScanCountsTheSource := by
  unfold Obligations.ScanCountsTheSource
  intro s reset fits go
  obtain ⟨t, ran, ok, entries, frame⟩ := exec_scan_of_fits reset fits go
  have perm : t.presentSymbols.Perm s.src.data.dedup := by
    refine (List.perm_ext_iff_of_nodup (presentSymbols_nodup _) (List.nodup_dedup _)).mpr fun b => ?_
    rw [mem_presentSymbols, (entries b).1, List.contains_iff_mem, List.mem_dedup]
  exact ⟨t, ran, entries, ok.nsyms.trans perm.length_eq, frame⟩

/-- At capacity one more byte is read and not counted. -/
theorem scanBody_of_full {before after : List Byte} {b : Byte} (table : s.total = 0) (go : neverFails s.src.fails)
    (data : s.src.data = before ++ b :: after) (full : before.length = s.maxCnt) :
    scanBody s = .error (.raised .capacityError) ((s.atScan.scanned before).advance .src 1) := by
  have ahead : s.atScan.Ahead .src (before ++ b :: after) := by
    rw [← data]
    exact State.opened_ahead (p := .src) (s := s.setMode .enc) go
  have room : s.atScan.total + before.length ≤ s.atScan.maxCnt := by
    change s.total + before.length ≤ s.maxCnt
    omega
  obtain ⟨looped, left⟩ := scanLoop_of_room ahead room (after.length + 1)
  have counted : ((s.atScan.scanned before).advance .src 1).total =
      ((s.atScan.scanned before).advance .src 1).maxCnt := by
    rw [State.scanned_frame]
    change s.total + before.length = s.maxCnt
    omega
  have length : s.src.data.length = before.length + (after.length + 1) := by rw [data]; simp
  rw [scanBody_of_go go, length]
  refine Proc.bind_of_error (looped.trans ?_)
  rw [forEachByte_cons left]
  exact Proc.bind_of_error (scanStep_of_full counted b)

/-- Settles O17: the loop counts the first `MAXCNT` bytes, and the next one finds the table full. -/
theorem scanOverCapacityFaults : Obligations.ScanOverCapacityFaults := by
  unfold Obligations.ScanOverCapacityFaults
  intro s reset exceeds go
  have length : (s.src.data.take s.maxCnt).length = s.maxCnt := List.length_take_of_le exceeds.le
  have data : s.src.data = s.src.data.take s.maxCnt ++ s.src.data[s.maxCnt] :: s.src.data.drop (s.maxCnt + 1) := by
    rw [← List.drop_eq_getElem_cons exceeds, List.take_append_drop]
  have ran := exec_scan_of_raised reset.phase_eq (scanBody_of_full reset.total_eq go data length)
  refine ⟨_, ran, rfl, rfl, rfl, rfl, ?total, ?pos, fun b => ?count⟩
  case total =>
    rw [State.raiseError_total, State.advance, State.setSource_total, State.scanned_frame]
    change s.total + _ = _
    rw [reset.total_eq, length, Nat.zero_add]
  case pos =>
    rw [State.raiseError_src, State.scanned_frame]
    change 0 + _ + 1 = _
    rw [length, Nat.zero_add]
  case count =>
    rw [State.raiseError_ftCnt, State.advance, State.setSource_ftCnt, State.scanned_ftCnt]
    change atSym s.ftCnt b + _ = _
    rw [reset.ftCnt_eq, Nat.zero_add]

end Sys2Proof.Machine
end

section
/-!
PROOFS. `PERSIST` with no failing access (spec/42_freqtable.md R102).
-/

namespace Sys2Proof.Machine

variable {s : State}

/-- The lines of the record, by symbol (R70, R102). -/
def State.recordLines (s : State) (bs : List Symbol) : List Byte :=
  bs.flatMap fun b => recordLine b (atSym s.ftCnt b)

theorem persistLines_of_go (bs : List Symbol) (held : s.held 1 = true) (go : neverFails s.fsink.fails) :
    persistLines bs s = .ok () (s.setSink .fsink
      ⟨s.fsink.data ++ s.recordLines bs, s.fsink.fails.drop (s.recordLines bs).length⟩) := by
  induction bs generalizing s with
  | nil =>
    refine congrArg (EStateM.Result.ok ()) ?_
    simp [State.recordLines, State.setSink]
  | cons b bs ih =>
    rw [persistLines, Proc.get_bind_run, Proc.bind_of_ok (putBytes_of_go (q := .fsink) _ held go), ih]
    · simp [State.recordLines, State.setSink]
    · simpa using held
    · exact neverFails_drop go _

theorem persistBody_of_go (go : neverFails s.fsink.fails) :
    persistBody s = .ok () ((((s.emptied .fsink).setSink .fsink
      ⟨s.recordLines s.presentSymbols, s.fsink.fails.tail.drop (s.recordLines s.presentSymbols).length⟩)).enter
        .persisted) := by
  have lines := persistLines_of_go (s := s.emptied .fsink) s.presentSymbols (held_hold_sink _ .fsink)
    (neverFails_tail go)
  rw [persistBody, Proc.bind_of_ok (openSink_of_neverFails (q := .fsink) go), Proc.get_bind_run]
  exact Proc.bind_of_ok lines

theorem exec_persist_of_ok {t : State} (table : s.phase = .table) (enc : s.mode = .enc)
    (ok : persistBody s = .ok () t) : exec .persist s = .next t :=
  runCommand_of_ok (by rw [table]; nofun) ((legal_iff_legalWhen s .persist).mpr ⟨table, enc⟩) ok

/-- Settles O18: the lines of the present symbols are put one after another to the emptied sink. -/
theorem persistWritesTheRecord : Obligations.PersistWritesTheRecord := by
  unfold Obligations.PersistWritesTheRecord
  intro s table enc go
  refine ⟨_, exec_persist_of_ok table enc (persistBody_of_go go), ?_⟩
  have held : (s.hold 1).portHeld = s.portHeld ||| 0b000010 := setBit_true _ _
  rw [← held, ← presentSymbols_eq_filter]
  rfl

end Sys2Proof.Machine
end

section
/-!
PROOFS. A command that does not end in `FAULT` would have done the same had the environment never failed an access
(spec/20_memory.md R47): its procedure does not look at the answers to come.
-/

namespace Sys2Proof.Machine

variable {α : Type} {i : Instr} {s t : State}

/-- A source whose accesses never fail. -/
def Source.calm (st : Source) : Source := { st with fails := [] }

/-- A sink whose accesses never fail. -/
def Sink.calm (st : Sink) : Sink := { st with fails := [] }

theorem State.source_calm (s : State) (p : SourcePort) : s.calm.source p = (s.source p).calm := by
  cases p <;> rfl

theorem State.sink_calm (s : State) (q : SinkPort) : s.calm.sink q = (s.sink q).calm := by
  cases q <;> rfl

theorem State.setSource_calm (s : State) (p : SourcePort) (st : Source) :
    (s.setSource p st).calm = s.calm.setSource p st.calm := by
  cases p <;> rfl

theorem State.setSink_calm (s : State) (q : SinkPort) (st : Sink) :
    (s.setSink q st).calm = s.calm.setSink q st.calm := by
  cases q <;> rfl

theorem State.hold_calm (s : State) (n : Nat) : (s.hold n).calm = s.calm.hold n := rfl

/-- What a procedure answers, it would answer in the calm state too. -/
theorem MadeOf.calm_ok {x : Proc α} (hx : MadeOf i x) {a : α} (ok : x s = .ok a t) : x s.calm = .ok a t.calm := by
  induction hx generalizing s t with
  | pure b =>
    obtain ⟨rfl, rfl⟩ := EStateM.Result.ok.inj ok
    rfl
  | raise e => simp at ok
  | stuck f => simp at ok
  | bind _ _ ihx ihf =>
    obtain ⟨b, u, first, rest⟩ := Proc.bind_ok_iff.mp ok
    rw [Proc.bind_of_ok (ihx first)]
    exact ihf b rest
  | modify f _ calm =>
    obtain ⟨-, rfl⟩ := EStateM.Result.ok.inj ok
    exact congrArg _ (calm s)
  | locally y _ same calm ih =>
    rw [same] at ok
    rw [calm]
    exact ih s ok
  | @openSource p h =>
    obtain ⟨-, rfl⟩ := openSource_ok_inv ok
    rw [openSource_of_go (by rw [State.source_calm]; rfl), State.source_calm, State.hold_calm, State.setSource_calm]
    rfl
  | @getByte p h =>
    obtain ⟨held, -, rfl, rfl⟩ := getByte_ok_inv ok
    have held' : s.calm.held p.num = true := held
    have go : failsNext (s.calm.source p).fails = false := by rw [State.source_calm]; rfl
    have data : (s.calm.source p).data[(s.calm.source p).pos]? = (s.source p).data[(s.source p).pos]? := by
      rw [State.source_calm]
      rfl
    cases byte : (s.source p).data[(s.source p).pos]? with
    | none =>
      rw [getByte_of_end held' go (List.getElem?_eq_none_iff.mp (data.trans byte)), State.setSource_calm,
        State.source_calm]
      rfl
    | some b =>
      rw [getByte_of_byte held' go (data.trans byte), State.setSource_calm, State.source_calm]
      rfl
  | @openSink q h =>
    obtain ⟨-, rfl⟩ := openSink_ok_inv ok
    rw [openSink_of_go (by rw [State.sink_calm]; rfl), State.sink_calm, State.hold_calm, State.setSink_calm]
    rfl
  | @putByte q b h =>
    obtain ⟨held, -, rfl⟩ := putByte_ok_inv ok
    have held' : s.calm.held q.num = true := held
    rw [putByte_of_go held' (by rw [State.sink_calm]; rfl), State.setSink_calm, State.sink_calm]
    rfl

/-- What a command answers outside `FAULT`, it would answer in the calm state too. -/
def Calms (f : State → Answer) : Prop := ∀ s t, f s = .next t → t.phase ≠ .fault → f s.calm = .next t.calm

theorem legal_calm (s : State) (i : Instr) : legal s.calm i = legal s i := by
  cases i <;> rfl

theorem Calms.primitive (hi : expansionOf i = [i]) : Calms (exec i) := by
  intro s t ran running
  rw [exec_eq_runCommand hi] at ran ⊢
  obtain ⟨fault, ignored, rfl⟩ | ⟨-, rfl⟩ | ⟨isLegal, ok⟩ | ⟨-, e, u, -, rfl⟩ := runCommand_next_cases ran
  · exact runCommand_of_ignored fault ignored
  · exact absurd rfl running
  · have answered := (madeOf_bodyOf i).calm_ok ok
    by_cases ignored : s.phase = .fault ∧ runsInFault i = false
    · exact absurd ignored.1 (phase_ne_fault_of_legalWhen ignored.2 ((legal_iff_legalWhen s i).mp isLegal))
    · have ignored' : ¬ (s.calm.phase = .fault ∧ runsInFault i = false) := ignored
      rw [runCommand, if_neg ignored', legal_calm, if_neg (by simp [isLegal]), answered]
      rfl
  · exact absurd rfl running

theorem Calms.andThen {g f : State → Answer} (hg : Calms g) (hf : Calms f) : Calms fun s => andThen (g s) f := by
  intro s t ran running
  obtain ⟨u, hu, ⟨fault, rfl⟩ | ⟨running', hfu⟩⟩ := andThen_next_iff.mp ran
  · exact absurd fault running
  · have first := hg s u hu running'
    dsimp only
    rw [first, andThen_of_next (s := u.calm) running']
    exact hf u t hfu running

theorem Calms.buildAndDerive : Calms buildAndDerive := by
  intro s t ran running
  rw [buildAndDerive_eq] at ran ⊢
  dsimp only at ran ⊢
  split at ran
  · next symbols =>
    rw [if_pos (show s.calm.nsyms ≠ 0 from symbols)]
    exact (Calms.andThen (.primitive rfl) (.primitive rfl)) s t ran running
  · next none =>
    rw [if_neg (show ¬ s.calm.nsyms ≠ 0 from none)]
    obtain rfl : s = t := by simpa using ran
    rfl

theorem Calms.encode : Calms (exec .encode) := by
  rw [exec_encode_eq]
  exact .andThen (.andThen (.andThen (.andThen (.andThen (.andThen (.primitive rfl) (.primitive rfl)) (.primitive rfl))
    .buildAndDerive) (.primitive rfl)) (.primitive rfl)) (.primitive rfl)

end Sys2Proof.Machine
end

section
/-!
PROOFS. The fields of a line of the frequency record as `LOAD` reads them (spec/42_freqtable.md R104, R105).
-/

namespace Sys2Proof.Machine

variable {s : State} {bytes rest : List Byte} {b : Symbol}

/-! ### The symbol field -/

theorem binDigit?_binChar (d : Bit) : binDigit? (some (binChar d)) = some d := by
  cases d <;> rfl

theorem binDigit?_eq_none {c : Byte} (zero : c ≠ 0x30) (one : c ≠ 0x31) : binDigit? (some c) = none :=
  (if_neg (show c ≠ chZero from zero)).trans (if_neg (show c ≠ chOne from one))

theorem loadSymbol_of_bad {c : Option Byte} (bad : binDigit? c = none) (k sym : Nat) (s : State) :
    loadSymbol k c sym s = .error (.raised .formatError) s := by
  cases k <;> simp [loadSymbol, bad]

theorem loadSymbol_zero (d : Bit) (sym : Nat) (s : State) :
    loadSymbol 0 (some (binChar d)) sym s = .ok (2 * sym + d.toNat) s := by
  simp [loadSymbol, binDigit?_binChar]

theorem loadSymbol_succ (k : Nat) (d : Bit) (sym : Nat) :
    loadSymbol (k + 1) (some (binChar d)) sym =
      getByte .fsrc >>= fun c => loadSymbol k c (2 * sym + d.toNat) := by
  simp [loadSymbol, binDigit?_binChar]

/-- The value of binary digits after a number, most significant first. -/
def bitsValue (sym : Nat) (ds : List Bit) : Nat := ds.foldl (fun n d => 2 * n + d.toNat) sym

theorem loadSymbol_of_digits {d : Bit} {ds : List Bit} (ahead : s.Ahead .fsrc (ds.map binChar ++ rest)) (sym : Nat) :
    loadSymbol ds.length (some (binChar d)) sym s = .ok (bitsValue sym (d :: ds)) (s.advance .fsrc ds.length) := by
  induction ds generalizing d sym s with
  | nil => exact (loadSymbol_zero d sym s).trans (by rw [List.length_nil, State.advance_zero]; rfl)
  | cons e ds ih =>
    rw [List.length_cons, loadSymbol_succ, Proc.bind_of_ok ahead.getByte, ih ahead.tail, State.advance_advance,
      Nat.add_comm 1]
    rfl

/-- The next character, or the end of the source, is what `Get` answers. -/
theorem State.Ahead.getByte_head? {p : SourcePort} (h : s.Ahead p bytes) :
    ∃ t, Machine.getByte p s = .ok bytes.head? t := by
  cases bytes with
  | nil => exact ⟨_, h.getByte_end⟩
  | cons b bytes => exact ⟨_, h.getByte⟩

/-- After some digits, a character that is no binary digit, or the end, ends the symbol field in `FormatError`. -/
theorem loadSymbol_of_badAfter {d : Bit} {ds : List Bit} (ahead : s.Ahead .fsrc (ds.map binChar ++ rest))
    (bad : binDigit? rest.head? = none) (k sym : Nat) :
    ∃ t, loadSymbol (ds.length + (k + 1)) (some (binChar d)) sym s = .error (.raised .formatError) t := by
  induction ds generalizing d sym s with
  | nil =>
    obtain ⟨t, next⟩ := ahead.getByte_head?
    exact ⟨t,
      by rw [List.length_nil, Nat.zero_add, loadSymbol_succ, Proc.bind_of_ok next]; exact loadSymbol_of_bad bad k _ t⟩
  | cons e ds ih =>
    rw [List.length_cons, Nat.add_right_comm, loadSymbol_succ, Proc.bind_of_ok ahead.getByte]
    exact ih ahead.tail _

theorem bin8_eq_map (b : Symbol) : bin8 b = (bitsOfByte b).map binChar := by
  simp [bin8, bitsOfByte]

@[simp] theorem length_bitsOfByte (v : Byte) : (bitsOfByte v).length = 8 := by simp [bitsOfByte]

theorem bitsValue_bitsOfByte (b : Symbol) : bitsValue 0 (bitsOfByte b) = b.toNat := by
  have value := foldl_take_bin8 b (Nat.le_refl 8)
  rw [Nat.sub_self, Nat.pow_zero, Nat.div_one] at value
  rw [bitsValue, bitsOfByte, List.foldl_map, ← value, List.foldl_map]
  simp only [toNat_binChar]

/-! ### The count field -/

/-- The value of decimal digits after a number, most significant first (R73). -/
def countValue (n : Nat) (ds : List Byte) : Nat := ds.foldl (fun n d => 10 * n + (d.toNat - 0x30)) n

theorem countValue_zero (ds : List Byte) : countValue 0 ds = digitsValue ds := rfl

theorem countValue_cons (n : Nat) (d : Byte) (ds : List Byte) :
    countValue n (d :: ds) = countValue (10 * n + (d.toNat - 0x30)) ds := by
  rw [countValue, List.foldl_cons, countValue]

theorem le_countValue (n : Nat) (ds : List Byte) : n ≤ countValue n ds := by
  induction ds generalizing n with
  | nil => exact le_rfl
  | cons d ds ih =>
    have grows : n ≤ 10 * n + (d.toNat - 0x30) := Nat.le_add_right_of_le (Nat.le_mul_of_pos_left n (by decide))
    exact grows.trans (ih _)

theorem decDigit?_of_digit {d : Byte} (digit : chZero ≤ d ∧ d ≤ chNine) : decDigit? d = some (d.toNat - 0x30) :=
  if_pos digit

theorem decDigit?_of_not_digit {c : Byte} (bad : ¬ ((0x30 : Byte) ≤ c ∧ c ≤ 0x39)) : decDigit? c = none := if_neg bad

theorem loadCount_of_digit {d : Byte} (ahead : s.Ahead .fsrc (d :: bytes)) (digit : chZero ≤ d ∧ d ≤ chNine)
    (fuel n ndig : Nat) :
    loadCount (fuel + 1) n ndig s =
      if 10 * n + (d.toNat - 0x30) > s.maxCnt then .error (.raised .capacityError) (s.advance .fsrc 1)
      else loadCount fuel (10 * n + (d.toNat - 0x30)) (ndig + 1) (s.advance .fsrc 1) := by
  have maxCnt : (s.advance .fsrc 1).maxCnt = s.maxCnt := rfl
  rw [loadCount, Proc.bind_of_ok ahead.getByte]
  simp only [decDigit?_of_digit digit, Proc.get_bind_run, maxCnt]
  split <;> rfl

/-- Digits ahead whose value fits are taken one after another. -/
theorem loadCount_of_digits {ds : List Byte} (ahead : s.Ahead .fsrc (ds ++ rest)) (digits : areDigits ds) {n : Nat}
    (fits : countValue n ds ≤ s.maxCnt) (fuel ndig : Nat) :
    loadCount (ds.length + fuel) n ndig s =
        loadCount fuel (countValue n ds) (ndig + ds.length) (s.advance .fsrc ds.length) ∧
      (s.advance .fsrc ds.length).Ahead .fsrc rest := by
  refine ⟨?_, ahead.advance⟩
  induction ds generalizing n ndig s with
  | nil => rw [List.length_nil, Nat.zero_add, State.advance_zero]; rfl
  | cons d ds ih =>
    rw [countValue_cons] at fits
    have small := (le_countValue _ _).trans fits
    rw [List.length_cons, Nat.add_right_comm, loadCount_of_digit ahead (digits d List.mem_cons_self),
      if_neg (Nat.not_lt.mpr small), ih ahead.tail (fun e he => digits e (List.mem_cons_of_mem d he)) fits,
      State.advance_advance, Nat.add_comm 1, Nat.add_assoc ndig, Nat.add_comm 1]
    rfl

/-- Digits ahead whose value does not fit end in `CapacityError`, whatever follows. -/
theorem loadCount_of_overflow {ds : List Byte} (ahead : s.Ahead .fsrc (ds ++ rest)) (digits : areDigits ds) {n : Nat}
    (small : n ≤ s.maxCnt) (overflow : s.maxCnt < countValue n ds) (fuel ndig : Nat) :
    ∃ t, loadCount (ds.length + fuel) n ndig s = .error (.raised .capacityError) t := by
  induction ds generalizing n ndig s with
  | nil => exact absurd small (Nat.not_le.mpr overflow)
  | cons d ds ih =>
    rw [countValue_cons] at overflow
    rw [List.length_cons, Nat.add_right_comm, loadCount_of_digit ahead (digits d List.mem_cons_self)]
    split
    · exact ⟨_, rfl⟩
    · next fits =>
      exact ih ahead.tail (fun e he => digits e (List.mem_cons_of_mem d he)) (Nat.not_lt.mp fits) overflow _

/-- A line feed after a digit ends the count. -/
theorem loadCount_of_LF (ahead : s.Ahead .fsrc (chLF :: bytes)) (fuel n : Nat) {ndig : Nat} (some : ndig ≠ 0) :
    loadCount (fuel + 1) n ndig s = .ok n (s.advance .fsrc 1) := by
  have notDigit : decDigit? chLF = none := by decide
  rw [loadCount, Proc.bind_of_ok ahead.getByte]
  simp [notDigit, some]

/-- Anything else that is no digit, the end included, is a `FormatError`. -/
theorem loadCount_of_bad {ndig : Nat} (ahead : s.Ahead .fsrc bytes)
    (bad : ∀ c, bytes.head? = some c → decDigit? c = none ∧ (c = chLF → ndig = 0)) (fuel n : Nat) :
    ∃ t, loadCount (fuel + 1) n ndig s = .error (.raised .formatError) t := by
  obtain ⟨t, next⟩ := ahead.getByte_head?
  refine ⟨t, ?_⟩
  rw [loadCount, Proc.bind_of_ok next]
  cases head : bytes.head? with
  | none => rfl
  | some c =>
    obtain ⟨notDigit, empty⟩ := bad c head
    have notEnd : ¬ (c = chLF ∧ ndig ≠ 0) := fun h => h.2 (empty h.1)
    simp [notDigit, notEnd]

/-! ### The entry -/

theorem loadEntry_of_new {n : Nat} (absent : atSym s.ftPres b = false) (fits : s.total + n ≤ s.maxCnt) :
    loadEntry b n s = .ok () (s.enterKey b n) := by
  rw [loadEntry, Proc.get_bind_run, if_neg (by simp [absent]), if_neg (Nat.not_lt.mpr fits), Proc.set_run]

theorem loadEntry_of_present (present : atSym s.ftPres b = true) (n : Nat) :
    loadEntry b n s = .error (.raised .formatError) s := by
  rw [loadEntry, Proc.get_bind_run, if_pos present, Proc.throw_run]

theorem loadEntry_of_overflow {n : Nat} (absent : atSym s.ftPres b = false) (overflow : s.maxCnt < s.total + n) :
    loadEntry b n s = .error (.raised .capacityError) s := by
  rw [loadEntry, Proc.get_bind_run, if_neg (by simp [absent]), if_pos overflow, Proc.throw_run]

/-! ### A line -/

/-- The count field and the entry of a line (R104, R105), after the separator. -/
def loadCountOf (b : Symbol) : Proc Unit := do
  let n ← loadCount ((← get).fsrc.unread + 1) 0 0
  loadEntry b n

theorem loadColon_of_colon (ahead : s.Ahead .fsrc (chColon :: bytes)) : loadColon s = .ok () (s.advance .fsrc 1) :=
  Proc.bind_of_ok ahead.getByte

theorem loadColon_of_bad (ahead : s.Ahead .fsrc bytes) (bad : bytes.head? ≠ some chColon) :
    ∃ t, loadColon s = .error (.raised .formatError) t := by
  obtain ⟨t, next⟩ := ahead.getByte_head?
  refine ⟨t, (Proc.bind_of_ok next).trans ?_⟩
  rw [if_neg bad, Proc.throw_run]

/-- The loop of `LOAD` reads the symbol field ahead and goes on with the rest of the line. -/
theorem loadLines_of_symbol (ahead : s.Ahead .fsrc (bin8 b ++ bytes)) (fuel : Nat) :
    loadLines (fuel + 1) s =
        (loadColon >>= fun _ => loadCountOf b >>= fun _ => loadLines fuel) (s.advance .fsrc 8) ∧
      (s.advance .fsrc 8).Ahead .fsrc bytes := by
  obtain ⟨d, ds, digits⟩ : ∃ d ds, bitsOfByte b = d :: ds := ⟨_, _, rfl⟩
  have length : ds.length = 7 := by
    have h := congrArg List.length digits
    rw [length_bitsOfByte, List.length_cons] at h
    omega
  have first : s.Ahead .fsrc (binChar d :: (ds.map binChar ++ bytes)) := by
    rwa [bin8_eq_map, digits] at ahead
  have symbol : loadSymbol 7 (some (binChar d)) 0 (s.advance .fsrc 1) = .ok b.toNat (s.advance .fsrc 8) := by
    have read := loadSymbol_of_digits (d := d) first.tail 0
    rwa [length, State.advance_advance, ← digits, bitsValue_bitsOfByte] at read
  refine ⟨?_, by simpa [bin8] using ahead.advance⟩
  rw [loadLines, Proc.bind_of_ok first.getByte]
  simp only [loadLine, loadCountOf, bind_assoc]
  rw [Proc.bind_of_ok symbol, BitVec.ofNat_toNat, BitVec.setWidth_eq]

end Sys2Proof.Machine
end

section
/-!
PROOFS. `LOAD` of accepted lines, and of a bad line after them (spec/42_freqtable.md R104, R105, R185).
-/

namespace Sys2Proof.Machine

variable {s : State} {bytes rest ds : List Byte} {b : Symbol}

theorem loadCountOf_eq (ahead : s.Ahead .fsrc (ds ++ rest)) :
    loadCountOf b s = (loadCount (ds.length + (rest.length + 1)) 0 0 >>= fun n => loadEntry b n) s := by
  have unread : s.fsrc.unread + 1 = ds.length + (rest.length + 1) := by
    rw [← Nat.add_assoc, ← List.length_append]
    exact congrArg (· + 1) ahead.unread
  rw [loadCountOf, Proc.get_bind_run, unread]

/-- A line ahead is read up to its entry. -/
theorem loadLines_of_line (ahead : s.Ahead .fsrc (lineOf (b, ds) ++ bytes)) (count : isCount ds)
    (fits : digitsValue ds ≤ s.maxCnt) (fuel : Nat) :
    loadLines (fuel + 1) s =
        (loadEntry b (digitsValue ds) >>= fun _ => loadLines fuel) (s.advance .fsrc (lineOf (b, ds)).length) ∧
      (s.advance .fsrc (lineOf (b, ds)).length).Ahead .fsrc bytes := by
  refine ⟨?_, ahead.advance⟩
  have line : lineOf (b, ds) ++ bytes = bin8 b ++ (chColon :: (ds ++ chLF :: bytes)) := by simp [lineOf]
  rw [line] at ahead
  obtain ⟨symbol, atColon⟩ := loadLines_of_symbol ahead fuel
  obtain ⟨counted, atLF⟩ := loadCount_of_digits atColon.tail count.2 (n := 0) fits
    ((chLF :: bytes).length + 1) 0
  have some : 0 + ds.length ≠ 0 := by simpa using count.1
  have length : 8 + (1 + (ds.length + 1)) = (lineOf (b, ds)).length := by simp [lineOf, bin8]; omega
  have entry : loadCountOf b ((s.advance .fsrc 8).advance .fsrc 1) =
      loadEntry b (digitsValue ds) (s.advance .fsrc (lineOf (b, ds)).length) := by
    rw [loadCountOf_eq atColon.tail]
    refine (Proc.bind_of_ok (counted.trans (loadCount_of_LF atLF _ _ some))).trans ?_
    rw [countValue_zero, State.advance_advance, State.advance_advance, State.advance_advance, length]
  rw [symbol, Proc.bind_of_ok (loadColon_of_colon atColon), Proc.bind_run, entry, ← Proc.bind_run]

/-! ### Accepted lines -/

/-- The state after the lines ahead have been read and entered. -/
def State.loaded (s : State) (lines : List (Symbol × List Byte)) : State :=
  lines.foldl (fun s l => (s.advance .fsrc (lineOf l).length).enterKey l.1 (digitsValue l.2)) s

theorem State.loaded_cons (s : State) (l : Symbol × List Byte) (lines : List (Symbol × List Byte)) :
    s.loaded (l :: lines) = ((s.advance .fsrc (lineOf l).length).enterKey l.1 (digitsValue l.2)).loaded lines := rfl

/-- `FSRC` and the table's four registers are all that entering lines writes. -/
theorem State.loaded_frame (s : State) (lines : List (Symbol × List Byte)) :
    s.loaded lines = { s with
      ftPres := (s.loaded lines).ftPres, ftCnt := (s.loaded lines).ftCnt, nsyms := (s.loaded lines).nsyms
      total := s.total + (lines.map fun l => digitsValue l.2).sum
      fsrc := { s.fsrc with
        pos := s.fsrc.pos + (lines.flatMap lineOf).length, fails := (s.loaded lines).fsrc.fails } } := by
  induction lines generalizing s with
  | nil => rfl
  | cons l lines ih =>
    rw [State.loaded_cons]
    conv_lhs => rw [ih]
    simp [State.advance, State.setSource, State.enterKey, Nat.add_assoc]

theorem State.loaded_ftPres (s : State) (lines : List (Symbol × List Byte)) (a : Symbol) :
    atSym (s.loaded lines).ftPres a = (atSym s.ftPres a || (lines.map (·.1)).contains a) := by
  induction lines generalizing s with
  | nil => simp [State.loaded]
  | cons l lines ih =>
    rw [State.loaded_cons, ih, State.atSym_enterKey_ftPres, List.map_cons, List.contains_cons, Bool.or_assoc]
    rfl

theorem State.loaded_ftCnt_of_not_mem {lines : List (Symbol × List Byte)} {a : Symbol}
    (absent : a ∉ lines.map (·.1)) : atSym (s.loaded lines).ftCnt a = atSym s.ftCnt a := by
  induction lines generalizing s with
  | nil => rfl
  | cons l lines ih =>
    rw [List.map_cons, List.mem_cons, not_or] at absent
    rw [State.loaded_cons, ih absent.2, State.atSym_enterKey_ftCnt, if_neg absent.1]
    rfl

theorem State.loaded_ftCnt_of_mem {lines : List (Symbol × List Byte)} (distinct : (lines.map (·.1)).Nodup)
    {l : Symbol × List Byte} (mem : l ∈ lines) : atSym (s.loaded lines).ftCnt l.1 = digitsValue l.2 := by
  induction lines generalizing s with
  | nil => exact absurd mem List.not_mem_nil
  | cons m lines ih =>
    rw [List.map_cons, List.nodup_cons] at distinct
    rw [State.loaded_cons]
    obtain rfl | mem := List.mem_cons.mp mem
    · rw [State.loaded_ftCnt_of_not_mem distinct.1, State.atSym_enterKey_ftCnt, if_pos rfl]
    · exact ih distinct.2 mem

/-- The lines are accepted one after another in a state: their counts fit, and their symbols are new (R104, R105). -/
structure State.Accepts (s : State) (lines : List (Symbol × List Byte)) : Prop where
  counts   : ∀ l ∈ lines, isCount l.2
  distinct : (lines.map (·.1)).Nodup
  absent   : ∀ l ∈ lines, atSym s.ftPres l.1 = false
  fits     : s.total + (lines.map fun l => digitsValue l.2).sum ≤ s.maxCnt

theorem State.Accepts.head {l : Symbol × List Byte} {lines : List (Symbol × List Byte)} (h : s.Accepts (l :: lines)) :
    isCount l.2 ∧ atSym s.ftPres l.1 = false ∧ s.total + digitsValue l.2 ≤ s.maxCnt := by
  have fits := h.fits
  rw [List.map_cons, List.sum_cons] at fits
  exact ⟨h.counts l List.mem_cons_self, h.absent l List.mem_cons_self, by omega⟩

theorem State.Accepts.tail {l : Symbol × List Byte} {lines : List (Symbol × List Byte)} (h : s.Accepts (l :: lines)) :
    ((s.advance .fsrc (lineOf l).length).enterKey l.1 (digitsValue l.2)).Accepts lines where
  counts m mem := h.counts m (List.mem_cons_of_mem l mem)
  distinct := (List.nodup_cons.mp h.distinct).2
  absent m mem := by
    have ne : m.1 ≠ l.1 := by
      intro same
      exact (List.nodup_cons.mp h.distinct).1 (List.mem_map.mpr ⟨m, mem, same⟩)
    rw [State.atSym_enterKey_ftPres]
    simpa [ne, State.advance] using h.absent m (List.mem_cons_of_mem l mem)
  fits := by
    have fits := h.fits
    rw [List.map_cons, List.sum_cons, ← Nat.add_assoc] at fits
    exact fits

/-- The loop of `LOAD` enters the accepted lines ahead. -/
theorem loadLines_of_accepted {lines : List (Symbol × List Byte)} (ahead : s.Ahead .fsrc (lines.flatMap lineOf ++ rest))
    (accepts : s.Accepts lines) (fuel : Nat) :
    loadLines (lines.length + fuel) s = loadLines fuel (s.loaded lines) ∧ (s.loaded lines).Ahead .fsrc rest := by
  induction lines generalizing s with
  | nil => exact ⟨by rw [List.length_nil, Nat.zero_add]; rfl, ahead⟩
  | cons l lines ih =>
    obtain ⟨count, absent, fits⟩ := accepts.head
    rw [List.flatMap_cons, List.append_assoc] at ahead
    obtain ⟨line, left⟩ := loadLines_of_line (b := l.1) (ds := l.2) ahead count
      ((Nat.le_add_left _ _).trans fits) (lines.length + fuel)
    obtain ⟨looped, left'⟩ := ih (s := (s.advance .fsrc (lineOf l).length).enterKey l.1 (digitsValue l.2))
      ⟨left.held, left.go, left.left⟩ accepts.tail
    refine ⟨?_, left'⟩
    rw [List.length_cons, Nat.add_right_comm, line]
    exact (Proc.bind_of_ok (loadEntry_of_new (s := s.advance .fsrc (lineOf l).length) absent fits)).trans looped

theorem State.TableOk.loaded {lines : List (Symbol × List Byte)} (ok : s.TableOk) (accepts : s.Accepts lines) :
    (s.loaded lines).TableOk := by
  induction lines generalizing s with
  | nil => exact ok
  | cons l lines ih =>
    obtain ⟨-, absent, fits⟩ := accepts.head
    have advanced : (s.advance .fsrc (lineOf l).length).TableOk := ⟨ok.absent, ok.nsyms, ok.total, ok.fits⟩
    exact ih (advanced.enterKey absent fits) accepts.tail

theorem length_le_length_flatMap_lineOf (lines : List (Symbol × List Byte)) :
    lines.length ≤ (lines.flatMap lineOf).length := by
  induction lines with
  | nil => exact le_rfl
  | cons l lines ih =>
    have nonempty : 1 ≤ (lineOf l).length := by simp [lineOf]; omega
    rw [List.length_cons, List.flatMap_cons, List.length_append]
    omega

/-! ### The command -/

/-- The state in which `LOAD` begins its loop. -/
def State.atLoad (s : State) : State := (s.setMode .dec).opened .fsrc

/-- `LOAD` of a record that begins with accepted lines enters them and goes on with what follows. -/
theorem loadBody_of_accepted {lines : List (Symbol × List Byte)} (reset : s.atReset) (ok : RecordOk s.maxCnt lines)
    (data : s.fsrc.data = lines.flatMap lineOf ++ rest) (go : neverFails s.fsrc.fails) :
    ∃ fuel, loadBody s = (loadLines (fuel + 1) >>= fun _ => modify (·.enter .table)) (s.atLoad.loaded lines) ∧
      (s.atLoad.loaded lines).Ahead .fsrc rest ∧ (s.atLoad.loaded lines).TableOk ∧
      fuel + lines.length = s.fsrc.data.length := by
  have ahead : s.atLoad.Ahead .fsrc (lines.flatMap lineOf ++ rest) := by
    rw [← data]
    exact State.opened_ahead (p := .fsrc) (s := s.setMode .dec) go
  have accepts : s.atLoad.Accepts lines :=
    ⟨ok.counts, ok.distinct, fun l _ => reset.ftPres_eq l.1, by
      change s.total + _ ≤ s.maxCnt
      rw [reset.total_eq, Nat.zero_add]
      exact ok.fits⟩
  have opened : s.atLoad.TableOk :=
    have ok := reset.tableOk
    ⟨ok.absent, ok.nsyms, ok.total, ok.fits⟩
  have enough : lines.length ≤ s.fsrc.data.length := by
    rw [data, List.length_append]
    exact (length_le_length_flatMap_lineOf lines).trans (Nat.le_add_right _ _)
  obtain ⟨looped, left⟩ := loadLines_of_accepted ahead accepts (s.fsrc.data.length - lines.length + 1)
  refine ⟨s.fsrc.data.length - lines.length, ?_, left, opened.loaded accepts, by omega⟩
  have unread : s.atLoad.fsrc.unread + 1 = lines.length + (s.fsrc.data.length - lines.length + 1) := by
    have h : s.atLoad.fsrc.unread = s.fsrc.data.length := (congrArg List.length data ▸ ahead.unread :)
    omega
  rw [loadBody, Proc.modify_bind_run, Proc.bind_of_ok (openSource_of_neverFails (p := .fsrc) (s := s.setMode .dec) go),
    Proc.get_bind_run]
  change (loadLines (s.atLoad.fsrc.unread + 1) >>= fun _ => modify (·.enter .table)) s.atLoad = _
  rw [unread, Proc.bind_run, looped, ← Proc.bind_run]

theorem exec_load_of_ok {t : State} (idle : s.phase = .idle) (ok : loadBody s = .ok () t) : exec .load s = .next t :=
  exec_of_ok rfl idle ok

theorem exec_load_of_raised {t : State} {e : ErrorKind} (idle : s.phase = .idle)
    (raised : loadBody s = .error (.raised e) t) : exec .load s = .next (t.raiseError e 0x12) :=
  exec_of_raised rfl idle raised

theorem loadLines_of_end (ahead : s.Ahead .fsrc []) (fuel : Nat) : loadLines (fuel + 1) s = .ok () (s.sawEnd .fsrc) :=
  Proc.bind_of_ok ahead.getByte_end

/-- `LOAD` of an accepted record gives a table whose registers agree and which holds the record's counts. -/
theorem exec_load_of_record {lines : List (Symbol × List Byte)} (reset : s.atReset) (record : RecordOk s.maxCnt lines)
    (data : s.fsrc.data = lines.flatMap lineOf) (go : neverFails s.fsrc.fails) :
    ∃ t, exec .load s = .next t ∧ t.TableOk ∧ (∀ b, atSym t.ftPres b = (lines.map (·.1)).contains b) ∧
      (∀ l ∈ lines, atSym t.ftCnt l.1 = digitsValue l.2) ∧
      t = { s with
        mode := .dec, phase := .table, portHeld := 0b001000
        ftPres := t.ftPres, ftCnt := t.ftCnt
        nsyms := BitVec.ofNat 9 lines.length, total := (lines.map fun l => digitsValue l.2).sum
        fsrc := { s.fsrc with pos := s.fsrc.data.length, fails := t.fsrc.fails } } := by
  obtain ⟨fuel, looped, left, ok, -⟩ := loadBody_of_accepted (rest := []) reset record
    (by rw [data, List.append_nil]) go
  have loaded : loadBody s = .ok () (((s.atLoad.loaded lines).sawEnd .fsrc).enter .table) :=
    looped.trans (Proc.bind_of_ok (loadLines_of_end left fuel))
  have pres (b : Symbol) : atSym (s.atLoad.loaded lines).ftPres b = (lines.map (·.1)).contains b := by
    rw [State.loaded_ftPres, show atSym s.atLoad.ftPres b = false from reset.ftPres_eq b, Bool.false_or]
  refine ⟨_, exec_load_of_ok reset.phase_eq loaded, ⟨ok.absent, ok.nsyms, ok.total, ok.fits⟩, pres,
    fun l mem => State.loaded_ftCnt_of_mem record.distinct mem, ?frame⟩
  have perm : (s.atLoad.loaded lines).presentSymbols.Perm (lines.map (·.1)) := by
    refine (List.perm_ext_iff_of_nodup (presentSymbols_nodup _) record.distinct).mpr fun b => ?_
    rw [mem_presentSymbols, pres, List.contains_iff_mem]
  have nsyms : (s.atLoad.loaded lines).nsyms = BitVec.ofNat 9 lines.length := by
    have length := perm.length_eq
    rw [List.length_map] at length
    rw [← length, ← ok.nsyms, BitVec.ofNat_toNat, BitVec.setWidth_eq]
  have begins : s.atLoad =
      { s with mode := .dec, portHeld := 0b001000, fsrc := { s.fsrc with pos := 0, fails := s.fsrc.fails.tail } } := by
    have held : setBit s.portHeld 3 true = 0b001000 := by
      rw [reset.portHeld_eq]
      decide
    rw [← held]
    rfl
  refine (congrArg (fun v => (v.sawEnd .fsrc).enter .table) (s.atLoad.loaded_frame lines)).trans ?_
  rw [nsyms]
  simp only [begins, data, reset.total_eq, State.sawEnd, State.enter, State.setSource, State.source, Nat.zero_add]

/-- Settles O20: the loop enters the lines one after another, and the table's registers stay in agreement. -/
theorem loadReadsAnyRecord : Obligations.LoadReadsAnyRecord := by
  unfold Obligations.LoadReadsAnyRecord
  intro s lines reset record data go
  obtain ⟨t, ran, ok, pres, counts, frame⟩ := exec_load_of_record reset record data go
  exact ⟨t, ran, pres, counts, ok.absent, frame⟩

end Sys2Proof.Machine
end

section
/-!
PROOFS. `LOAD` of a record that has a defect after its accepted lines (spec/42_freqtable.md R104, R105, R185).
-/

namespace Sys2Proof.Machine

variable {s : State} {bytes rest ds : List Byte} {b : Symbol} {e : ErrorKind}

/-- A procedure raises an error from a state. -/
def Raises {α : Type} (e : ErrorKind) (x : Proc α) (s : State) : Prop := ∃ t, x s = .error (.raised e) t

theorem Raises.bind {α β : Type} {x : Proc α} (h : Raises e x s) (f : α → Proc β) : Raises e (x >>= f) s := by
  obtain ⟨t, raised⟩ := h
  exact ⟨t, Proc.bind_of_error raised⟩

theorem Raises.of_eq {α : Type} {x y : Proc α} {t : State} (h : Raises e y t) (eq : x s = y t) : Raises e x s := by
  obtain ⟨u, raised⟩ := h
  exact ⟨u, eq.trans raised⟩

/-! ### Defects of a line -/

theorem loadLines_of_badFirst {c : Byte} (ahead : s.Ahead .fsrc (c :: bytes)) (bad : binDigit? (some c) = none)
    (fuel : Nat) : Raises .formatError (loadLines (fuel + 1)) s := by
  have symbol : Raises .formatError (loadSymbol 7 (some c) 0) (s.advance .fsrc 1) := ⟨_, loadSymbol_of_bad bad 7 0 _⟩
  exact ((symbol.bind _).bind _).of_eq (Proc.bind_of_ok ahead.getByte)

/-- A symbol field that stops after some digits, at a character that is none or at the end. -/
theorem loadLines_of_badSymbol {k : Nat} (some : 0 < k) (short : k < 8)
    (ahead : s.Ahead .fsrc ((bin8 b).take k ++ rest)) (bad : binDigit? rest.head? = none) (fuel : Nat) :
    Raises .formatError (loadLines (fuel + 1)) s := by
  obtain ⟨d, ds, digits⟩ : ∃ d ds, (bitsOfByte b).take k = d :: ds :=
    List.exists_cons_of_length_pos (by rw [List.length_take, length_bitsOfByte]; omega)
  have length : ds.length + (7 - k + 1) = 7 := by
    have h := congrArg List.length digits
    rw [List.length_take, length_bitsOfByte, List.length_cons] at h
    omega
  rw [bin8_eq_map, ← List.map_take, digits] at ahead
  have symbol : Raises .formatError (loadSymbol 7 (.some (binChar d)) 0) (s.advance .fsrc 1) := by
    have h := loadSymbol_of_badAfter (d := d) (s := s.advance .fsrc 1) ahead.tail bad (7 - k) 0
    rwa [length] at h
  exact ((symbol.bind _).bind _).of_eq (Proc.bind_of_ok ahead.getByte)

theorem loadLines_of_badColon (ahead : s.Ahead .fsrc (bin8 b ++ rest)) (bad : rest.head? ≠ some chColon) (fuel : Nat) :
    Raises .formatError (loadLines (fuel + 1)) s := by
  obtain ⟨symbol, left⟩ := loadLines_of_symbol ahead fuel
  exact (Raises.bind (loadColon_of_bad left bad) _).of_eq symbol

/-- A line whose count field or whose entry is refused. -/
theorem loadLines_of_badCount (ahead : s.Ahead .fsrc (bin8 b ++ chColon :: bytes))
    (bad : (s.advance .fsrc 9).Ahead .fsrc bytes → Raises e (loadCountOf b) (s.advance .fsrc 9)) (fuel : Nat) :
    Raises e (loadLines (fuel + 1)) s := by
  obtain ⟨symbol, left⟩ := loadLines_of_symbol ahead fuel
  have count := bad (by simpa [State.advance_advance] using left.tail)
  refine (count.bind fun _ => loadLines fuel).of_eq (symbol.trans ?_)
  rw [Proc.bind_of_ok (loadColon_of_colon left), State.advance_advance]

theorem loadCountOf_of_badEnd (ahead : s.Ahead .fsrc (ds ++ rest)) (digits : areDigits ds)
    (fits : digitsValue ds ≤ s.maxCnt)
    (bad : ∀ c, rest.head? = some c → decDigit? c = none ∧ (c = chLF → ds = [])) :
    Raises .formatError (loadCountOf b) s := by
  obtain ⟨counted, left⟩ := loadCount_of_digits ahead digits (n := 0) fits (rest.length + 1) 0
  have stops : Raises .formatError (loadCount (ds.length + (rest.length + 1)) 0 0) s := by
    refine Raises.of_eq (loadCount_of_bad left (fun c head => ?_) _ _) counted
    exact ⟨(bad c head).1, fun lf => by rw [(bad c head).2 lf]; rfl⟩
  exact (stops.bind _).of_eq (loadCountOf_eq ahead)

theorem loadCountOf_of_overflow (ahead : s.Ahead .fsrc (ds ++ rest)) (digits : areDigits ds)
    (overflow : s.maxCnt < digitsValue ds) : Raises .capacityError (loadCountOf b) s := by
  have stops : Raises .capacityError (loadCount (ds.length + (rest.length + 1)) 0 0) s :=
    loadCount_of_overflow ahead digits (Nat.zero_le _) overflow _ _
  exact (stops.bind _).of_eq (loadCountOf_eq ahead)

theorem loadLines_of_badEntry (ahead : s.Ahead .fsrc (lineOf (b, ds) ++ bytes)) (count : isCount ds)
    (fits : digitsValue ds ≤ s.maxCnt)
    (bad : Raises e (loadEntry b (digitsValue ds)) (s.advance .fsrc (lineOf (b, ds)).length)) (fuel : Nat) :
    Raises e (loadLines (fuel + 1)) s :=
  (bad.bind _).of_eq (loadLines_of_line ahead count fits fuel).1

/-! ### The command -/

/-- A record whose lines are accepted up to a defect ends `LOAD` with the error of the defect. -/
theorem exec_load_of_defect {lines : List (Symbol × List Byte)} (reset : s.atReset) (ok : RecordOk s.maxCnt lines)
    (data : s.fsrc.data = lines.flatMap lineOf ++ rest) (go : neverFails s.fsrc.fails)
    (defect : ∀ t : State, t.Ahead .fsrc rest → (∀ b, atSym t.ftPres b = (lines.map (·.1)).contains b) →
      t.total = (lines.map fun l => digitsValue l.2).sum → t.maxCnt = s.maxCnt →
      ∀ fuel, Raises e (loadLines (fuel + 1)) t) :
    ∃ t, exec .load s = .next t ∧ t.phase = .fault ∧ t.err = some e ∧ t.errCmd = 0x12 ∧ t.portHeld = 0 := by
  obtain ⟨fuel, looped, left, -, -⟩ := loadBody_of_accepted reset ok data go
  have pres (b : Symbol) : atSym (s.atLoad.loaded lines).ftPres b = (lines.map (·.1)).contains b := by
    rw [State.loaded_ftPres, show atSym s.atLoad.ftPres b = false from reset.ftPres_eq b, Bool.false_or]
  have total : (s.atLoad.loaded lines).total = (lines.map fun l => digitsValue l.2).sum := by
    rw [State.loaded_frame, show s.atLoad.total = 0 from reset.total_eq, Nat.zero_add]
  have maxCnt : (s.atLoad.loaded lines).maxCnt = s.maxCnt := by
    rw [State.loaded_frame]
    rfl
  obtain ⟨t, raised⟩ := (defect _ left pres total maxCnt fuel).bind fun _ => modify (·.enter .table)
  exact ⟨_, exec_load_of_raised reset.phase_eq (looped.trans raised), rfl, rfl, rfl, rfl⟩

/-- Settles O21: the loop enters the accepted lines and meets the first defect of what follows. -/
theorem loadRefusesBadLines : Obligations.LoadRefusesBadLines := by
  unfold Obligations.LoadRefusesBadLines
  intro s lines bad rest b ds reset ok data go
  rw [List.append_assoc] at data
  refine ⟨fun k c short zero one shape => ?symbol, fun k some short shape none => ?symbolEnd, fun c other shape =>
    ?colon,
    fun shape => ?noCount, fun digits fits c notDigit notLF shape => ?count, fun digits fits shape none => ?countEnd,
    fun count fits present shape => ?twice, fun count overflow shape => ?overflow,
    fun count fits absent overflow shape => ?sum⟩
  all_goals subst shape
  case symbol =>
    have notDigit := binDigit?_eq_none zero one
    refine exec_load_of_defect reset ok data go fun t ahead _ _ _ fuel => ?_
    rw [List.append_assoc] at ahead
    obtain rfl | some := Nat.eq_zero_or_pos k
    · exact loadLines_of_badFirst ahead notDigit fuel
    · exact loadLines_of_badSymbol some short ahead notDigit fuel
  case symbolEnd =>
    subst none
    refine exec_load_of_defect reset ok data go fun t ahead _ _ _ fuel => ?_
    obtain short | rfl := Nat.lt_or_eq_of_le short
    · exact loadLines_of_badSymbol some short ahead rfl fuel
    · exact loadLines_of_badColon ahead nofun fuel
  case colon =>
    refine exec_load_of_defect reset ok data go fun t ahead _ _ _ fuel => ?_
    rw [List.append_assoc] at ahead
    exact loadLines_of_badColon ahead (by simpa [chColon] using other) fuel
  case noCount =>
    refine exec_load_of_defect reset ok data go fun t ahead _ _ _ fuel => ?_
    rw [List.append_assoc] at ahead
    refine loadLines_of_badCount ahead (fun left => ?_) fuel
    refine loadCountOf_of_badEnd (ds := []) left nofun (Nat.zero_le _) fun c head => ?_
    have lf : chLF = c := Option.some.inj head
    exact ⟨lf ▸ by decide, fun _ => rfl⟩
  case count =>
    refine exec_load_of_defect reset ok data go fun t ahead _ _ maxCnt fuel => ?_
    simp only [List.append_assoc] at ahead
    refine loadLines_of_badCount ahead (fun left => ?_) fuel
    refine loadCountOf_of_badEnd (ds := ds) left digits (maxCnt.symm ▸ fits) fun a head => ?_
    obtain rfl : c = a := by simpa using head
    exact ⟨decDigit?_of_not_digit notDigit, fun lf => absurd lf notLF⟩
  case countEnd =>
    subst none
    refine exec_load_of_defect reset ok data go fun t ahead _ _ maxCnt fuel => ?_
    simp only [List.append_assoc] at ahead
    refine loadLines_of_badCount ahead (fun left => ?_) fuel
    exact loadCountOf_of_badEnd (ds := ds) left digits (maxCnt.symm ▸ fits) nofun
  case twice =>
    refine exec_load_of_defect reset ok data go fun t ahead pres _ maxCnt fuel => ?_
    refine loadLines_of_badEntry ahead count (maxCnt.symm ▸ fits) ⟨_, loadEntry_of_present ?_ _⟩ fuel
    exact (pres b).trans (List.contains_iff_mem.mpr present)
  case overflow =>
    refine exec_load_of_defect reset ok data go fun t ahead _ _ maxCnt fuel => ?_
    simp only [List.append_assoc] at ahead
    refine loadLines_of_badCount ahead (fun left => ?_) fuel
    exact loadCountOf_of_overflow (ds := ds) left count.2 (maxCnt.symm ▸ overflow)
  case sum =>
    refine exec_load_of_defect reset ok data go fun t ahead pres total maxCnt fuel => ?_
    refine loadLines_of_badEntry ahead count (maxCnt.symm ▸ fits) ⟨_, loadEntry_of_overflow ?_ ?_⟩ fuel
    · exact (pres b).trans (by simpa using absent)
    · change t.maxCnt < t.total + _
      rwa [total, maxCnt]

end Sys2Proof.Machine
end

section
/-!
PROOFS. What `LOAD` makes of the record that `PERSIST` wrote (spec/42_freqtable.md R106).
-/

namespace Sys2Proof.Machine

variable {s t : State}

/-- A function that is 0 at the absent symbols has the same sum over the present symbols as over all. -/
theorem sum_presentSymbols (f : Symbol → Nat) (absent : ∀ b, atSym s.ftPres b = false → f b = 0) :
    (s.presentSymbols.map f).sum = (allSymbols.map f).sum := by
  rw [presentSymbols_eq_filter]
  generalize allSymbols = ids
  induction ids with
  | nil => rfl
  | cons b ids ih =>
    rw [List.filter_cons]
    cases present : atSym s.ftPres b with
    | true => simp [ih]
    | false => simp [ih, absent b present]

theorem State.TableOk.sum_counts (ok : s.TableOk) : (s.presentSymbols.map (atSym s.ftCnt)).sum = s.total := by
  rw [sum_presentSymbols _ ok.absent, ok.total]

/-- The presence bits and the counts determine the table's two totals. -/
theorem State.TableOk.totals_eq (hs : s.TableOk) (ht : t.TableOk) (pres : t.ftPres = s.ftPres)
    (counts : t.ftCnt = s.ftCnt) : t.nsyms = s.nsyms ∧ t.total = s.total :=
  ⟨BitVec.eq_of_toNat_eq (by rw [ht.nsyms, hs.nsyms, presentSymbols_congr pres]), by rw [ht.total, hs.total, counts]⟩

/-- The lines of the record of a table (R102). -/
def State.tableLines (s : State) : List (Symbol × List Byte) :=
  s.presentSymbols.map fun b => (b, decimal (atSym s.ftCnt b))

theorem State.tableLines_symbols (s : State) : s.tableLines.map (·.1) = s.presentSymbols := by
  simp [State.tableLines, Function.comp_def]

theorem State.tableLines_counts (s : State) :
    (s.tableLines.map fun l => digitsValue l.2) = s.presentSymbols.map (atSym s.ftCnt) := by
  simp [State.tableLines, Function.comp_def]

/-- The record of a table is one that `LOAD` accepts. -/
theorem State.TableOk.recordOk (ok : s.TableOk) : RecordOk s.maxCnt s.tableLines where
  counts l mem := by
    obtain ⟨b, -, rfl⟩ := List.mem_map.mp mem
    exact ⟨decimal_ne_nil _, areDigits_decimal _⟩
  distinct := by
    rw [s.tableLines_symbols]
    exact presentSymbols_nodup s
  fits := by
    rw [s.tableLines_counts, ok.sum_counts]
    exact ok.fits

/-- Loading the record of a table gives the table. -/
theorem exec_load_of_tableLines (ok : t.TableOk) (reset : s.atReset) (width : s.cntW = t.cntW)
    (data : s.fsrc.data = t.tableLines.flatMap lineOf) (go : neverFails s.fsrc.fails) :
    ∃ w, exec .load s = .next w ∧ w.TableOk ∧ w.ftPres = t.ftPres ∧ w.ftCnt = t.ftCnt ∧
      w = { s with
        mode := .dec, phase := .table, portHeld := 0b001000
        ftPres := w.ftPres, ftCnt := w.ftCnt, nsyms := w.nsyms, total := w.total
        fsrc := { s.fsrc with pos := s.fsrc.data.length, fails := w.fsrc.fails } } := by
  have maxCnt : s.maxCnt = t.maxCnt := congrArg Config.maxCntOf width
  obtain ⟨w, ran, ok', pres, counts, frame⟩ := exec_load_of_record reset (maxCnt ▸ ok.recordOk) data go
  have pres' (b : Symbol) : atSym w.ftPres b = atSym t.ftPres b := by
    rw [pres, t.tableLines_symbols, Bool.eq_iff_iff, List.contains_iff_mem, mem_presentSymbols]
  refine ⟨w, ran, ok', vector_ext_atSym pres', vector_ext_atSym fun b => ?_, ?frame⟩
  · cases present : atSym t.ftPres b with
    | false => rw [ok'.absent b ((pres' b).trans present), ok.absent b present]
    | true =>
      have mem : (b, decimal (atSym t.ftCnt b)) ∈ t.tableLines :=
        List.mem_map.mpr ⟨b, (mem_presentSymbols t b).mpr present, rfl⟩
      exact (counts _ mem).trans (digitsValue_decimal _)
  case frame =>
    conv_lhs => rw [frame]
    rw [show w.nsyms = _ from congrArg State.nsyms frame, show w.total = _ from congrArg State.total frame]

theorem State.atReset.calm (reset : s.atReset) : s.calm.atReset :=
  show s.calm.cleared = s.calm from (congrArg State.calm reset :)

/-- Settles O22: the scanned table's registers agree, and its record is one that `LOAD` accepts. -/
theorem tableFidelity : Obligations.TableFidelity := by
  unfold Obligations.TableFidelity
  intro s t u v reset scanned table persisted written reset' width data go
  have scanned' := Calms.primitive rfl s t scanned (by simp [table])
  have persisted' := Calms.primitive rfl t u persisted (by simp [written])
  have fits : s.calm.src.data.length ≤ s.calm.maxCnt := by
    by_contra exceeds
    obtain ⟨x, ran, fault, -⟩ := scanOverCapacityFaults s.calm reset.calm (Nat.lt_of_not_le exceeds) nofun
    obtain rfl : t.calm = x := by simpa [scanned'] using ran
    exact absurd (fault.symm.trans table) nofun
  obtain ⟨x, ran, ok, -, frame⟩ := exec_scan_of_fits reset.calm fits nofun
  obtain rfl : t.calm = x := by simpa [scanned'] using ran
  obtain ⟨x, ran, frame'⟩ := persistWritesTheRecord t.calm table (congrArg State.mode frame) nofun
  obtain rfl : u.calm = x := by simpa [persisted'] using ran
  have record : v.fsrc.data = t.calm.tableLines.flatMap lineOf := by
    refine data.trans ((congrArg (·.fsink.data) frame').trans ?_)
    rw [State.tableLines, presentSymbols_eq_filter, List.flatMap_map]
    rfl
  have width' : v.cntW = t.calm.cntW := width.trans (congrArg State.cntW frame).symm
  obtain ⟨w, loaded, ok', pres, counts, frame''⟩ := exec_load_of_tableLines ok reset' width' record go
  obtain ⟨nsyms, total⟩ := ok.totals_eq ok' pres counts
  exact ⟨w, loaded, congrArg State.phase frame'', pres, counts, nsyms, total⟩

end Sys2Proof.Machine
end

section
/-!
PROOFS. The bits of bytes, and the bytes of bits (spec/20_memory.md R48, spec/30_encoding.md R71).
-/

namespace Sys2Proof.Machine

variable {v : Byte} {bits : List Bit} {n : Nat}

theorem length_flatMap_bitsOfByte (bytes : List Byte) : (bytes.flatMap bitsOfByte).length = 8 * bytes.length := by
  induction bytes with
  | nil => rfl
  | cons b bytes ih => rw [List.flatMap_cons, List.length_append, ih, length_bitsOfByte, List.length_cons]; omega

theorem getElem?_bitsOfByte (v : Byte) {i : Nat} (h : i < 8) : (bitsOfByte v)[i]? = some (v.getLsbD (7 - i)) := by
  simp [bitsOfByte, h]

theorem bitsOfByte_injective {v w : Byte} (h : bitsOfByte v = bitsOfByte w) : v = w := by
  refine BitVec.eq_of_getLsbD_eq fun j hj => ?_
  have bit := congrArg (·[7 - j]?) h
  simp only [getElem?_bitsOfByte _ (show 7 - j < 8 by omega), Option.some.injEq, show 7 - (7 - j) = j by omega] at bit
  exact bit

/-- Different byte sequences have different bits. -/
theorem flatMap_bitsOfByte_injective {a b : List Byte} (h : a.flatMap bitsOfByte = b.flatMap bitsOfByte) : a = b := by
  induction a generalizing b with
  | nil =>
    have length := congrArg List.length h
    rw [length_flatMap_bitsOfByte, length_flatMap_bitsOfByte, List.length_nil] at length
    exact (List.length_eq_zero_iff.mp (by omega)).symm
  | cons v a ih =>
    cases b with
    | nil => simp [bitsOfByte] at h
    | cons w b =>
      obtain ⟨first, rest⟩ := List.append_inj h (by simp)
      rw [bitsOfByte_injective first, ih rest]

/-- Writing bit `7 - n` extends the first `n` bits of a byte by that bit. -/
theorem take_bitsOfByte_setBit (v : Byte) (b : Bit) (h : n < 8) :
    (bitsOfByte (setBit v (7 - n) b)).take (n + 1) = (bitsOfByte v).take n ++ [b] := by
  have shorter (m : Nat) (hm : m ≤ 8) (w : Byte) :
      (bitsOfByte w).take m = (List.range m).map fun i => w.getLsbD (7 - i) := by
    rw [bitsOfByte, ← List.map_take, List.take_range, Nat.min_eq_left hm]
  rw [shorter _ h, shorter _ h.le, List.range_succ, List.map_append]
  refine congrArg₂ (· ++ ·) (List.map_congr_left fun i hi => ?_) ?_
  · rw [List.mem_range] at hi
    rw [setBit_getLsbD, if_neg (by omega)]
  · simp [setBit_getLsbD, show 7 - n < 8 by omega]

/-! ### The payload -/

/-- Bits from a position down are written one after another. -/
theorem getLsbD_foldl_setBit (f : Nat → Bit) {j : Nat} (hj : j < 8) (hn : n ≤ 8) :
    ((List.range n).foldl (fun v i => setBit v (7 - i) (f i)) (0 : Byte)).getLsbD j =
      (decide (7 - j < n) && f (7 - j)) := by
  induction n with
  | zero => simp
  | succ n ih =>
    rw [List.range_succ, List.foldl_append, List.foldl_cons, List.foldl_nil, setBit_getLsbD, ih (by omega)]
    by_cases h : j = 7 - n
    · rw [if_pos h]
      simp [show 7 - j = n by omega, show 7 - n < 8 by omega]
    · rw [if_neg h]
      simp [show 7 - j < n + 1 ↔ 7 - j < n by omega]

theorem bitsOfByte_byteOfBits (bits : List Bit) : bitsOfByte (byteOfBits bits) =
    (bits ++ List.replicate 8 false).take 8 := by
  refine List.ext_getElem (by simp) fun i hi _ => ?_
  have hi : i < 8 := by simpa using hi
  have bit : (byteOfBits bits).getLsbD (7 - i) = bits.getD i false := by
    rw [byteOfBits, getLsbD_foldl_setBit _ (by omega) (Nat.le_refl 8), show 7 - (7 - i) = i by omega]
    simp [hi]
  simp only [bitsOfByte, List.getElem_map, List.getElem_range, bit, List.getElem_take, List.getElem_append,
    List.getElem_replicate]
  split
  · next inside => rw [List.getD_eq_getElem _ _ inside]
  · next outside => rw [List.getD_eq_default _ _ (by omega)]

theorem payloadOf_nil : payloadOf [] = [] := rfl

theorem payloadOf_of_pos (some : 0 < bits.length) : payloadOf bits = byteOfBits bits :: payloadOf (bits.drop 8) := by
  have bytes : (bits.length + 7) / 8 = ((bits.drop 8).length + 7) / 8 + 1 := by
    rw [List.length_drop]
    omega
  rw [payloadOf, bytes, List.range_succ_eq_map, List.map_cons, List.map_map, payloadOf]
  refine congrArg₂ _ (by simp) (List.map_congr_left fun k _ => ?_)
  simp [List.drop_drop, Nat.mul_succ, Nat.add_comm]

@[simp] theorem length_payloadOf (bits : List Bit) : (payloadOf bits).length = (bits.length + 7) / 8 := by
  simp [payloadOf]

/-- The bits of a payload are the bits it was made of and zeros up to the end of its last byte (R71). -/
theorem flatMap_bitsOfByte_payloadOf (bits : List Bit) :
    (payloadOf bits).flatMap bitsOfByte = bits ++ List.replicate (8 * ((bits.length + 7) / 8) - bits.length) false := by
  induction hn : bits.length using Nat.strong_induction_on generalizing bits with
  | h n ih =>
    obtain none | some := Nat.eq_zero_or_pos bits.length
    · obtain rfl : n = 0 := hn.symm.trans none
      simp [List.length_eq_zero_iff.mp none, payloadOf_nil]
    · have length : (bits.drop 8).length = n - 8 := by rw [List.length_drop, hn]
      rw [payloadOf_of_pos some, List.flatMap_cons, bitsOfByte_byteOfBits, ih (n - 8) (by omega) _ length]
      by_cases short : n ≤ 8
      · have last : n - 8 = 0 := by omega
        rw [List.drop_eq_nil_iff.mpr (by omega), List.take_append, List.take_of_length_le (by omega), last, hn,
          List.take_replicate]
        simp only [Nat.zero_add, List.nil_append, List.append_assoc, List.replicate_append_replicate]
        congr 2
        omega
      · rw [List.take_append_of_le_length (by omega), ← List.append_assoc, List.take_append_drop]
        congr 2
        omega

/-- The payload is the only byte sequence with its bits. -/
theorem eq_payloadOf {bytes : List Byte} (h : bytes.flatMap bitsOfByte = bits ++ List.replicate n false) (hn : n < 8) :
    bytes = payloadOf bits := by
  refine flatMap_bitsOfByte_injective ?_
  have length := congrArg List.length h
  rw [length_flatMap_bitsOfByte, List.length_append, List.length_replicate] at length
  rw [h, flatMap_bitsOfByte_payloadOf]
  congr 2
  omega

end Sys2Proof.Machine
end

section
/-!
PROOFS. The bit writer (spec/41_bitio.md R90 to R93).
-/

namespace Sys2Proof.Machine

variable {s t u : State} {bits : List Bit} {b : Bit}

/-! ### One bit -/

theorem putBit_of_room (room : s.bwN.val < 7) (b : Bit) : putBit b s = .ok () (s.placeBit b).countBit := by
  have notFull : (s.placeBit b).bwN ≠ 7 := fun full => by
    have value : s.bwN.val = 7 := congrArg Fin.val full
    omega
  rw [putBit, Proc.modify_bind_run, Proc.get_bind_run, if_neg notFull, Proc.modify_run]

theorem putBit_of_full (full : s.bwN = 7) (b : Bit) : putBit b s = putAcc (s.placeBit b) := by
  rw [putBit, Proc.modify_bind_run, Proc.get_bind_run, if_pos (show (s.placeBit b).bwN = 7 from full)]

theorem putAcc_of_go (held : s.held 2 = true) (go : failsNext s.esink.fails = false) :
    putAcc s = .ok () (s.setSink .esink ⟨s.esink.data ++ [s.bwAcc], s.esink.fails.tail⟩).emptyAcc := by
  rw [putAcc, Proc.get_bind_run, Proc.bind_of_ok (putByte_of_go (q := .esink) held go)]
  rfl

theorem putAcc_of_fail (held : s.held 2 = true) (fails : failsNext s.esink.fails = true) :
    putAcc s = .error (.raised .ioError) (s.setSink .esink { s.esink with fails := s.esink.fails.tail }) := by
  rw [putAcc, Proc.get_bind_run, Proc.bind_of_error (putByte_of_fail (q := .esink) held fails)]
  rfl

theorem flushBits_of_none (none : s.bwN = 0) : flushBits s = .ok () s := by
  rw [flushBits, Proc.get_bind_run, if_pos none, Proc.pure_run]

theorem flushBits_of_pending (pending : s.bwN ≠ 0) : flushBits s = putAcc s := by
  rw [flushBits, Proc.get_bind_run, if_neg pending]

/-- The positions of `BW_ACC` that are not filled are 0 (R91). -/
def State.Unfilled (s : State) : Prop := ∀ i, i + s.bwN.val ≤ 7 → s.bwAcc.getLsbD i = false

theorem State.emptyAcc_unfilled (s : State) : s.emptyAcc.Unfilled := fun _ _ => BitVec.getLsbD_zero

theorem countBit_bwN_val (room : s.bwN.val < 7) : s.countBit.bwN.val = s.bwN.val + 1 := by
  have one : (1 : Fin 8).val = 1 := rfl
  rw [State.countBit_bwN, Fin.val_add, one, Nat.mod_eq_of_lt (by omega)]

theorem State.Unfilled.placeBit (h : s.Unfilled) (room : s.bwN.val < 7) : (s.placeBit b).countBit.Unfilled := by
  intro i hi
  rw [countBit_bwN_val (s := s.placeBit b) room] at hi
  have hi : i + (s.bwN.val + 1) ≤ 7 := hi
  change (setBit s.bwAcc (7 - s.bwN.val) b).getLsbD i = false
  rw [setBit_getLsbD, if_neg (by omega), h i (by omega)]

/-- Settles O35: the cases of `PutBit` and of `FlushBits`. -/
theorem bitWriterFillsBytesFromTheTop : Obligations.BitWriterFillsBytesFromTheTop := by
  unfold Obligations.BitWriterFillsBytesFromTheTop
  intro s b
  have counted (room : s.bwN.val < 7) : s.bwN + 1 = ⟨s.bwN.val + 1, by omega⟩ := Fin.ext (countBit_bwN_val room)
  refine ⟨fun i hi => ?bits, fun room => ⟨?room, fun unfilled i hi => ?unfilled⟩, fun held full go => ?full,
    fun held full fails => ?fullFails, flushBits_of_none, fun held pending go => ?flush,
    fun held pending fails => ?flushFails⟩
  case bits =>
    rw [setBit_getLsbD]
    simp [show 7 - s.bwN.val < 8 by omega]
  case room =>
    rw [putBit_of_room room, ← counted room]
    rfl
  case unfilled =>
    refine State.Unfilled.placeBit (b := b) unfilled room i ?_
    rwa [countBit_bwN_val (s := s.placeBit b) room]
  case full =>
    rw [putBit_of_full full, putAcc_of_go (s := s.placeBit b) held go]
    rfl
  case fullFails =>
    rw [putBit_of_full full, putAcc_of_fail (s := s.placeBit b) held fails]
    rfl
  case flush =>
    rw [flushBits_of_pending pending, putAcc_of_go held go]
    rfl
  case flushFails =>
    rw [flushBits_of_pending pending, putAcc_of_fail held fails]
    rfl

/-! ### A sequence of bits -/

/-- `t` is `s` after these bits have been written with no failing access. -/
structure State.Wrote (s : State) (bits : List Bit) (t : State) : Prop where
  frame    : t = { s with
    bwAcc := t.bwAcc, bwN := t.bwN, bwTotal := s.bwTotal + BitVec.ofNat 64 bits.length, esink := t.esink }
  written  : t.writtenBits = s.writtenBits ++ bits
  kept     : s.esink.data <+: t.esink.data
  go       : neverFails t.esink.fails
  unfilled : s.Unfilled → t.Unfilled

theorem State.Wrote.nil (go : neverFails s.esink.fails) : s.Wrote [] s where
  frame := by simp
  written := by simp
  kept := List.prefix_rfl
  go := go
  unfilled := id

theorem State.Wrote.append {more : List Bit} (first : s.Wrote bits t) (rest : t.Wrote more u) :
    s.Wrote (bits ++ more) u where
  frame := by
    rw [List.length_append, BitVec.ofNat_add, ← BitVec.add_assoc]
    exact rest.frame.trans (by rw [first.frame])
  written := by rw [rest.written, first.written, List.append_assoc]
  kept := first.kept.trans rest.kept
  go := rest.go
  unfilled := rest.unfilled ∘ first.unfilled

theorem State.Wrote.held (h : s.Wrote bits t) (n : Nat) : t.held n = s.held n := by
  rw [h.frame]
  rfl

theorem putBit_wrote (held : s.held 2 = true) (go : neverFails s.esink.fails) (b : Bit) :
    ∃ t, putBit b s = .ok () t ∧ s.Wrote [b] t := by
  have placed (n : Nat) (hn : n = s.bwN.val) : (bitsOfByte (s.placeBit b).bwAcc).take (n + 1) =
      (bitsOfByte s.bwAcc).take s.bwN.val ++ [b] := by
    rw [hn]
    exact take_bitsOfByte_setBit s.bwAcc b s.bwN.isLt
  by_cases room : s.bwN.val < 7
  · refine ⟨_, putBit_of_room room b, rfl, ?_, List.prefix_rfl, go, fun h => h.placeBit room⟩
    rw [State.writtenBits, State.writtenBits, List.append_assoc, countBit_bwN_val (s := s.placeBit b) room]
    exact congrArg _ (placed _ rfl)
  · have full : s.bwN = 7 := Fin.ext (show s.bwN.val = 7 by omega)
    refine ⟨_, (putBit_of_full full b).trans (putAcc_of_go (s := s.placeBit b) held (failsNext_of_neverFails go)),
      rfl, ?_, List.prefix_append _ _, neverFails_tail go, fun _ => State.emptyAcc_unfilled _⟩
    have byte := placed 7 (by omega)
    rw [List.take_of_length_le (by simp)] at byte
    change (s.esink.data ++ [(s.placeBit b).bwAcc]).flatMap bitsOfByte ++ [] = _
    rw [List.append_nil, List.flatMap_append, List.flatMap_singleton, byte, ← List.append_assoc]
    rfl

theorem putBits_wrote (bits : List Bit) (held : s.held 2 = true) (go : neverFails s.esink.fails) :
    ∃ t, putBits bits s = .ok () t ∧ s.Wrote bits t := by
  induction bits generalizing s with
  | nil => exact ⟨s, rfl, .nil go⟩
  | cons b bits ih =>
    obtain ⟨t, put, first⟩ := putBit_wrote held go b
    obtain ⟨u, puts, rest⟩ := ih ((first.held 2).trans held) first.go
    exact ⟨u, (Proc.bind_of_ok put).trans puts, first.append rest⟩

/-- Flushing puts the pending bits and zeros up to the end of their byte (R92). -/
theorem flushBits_wrote (held : s.held 2 = true) (go : neverFails s.esink.fails) (unfilled : s.Unfilled) :
    ∃ t n, flushBits s = .ok () t ∧ n < 8 ∧
      t.esink.data.flatMap bitsOfByte = s.writtenBits ++ List.replicate n false ∧ s.esink.data <+: t.esink.data ∧
      t = { s with bwAcc := t.bwAcc, bwN := 0, esink := t.esink } := by
  by_cases none : s.bwN = 0
  · refine ⟨s, 0, flushBits_of_none none, by decide, ?_, List.prefix_rfl, by rw [← none]⟩
    simp [State.writtenBits, none]
  · have some : 0 < s.bwN.val := Nat.pos_of_ne_zero fun zero => none (Fin.ext zero)
    refine ⟨_, 8 - s.bwN.val, (flushBits_of_pending none).trans (putAcc_of_go held (failsNext_of_neverFails go)),
      by omega, ?_, List.prefix_append _ _, rfl⟩
    have zeros : (bitsOfByte s.bwAcc).drop s.bwN.val = List.replicate (8 - s.bwN.val) false := by
      refine List.eq_replicate_iff.mpr ⟨by simp, fun b mem => ?_⟩
      obtain ⟨i, hi, rfl⟩ := List.mem_iff_getElem.mp mem
      have hi : i < 8 - s.bwN.val := by simpa using hi
      simpa [bitsOfByte] using unfilled (7 - (s.bwN.val + i)) (by omega)
    change (s.esink.data ++ [s.bwAcc]).flatMap bitsOfByte = _
    rw [List.flatMap_append, List.flatMap_singleton, State.writtenBits, List.append_assoc, ← zeros,
      List.take_append_drop]

/-- Bits written to a fresh bit writer and flushed are their payload (R71, R95). -/
theorem State.Wrote.flushed (h : s.Wrote bits t) (held : s.held 2 = true) (none : s.bwN = 0) (clear : s.bwAcc = 0) :
    ∃ u, flushBits t = .ok () u ∧ u.esink.data = s.esink.data ++ payloadOf bits ∧
      u = { t with bwAcc := u.bwAcc, bwN := 0, esink := u.esink } := by
  have fresh : s.Unfilled := fun i _ => by rw [clear]; exact BitVec.getLsbD_zero
  obtain ⟨u, n, flushed, hn, out, kept, frame⟩ := flushBits_wrote ((h.held 2).trans held) h.go (h.unfilled fresh)
  obtain ⟨bytes, data⟩ := h.kept.trans kept
  refine ⟨u, flushed, ?_, frame⟩
  have before : s.writtenBits = s.esink.data.flatMap bitsOfByte := by simp [State.writtenBits, none]
  rw [h.written, before, ← data, List.flatMap_append, List.append_assoc, List.append_cancel_left_eq] at out
  rw [← data, eq_payloadOf out hn]

end Sys2Proof.Machine
end

section
/-!
PROOFS. The bit reader (spec/41_bitio.md R94), and the write-read law (R95).
-/

namespace Sys2Proof.Machine

variable {s t u : State} {bits more : List Bit} {b : Bit}

/-! ### One bit -/

theorem fetchByte_of_end (empty : s.brLeft = 0) (held : s.held 4 = true) (go : failsNext s.esrc.fails = false)
    (atEnd : s.esrc.data.length ≤ s.esrc.pos) :
    fetchByte s = .error (.raised .truncatedStreamError)
      (s.setSource .esrc { s.esrc with fails := s.esrc.fails.tail }) := by
  rw [fetchByte, Proc.get_bind_run, if_pos empty, Proc.bind_of_ok (getByte_of_end (p := .esrc) held go atEnd)]
  rfl

theorem fetchByte_of_fail (empty : s.brLeft = 0) (held : s.held 4 = true) (fails : failsNext s.esrc.fails = true) :
    fetchByte s = .error (.raised .ioError) (s.setSource .esrc { s.esrc with fails := s.esrc.fails.tail }) := by
  rw [fetchByte, Proc.get_bind_run, if_pos empty, Proc.bind_of_error (getByte_of_fail (p := .esrc) held fails)]
  rfl

theorem dropBit_brLeft_val (left : s.brLeft ≠ 0) : s.dropBit.brLeft.val = s.brLeft.val - 1 :=
  Fin.val_sub_one_of_ne_zero left

/-- Settles O36: a bit is fetched where none is left, and then the next bit from the top is answered. -/
theorem getBitReadsBytesFromTheTop : Obligations.GetBitReadsBytesFromTheTop := by
  unfold Obligations.GetBitReadsBytesFromTheTop
  refine fun s held => ⟨fun left => ?left, fun r empty go byte => ?byte, fun empty go atEnd => ?atEnd,
    fun empty fails => ?fails⟩
  case left =>
    have less : s.brLeft - 1 = ⟨s.brLeft.val - 1, by omega⟩ := Fin.ext (dropBit_brLeft_val left)
    rw [getBit_of_fetchByte (fetchByte_of_left left), ← less]
    rfl
  case byte =>
    have seven : (8 : Fin 9) - 1 = 7 := by decide
    rw [getBit_of_fetchByte (fetchByte_of_byte empty held go byte), ← seven]
    rfl
  case atEnd => exact Proc.bind_of_error (fetchByte_of_end empty held go atEnd)
  case fails => exact Proc.bind_of_error (fetchByte_of_fail empty held fails)

/-! ### A sequence of bits -/

/-- The bits that are left to read: those of `BR_BUF` and those of the unread bytes (R32). -/
def State.aheadBits (s : State) : List Bit :=
  (bitsOfByte s.brBuf).drop (8 - s.brLeft.val) ++ (s.esrc.data.drop s.esrc.pos).flatMap bitsOfByte

/-- These bits are left to read from `ESRC`; it is held, and no access to it fails. -/
structure State.Reader (s : State) (bits : List Bit) : Prop where
  held  : s.held 4 = true
  go    : neverFails s.esrc.fails
  ahead : s.aheadBits = bits

/-- `t` is `s` after `n` bits have been read; a byte is fetched only where no bit of the last one is left. -/
structure State.Read (s : State) (n : Nat) (t : State) : Prop where
  frame : t = { s with
    brBuf := t.brBuf, brLeft := t.brLeft, brTotal := s.brTotal + BitVec.ofNat 64 n
    esrc := { s.esrc with pos := t.esrc.pos, fails := t.esrc.fails } }
  moved : 8 * t.esrc.pos + s.brLeft.val = 8 * s.esrc.pos + t.brLeft.val + n
  few   : t.brLeft.val ≤ max s.brLeft.val 7

theorem State.Read.refl (s : State) : s.Read 0 s := ⟨by simp, rfl, Nat.le_max_left _ _⟩

theorem State.Read.trans {m n : Nat} (first : s.Read m t) (rest : t.Read n u) : s.Read (m + n) u where
  frame := by
    rw [BitVec.ofNat_add, ← BitVec.add_assoc]
    exact rest.frame.trans (by rw [first.frame])
  moved := by
    have := first.moved
    have := rest.moved
    omega
  few := by
    have := first.few
    have := rest.few
    omega

theorem State.length_aheadBits (s : State) : s.aheadBits.length = s.brLeft.val + 8 * s.esrc.unread := by
  rw [State.aheadBits, List.length_append, length_flatMap_bitsOfByte, List.length_drop, length_bitsOfByte,
    List.length_drop, Source.unread]
  omega

/-- Fetching loses no bit and leaves one in `BR_BUF`. -/
theorem State.Reader.fetchByte (h : s.Reader (b :: bits)) :
    ∃ t, Machine.fetchByte s = .ok () t ∧ t.Reader (b :: bits) ∧ t.brLeft ≠ 0 ∧
      t = { s with
        brBuf := t.brBuf, brLeft := t.brLeft, esrc := { s.esrc with pos := t.esrc.pos, fails := t.esrc.fails } } ∧
      8 * t.esrc.pos + s.brLeft.val = 8 * s.esrc.pos + t.brLeft.val ∧ t.brLeft.val ≤ max s.brLeft.val 8 := by
  by_cases empty : s.brLeft = 0
  · have length := s.length_aheadBits
    rw [h.ahead, List.length_cons, empty] at length
    have inside : s.esrc.pos < s.esrc.data.length :=
      Nat.lt_of_sub_pos (Nat.pos_of_ne_zero fun none => by rw [Source.unread, none] at length; simp at length)
    refine ⟨_, fetchByte_of_byte empty h.held (failsNext_of_neverFails h.go) (List.getElem?_eq_getElem inside),
      ⟨h.held, neverFails_tail h.go, ?_⟩, nofun, rfl, ?_, Nat.le_max_right _ _⟩
    · rw [← h.ahead, State.aheadBits, State.aheadBits, empty, List.drop_eq_getElem_cons inside, List.flatMap_cons,
        List.drop_of_length_le (l := bitsOfByte s.brBuf) (by simp)]
      rfl
    · rw [empty]
      exact Nat.mul_succ 8 s.esrc.pos
  · exact ⟨s, fetchByte_of_left empty, h, empty, rfl, rfl, Nat.le_max_left _ _⟩

/-- `GetBit` answers the next bit (R94). -/
theorem State.Reader.getBit (h : s.Reader (b :: bits)) :
    ∃ t, Machine.getBit s = .ok b t ∧ t.Reader bits ∧ s.Read 1 t := by
  obtain ⟨t, fetched, ready, left, frame, moved, few⟩ := h.fetchByte
  have some : 0 < t.brLeft.val := Nat.pos_of_ne_zero fun zero => left (Fin.ext zero)
  have inside : 8 - t.brLeft.val < (bitsOfByte t.brBuf).length := by
    rw [length_bitsOfByte]
    omega
  have less := dropBit_brLeft_val left
  have ahead := ready.ahead
  rw [State.aheadBits, List.drop_eq_getElem_cons inside, List.cons_append, List.cons_eq_cons] at ahead
  have bit : t.brBuf.getLsbD (t.brLeft.val - 1) = b := by
    rw [← ahead.1, show t.brLeft.val - 1 = 7 - (8 - t.brLeft.val) by omega]
    simp [bitsOfByte]
  refine ⟨t.dropBit, bit ▸ getBit_of_fetchByte fetched, ⟨ready.held, ready.go, ?_⟩, congrArg State.dropBit frame, ?_,
    ?_⟩
  · rw [← ahead.2, State.aheadBits, less, show 8 - (t.brLeft.val - 1) = 8 - t.brLeft.val + 1 by omega]
    rfl
  · change 8 * t.esrc.pos + s.brLeft.val = _
    rw [less]
    omega
  · rw [less]
    omega

/-- With no bit left `GetBit` raises `TruncatedStreamError` (R94). -/
theorem State.Reader.getBit_end (h : s.Reader []) :
    ∃ t, Machine.getBit s = .error (.raised .truncatedStreamError) t := by
  have length := s.length_aheadBits
  rw [h.ahead, List.length_nil, Source.unread] at length
  have empty : s.brLeft = 0 := Fin.ext (show s.brLeft.val = 0 by omega)
  exact ⟨_, Proc.bind_of_error (fetchByte_of_end empty h.held (failsNext_of_neverFails h.go) (by omega))⟩

theorem State.Reader.getBits (h : s.Reader (bits ++ more)) :
    ∃ t, Machine.getBits bits.length s = .ok bits t ∧ t.Reader more ∧ s.Read bits.length t := by
  induction bits generalizing s with
  | nil => exact ⟨s, rfl, h, .refl s⟩
  | cons b bits ih =>
    obtain ⟨t, first, ready, read⟩ := h.getBit
    obtain ⟨u, rest, ready', read'⟩ := ih ready
    refine ⟨u, (Proc.bind_of_ok first).trans (Proc.bind_of_ok rest), ready', ?_⟩
    rw [List.length_cons, Nat.add_comm]
    exact read.trans read'

/-- A reader with no bit left in `BR_BUF`, at the beginning of a payload. -/
theorem State.Reader.of_payload {before after : List Byte} (held : s.held 4 = true) (go : neverFails s.esrc.fails)
    (empty : s.brLeft = 0) (data : s.esrc.data = before ++ payloadOf bits ++ after) (pos : s.esrc.pos = before.length) :
    ∃ more, s.Reader (bits ++ more) := by
  refine ⟨List.replicate (8 * ((bits.length + 7) / 8) - bits.length) false ++ after.flatMap bitsOfByte, held, go, ?_⟩
  rw [State.aheadBits, empty, List.drop_of_length_le (by simp), data, pos, List.append_assoc, List.drop_left,
    List.flatMap_append, flatMap_bitsOfByte_payloadOf, List.append_assoc]
  rfl

/-- From a fresh byte, `n` bits are read in `ceil(n / 8)` bytes. -/
theorem State.Read.pos_eq {n : Nat} (h : s.Read n t) (empty : s.brLeft = 0) :
    t.esrc.pos = s.esrc.pos + (n + 7) / 8 := by
  have moved := h.moved
  have few := h.few
  rw [empty] at moved few
  have few : t.brLeft.val ≤ 7 := few
  have moved : 8 * t.esrc.pos = 8 * s.esrc.pos + t.brLeft.val + n := moved
  omega

/-- Settles O37: what is flushed is the payload of the bits, and a payload reads back. -/
theorem writtenBitsReadBack : Obligations.WrittenBitsReadBack := by
  unfold Obligations.WrittenBitsReadBack
  intro s bits held go
  obtain ⟨w, wrote, written⟩ := putBits_wrote (s := s.resetBW) bits held go
  obtain ⟨t, flushed, bytes, -⟩ := written.flushed held rfl rfl
  refine ⟨t, payloadOf bits, ?_, bytes, length_payloadOf bits, fun u before after held go data pos => ?_⟩
  · exact (Proc.bind_of_ok wrote).trans flushed
  · obtain ⟨more, ready⟩ := State.Reader.of_payload (s := u.resetBR) held go rfl data pos
    obtain ⟨v, answered, -, read⟩ := ready.getBits
    refine ⟨v, answered, ?_⟩
    rw [read.pos_eq rfl, length_payloadOf, ← pos]
    rfl

end Sys2Proof.Machine
end

section
/-!
PROOFS. Multi-byte values (spec/20_memory.md R46) and `RDHDR` (spec/46_decoder.md R161).
-/

namespace Sys2Proof.Machine

variable {p : SourcePort} {s : State} {bytes rest : List Byte}

/-- The value of bytes after a number, most significant first (R46). -/
def bytesValue (acc : Nat) (bytes : List Byte) : Nat := bytes.foldl (fun n b => 256 * n + b.toNat) acc

theorem bytesValue_lt (acc : Nat) (bytes : List Byte) : bytesValue acc bytes < (acc + 1) * 256 ^ bytes.length := by
  induction bytes generalizing acc with
  | nil => simp [bytesValue]
  | cons b bytes ih =>
    calc bytesValue acc (b :: bytes)
        < (256 * acc + b.toNat + 1) * 256 ^ bytes.length := ih _
      _ ≤ ((acc + 1) * 256) * 256 ^ bytes.length := Nat.mul_le_mul_right _ (by have := b.isLt; omega)
      _ = (acc + 1) * 256 ^ (bytes.length + 1) := by rw [Nat.pow_succ', Nat.mul_assoc]

/-- The bytes of a number, most significant first, have its value. -/
theorem bytesValue_bytesBE (k n : Nat) : bytesValue 0 (bytesBE k n) = n % 256 ^ k := by
  have upper (j : Nat) (hj : j ≤ k) :
      bytesValue 0 ((List.range j).map fun i => BitVec.ofNat 8 (n / 2 ^ (8 * (k - 1 - i)))) =
      n / 256 ^ (k - j) % 256 ^ j := by
    induction j with
    | zero => simp [bytesValue, Nat.mod_one]
    | succ j ih =>
      have shift : n / 256 ^ (k - j) = n / 256 ^ (k - (j + 1)) / 256 := by
        rw [Nat.div_div_eq_div_mul, ← Nat.pow_succ, show (k - (j + 1)).succ = k - j by omega]
      rw [bytesValue] at ih ⊢
      rw [List.range_succ, List.map_append, List.foldl_append, ih (by omega), shift, List.map_singleton, List.foldl_cons,
        List.foldl_nil, BitVec.toNat_ofNat, Nat.pow_mul, show k - 1 - j = k - (j + 1) by omega, Nat.pow_succ' (n := j),
        Nat.add_comm]
      exact Nat.mod_mul.symm
  rw [bytesBE, upper k (Nat.le_refl k), Nat.sub_self, Nat.pow_zero, Nat.div_one]

@[simp] theorem length_bytesBE (k n : Nat) : (bytesBE k n).length = k := by simp [bytesBE]

/-- The bytes ahead are read as one number (R46). -/
theorem memReadFrom_of_enough (ahead : s.Ahead p (bytes ++ rest)) (acc : Nat) :
    memReadFrom p bytes.length acc s = .ok (some (bytesValue acc bytes)) (s.advance p bytes.length) := by
  induction bytes generalizing acc s with
  | nil => exact congrArg _ State.advance_zero.symm
  | cons b bytes ih =>
    rw [List.length_cons, memReadFrom, Proc.bind_of_ok ahead.getByte]
    exact (ih ahead.tail _).trans (by rw [State.advance_advance, Nat.add_comm 1]; rfl)

/-- A source that ends before `n` bytes have been read answers no number (R46). -/
theorem memReadFrom_of_short {n : Nat} (ahead : s.Ahead p bytes) (short : bytes.length < n) (acc : Nat) :
    memReadFrom p n acc s = .ok none ((s.advance p bytes.length).sawEnd p) := by
  induction bytes generalizing n acc s with
  | nil =>
    obtain ⟨n, rfl⟩ := Nat.exists_eq_add_of_lt short
    rw [List.length_nil, Nat.zero_add, State.advance_zero]
    exact Proc.bind_of_ok ahead.getByte_end
  | cons b bytes ih =>
    rw [List.length_cons] at short
    obtain ⟨n, rfl⟩ : ∃ m, n = m + 1 := ⟨n - 1, by omega⟩
    rw [memReadFrom, Proc.bind_of_ok ahead.getByte]
    exact (ih ahead.tail (by omega) _).trans (by rw [State.advance_advance, Nat.add_comm 1]; rfl)

/-- `RDHDR` of a stream that begins with 8 bytes reads their number (R161). -/
theorem exec_rdhdr_of_enough (isLegal : legalWhen .rdhdr s.phase s.mode s.nsyms.toNat) (go : neverFails s.esrc.fails)
    (data : s.esrc.data = bytes ++ rest) (eight : bytes.length = 8) :
    ∃ t, exec .rdhdr s = .next t ∧ t.hdrBits.toNat = bytesValue 0 bytes ∧
      t = { s with
        hdrBits := t.hdrBits, phase := .hdr, portHeld := s.portHeld ||| 0b010000
        brBuf := 0, brLeft := 0, brTotal := 0
        esrc := { s.esrc with pos := 8, fails := t.esrc.fails } } := by
  have ahead : (s.opened .esrc).Ahead .esrc (bytes ++ rest) := data ▸ State.opened_ahead (p := .esrc) go
  have read : memRead .esrc 8 (s.opened .esrc) = .ok (some (bytesValue 0 bytes)) ((s.opened .esrc).advance .esrc 8) :=
    eight ▸ memReadFrom_of_enough ahead 0
  have value : bytesValue 0 bytes < 2 ^ 64 := by
    have h := bytesValue_lt 0 bytes
    rwa [eight] at h
  have atEight : (s.opened .esrc).advance .esrc 8 = { s with
      portHeld := s.portHeld ||| 0b010000, esrc := { s.esrc with pos := 8, fails := s.esrc.fails.tail.drop 8 } } := by
    have held : setBit s.portHeld 4 true = s.portHeld ||| 0b010000 := setBit_true _ _
    rw [← held]
    rfl
  rw [atEight] at read
  refine ⟨_, exec_of_ok rfl isLegal ((Proc.bind_of_ok (openSource_of_neverFails (p := .esrc) go)).trans
    (Proc.bind_of_ok read)), ?_, rfl⟩
  exact (BitVec.toNat_ofNat _ _).trans (Nat.mod_eq_of_lt value)

theorem exec_rdhdr_of_short (isLegal : legalWhen .rdhdr s.phase s.mode s.nsyms.toNat) (go : neverFails s.esrc.fails)
    (short : s.esrc.data.length < 8) :
    exec .rdhdr s = .next ((((s.opened .esrc).advance .esrc s.esrc.data.length).sawEnd .esrc).raiseError
      .truncatedStreamError 0x33) := by
  have read := memReadFrom_of_short (State.opened_ahead (p := .esrc) go) short 0
  exact exec_of_raised rfl isLegal ((Proc.bind_of_ok (openSource_of_neverFails (p := .esrc) go)).trans
    (Proc.bind_of_ok read))

/-- Settles O44: the header's bytes are read as one number below `2^64`, or the stream ends before. -/
theorem rdhdrReadsTheBitCount : Obligations.RdhdrReadsTheBitCount := by
  unfold Obligations.RdhdrReadsTheBitCount
  refine fun s isLegal go => ⟨fun enough => ?enough, fun short => ?short⟩
  case enough => exact exec_rdhdr_of_enough isLegal go (List.take_append_drop 8 _).symm (List.length_take_of_le enough)
  case short =>
    refine ⟨_, exec_rdhdr_of_short isLegal go short, rfl, rfl, rfl, rfl, ?hdr, ?pos⟩
    case hdr =>
      rw [State.raiseError_hdrBits]
      rfl
    case pos =>
      rw [State.raiseError_esrc]
      exact Nat.zero_add _

end Sys2Proof.Machine
end

section
/-!
PROOFS. `WRHDR` (spec/45_encoder.md R141).
-/

namespace Sys2Proof.Machine

variable {s t : State}

/-- A sum over the present symbols, taken over all symbols. -/
theorem sum_presentSymbols_eq (f : Symbol → Nat) :
    (s.presentSymbols.map f).sum = (allSymbols.map fun b => if atSym s.ftPres b then f b else 0).sum := by
  rw [← sum_presentSymbols (s := s) _ fun b absent => by simp [absent]]
  refine congrArg List.sum (List.map_congr_left fun b mem => ?_)
  rw [if_pos ((mem_presentSymbols s b).mp mem)]

/-- A code has at most 255 bits, so a consistent table announces less than `2^64` bits (R141, R7). -/
theorem State.TableOk.payloadBits_lt (ok : s.TableOk) (width : cntWOk s.cntW = true) : s.payloadBits < 2 ^ 64 := by
  have bound : s.payloadBits ≤ s.total * 255 := by
    rw [State.payloadBits, ← ok.sum_counts, ← List.sum_map_mul_right]
    refine List.sum_le_sum fun b _ => Nat.mul_le_mul_left _ ?_
    exact Nat.le_of_lt_succ (atSym s.codeLen b).isLt
  have narrow : s.cntW ≤ 56 := by
    simp only [cntWOk, Bool.and_eq_true, decide_eq_true_eq] at width
    exact width.2
  have fits : s.total < 2 ^ 56 := by
    have h := ok.fits
    have positive : 0 < 2 ^ s.cntW := Nat.two_pow_pos _
    have small : 2 ^ s.cntW ≤ 2 ^ 56 := Nat.pow_le_pow_right (by decide) narrow
    rw [State.maxCnt, Config.maxCntOf] at h
    omega
  omega

/-- Eight bytes hold a number modulo `2^64`. -/
theorem bytesBE_eight_mod (n : Nat) : bytesBE 8 (n % 2 ^ 64) = bytesBE 8 n := by
  refine List.map_congr_left fun k mem => ?_
  have hk : k < 8 := List.mem_range.mp mem
  have split : (2 : Nat) ^ 64 = 2 ^ (8 * (7 - k)) * (2 ^ 8 * 2 ^ (8 * k)) := by
    rw [← Nat.pow_add, ← Nat.pow_add]
    congr 1
    omega
  refine BitVec.eq_of_toNat_eq ?_
  rw [BitVec.toNat_ofNat, BitVec.toNat_ofNat, show 8 - 1 - k = 7 - k by omega, split, Nat.mod_mul_right_div_self,
    Nat.mod_mul_right_mod]

theorem bytesBE_eight_eq (n : Nat) :
    bytesBE 8 n = (List.range 8).map fun k => BitVec.ofNat 8 (n / 256 ^ (7 - k)) := by
  simp only [bytesBE, Nat.pow_mul]

/-- `WRHDR` with no failing access announces the payload's bits (R141). -/
theorem exec_wrhdr_of_go (isLegal : legalWhen .wrhdr s.phase s.mode s.nsyms.toNat) (go : neverFails s.esink.fails) :
    exec .wrhdr s = .next { s with
      hdrBits := BitVec.ofNat 64 s.payloadBits, phase := .hdr, portHeld := s.portHeld ||| 0b000100
      bwAcc := 0, bwN := 0, bwTotal := 0
      esink := ⟨bytesBE 8 s.payloadBits, s.esink.fails.tail.drop 8⟩ } := by
  have opened := openSink_of_neverFails (q := .esink) (s := s.setHdr (BitVec.ofNat 64 s.payloadBits)) go
  have put := putBytes_of_go (q := .esink) (bytesBE 8 (s.payloadBits % 2 ^ 64))
    (s := (s.setHdr (BitVec.ofNat 64 s.payloadBits)).emptied .esink) (held_hold_sink _ .esink) (neverFails_tail go)
  rw [length_bytesBE, bytesBE_eight_mod] at put
  have announced : ((s.setHdr (BitVec.ofNat 64 s.payloadBits)).emptied .esink).hdrBits.toNat = s.payloadBits % 2 ^ 64 :=
    BitVec.toNat_ofNat _ _
  have held : setBit s.portHeld 2 true = s.portHeld ||| 0b000100 := setBit_true _ _
  refine exec_of_ok (i := .wrhdr) rfl isLegal ?_
  change wrhdrBody s = _
  rw [wrhdrBody, Proc.modify_bind_run, Proc.bind_of_ok opened, Proc.get_bind_run, announced, memWrite, Config.hdrBytes,
    bytesBE_eight_mod, Proc.bind_of_ok put, ← held]
  simp only [State.emptied, State.sink, State.setSink, State.hold, State.setHdr, SinkPort.num, List.nil_append]
  rfl

/-- Settles O38: the sum is taken over the present symbols, and the header's 8 bytes are its lowest. -/
theorem wrhdrWritesTheBitCount : Obligations.WrhdrWritesTheBitCount := by
  unfold Obligations.WrhdrWritesTheBitCount
  intro s isLegal go
  rw [← sum_presentSymbols_eq (s := s) fun b => atSym s.ftCnt b * (atSym s.codeLen b).toNat]
  refine ⟨State.TableOk.payloadBits_lt, _, exec_wrhdr_of_go isLegal go, ?_⟩
  rw [bytesBE_eight_eq]
  rfl

end Sys2Proof.Machine
end

section
/-!
PROOFS. `EMIT` (spec/45_encoder.md R142, R143) and `FLUSH` (R144).
-/

namespace Sys2Proof.Machine

variable {s t u : State} {bytes rest : List Byte} {bits : List Bit} {b : Byte}

theorem emitStep_of_coded (coded : atSym s.codeLen b ≠ 0) : emitStep b s = putBits (s.codeOf b) s := by
  rw [emitStep, Proc.get_bind_run, if_neg coded, putCode, Proc.get_bind_run]

theorem emitStep_of_uncoded (uncoded : atSym s.codeLen b = 0) :
    emitStep b s = .error (.raised .internalInvariantError) s := by
  rw [emitStep, Proc.get_bind_run, if_pos uncoded, Proc.throw_run]

/-- Writing bits does not look at `SRC`. -/
theorem State.Wrote.withSrc (h : s.Wrote bits t) (st : Source) :
    State.Wrote { s with src := st } bits { t with src := st } where
  frame := congrArg (fun v : State => { v with src := st }) h.frame
  written := h.written
  kept := h.kept
  go := h.go
  unfilled := h.unfilled

/-- `t` is `s` after the codes of the next bytes of `SRC` have been written, with no failing access. -/
structure State.Emitted (s : State) (bytes : List Byte) (t : State) : Prop where
  wrote : State.Wrote { s with src := t.src } (bytes.flatMap s.codeOf) t
  moved : t.src = { s.src with pos := s.src.pos + bytes.length, fails := t.src.fails }

theorem State.Emitted.codeOf (h : s.Emitted bytes t) : t.codeOf = s.codeOf := by
  rw [h.wrote.frame]
  rfl

theorem State.Emitted.codeLen (h : s.Emitted bytes t) : t.codeLen = s.codeLen := by
  rw [h.wrote.frame]

theorem State.Emitted.held (h : s.Emitted bytes t) (n : Nat) : t.held n = s.held n := h.wrote.held n

theorem State.Emitted.cons (first : s.Emitted [b] t) (rest : t.Emitted bytes u) : s.Emitted (b :: bytes) u where
  wrote := by
    have more := rest.wrote
    rw [first.codeOf] at more
    have bits := (first.wrote.withSrc u.src).append more
    rwa [← List.flatMap_append] at bits
  moved := by
    rw [rest.moved, first.moved]
    simp [Nat.add_assoc, Nat.add_comm 1]

/-- The code of one byte of `SRC` (R142, R143). -/
theorem emitStep_emitted (ahead : s.Ahead .src (b :: bytes)) (held : s.held 2 = true) (go : neverFails s.esink.fails)
    (coded : atSym s.codeLen b ≠ 0) :
    ∃ t, emitStep b (s.advance .src 1) = .ok () t ∧ t.Ahead .src bytes ∧ s.Emitted [b] t := by
  obtain ⟨t, put, wrote⟩ := putBits_wrote (s := s.advance .src 1) ((s.advance .src 1).codeOf b) held go
  have src : t.source .src = (s.advance .src 1).source .src := by
    rw [wrote.frame]
    rfl
  have tail := ahead.tail
  refine ⟨t, (emitStep_of_coded (s := s.advance .src 1) coded).trans put, ⟨?_, ?_, ?_⟩, ?wrote, ?moved⟩
  · exact (wrote.held 0).trans tail.held
  · exact src ▸ tail.go
  · exact src ▸ tail.left
  case wrote =>
    have h := wrote.withSrc t.src
    rwa [List.flatMap_singleton]
  case moved =>
    rw [show t.src = (s.advance .src 1).src from src]
    rfl

/-- The loop of `EMIT` writes the codes of the bytes ahead. -/
theorem emitLoop_of_coded (ahead : s.Ahead .src (bytes ++ rest)) (held : s.held 2 = true)
    (go : neverFails s.esink.fails)
    (coded : ∀ b ∈ bytes, atSym s.codeLen b ≠ 0) (n : Nat) :
    ∃ t, forEachByte .src emitStep (bytes.length + n) s = forEachByte .src emitStep n t ∧ t.Ahead .src rest ∧
      s.Emitted bytes t := by
  induction bytes generalizing s with
  | nil => exact ⟨s, by rw [List.length_nil, Nat.zero_add], ahead, .nil go, rfl⟩
  | cons b bytes ih =>
    obtain ⟨t, emitted, tail, first⟩ := emitStep_emitted ahead held go (coded b List.mem_cons_self)
    obtain ⟨u, looped, left, rest⟩ := ih tail ((first.held 2).trans held) first.wrote.go fun a mem => by
      rw [first.codeLen]
      exact coded a (List.mem_cons_of_mem b mem)
    refine ⟨u, ?_, left, first.cons rest⟩
    rw [List.length_cons, Nat.add_right_comm, forEachByte_cons ahead, Proc.bind_of_ok emitted, looped]

theorem emitBody_of_go (go : neverFails s.src.fails) :
    emitBody s = (forEachByte .src emitStep s.src.data.length >>= fun _ => modify (·.enter .streamed))
      (s.opened .src) := by
  have unread : (s.opened .src).src.unread = s.src.data.length := (State.opened_ahead (p := .src) go).unread
  rw [emitBody, Proc.bind_of_ok (openSource_of_neverFails (p := .src) go), Proc.get_bind_run, unread]

/-- `EMIT` of a source whose bytes all have codes writes the codes in order (R142). -/
theorem exec_emit_of_coded (hdr : s.phase = .hdr) (enc : s.mode = .enc) (held : s.held 2 = true)
    (coded : ∀ b ∈ s.src.data, atSym s.codeLen b ≠ 0) (readGo : neverFails s.src.fails)
    (putGo : neverFails s.esink.fails) :
    ∃ t, exec .emit s = .next t ∧
      State.Wrote { s with phase := .streamed, portHeld := s.portHeld ||| 0b000001, src := t.src }
        (s.src.data.flatMap s.codeOf) t ∧
      t.src = { s.src with pos := s.src.data.length, fails := t.src.fails } := by
  have ahead : (s.opened .src).Ahead .src (s.src.data ++ []) := by
    rw [List.append_nil]
    exact State.opened_ahead (p := .src) readGo
  have held' : (s.opened .src).held 2 = true := (held_hold_ne _ (by decide)).trans held
  obtain ⟨t, looped, left, emitted⟩ := emitLoop_of_coded ahead held' putGo coded 0
  rw [Nat.add_zero, forEachByte_nil left] at looped
  have ran : emitBody s = .ok () ((t.sawEnd .src).enter .streamed) :=
    (emitBody_of_go readGo).trans (Proc.bind_of_ok looped)
  refine ⟨_, exec_of_ok (i := .emit) rfl ⟨hdr, enc⟩ ran, ?_, ?_⟩
  · have wrote := emitted.wrote.withSrc (t.sawEnd .src).src
    have ports : setBit s.portHeld 0 true = s.portHeld ||| 0b000001 := setBit_true _ _
    rw [← ports]
    exact ⟨congrArg (State.enter · .streamed) wrote.frame, wrote.written, wrote.kept, wrote.go, wrote.unfilled⟩
  · have moved := emitted.moved
    rw [show (s.opened .src).src.pos + s.src.data.length = s.src.data.length from Nat.zero_add _] at moved
    exact congrArg (fun st : Source => { st with fails := st.fails.tail }) moved

/-- Settles O39: the loop writes the codes one after another. -/
theorem emitWritesTheCodes : Obligations.EmitWritesTheCodes := by
  unfold Obligations.EmitWritesTheCodes
  intro s hdr enc held coded readGo putGo
  obtain ⟨t, ran, wrote, moved⟩ := exec_emit_of_coded hdr enc held coded readGo putGo
  refine ⟨t, ran, wrote.written, wrote.kept, ?_⟩
  rw [← moved]
  exact wrote.frame

/-- Settles O40: the loop writes the codes of the bytes before, and stops at the byte without a code. -/
theorem emitWithoutACodeFaults : Obligations.EmitWithoutACodeFaults := by
  unfold Obligations.EmitWithoutACodeFaults
  intro s before after b hdr enc held data coded uncoded readGo putGo
  have ahead : (s.opened .src).Ahead .src (before ++ b :: after) := data ▸ State.opened_ahead (p := .src) readGo
  have held' : (s.opened .src).held 2 = true := (held_hold_ne _ (by decide)).trans held
  obtain ⟨t, looped, left, emitted⟩ := emitLoop_of_coded ahead held' putGo coded (after.length + 1)
  have uncoded' : atSym (t.advance .src 1).codeLen b = 0 := (congrArg (atSym · b) emitted.codeLen).trans uncoded
  rw [forEachByte_cons left, Proc.bind_of_error (emitStep_of_uncoded uncoded')] at looped
  have length : s.src.data.length = before.length + (after.length + 1) := by rw [data]; simp
  have stopped := emitBody_of_go readGo
  rw [length, Proc.bind_of_error looped] at stopped
  refine ⟨_, exec_of_raised (i := .emit) rfl ⟨hdr, enc⟩ stopped, rfl, rfl, rfl, rfl, ?_⟩
  rw [State.raiseError_src]
  change t.src.pos + 1 = _
  rw [emitted.moved]
  exact congrArg (· + 1) (Nat.zero_add _)

theorem flushBody_of_flushed (flushed : flushBits s = .ok () t) :
    flushBody s = if t.bwTotal = t.hdrBits then .ok () t.endSession
      else .error (.raised .internalInvariantError) t := by
  rw [flushBody, Proc.bind_of_ok flushed, Proc.get_bind_run]
  split <;> rfl

/-- Settles O41: the pending byte is put first, and then the bits written are compared with those announced. -/
theorem flushEndsTheSession : Obligations.FlushEndsTheSession := by
  unfold Obligations.FlushEndsTheSession
  intro s streamed held go flushed
  have flushes : flushBits s = .ok () flushed := by
    by_cases none : s.bwN = 0
    · rw [flushBits_of_none none]
      simp only [flushed, if_pos none]
      rw [← none]
    · rw [flushBits_of_pending none, putAcc_of_go held (failsNext_of_neverFails go)]
      simp [flushed, none, State.setSink, State.emptyAcc]
  have body := flushBody_of_flushed flushes
  refine ⟨fun same => ?equal, fun other => ?unequal⟩
  case equal => exact exec_of_ok (i := .flush) rfl streamed (body.trans (if_pos same))
  case unequal => exact exec_of_raised (i := .flush) rfl streamed (body.trans (if_neg other))

end Sys2Proof.Machine
end

section
/-!
PROOFS. Binary trees over symbols, the tree that a node of the store is the root of, and its leaves
(spec/43_treebuilder.md R123, spec/44_codetable.md R131).
-/

namespace Sys2Proof.Machine

/-- A binary tree with symbols at its leaves. -/
inductive CodeTree where
  | leaf (b : Symbol)
  | node (l r : CodeTree)

namespace CodeTree

/-- The internal nodes on a longest path. -/
def height : CodeTree → Nat
  | leaf _ => 0
  | node l r => max l.height r.height + 1

/-- The leaves, left before right. -/
def leaves : CodeTree → List Symbol
  | leaf b => [b]
  | node l r => l.leaves ++ r.leaves

/-- The leaves with their paths, 0 to the left and 1 to the right (R131). -/
def codes : CodeTree → List (Symbol × List Bit)
  | leaf b => [(b, [])]
  | node l r => l.codes.map (fun e => (e.1, false :: e.2)) ++ r.codes.map (fun e => (e.1, true :: e.2))

/-- The sum of the counts at the leaves (R127). -/
def weight (count : Symbol → Nat) (T : CodeTree) : Nat := (T.leaves.map count).sum

/-- The sum of the weights of the internal nodes. -/
def cost (count : Symbol → Nat) : CodeTree → Nat
  | leaf _ => 0
  | node l r => l.cost count + r.cost count + (node l r).weight count

theorem weight_node (count : Symbol → Nat) (l r : CodeTree) :
    (node l r).weight count = l.weight count + r.weight count := by
  simp [weight, leaves]

theorem length_leaves_pos (T : CodeTree) : 0 < T.leaves.length := by
  induction T with
  | leaf b => exact Nat.one_pos
  | node l r ihl ihr =>
    rw [leaves, List.length_append]
    omega

theorem codes_symbols (T : CodeTree) : T.codes.map (·.1) = T.leaves := by
  induction T with
  | leaf b => rfl
  | node l r ihl ihr =>
    rw [codes, leaves, List.map_append, List.map_map, List.map_map, ← ihl, ← ihr]
    rfl

theorem length_le_height {T : CodeTree} {e : Symbol × List Bit} (mem : e ∈ T.codes) : e.2.length ≤ T.height := by
  induction T generalizing e with
  | leaf b =>
    obtain rfl := List.mem_singleton.mp mem
    exact Nat.zero_le _
  | node l r ihl ihr =>
    rw [codes, List.mem_append, List.mem_map, List.mem_map] at mem
    obtain ⟨f, mem, rfl⟩ | ⟨f, mem, rfl⟩ := mem
    · exact Nat.succ_le_succ ((ihl mem).trans (Nat.le_max_left _ _))
    · exact Nat.succ_le_succ ((ihr mem).trans (Nat.le_max_right _ _))

/-- Each leaf counts once in every internal node above it. -/
theorem sum_codes (count : Symbol → Nat) (T : CodeTree) :
    (T.codes.map fun e => count e.1 * e.2.length).sum = T.cost count := by
  have deeper (T : CodeTree) (c : Bit) :
      ((T.codes.map fun e => (e.1, c :: e.2)).map fun e => count e.1 * e.2.length).sum =
        (T.codes.map fun e => count e.1 * e.2.length).sum + T.weight count := by
    rw [weight, ← codes_symbols, List.map_map, List.map_map, ← List.sum_map_add]
    rfl
  induction T with
  | leaf b => rfl
  | node l r ihl ihr =>
    rw [codes, List.map_append, List.sum_append, deeper, deeper, ihl, ihr, cost, weight_node]
    omega

end CodeTree

/-! ### The tree at a node -/

/-- The node `id` of the store is the root of this tree. -/
inductive State.Has (s : State) : NodeId → CodeTree → Prop
  | leaf (b : Symbol) : s.Has (leafId b) (.leaf b)
  | node {k : Fin 255} {l r : CodeTree} (left : s.Has s.nodeL[k] l) (right : s.Has s.nodeR[k] r) :
      s.Has (innerId k) (.node l r)

variable {s t : State} {id : NodeId} {T : CodeTree}

theorem State.left_innerId (s : State) (k : Fin 255) : s.left (innerId k) = s.nodeL[k] := childAt_innerId _ k

theorem State.right_innerId (s : State) (k : Fin 255) : s.right (innerId k) = s.nodeR[k] := childAt_innerId _ k

theorem State.Has.isLeaf_node {l r : CodeTree} (h : s.Has id (.node l r)) : isLeaf id = false := by
  cases h
  exact isLeaf_innerId _

theorem State.Has.eq_leafId {b : Symbol} (h : s.Has id (.leaf b)) : id = leafId b := by
  cases h
  rfl

/-- Stores with the same children below a bound have the same trees below it. -/
theorem State.Has.congr {m : Nat} (h : s.Has id T) (low : id.val < 256 + m)
    (below : ∀ k : Fin 255, k.val < m → s.nodeL[k].val < 256 + k.val ∧ s.nodeR[k].val < 256 + k.val)
    (same : ∀ k : Fin 255, k.val < m → t.nodeL[k] = s.nodeL[k] ∧ t.nodeR[k] = s.nodeR[k]) : t.Has id T := by
  induction h with
  | leaf b => exact .leaf b
  | @node k l r _ _ ihl ihr =>
    have hk : k.val < m := Nat.lt_of_add_lt_add_left low
    obtain ⟨lowL, lowR⟩ := below k hk
    obtain ⟨sameL, sameR⟩ := same k hk
    exact .node (sameL ▸ ihl (by omega) below same) (sameR ▸ ihr (by omega) below same)

theorem State.Has.of_children (h : s.Has id T) (left : t.nodeL = s.nodeL) (right : t.nodeR = s.nodeR) : t.Has id T := by
  induction h with
  | leaf b => exact .leaf b
  | node _ _ ihl ihr => exact .node (left ▸ ihl) (right ▸ ihr)

/-- Where children are below their parents, a tree is no higher than its root's number (R17). -/
theorem State.Has.height_le {m : Nat} (h : s.Has id T) (low : id.val < 256 + m)
    (below : ∀ k : Fin 255, k.val < m → s.nodeL[k].val < 256 + k.val ∧ s.nodeR[k].val < 256 + k.val) :
    T.height ≤ id.val - 255 := by
  induction h with
  | leaf b => exact Nat.zero_le _
  | @node k l r _ _ ihl ihr =>
    have value : (innerId k).val = 256 + k.val := rfl
    obtain ⟨lowL, lowR⟩ := below k (by omega)
    have hl := ihl (by omega) below
    have hr := ihr (by omega) below
    rw [CodeTree.height]
    omega

/-- Where children are below their parents, every node is the root of a tree. -/
theorem State.exists_has (below : s.childrenBelow) (id : NodeId) : ∃ T, s.Has id T := by
  induction hn : id.val using Nat.strong_induction_on generalizing id with
  | h n ih =>
    obtain ⟨b, rfl⟩ | ⟨k, rfl⟩ := eq_leafId_or_eq_innerId id
    · exact ⟨_, .leaf b⟩
    · have value : (innerId k).val = 256 + k.val := rfl
      obtain ⟨l, left⟩ := ih _ (by have := (below k).1; omega) s.nodeL[k] rfl
      obtain ⟨r, right⟩ := ih _ (by have := (below k).2; omega) s.nodeR[k] rfl
      exact ⟨_, .node left right⟩

theorem State.childrenBelow.height_le (below : s.childrenBelow) (h : s.Has id T) : T.height ≤ 255 := by
  have bound := h.height_le (m := 255) (by omega) fun k _ => below k
  omega

theorem State.Has.leavesFrom {fuel : Nat} (h : s.Has id T) (enough : T.height < fuel) :
    s.leavesFrom fuel id = T.leaves := by
  induction h generalizing fuel with
  | leaf b =>
    obtain ⟨fuel, rfl⟩ := Nat.exists_eq_add_of_lt enough
    simp [State.leavesFrom, CodeTree.leaves]
  | @node k l r _ _ ihl ihr =>
    obtain ⟨fuel, rfl⟩ : ∃ f, fuel = f + 1 := ⟨fuel - 1, by omega⟩
    rw [CodeTree.height] at enough
    rw [State.leavesFrom, if_neg (by simp), State.left_innerId, State.right_innerId, ihl (by omega), ihr (by omega)]
    rfl

/-! ### Paths -/

theorem State.stepDown_innerId (s : State) (k : Fin 255) (b : Bit) :
    s.stepDown (innerId k) b = if b then s.nodeR[k] else s.nodeL[k] := by
  rw [State.stepDown, State.left_innerId, State.right_innerId]

theorem State.isPath_nil_leafId (s : State) (b : Symbol) : s.isPath (leafId b) [] b := ⟨rfl, nofun⟩

/-- A path of an internal node goes on from the child that its first bit leads to. -/
theorem State.isPath_cons_innerId {k : Fin 255} {c : Bit} {p : List Bit} {b : Symbol}
    (h : s.isPath (s.stepDown (innerId k) c) p b) : s.isPath (innerId k) (c :: p) b := by
  refine ⟨h.1, fun i hi => ?_⟩
  cases i with
  | zero => exact isLeaf_innerId k
  | succ i => exact h.2 i (Nat.lt_of_succ_lt_succ hi)

/-- The codes of a tree are the paths of its symbols. -/
theorem State.Has.isPath {e : Symbol × List Bit} (h : s.Has id T) (mem : e ∈ T.codes) : s.isPath id e.2 e.1 := by
  induction h generalizing e with
  | leaf b =>
    obtain rfl := List.mem_singleton.mp mem
    exact s.isPath_nil_leafId b
  | @node k l r _ _ ihl ihr =>
    rw [CodeTree.codes, List.mem_append, List.mem_map, List.mem_map] at mem
    obtain ⟨f, mem, rfl⟩ | ⟨f, mem, rfl⟩ := mem
    · exact State.isPath_cons_innerId ((s.stepDown_innerId k false).symm ▸ ihl mem)
    · exact State.isPath_cons_innerId ((s.stepDown_innerId k true).symm ▸ ihr mem)

/-- Two paths of which one begins with the other lead to the same leaf. -/
theorem State.isPath.eq_of_isPrefix {n : NodeId} {p q : List Bit} {a b : Symbol} (ha : s.isPath n p a)
    (hb : s.isPath n q b) (begins : p <+: q) : a = b := by
  obtain ⟨rest, rfl⟩ := begins
  cases rest with
  | nil =>
    rw [List.append_nil] at hb
    exact leafId_injective (ha.1.symm.trans hb.1)
  | cons c rest =>
    have inner := hb.2 p.length (by simp)
    rw [List.take_left, ha.1, isLeaf_leafId] at inner
    exact absurd inner nofun

/-- A path from an internal node has a bit. -/
theorem State.isPath.length_pos {n : NodeId} {p : List Bit} {b : Symbol} (h : s.isPath n p b)
    (inner : isLeaf n = false) : 1 ≤ p.length := by
  cases p with
  | nil =>
    have same : n = leafId b := h.1
    simp [same] at inner
  | cons c p => exact Nat.succ_pos _

end Sys2Proof.Machine
end

section
/-!
PROOFS. `DERIVE` of a tree (spec/44_codetable.md R130 to R134).
-/

namespace Sys2Proof.Machine

variable {s t : State} {id : NodeId} {T : CodeTree} {p : List Bit} {b : Symbol}

/-! ### The register of a code -/

/-- Placing a path writes its bits from a position down and nothing else (R22). -/
theorem getLsbD_placeCode {i : Nat} (fits : i + p.length ≤ 255) (v : BitVec 255) {j : Nat} (hj : j < 255) :
    (placeCode i p v).getLsbD j =
      if i ≤ 254 - j ∧ 254 - j < i + p.length then p.getD (254 - j - i) false else v.getLsbD j := by
  induction p generalizing i v with
  | nil => rw [placeCode, if_neg (by simp)]
  | cons c p ih =>
    rw [List.length_cons] at fits
    rw [placeCode, ih (by omega), setBit_getLsbD, List.length_cons]
    obtain first | rest | outside :
        254 - j = i ∨ (i + 1 ≤ 254 - j ∧ 254 - j < i + 1 + p.length) ∨
          ¬ (i ≤ 254 - j ∧ 254 - j < i + (p.length + 1)) := by
      omega
    · rw [if_neg (by omega), if_pos (by omega), if_pos (by omega), first, Nat.sub_self]
      simp [show 254 - i < 255 by omega]
    · rw [if_pos rest, if_pos (by omega), show 254 - j - i = 254 - j - (i + 1) + 1 by omega]
      rfl
    · rw [if_neg (by omega), if_neg (by omega), if_neg outside]

theorem takeCode_placeCode (fits : p.length ≤ 255) : takeCode p.length (placeCode 0 p 0) = p := by
  refine List.ext_getElem (by simp [takeCode]) fun i hi inside => ?_
  simp only [takeCode, List.getElem_map, List.getElem_range]
  rw [getLsbD_placeCode (by omega) _ (by omega), if_pos (by omega), show 254 - (254 - i) - 0 = i by omega,
    List.getD_eq_getElem _ _ inside]

theorem getLsbD_placeCode_below {j : Nat} (below : j + p.length < 255) : (placeCode 0 p 0).getLsbD j = false := by
  rw [getLsbD_placeCode (by omega) _ (by omega), if_neg (by omega)]
  exact BitVec.getLsbD_zero

/-! ### A list of codes -/

/-- The state after these codes have been set. -/
def State.setCodes (s : State) (codes : List (Symbol × List Bit)) : State :=
  codes.foldl (fun s e => s.setCode e.1 e.2) s

theorem State.setCodes_append (s : State) (codes more : List (Symbol × List Bit)) :
    s.setCodes (codes ++ more) = (s.setCodes codes).setCodes more := List.foldl_append

theorem State.setCodes_frame (s : State) (codes : List (Symbol × List Bit)) :
    s.setCodes codes = { s with
      codeLen := (s.setCodes codes).codeLen, codeBits := (s.setCodes codes).codeBits } := by
  induction codes generalizing s with
  | nil => rfl
  | cons e codes ih => exact ih (s.setCode e.1 e.2)

theorem State.setCodes_of_not_mem {codes : List (Symbol × List Bit)} (absent : b ∉ codes.map (·.1)) :
    atSym (s.setCodes codes).codeLen b = atSym s.codeLen b ∧
      atSym (s.setCodes codes).codeBits b = atSym s.codeBits b := by
  induction codes generalizing s with
  | nil => exact ⟨rfl, rfl⟩
  | cons e codes ih =>
    rw [List.map_cons, List.mem_cons, not_or] at absent
    obtain ⟨len, bits⟩ := ih (s := s.setCode e.1 e.2) absent.2
    rw [State.setCode_codeLen, atSym_putSym_ne _ _ absent.1] at len
    rw [State.setCode_codeBits, atSym_putSym_ne _ _ absent.1] at bits
    exact ⟨len, bits⟩

theorem State.setCodes_of_mem {codes : List (Symbol × List Bit)} (distinct : (codes.map (·.1)).Nodup)
    {e : Symbol × List Bit} (mem : e ∈ codes) :
    atSym (s.setCodes codes).codeLen e.1 = BitVec.ofNat 8 e.2.length ∧
      atSym (s.setCodes codes).codeBits e.1 = placeCode 0 e.2 (atSym s.codeBits e.1) := by
  induction codes generalizing s with
  | nil => exact absurd mem List.not_mem_nil
  | cons f codes ih =>
    rw [List.map_cons, List.nodup_cons] at distinct
    obtain rfl | mem := List.mem_cons.mp mem
    · obtain ⟨len, bits⟩ := State.setCodes_of_not_mem (s := s.setCode e.1 e.2) distinct.1
      rw [State.setCode_codeLen, atSym_putSym_same] at len
      rw [State.setCode_codeBits, atSym_putSym_same] at bits
      exact ⟨len, bits⟩
    · have ne : e.1 ≠ f.1 := fun same => distinct.1 (List.mem_map.mpr ⟨e, mem, same⟩)
      obtain ⟨len, bits⟩ := ih (s := s.setCode f.1 f.2) distinct.2 mem
      rw [State.setCode_codeBits, atSym_putSym_ne _ _ ne] at bits
      exact ⟨len, bits⟩

/-- A code set in a cleared code table is read back. -/
theorem State.codeOf_setCodes {codes : List (Symbol × List Bit)} (distinct : (codes.map (·.1)).Nodup)
    {e : Symbol × List Bit} (mem : e ∈ codes) (fits : e.2.length ≤ 255) :
    (s.noCodes.setCodes codes).codeOf e.1 = e.2 := by
  obtain ⟨len, bits⟩ := State.setCodes_of_mem (s := s.noCodes) distinct mem
  rw [State.noCodes_codeBits, atSym_replicate] at bits
  rw [State.codeOf, len, bits, BitVec.toNat_ofNat, Nat.mod_eq_of_lt (by omega), takeCode_placeCode fits]

/-! ### The walk through the tree -/

/-- `DERIVE` sets the codes of the leaves beneath a node, each with the node's own path before it (R130). -/
theorem deriveFrom_of_has {fuel : Nat} (h : s.Has id T) (enough : T.height < fuel) (p : List Bit) :
    deriveFrom fuel id p s = .ok () (s.setCodes (T.codes.map fun e => (e.1, p ++ e.2))) := by
  induction T generalizing fuel id p s with
  | leaf b =>
    cases h
    obtain ⟨fuel, rfl⟩ : ∃ f, fuel = f + 1 := ⟨fuel - 1, by omega⟩
    rw [deriveFrom, Proc.get_bind_run, if_pos (isLeaf_leafId b), Proc.set_run, symbolOf_leafId]
    simp [CodeTree.codes, State.setCodes]
  | node l r ihl ihr =>
    cases h with
    | @node k _ _ left right =>
    obtain ⟨fuel, rfl⟩ : ∃ f, fuel = f + 1 := ⟨fuel - 1, by omega⟩
    rw [CodeTree.height] at enough
    have kept : (s.setCodes (l.codes.map fun e => (e.1, (p ++ [false]) ++ e.2))).Has s.nodeR[k] r := by
      rw [State.setCodes_frame]
      exact right.of_children rfl rfl
    rw [deriveFrom, Proc.get_bind_run, if_neg (by simp), State.left_innerId, State.right_innerId,
      Proc.bind_of_ok (ihl left (by omega) _), ihr kept (by omega), ← State.setCodes_append, CodeTree.codes,
      List.map_append, List.map_map, List.map_map]
    simp only [Function.comp_def, List.append_assoc, List.singleton_append]

/-- The codes that `DERIVE` gives a tree: the paths, or the one bit 0 for a leaf-root (R131, R132). -/
def CodeTree.rootCodes : CodeTree → List (Symbol × List Bit)
  | .leaf b => [(b, [false])]
  | .node l r => (CodeTree.node l r).codes

theorem CodeTree.rootCodes_symbols (T : CodeTree) : T.rootCodes.map (·.1) = T.leaves := by
  cases T with
  | leaf b => rfl
  | node l r => exact (CodeTree.node l r).codes_symbols

theorem CodeTree.length_rootCodes_le {e : Symbol × List Bit} (mem : e ∈ T.rootCodes) (low : T.height ≤ 255) :
    e.2.length ≤ 255 := by
  cases T with
  | leaf b =>
    obtain rfl := List.mem_singleton.mp mem
    exact (by decide : 1 ≤ 255)
  | node l r => exact (CodeTree.length_le_height mem).trans low

/-- The state after `DERIVE` of this tree. -/
def State.derivedWith (s : State) (T : CodeTree) : State := (s.noCodes.setCodes T.rootCodes).derived

theorem CodeTree.length_rootCodes_pos {e : Symbol × List Bit} (mem : e ∈ T.rootCodes) : 1 ≤ e.2.length := by
  cases T with
  | leaf b =>
    obtain rfl := List.mem_singleton.mp mem
    exact le_rfl
  | node l r =>
    rw [CodeTree.rootCodes, CodeTree.codes, List.mem_append, List.mem_map, List.mem_map] at mem
    obtain ⟨f, -, rfl⟩ | ⟨f, -, rfl⟩ := mem
    · exact Nat.succ_pos _
    · exact Nat.succ_pos _

/-- `DERIVE` gives the codes of the tree at the root. -/
theorem deriveBody_of_has (h : s.Has s.root T) (low : T.height ≤ 255) :
    deriveBody s = .ok () (s.derivedWith T) := by
  cases T with
  | leaf b =>
    rw [deriveBody_of_leafRoot (h.eq_leafId ▸ isLeaf_leafId b), h.eq_leafId, symbolOf_leafId]
    rfl
  | node l r =>
    have inner := h.isLeaf_node
    have codes := deriveFrom_of_has (s := s.noCodes) (h.of_children rfl rfl) (Nat.lt_succ_of_le low) []
    simp only [List.nil_append, Prod.mk.eta, List.map_id'] at codes
    have derived : deriveCodes s.noCodes = .ok () (s.noCodes.setCodes (CodeTree.node l r).codes) := by
      rw [deriveCodes, Proc.get_bind_run, State.noCodes_root, if_neg (by simp [inner])]
      exact codes
    rw [deriveBody, Proc.modify_bind_run, Proc.bind_of_ok derived]
    rfl

/-- `DERIVE` of a tree is what its codes make of the cleared code table. -/
theorem exec_derive_of_has (h : s.Has s.root T) (low : T.height ≤ 255) (built : s.phase = .built)
    (enc : s.mode = .enc) :
    exec .derive s = .next (s.derivedWith T) :=
  exec_of_ok rfl ⟨built, enc⟩ (deriveBody_of_has h low)

theorem State.derivedWith_frame (s : State) (T : CodeTree) : s.derivedWith T = { s with
    codeLen := (s.derivedWith T).codeLen, codeBits := (s.derivedWith T).codeBits
    ctValid := true, phase := .derived } :=
  congrArg State.derived (s.noCodes.setCodes_frame T.rootCodes)

/-- Each leaf of the tree has its code, which is its path where the root is internal. -/
theorem State.Has.code_of_leaf (h : s.Has s.root T) (low : T.height ≤ 255) (distinct : T.leaves.Nodup)
    (mem : b ∈ T.leaves) :
    (b, (s.derivedWith T).codeOf b) ∈ T.rootCodes ∧
      (isLeaf s.root = false → s.isPath s.root ((s.derivedWith T).codeOf b) b) := by
  rw [← T.rootCodes_symbols] at distinct mem
  obtain ⟨e, inCodes, rfl⟩ := List.mem_map.mp mem
  have code : (s.derivedWith T).codeOf e.1 = e.2 :=
    State.codeOf_setCodes distinct inCodes (T.length_rootCodes_le inCodes low)
  rw [code]
  refine ⟨inCodes, fun inner => ?_⟩
  cases T with
  | leaf c =>
    simp [h.eq_leafId] at inner
  | node l r => exact h.isPath inCodes

theorem State.TreeOk.exists_tree (ok : s.TreeOk) :
    ∃ T, s.Has s.root T ∧ T.height ≤ 255 ∧ T.leaves.Nodup ∧ ∀ b, b ∈ T.leaves ↔ atSym s.ftPres b = true := by
  obtain ⟨T, h⟩ := s.exists_has ok.below s.root
  have low := State.childrenBelow.height_le ok.below h
  have leaves : s.leaves = T.leaves := h.leavesFrom (Nat.lt_succ_of_le low)
  exact ⟨T, h, low, leaves ▸ ok.distinct, leaves ▸ ok.present⟩

/-- Settles O30: the codes that the walk through the tree sets are the paths of its leaves. -/
theorem deriveGivesThePaths : Obligations.DeriveGivesThePaths := by
  unfold Obligations.DeriveGivesThePaths
  intro s ok inner built enc
  obtain ⟨T, h, low, distinct, present⟩ := ok.exists_tree
  have symbols := T.rootCodes_symbols
  refine ⟨_, exec_derive_of_has h low built enc, fun b pres => ?path, fun b absent => ?absent, fun b i below => ?zero,
    s.derivedWith_frame _⟩
  case path => exact (h.code_of_leaf low distinct ((present b).mpr pres)).2 inner
  case absent =>
    have out : b ∉ T.rootCodes.map (·.1) := by rw [symbols, present b]; simp [absent]
    exact (State.setCodes_of_not_mem (s := s.noCodes) out).1.trans (atSym_replicate _ _)
  case zero =>
    by_cases mem : b ∈ T.rootCodes.map (·.1)
    · obtain ⟨e, inCodes, rfl⟩ := List.mem_map.mp mem
      obtain ⟨len, bits⟩ := State.setCodes_of_mem (s := s.noCodes) (symbols ▸ distinct) inCodes
      have short := T.length_rootCodes_le inCodes low
      change i + (atSym (s.noCodes.setCodes T.rootCodes).codeLen e.1).toNat < 255 at below
      change (atSym (s.noCodes.setCodes T.rootCodes).codeBits e.1).getLsbD i = false
      rw [len, BitVec.toNat_ofNat, Nat.mod_eq_of_lt (by omega)] at below
      rw [bits, State.noCodes_codeBits, atSym_replicate, getLsbD_placeCode_below below]
    · have bits : atSym (s.noCodes.setCodes T.rootCodes).codeBits b = 0 :=
        (State.setCodes_of_not_mem (s := s.noCodes) mem).2.trans (atSym_replicate _ _)
      change (atSym (s.noCodes.setCodes T.rootCodes).codeBits b).getLsbD i = false
      rw [bits]
      exact BitVec.getLsbD_zero

/-- Settles O32: the codes are paths to different leaves; a leaf-root has one symbol. -/
theorem codesArePrefixFree : Obligations.CodesArePrefixFree := by
  unfold Obligations.CodesArePrefixFree
  intro s t ok built enc ran
  obtain ⟨T, h, low, distinct, present⟩ := ok.exists_tree
  obtain rfl : s.derivedWith T = t := by
    simpa [exec_derive_of_has h low built enc] using ran
  cases T with
  | leaf c =>
    refine ⟨fun b pres => ?_, fun a b presA presB ne => absurd ?_ ne⟩
    · have code := (h.code_of_leaf low distinct ((present b).mpr pres)).1
      have code := List.mem_singleton.mp code
      rw [(Prod.mk.inj code).2]
      exact Nat.le_refl 1
    · rw [List.mem_singleton.mp ((present a).mpr presA), List.mem_singleton.mp ((present b).mpr presB)]
  | node l r =>
    have inner := h.isLeaf_node
    have path (b : Symbol) (pres : atSym s.ftPres b = true) :=
      (h.code_of_leaf low distinct ((present b).mpr pres)).2 inner
    exact ⟨fun b pres => (path b pres).length_pos inner, fun a b presA presB ne begins =>
      ne ((path a presA).eq_of_isPrefix (path b presB) begins)⟩

end Sys2Proof.Machine
end

section
/-!
PROOFS. One merge (spec/43_treebuilder.md R121 to R123).
-/

namespace Sys2Proof.Machine

variable {s : State} {k : Fin 255} {a b : NodeId}

/-- `a` and `b` are the two active nodes that come first, in that order (R121, R122). -/
structure State.Firsts (s : State) (a b : NodeId) : Prop where
  first  : s.nodeAct[a] = true
  second : s.nodeAct[b] = true
  lt     : s.weightThenId a < s.weightThenId b
  before : ∀ x : NodeId, s.nodeAct[x] = true → x ≠ a → x ≠ b → s.weightThenId b < s.weightThenId x

theorem State.Firsts.ne (h : s.Firsts a b) : a ≠ b := by
  rintro rfl
  exact lt_irrefl _ h.lt

/-- The state after a merge: `a` and `b` are extracted and joined in the internal node `k` (R123). -/
def State.merged (s : State) (k : Fin 255) (a b : NodeId) : State := ((s.deactivate a).deactivate b).mergeInto k a b

theorem State.merged_nodeW_same (s : State) (k : Fin 255) (a b : NodeId) :
    (s.merged k a b).nodeW[innerId k] = s.nodeW[a] + s.nodeW[b] := by
  simp [State.merged, State.mergeInto]

theorem State.merged_nodeW_ne (s : State) (a b : NodeId) {x : NodeId} (ne : x ≠ innerId k) :
    (s.merged k a b).nodeW[x] = s.nodeW[x] := by
  simp [State.merged, State.mergeInto, Fin.val_ne_of_ne ne.symm]

theorem State.merged_nodeAct_same (s : State) (k : Fin 255) (a b : NodeId) :
    (s.merged k a b).nodeAct[innerId k] = true := by
  simp [State.merged, State.mergeInto]

theorem State.merged_nodeAct_ne (s : State) (a b : NodeId) {x : NodeId} (ne : x ≠ innerId k) :
    (s.merged k a b).nodeAct[x] = (s.nodeAct[x] && x != a && x != b) := by
  rw [← s.deactivate_nodeAct_apply a x, ← (s.deactivate a).deactivate_nodeAct_apply b x]
  simp [State.merged, State.mergeInto, Fin.val_ne_of_ne ne.symm]

theorem State.merged_children_same (s : State) (k : Fin 255) (a b : NodeId) :
    (s.merged k a b).nodeL[k] = a ∧ (s.merged k a b).nodeR[k] = b := by
  simp [State.merged]

theorem State.merged_children_ne (s : State) (a b : NodeId) {j : Fin 255} (ne : j ≠ k) :
    (s.merged k a b).nodeL[j] = s.nodeL[j] ∧ (s.merged k a b).nodeR[j] = s.nodeR[j] := by
  simp [State.merged, Fin.val_ne_of_ne ne.symm]

theorem State.merged_nextId (s : State) (a b : NodeId) (next : s.nextId.toNat = 256 + k.val) :
    (s.merged k a b).nextId.toNat = 256 + k.val + 1 := by
  have value : (s.merged k a b).nextId = s.nextId + 1 := rfl
  rw [value, BitVec.toNat_add, next]
  exact Nat.mod_eq_of_lt (by simp; omega)

/-- With two active nodes and room in the store, a merge extracts the two first ones and joins them (R123). -/
theorem mergeStep_of_two (next : s.nextId.toNat = 256 + k.val) {x y : NodeId} (ne : x ≠ y) (hx : s.nodeAct[x] = true)
    (hy : s.nodeAct[y] = true) : ∃ a b, s.Firsts a b ∧ mergeStep s = .ok () (s.merged k a b) := by
  obtain ⟨a, extracted, first, least⟩ := extractMin_of_active hx
  obtain ⟨z, hz, other⟩ : ∃ z : NodeId, s.nodeAct[z] = true ∧ z ≠ a := by
    by_cases same : x = a
    · exact ⟨y, hy, same ▸ ne.symm⟩
    · exact ⟨x, hx, same⟩
  have left (v : NodeId) : (s.deactivate a).nodeAct[v] = true ↔ s.nodeAct[v] = true ∧ v ≠ a := by
    rw [State.deactivate_nodeAct_apply]
    simp
  obtain ⟨b, extracted', second, least'⟩ := extractMin_of_active ((left z).mpr ⟨hz, other⟩)
  obtain ⟨second, other'⟩ := (left b).mp second
  refine ⟨a, b, ⟨first, second, least b second other', fun v hv neA neB => least' v ((left v).mpr ⟨hv, neA⟩) neB⟩, ?_⟩
  have next' : ((s.deactivate a).deactivate b).nextId.toNat = 256 + k.val := next
  have room : 256 ≤ ((s.deactivate a).deactivate b).nextId.toNat ∧
      ((s.deactivate a).deactivate b).nextId.toNat < 511 := by
    omega
  have number : (⟨((s.deactivate a).deactivate b).nextId.toNat - 256, by omega⟩ : Fin 255) = k :=
    Fin.ext (by simp only [next']; omega)
  rw [mergeStep, Proc.bind_of_ok extracted, Proc.bind_of_ok extracted', Proc.get_bind_run, dif_pos room, Proc.set_run,
    number]
  rfl

/-- Settles O24: what the merge of the two first nodes leaves in each entry of the node store. -/
theorem mergeStepJoinsTheTwoFirst : Obligations.MergeStepJoinsTheTwoFirst := by
  unfold Obligations.MergeStepJoinsTheTwoFirst
  rintro s k next ⟨x, y, ne, hx, hy⟩
  obtain ⟨a, b, firsts, ran⟩ := mergeStep_of_two next ne hx hy
  exact ⟨a, b, _, ran, firsts.ne, firsts.first, firsts.second, (s.weightThenId_lt_iff a b).mp firsts.lt,
    fun x hx neA neB => (s.weightThenId_lt_iff b x).mp (firsts.before x hx neA neB), s.merged_nodeW_same k a b,
    (s.merged_children_same k a b).1, (s.merged_children_same k a b).2, s.merged_nodeAct_same k a b,
    s.merged_nextId a b next, fun x hx => ⟨s.merged_nodeW_ne a b hx, s.merged_nodeAct_ne a b hx⟩,
    fun j hj => s.merged_children_ne a b hj, rfl⟩

end Sys2Proof.Machine
end

section
/-!
PROOFS. What the merges of `BUILD` keep (spec/43_treebuilder.md R120, R123, R127).
-/

namespace Sys2Proof.Machine

variable {s t : State} {m : Nat} {k : Fin 255} {a b id : NodeId} {tree : NodeId → CodeTree}

/-- A node that exists after `m` merges: the leaf of a present symbol, or one of the first `m` internal nodes. -/
def State.made (s : State) (m : Nat) (id : NodeId) : Prop :=
  (∃ b, atSym s.ftPres b = true ∧ id = leafId b) ∨ ∃ k : Fin 255, k.val < m ∧ id = innerId k

theorem State.made.lt (h : s.made m id) : id.val < 256 + m := by
  obtain ⟨b, -, rfl⟩ | ⟨k, hk, rfl⟩ := h
  · exact Nat.lt_add_right m b.isLt
  · exact Nat.add_lt_add_left hk 256

theorem State.made.ne_innerId (h : s.made m id) (hk : m ≤ k.val) : id ≠ innerId k := by
  rintro rfl
  have low : 256 + k.val < 256 + m := h.lt
  omega

theorem State.made.mono {n : Nat} (h : s.made m id) (le : m ≤ n) : s.made n id :=
  h.imp_right fun ⟨k, hk, same⟩ => ⟨k, hk.trans_le le, same⟩

theorem State.made_succ_iff (hk : k.val = m) : s.made (m + 1) id ↔ s.made m id ∨ id = innerId k := by
  refine ⟨?_, ?_⟩
  · rintro (leaf | ⟨j, hj, rfl⟩)
    · exact .inl (.inl leaf)
    · obtain less | same := Nat.lt_succ_iff_lt_or_eq.mp hj
      · exact .inl (.inr ⟨j, less, rfl⟩)
      · exact .inr (congrArg innerId (Fin.ext (same.trans hk.symm)))
  · rintro (made | rfl)
    · exact made.mono m.le_succ
    · exact .inr ⟨k, by omega, rfl⟩

/-- The children of the internal nodes made so far. -/
abbrev State.childrenMade (s : State) (m : Nat) (t : State) : Prop :=
  ∀ k : Fin 255, k.val < m → s.made k.val t.nodeL[k] ∧ s.made k.val t.nodeR[k]

/-- The trees at the nodes after `m` merges, and those of them that are active (R120, R123). -/
structure State.Forest (s : State) (m : Nat) (tree : NodeId → CodeTree) (t : State) : Prop where
  next     : t.nextId.toNat = 256 + m
  count    : t.activeIds.length + m = s.presentSymbols.length
  active   : ∀ id : NodeId, t.nodeAct[id] = true → s.made m id
  children : s.childrenMade m t
  has      : ∀ id, s.made m id → t.Has id (tree id)
  leaves   : (t.activeIds.flatMap fun id => (tree id).leaves).Perm s.presentSymbols
  weight   : ∀ id, s.made m id → t.nodeW[id] = (tree id).weight (atSym s.ftCnt)

/-- How the weights add up after `m` merges (R127). -/
structure State.Weighed (s : State) (m : Nat) (tree : NodeId → CodeTree) (t : State) : Prop where
  atMost : ∀ id, s.made m id → t.nodeW[id] ≤ s.total
  cost   : (t.activeIds.map fun id => (tree id).cost (atSym s.ftCnt)).sum =
    ((List.finRange 255).map fun k => if k.val < m then t.nodeW[innerId k] else 0).sum

/-- The order in which nodes were extracted in `m` merges (R121, R122). -/
structure State.Ordered (m : Nat) (t : State) : Prop where
  pair  : ∀ k : Fin 255, k.val < m → t.weightThenId t.nodeL[k] < t.weightThenId t.nodeR[k]
  later : ∀ j k : Fin 255, j < k → k.val < m → t.weightThenId t.nodeR[j] < t.weightThenId t.nodeL[k]
  after : ∀ (k : Fin 255) (id : NodeId), k.val < m → t.nodeAct[id] = true →
    t.weightThenId t.nodeR[k] < t.weightThenId id
  sum   : ∀ k : Fin 255, k.val < m → t.nodeW[innerId k] = t.nodeW[t.nodeL[k]] + t.nodeW[t.nodeR[k]]

/-- What `m` merges leave alone (R123). -/
structure State.Untouched (s : State) (m : Nat) (t : State) : Prop where
  leaf : ∀ b, t.nodeW[leafId b] = s.seedWeight (leafId b)
  rest : ∀ k : Fin 255, m ≤ k.val →
    t.nodeW[innerId k] = s.nodeW[innerId k] ∧ t.nodeL[k] = s.nodeL[k] ∧ t.nodeR[k] = s.nodeR[k]

/-! ### After the seed -/

theorem State.seeded_made_iff : s.made 0 id ↔ s.seeded.nodeAct[id] = true := by
  rw [State.seeded_nodeAct, seedActive_iff]
  simp only [State.made, Nat.not_lt_zero, false_and, exists_false, or_false, mem_presentSymbols, eq_comm]

theorem State.seeded_forest (s : State) : s.Forest 0 (fun id => .leaf (symbolOf id)) s.seeded where
  next := rfl
  count := by rw [(activeIds_seeded_perm s).length_eq, List.length_map, Nat.add_zero]
  active id h := State.seeded_made_iff.mpr h
  children k hk := absurd hk (Nat.not_lt_zero _)
  has id h := by
    obtain ⟨b, -, rfl⟩ | ⟨k, hk, -⟩ := h
    · rw [symbolOf_leafId]
      exact .leaf b
    · exact absurd hk (Nat.not_lt_zero _)
  leaves := by
    have perm := (activeIds_seeded_perm s).flatMap_right fun id => (CodeTree.leaf (symbolOf id)).leaves
    simpa [List.flatMap_map, CodeTree.leaves] using perm
  weight id h := by
    obtain ⟨b, present, rfl⟩ | ⟨k, hk, -⟩ := h
    · rw [State.seeded_nodeW_apply, seedWeight_leafId, if_pos present]
      simp [CodeTree.weight, CodeTree.leaves]
    · exact absurd hk (Nat.not_lt_zero _)

/-- A present symbol counts at most `TOTAL`. -/
theorem State.TableOk.count_le (ok : s.TableOk) (b : Symbol) : atSym s.ftCnt b ≤ s.total := by
  rw [ok.total]
  exact List.single_le_sum (by simp) _ (List.mem_map.mpr ⟨b, mem_allSymbols b, rfl⟩)

theorem State.seeded_weighed (ok : s.TableOk) : s.Weighed 0 (fun id => .leaf (symbolOf id)) s.seeded where
  atMost id h := by
    obtain ⟨b, present, rfl⟩ | ⟨k, hk, -⟩ := h
    · rw [State.seeded_nodeW_apply, seedWeight_leafId, if_pos present]
      exact ok.count_le b
    · exact absurd hk (Nat.not_lt_zero _)
  cost := by
    have zero : ((List.finRange 255).map fun k => if k.val < 0 then s.seeded.nodeW[innerId k] else 0).sum = 0 := by
      refine List.sum_eq_zero fun x mem => ?_
      obtain ⟨k, -, rfl⟩ := List.mem_map.mp mem
      exact if_neg (Nat.not_lt_zero _)
    rw [zero]
    refine List.sum_eq_zero fun x mem => ?_
    obtain ⟨id, -, rfl⟩ := List.mem_map.mp mem
    rfl

theorem State.seeded_ordered (s : State) : State.Ordered 0 s.seeded where
  pair _ hk := absurd hk (Nat.not_lt_zero _)
  later _ _ _ hk := absurd hk (Nat.not_lt_zero _)
  after _ _ hk := absurd hk (Nat.not_lt_zero _)
  sum _ hk := absurd hk (Nat.not_lt_zero _)

theorem State.seeded_untouched (s : State) : s.Untouched 0 s.seeded where
  leaf b := s.seeded_nodeW_apply _
  rest k _ := ⟨(s.seeded_nodeW_apply _).trans (seedWeight_innerId s k), by rw [State.seeded_nodeL],
    by rw [State.seeded_nodeR]⟩

/-! ### After one more merge -/

/-- The trees after the nodes `a` and `b` have been joined in the internal node `k`. -/
def joinTrees (tree : NodeId → CodeTree) (k : Fin 255) (a b : NodeId) : NodeId → CodeTree :=
  Function.update tree (innerId k) (.node (tree a) (tree b))

theorem joinTrees_same (tree : NodeId → CodeTree) (k : Fin 255) (a b : NodeId) :
    joinTrees tree k a b (innerId k) = .node (tree a) (tree b) := Function.update_self ..

theorem joinTrees_ne (tree : NodeId → CodeTree) (a b : NodeId) (ne : id ≠ innerId k) :
    joinTrees tree k a b id = tree id := Function.update_of_ne ne ..

theorem State.Forest.inactive (h : s.Forest m tree t) (hk : k.val = m) : t.nodeAct[innerId k] = false := by
  rw [← Bool.not_eq_true]
  exact fun active => (h.active _ active).ne_innerId hk.ge rfl

/-- The active nodes before and after a merge: two leave, and the new one enters. -/
theorem State.Firsts.activeIds_perm (firsts : t.Firsts a b) (inactive : t.nodeAct[innerId k] = false) :
    ∃ others : List NodeId, t.activeIds.Perm (a :: b :: others) ∧
      (t.merged k a b).activeIds.Perm (innerId k :: others) ∧ innerId k ∉ others := by
  have neA : a ≠ innerId k := by
    rintro rfl
    simp [firsts.first] at inactive
  have neB : b ≠ innerId k := by
    rintro rfl
    simp [firsts.second] at inactive
  have nodup : (t.activeIds.filter fun x => x ≠ a ∧ x ≠ b).Nodup := (activeIds_nodup t).filter _
  have fresh : innerId k ∉ t.activeIds.filter fun x => x ≠ a ∧ x ≠ b := by
    simp [mem_activeIds, inactive]
  refine ⟨t.activeIds.filter fun x => x ≠ a ∧ x ≠ b, ?_, ?_, fresh⟩
  · refine (List.perm_ext_iff_of_nodup (activeIds_nodup t) ?_).mpr fun x => ?_
    · simpa [firsts.ne] using nodup
    · simp only [List.mem_cons, List.mem_filter, mem_activeIds, decide_eq_true_eq]
      constructor
      · intro active
        by_cases isA : x = a
        · exact .inl isA
        · by_cases isB : x = b
          · exact .inr (.inl isB)
          · exact .inr (.inr ⟨active, isA, isB⟩)
      · rintro (rfl | rfl | ⟨active, -⟩)
        · exact firsts.first
        · exact firsts.second
        · exact active
  · refine (List.perm_ext_iff_of_nodup (activeIds_nodup _) (List.nodup_cons.mpr ⟨fresh, nodup⟩)).mpr fun x => ?_
    rw [List.mem_cons, mem_activeIds]
    by_cases same : x = innerId k
    · subst same
      rw [State.merged_nodeAct_same]
      simp
    · rw [State.merged_nodeAct_ne t a b same]
      simp [same, mem_activeIds, and_assoc]

theorem State.Forest.merged (h : s.Forest m tree t) (firsts : t.Firsts a b) (hk : k.val = m) :
    s.Forest (m + 1) (joinTrees tree k a b) (t.merged k a b) := by
  have madeA := h.active a firsts.first
  have madeB := h.active b firsts.second
  obtain ⟨others, before, after, fresh⟩ := firsts.activeIds_perm (h.inactive hk)
  have below (j : Fin 255) (hj : j.val < m) : t.nodeL[j].val < 256 + j.val ∧ t.nodeR[j].val < 256 + j.val :=
    ⟨(h.children j hj).1.lt, (h.children j hj).2.lt⟩
  have older {j : Fin 255} (hj : j.val < m) : j ≠ k := fun same => by omega
  have kept {x : NodeId} (made : s.made m x) : (t.merged k a b).Has x (tree x) :=
    (h.has x made).congr made.lt below fun j hj => t.merged_children_ne a b (older hj)
  obtain ⟨leftA, rightB⟩ := t.merged_children_same k a b
  refine ⟨?next, ?count, ?active, ?children, ?has, ?leaves, ?weight⟩
  case next => rw [t.merged_nextId a b (h.next.trans (by rw [hk])), hk, Nat.add_assoc]
  case count =>
    have count := h.count
    rw [before.length_eq] at count
    rw [after.length_eq]
    simp only [List.length_cons] at count ⊢
    omega
  case active =>
    intro x active
    rw [State.made_succ_iff hk]
    by_cases same : x = innerId k
    · exact .inr same
    · rw [t.merged_nodeAct_ne a b same, Bool.and_assoc, Bool.and_eq_true] at active
      exact .inl (h.active x active.1)
  case children =>
    intro j hj
    obtain less | same := Nat.lt_succ_iff_lt_or_eq.mp hj
    · obtain ⟨sameL, sameR⟩ := t.merged_children_ne a b (older less)
      rw [sameL, sameR]
      exact h.children j less
    · obtain rfl : j = k := Fin.ext (same.trans hk.symm)
      rw [leftA, rightB, same]
      exact ⟨madeA, madeB⟩
  case has =>
    intro x made
    obtain made | rfl := (State.made_succ_iff hk).mp made
    · rw [joinTrees_ne tree a b (made.ne_innerId hk.ge)]
      exact kept made
    · rw [joinTrees_same]
      exact .node (leftA.symm ▸ kept madeA) (rightB.symm ▸ kept madeB)
  case leaves =>
    have same : (others.flatMap fun x => (joinTrees tree k a b x).leaves) = others.flatMap fun x => (tree x).leaves :=
      List.flatMap_congr fun x mem => by rw [joinTrees_ne tree a b (ne_of_mem_of_not_mem mem fresh)]
    refine (after.flatMap_right _).trans (List.Perm.trans ?_ ((before.flatMap_right _).symm.trans h.leaves))
    rw [List.flatMap_cons, joinTrees_same, same, List.flatMap_cons, List.flatMap_cons, CodeTree.leaves, List.append_assoc]
  case weight =>
    intro x made
    obtain made | rfl := (State.made_succ_iff hk).mp made
    · have ne := made.ne_innerId hk.ge
      rw [t.merged_nodeW_ne a b ne, joinTrees_ne tree a b ne, h.weight x made]
    · rw [t.merged_nodeW_same, joinTrees_same, CodeTree.weight_node, h.weight a madeA, h.weight b madeB]

/-- The active nodes together weigh `TOTAL` (R127). -/
theorem State.Forest.sum_active (h : s.Forest m tree t) (ok : s.TableOk) :
    (t.activeIds.map fun id => t.nodeW[id]).sum = s.total := by
  calc (t.activeIds.map fun id => t.nodeW[id]).sum
      = (t.activeIds.map fun id => (tree id).weight (atSym s.ftCnt)).sum :=
        congrArg List.sum (List.map_congr_left fun id mem => h.weight id (h.active id ((mem_activeIds t id).mp mem)))
    _ = ((t.activeIds.flatMap fun id => (tree id).leaves).map (atSym s.ftCnt)).sum := by
        rw [List.map_flatMap, List.flatMap, List.sum_flatten, List.map_map]
        rfl
    _ = s.total := by rw [(h.leaves.map _).sum_eq, ok.sum_counts]

theorem State.Weighed.merged (h : s.Weighed m tree t) (forest : s.Forest m tree t) (ok : s.TableOk)
    (firsts : t.Firsts a b) (hk : k.val = m) : s.Weighed (m + 1) (joinTrees tree k a b) (t.merged k a b) := by
  have madeA := forest.active a firsts.first
  have madeB := forest.active b firsts.second
  obtain ⟨others, before, after, fresh⟩ := firsts.activeIds_perm (forest.inactive hk)
  refine ⟨fun x made => ?atMost, ?cost⟩
  case atMost =>
    obtain made | rfl := (State.made_succ_iff hk).mp made
    · rw [t.merged_nodeW_ne a b (made.ne_innerId hk.ge)]
      exact h.atMost x made
    · have total := forest.sum_active ok
      rw [(before.map _).sum_eq, List.map_cons, List.sum_cons, List.map_cons, List.sum_cons] at total
      rw [t.merged_nodeW_same]
      omega
  case cost =>
    have others_eq : (others.map fun x => (joinTrees tree k a b x).cost (atSym s.ftCnt)) =
        others.map fun x => (tree x).cost (atSym s.ftCnt) :=
      List.map_congr_left fun x mem => by rw [joinTrees_ne tree a b (ne_of_mem_of_not_mem mem fresh)]
    have created : ((List.finRange 255).map fun j => if j.val < m + 1 then (t.merged k a b).nodeW[innerId j] else 0) =
        (List.finRange 255).map fun j => (if j.val < m then t.nodeW[innerId j] else 0) +
          if j = k then (CodeTree.node (tree a) (tree b)).weight (atSym s.ftCnt) else 0 := by
      refine List.map_congr_left fun j _ => ?_
      by_cases same : j = k
      · subst same
        rw [if_pos (by omega), if_neg (by omega), if_pos rfl, t.merged_nodeW_same, CodeTree.weight_node,
          forest.weight a madeA, forest.weight b madeB, Nat.zero_add]
      · have ne : innerId j ≠ innerId k := fun h => same (Fin.ext (Nat.add_left_cancel (congrArg Fin.val h)))
        have other := Fin.val_ne_of_ne same
        rw [if_neg same, t.merged_nodeW_ne a b ne]
        by_cases less : j.val < m
        · rw [if_pos less, if_pos (less.trans m.lt_succ_self)]
          rfl
        · rw [if_neg less, if_neg (by omega)]
    have cost := h.cost
    rw [(before.map _).sum_eq, List.map_cons, List.sum_cons, List.map_cons, List.sum_cons] at cost
    rw [(after.map _).sum_eq, List.map_cons, List.sum_cons, joinTrees_same, others_eq, created,
      sum_map_add_ite (List.nodup_finRange 255) (List.mem_finRange k), ← cost, CodeTree.cost]
    omega

theorem State.merged_weightThenId_ne (s : State) (a b : NodeId) {x : NodeId} (ne : x ≠ innerId k) :
    (s.merged k a b).weightThenId x = s.weightThenId x := by
  rw [State.weightThenId, s.merged_nodeW_ne a b ne, State.weightThenId]

/-- The new node comes after both its children: it weighs no less than either and has a greater id. -/
theorem State.weightThenId_lt_merged (s : State) {a b : NodeId} (low : b.val < 256 + k.val) :
    s.weightThenId b < (s.merged k a b).weightThenId (innerId k) := by
  refine Prod.Lex.toLex_lt_toLex.mpr ?_
  rw [s.merged_nodeW_same]
  obtain less | same := Nat.lt_or_eq_of_le (Nat.le_add_left s.nodeW[b] s.nodeW[a])
  · exact .inl less
  · exact .inr ⟨same, low⟩

theorem State.Ordered.merged (h : State.Ordered m t) (forest : s.Forest m tree t) (firsts : t.Firsts a b)
    (hk : k.val = m) : State.Ordered (m + 1) (t.merged k a b) := by
  have madeA := forest.active a firsts.first
  have madeB := forest.active b firsts.second
  have keyA := t.merged_weightThenId_ne a b (madeA.ne_innerId hk.ge)
  have keyB := t.merged_weightThenId_ne a b (madeB.ne_innerId hk.ge)
  have new : t.weightThenId b < (t.merged k a b).weightThenId (innerId k) :=
    t.weightThenId_lt_merged (hk.symm ▸ madeB.lt)
  obtain ⟨leftA, rightB⟩ := t.merged_children_same k a b
  have oldL {j : Fin 255} (hj : j.val < m) :
      (t.merged k a b).nodeL[j] = t.nodeL[j] ∧ (t.merged k a b).weightThenId t.nodeL[j] = t.weightThenId t.nodeL[j] ∧
        (t.merged k a b).nodeW[(t.merged k a b).nodeL[j]] = t.nodeW[t.nodeL[j]] :=
    have ne := ((forest.children j hj).1.mono hj.le).ne_innerId hk.ge
    have same := (t.merged_children_ne a b fun same : j = k => by omega).1
    ⟨same, t.merged_weightThenId_ne a b ne,
      (congrArg (fun x : NodeId => (t.merged k a b).nodeW[x]) same).trans (t.merged_nodeW_ne a b ne)⟩
  have oldR {j : Fin 255} (hj : j.val < m) :
      (t.merged k a b).nodeR[j] = t.nodeR[j] ∧ (t.merged k a b).weightThenId t.nodeR[j] = t.weightThenId t.nodeR[j] ∧
        (t.merged k a b).nodeW[(t.merged k a b).nodeR[j]] = t.nodeW[t.nodeR[j]] :=
    have ne := ((forest.children j hj).2.mono hj.le).ne_innerId hk.ge
    have same := (t.merged_children_ne a b fun same : j = k => by omega).2
    ⟨same, t.merged_weightThenId_ne a b ne,
      (congrArg (fun x : NodeId => (t.merged k a b).nodeW[x]) same).trans (t.merged_nodeW_ne a b ne)⟩
  have cases {j : Fin 255} (hj : j.val < m + 1) : j.val < m ∨ j = k :=
    (Nat.lt_succ_iff_lt_or_eq.mp hj).imp_right fun same => Fin.ext (same.trans hk.symm)
  refine ⟨fun j hj => ?pair, fun i j hij hj => ?later, fun j x hj active => ?after, fun j hj => ?sum⟩
  case pair =>
    obtain less | rfl := cases hj
    · rw [(oldL less).1, (oldR less).1, (oldL less).2.1, (oldR less).2.1]
      exact h.pair j less
    · rw [leftA, rightB, keyA, keyB]
      exact firsts.lt
  case later =>
    have less : i.val < m := by
      have : i.val < j.val := hij
      omega
    rw [(oldR less).1, (oldR less).2.1]
    obtain less' | rfl := cases hj
    · rw [(oldL less').1, (oldL less').2.1]
      exact h.later i j hij less'
    · rw [leftA, keyA]
      exact h.after i a less firsts.first
  case after =>
    by_cases same : x = innerId k
    · subst same
      obtain less | rfl := cases hj
      · rw [(oldR less).1, (oldR less).2.1]
        exact (h.after j b less firsts.second).trans new
      · rw [rightB, keyB]
        exact new
    · rw [t.merged_nodeAct_ne a b same] at active
      simp only [Bool.and_eq_true, bne_iff_ne] at active
      obtain ⟨⟨active, neA⟩, neB⟩ := active
      rw [t.merged_weightThenId_ne a b same]
      obtain less | rfl := cases hj
      · rw [(oldR less).1, (oldR less).2.1]
        exact h.after j x less active
      · rw [rightB, keyB]
        exact firsts.before x active neA neB
  case sum =>
    obtain less | rfl := cases hj
    · have ne : innerId j ≠ innerId k := fun same => by
        have : 256 + j.val = 256 + k.val := congrArg Fin.val same
        omega
      rw [(oldL less).2.2, (oldR less).2.2, t.merged_nodeW_ne a b ne]
      exact h.sum j less
    · have weight (x : NodeId) (made : s.made m x) {y : NodeId} (same : y = x) :
          (t.merged j a b).nodeW[y] = t.nodeW[x] := by
        subst same
        exact t.merged_nodeW_ne a b (made.ne_innerId hk.ge)
      rw [t.merged_nodeW_same, weight a madeA leftA, weight b madeB rightB]

theorem State.Untouched.merged (h : s.Untouched m t) (hk : k.val = m) : s.Untouched (m + 1) (t.merged k a b) where
  leaf c := (t.merged_nodeW_ne a b (innerId_ne_leafId k c).symm).trans (h.leaf c)
  rest j hj := by
    have other : j ≠ k := fun same => by omega
    have ne : innerId j ≠ innerId k := fun same => other (Fin.ext (Nat.add_left_cancel (congrArg Fin.val same)))
    obtain ⟨weight, left, right⟩ := h.rest j (by omega)
    obtain ⟨left', right'⟩ := t.merged_children_ne a b other
    exact ⟨(t.merged_nodeW_ne a b ne).trans weight, left'.trans left, right'.trans right⟩

end Sys2Proof.Machine
end

section
/-!
PROOFS. `BUILD` of a table with a symbol (spec/43_treebuilder.md R120 to R127).
-/

namespace Sys2Proof.Machine

variable {s t u : State} {m n : Nat} {tree : NodeId → CodeTree}

/-- What holds after `m` merges of the table of `s`. -/
structure State.Merging (s : State) (m : Nat) (tree : NodeId → CodeTree) (t : State) : Prop where
  forest    : s.Forest m tree t
  weighed   : s.Weighed m tree t
  ordered   : State.Ordered m t
  untouched : s.Untouched m t

theorem State.seeded_merging (ok : s.TableOk) : s.Merging 0 (fun id => .leaf (symbolOf id)) s.seeded :=
  ⟨s.seeded_forest, State.seeded_weighed ok, s.seeded_ordered, s.seeded_untouched⟩

/-- Where two nodes are left, one more merge is made (R123). -/
theorem State.Merging.step (h : s.Merging m tree t) (ok : s.TableOk) (more : m + 1 < s.presentSymbols.length) :
    ∃ (k : Fin 255) (a b : NodeId), k.val = m ∧ t.Firsts a b ∧ mergeStep t = .ok () (t.merged k a b) ∧
      s.Merging (m + 1) (joinTrees tree k a b) (t.merged k a b) := by
  have small := length_presentSymbols_le s
  have count := h.forest.count
  have nodup := activeIds_nodup t
  obtain ⟨x, y, rest, ids⟩ : ∃ x y rest, t.activeIds = x :: y :: rest := by
    match h' : t.activeIds with
    | [] | [_] => simp only [h', List.length_nil, List.length_singleton] at count; omega
    | x :: y :: rest => exact ⟨x, y, rest, rfl⟩
  have ne : x ≠ y := by
    rintro rfl
    simp [ids] at nodup
  have active (z : NodeId) (mem : z ∈ x :: y :: rest) : t.nodeAct[z] = true := (mem_activeIds t z).mp (ids ▸ mem)
  obtain ⟨a, b, firsts, ran⟩ := mergeStep_of_two (k := ⟨m, by omega⟩) h.forest.next ne (active x (by simp))
    (active y (by simp))
  exact ⟨_, a, b, rfl, firsts, ran, h.forest.merged firsts rfl, h.weighed.merged h.forest ok firsts rfl,
    h.ordered.merged h.forest firsts rfl, h.untouched.merged rfl⟩

theorem mergeLoop_of_merging (h : s.Merging m tree t) (ok : s.TableOk) (enough : n + m + 1 = s.presentSymbols.length) :
    ∃ u tree', mergeLoop n t = .ok () u ∧ s.Merging (n + m) tree' u := by
  induction n generalizing m t tree with
  | zero => exact ⟨t, tree, rfl, (Nat.zero_add m).symm ▸ h⟩
  | succ n ih =>
    obtain ⟨k, a, b, -, -, ran, next⟩ := h.step ok (by omega)
    obtain ⟨u, tree', looped, merged⟩ := ih next (by omega)
    refine ⟨u, tree', (Proc.bind_of_ok ran).trans looped, ?_⟩
    rwa [Nat.add_right_comm, Nat.add_assoc]

/-- The node store is all that merges write (R123). -/
theorem mergeLoop_frame (ran : mergeLoop n t = .ok () u) : u = { t with
    nodeW := u.nodeW, nodeL := u.nodeL, nodeR := u.nodeR, nodeAct := u.nodeAct, nextId := u.nextId } := by
  have keeps : Keeps (fun u => u = { t with
      nodeW := u.nodeW, nodeL := u.nodeL, nodeR := u.nodeR, nodeAct := u.nodeAct, nextId := u.nextId })
      (mergeLoop n) := by
    clear ran
    induction n with
    | zero => exact Keeps.pure ()
    | succ n ih =>
      refine (Keeps.mergeStep (fun v x h => ?_) fun v k a b h => ?_).bind fun _ => ih
      · exact congrArg (State.deactivate · x) h
      · rw [h]
        rfl
  exact keeps.ok rfl ran

theorem State.Merging.rootedAt (h : s.Merging m tree t) (r : NodeId) : s.Merging m tree (t.rootedAt r) :=
  have forest := h.forest
  { forest := { forest with has := fun id made => (forest.has id made).of_children rfl rfl }
    weighed := ⟨h.weighed.atMost, h.weighed.cost⟩
    ordered := ⟨h.ordered.pair, h.ordered.later, h.ordered.after, h.ordered.sum⟩
    untouched := ⟨h.untouched.leaf, h.untouched.rest⟩ }

/-- The state after `BUILD`: all the merges have been made, and the root is the one active node (R120). -/
structure State.Built (s : State) (tree : NodeId → CodeTree) (t : State) : Prop where
  merging : s.Merging (s.presentSymbols.length - 1) tree t
  active  : t.activeIds = [t.root]
  frame   : t = { s with
    nodeW := t.nodeW, nodeL := t.nodeL, nodeR := t.nodeR, nodeAct := t.nodeAct, nextId := t.nextId, root := t.root
    treeValid := true, ctValid := false, phase := .built }

theorem State.TableOk.symbols_pos (ok : s.TableOk) (some : s.nsyms ≠ 0) : 0 < s.presentSymbols.length := by
  rw [← ok.nsyms]
  exact Nat.pos_of_ne_zero fun zero => some (BitVec.eq_of_toNat_eq zero)

/-- `BUILD` of a table with a symbol makes the merges of the seed and roots the tree at the last active node. -/
theorem exec_build_of_table (ok : s.TableOk) (some : s.nsyms ≠ 0)
    (isLegal : legalWhen .build s.phase s.mode s.nsyms.toNat) :
    ∃ u r tree, mergeLoop (s.presentSymbols.length - 1) s.seeded = .ok () u ∧ exec .build s = .next (u.rootedAt r) ∧
      s.Built tree (u.rootedAt r) := by
  have positive := ok.symbols_pos some
  obtain ⟨u, tree, looped, merged⟩ := mergeLoop_of_merging (n := s.presentSymbols.length - 1)
    (State.seeded_merging ok) ok
    (by omega)
  rw [Nat.add_zero] at merged
  obtain ⟨r, only⟩ : ∃ r, u.activeIds = [r] := List.length_eq_one_iff.mp (by have := merged.forest.count; omega)
  have built : buildBody s = .ok () (u.rootedAt r) := by
    rw [buildBody, Proc.get_bind_run, if_neg some, Proc.modify_bind_run, Proc.get_bind_run, State.seeded_nsyms, ok.nsyms,
      Proc.bind_of_ok looped, takeRoot_of_singleton only]
  have frame : u = { s with
      nodeW := u.nodeW, nodeL := u.nodeL, nodeR := u.nodeR, nodeAct := u.nodeAct, nextId := u.nextId } :=
    (mergeLoop_frame looped).trans (by simp only [State.seeded])
  exact ⟨u, r, tree, looped, exec_of_ok rfl isLegal built, merged.rootedAt r, only,
    congrArg (State.rootedAt · r) frame⟩

/-! ### The tree that is built -/

section Built
variable (h : s.Built tree t)
include h

theorem State.Built.root_made : s.made (s.presentSymbols.length - 1) t.root :=
  h.merging.forest.active _ ((mem_activeIds t t.root).mp (by simp [h.active]))

theorem State.Built.has : t.Has t.root (tree t.root) := h.merging.forest.has _ h.root_made

theorem State.Built.below (k : Fin 255) (hk : k.val < s.presentSymbols.length - 1) :
    t.nodeL[k].val < 256 + k.val ∧ t.nodeR[k].val < 256 + k.val :=
  ⟨(h.merging.forest.children k hk).1.lt, (h.merging.forest.children k hk).2.lt⟩

theorem State.Built.height_le {id : NodeId} (made : s.made (s.presentSymbols.length - 1) id) :
    (tree id).height ≤ 255 := by
  have bound := (h.merging.forest.has id made).height_le made.lt h.below
  omega

theorem State.Built.leaves_perm : (tree t.root).leaves.Perm s.presentSymbols := by
  have perm := h.merging.forest.leaves
  rwa [h.active, List.flatMap_singleton] at perm

theorem State.Built.leaves_nodup : (tree t.root).leaves.Nodup := h.leaves_perm.nodup_iff.mpr (presentSymbols_nodup s)

theorem State.Built.mem_leaves (b : Symbol) : b ∈ (tree t.root).leaves ↔ atSym s.ftPres b = true := by
  rw [h.leaves_perm.mem_iff, mem_presentSymbols]

theorem State.Built.ftPres : t.ftPres = s.ftPres := by rw [h.frame]

theorem State.Built.treeOk (below : s.childrenBelow) : t.TreeOk := by
  have leaves : t.leaves = (tree t.root).leaves :=
    h.has.leavesFrom (Nat.lt_succ_of_le (h.height_le h.root_made))
  refine ⟨fun k => ?_, leaves ▸ h.leaves_nodup, fun b => ?_⟩
  · by_cases hk : k.val < s.presentSymbols.length - 1
    · exact h.below k hk
    · obtain ⟨-, left, right⟩ := h.merging.untouched.rest k (Nat.le_of_not_lt hk)
      rw [left, right]
      exact below k
  · rw [leaves, h.mem_leaves, h.ftPres]

theorem State.Built.nextId (ok : s.TableOk) (some : s.nsyms ≠ 0) : t.nextId.toNat = 256 + s.nsyms.toNat - 1 := by
  have positive := ok.symbols_pos some
  rw [h.merging.forest.next, ok.nsyms]
  omega

end Built

/-- Settles O25: the merges leave one active node, whose tree has the present symbols as leaves. -/
theorem buildMakesTheTree : Obligations.BuildMakesTheTree := by
  unfold Obligations.BuildMakesTheTree
  intro s ok below some isLegal
  obtain ⟨u, r, tree, -, ran, built⟩ := exec_build_of_table ok some isLegal
  refine ⟨_, ran, built.treeOk below, built.nextId ok some, fun id => ?active, fun b => ?leaf, fun k hk => ?rest,
    built.frame⟩
  case active => rw [Bool.eq_iff_iff, beq_iff_eq, ← mem_activeIds, built.active, List.mem_singleton]
  case leaf => rw [built.merging.untouched.leaf, seedWeight_leafId]
  case rest =>
    refine built.merging.untouched.rest k ?_
    have next := built.merging.forest.next
    omega

/-- Settles O27: the table is tested first. -/
theorem buildOfTheEmptyTableFaults : Obligations.BuildOfTheEmptyTableFaults := by
  unfold Obligations.BuildOfTheEmptyTableFaults
  intro s none isLegal
  refine exec_of_raised (i := .build) rfl isLegal ?_
  change buildBody s = _
  rw [buildBody, Proc.get_bind_run, if_pos none, Proc.throw_run]

/-- Settles O28: each merge adds the weights of the two trees that it joins, and the active nodes weigh `TOTAL`. -/
theorem weightsAreTheSumsOfTheLeaves : Obligations.WeightsAreTheSumsOfTheLeaves := by
  unfold Obligations.WeightsAreTheSumsOfTheLeaves
  intro s t ok some isLegal ran
  obtain ⟨u, r, tree, -, ran', built⟩ := exec_build_of_table ok some isLegal
  obtain rfl : u.rootedAt r = t := by simpa [ran'] using ran
  have next := built.merging.forest.next
  refine ⟨fun k hk => ?_, fun b present => ?_, ?_, ok.fits⟩
  · have made : s.made (s.presentSymbols.length - 1) (innerId k) := .inr ⟨k, by omega, rfl⟩
    have leaves := (built.merging.forest.has _ made).leavesFrom (Nat.lt_succ_of_le (built.height_le made))
    refine ⟨?_, built.merging.weighed.atMost _ made⟩
    rw [built.merging.forest.weight _ made, CodeTree.weight]
    exact congrArg (fun l => (l.map (atSym s.ftCnt)).sum) leaves.symm
  · exact built.merging.weighed.atMost _ (.inl ⟨b, present, rfl⟩)
  · have total := built.merging.forest.sum_active ok
    rwa [built.active, List.map_singleton, List.sum_singleton] at total

end Sys2Proof.Machine
end

section
/-!
PROOFS. The tree and the codes are functions of the table (spec/43_treebuilder.md R126).
-/

namespace Sys2Proof.Machine

variable {s s' t t' u u' : State} {m n : Nat} {k : Fin 255} {a b : NodeId} {tree tree' : NodeId → CodeTree}

/-- Two states with the same active nodes, the same weights of them, and the same internal nodes made so far. -/
structure State.SameForest (m : Nat) (t t' : State) : Prop where
  active : t.nodeAct = t'.nodeAct
  weight : ∀ x : NodeId, t.nodeAct[x] = true → t.nodeW[x] = t'.nodeW[x]
  inner  : ∀ k : Fin 255, k.val < m →
    t.nodeW[innerId k] = t'.nodeW[innerId k] ∧ t.nodeL[k] = t'.nodeL[k] ∧ t.nodeR[k] = t'.nodeR[k]

theorem State.Firsts.unique {a' b' : NodeId} (h : s.Firsts a b) (h' : s.Firsts a' b') : a = a' ∧ b = b' := by
  have least {a b x : NodeId} (h : s.Firsts a b) (active : s.nodeAct[x] = true) (ne : x ≠ a) :
      s.weightThenId a < s.weightThenId x := by
    by_cases same : x = b
    · exact same ▸ h.lt
    · exact h.lt.trans (h.before x active ne same)
  have same : a = a' := by
    by_contra ne
    exact lt_asymm (least h h'.first (Ne.symm ne)) (least h' h.first ne)
  subst same
  refine ⟨rfl, ?_⟩
  by_contra ne
  exact lt_asymm (h.before b' h'.second h'.ne.symm (Ne.symm ne)) (h'.before b h.second h.ne.symm ne)

theorem State.SameForest.firsts (same : State.SameForest m t t') (h : t'.Firsts a b) : t.Firsts a b := by
  have active (x : NodeId) : t.nodeAct[x] = t'.nodeAct[x] := by rw [same.active]
  have key {x : NodeId} (hx : t'.nodeAct[x] = true) : t.weightThenId x = t'.weightThenId x := by
    rw [State.weightThenId, same.weight x ((active x).trans hx), State.weightThenId]
  refine ⟨(active a).trans h.first, (active b).trans h.second, ?_, fun x hx neA neB => ?_⟩
  · rw [key h.first, key h.second]
    exact h.lt
  · have hx := (active x).symm.trans hx
    rw [key h.second, key hx]
    exact h.before x hx neA neB

theorem State.SameForest.merged (same : State.SameForest m t t') (firsts : t.Firsts a b) (hk : k.val = m) :
    State.SameForest (m + 1) (t.merged k a b) (t'.merged k a b) where
  active := by
    have h := same.active
    simp [State.merged, State.mergeInto, h]
  weight x hx := by
    by_cases new : x = innerId k
    · subst new
      rw [t.merged_nodeW_same, t'.merged_nodeW_same, same.weight a firsts.first, same.weight b firsts.second]
    · rw [t.merged_nodeAct_ne a b new, Bool.and_assoc, Bool.and_eq_true] at hx
      rw [t.merged_nodeW_ne a b new, t'.merged_nodeW_ne a b new, same.weight x hx.1]
  inner j hj := by
    by_cases new : j = k
    · subst new
      obtain ⟨left, right⟩ := t.merged_children_same j a b
      obtain ⟨left', right'⟩ := t'.merged_children_same j a b
      rw [t.merged_nodeW_same, t'.merged_nodeW_same, same.weight a firsts.first, same.weight b firsts.second]
      exact ⟨rfl, left.trans left'.symm, right.trans right'.symm⟩
    · have less : j.val < m := by
        have := Fin.val_ne_of_ne new
        omega
      have ne : innerId j ≠ innerId k := fun h => new (Fin.ext (Nat.add_left_cancel (congrArg Fin.val h)))
      obtain ⟨weight, left, right⟩ := same.inner j less
      obtain ⟨oldL, oldR⟩ := t.merged_children_ne a b new
      obtain ⟨oldL', oldR'⟩ := t'.merged_children_ne a b new
      rw [t.merged_nodeW_ne a b ne, t'.merged_nodeW_ne a b ne]
      exact ⟨weight, oldL.trans (left.trans oldL'.symm), oldR.trans (right.trans oldR'.symm)⟩

/-- Merges that begin alike stay alike. -/
theorem State.SameForest.mergeLoop (same : State.SameForest m t t') (h : s.Merging m tree t)
    (h' : s'.Merging m tree' t')
    (ok : s.TableOk) (ok' : s'.TableOk) (enough : n + m + 1 = s.presentSymbols.length)
    (enough' : n + m + 1 = s'.presentSymbols.length) (ran : Machine.mergeLoop n t = .ok () u)
    (ran' : Machine.mergeLoop n t' = .ok () u') : State.SameForest (n + m) u u' := by
  induction n generalizing m t t' tree tree' with
  | zero =>
    obtain ⟨-, rfl⟩ := EStateM.Result.ok.inj ran
    obtain ⟨-, rfl⟩ := EStateM.Result.ok.inj ran'
    rwa [Nat.zero_add]
  | succ n ih =>
    obtain ⟨k, a, b, hk, firsts, stepped, next⟩ := h.step ok (by omega)
    obtain ⟨k', a', b', hk', firsts', stepped', next'⟩ := h'.step ok' (by omega)
    obtain rfl : k = k' := Fin.ext (hk.trans hk'.symm)
    obtain ⟨rfl, rfl⟩ := firsts.unique (same.firsts firsts')
    rw [Machine.mergeLoop, Proc.bind_of_ok stepped] at ran
    rw [Machine.mergeLoop, Proc.bind_of_ok stepped'] at ran'
    have alike := ih (same.merged firsts hk) next next' (by omega) (by omega) ran ran'
    rwa [Nat.add_right_comm, Nat.add_assoc]

theorem State.seeded_sameForest (pres : s.ftPres = s'.ftPres) (counts : s.ftCnt = s'.ftCnt) :
    State.SameForest 0 s.seeded s'.seeded where
  active := by
    rw [State.seeded_nodeAct, State.seeded_nodeAct, ← Vector.toList_inj, seedActive_toList, seedActive_toList, pres]
  weight x hx := by
    obtain ⟨b, present, rfl⟩ | ⟨k, hk, -⟩ := State.seeded_made_iff.mpr hx
    · rw [State.seeded_nodeW_apply, State.seeded_nodeW_apply, seedWeight_leafId, seedWeight_leafId, if_pos present,
        if_pos (pres ▸ present), counts]
    · exact absurd hk (Nat.not_lt_zero _)
  inner k hk := absurd hk (Nat.not_lt_zero _)

/-- Two `BUILD`s of the same table make the same tree. -/
theorem exec_build_same (ok : s.TableOk) (ok' : s'.TableOk) (pres : s.ftPres = s'.ftPres) (counts : s.ftCnt = s'.ftCnt)
    (some : s.nsyms ≠ 0) (isLegal : legalWhen .build s.phase s.mode s.nsyms.toNat)
    (isLegal' : legalWhen .build s'.phase s'.mode s'.nsyms.toNat) :
    ∃ t t' tree tree', exec .build s = .next t ∧ exec .build s' = .next t' ∧ s.Built tree t ∧ s'.Built tree' t' ∧
      State.SameForest (s.presentSymbols.length - 1) t t' ∧ t.root = t'.root := by
  have symbols : s'.presentSymbols = s.presentSymbols := presentSymbols_congr pres.symm
  have some' : s'.nsyms ≠ 0 := (ok.totals_eq ok' pres.symm counts.symm).1 ▸ some
  have positive := ok.symbols_pos some
  obtain ⟨u, r, tree, looped, ran, built⟩ := exec_build_of_table ok some isLegal
  obtain ⟨u', r', tree', looped', ran', built'⟩ := exec_build_of_table ok' some' isLegal'
  rw [symbols] at looped'
  have same := (State.seeded_sameForest pres counts).mergeLoop (State.seeded_merging ok)
    (State.seeded_merging ok') ok ok'
    (by omega) (by rw [symbols]; omega) looped looped'
  refine ⟨_, _, tree, tree', ran, ran', built, built', ⟨same.active, same.weight, same.inner⟩, ?_⟩
  have ids : (u.rootedAt r).activeIds = (u'.rootedAt r').activeIds := by
    rw [State.activeIds, State.activeIds, State.rootedAt_nodeAct, State.rootedAt_nodeAct, same.active]
  exact List.singleton_inj.mp (built.active.symm.trans (ids.trans built'.active))

theorem State.SameForest.has (same : State.SameForest (s.presentSymbols.length - 1) t t') (built : s.Built tree t)
    (roots : t.root = t'.root) : t'.Has t'.root (tree t.root) :=
  roots ▸ built.has.congr built.root_made.lt built.below fun k hk =>
    ⟨(same.inner k hk).2.1.symm, (same.inner k hk).2.2.symm⟩

/-- What setting codes writes does not depend on the rest of the state. -/
theorem State.setCodes_congr (len : s.codeLen = s'.codeLen) (bits : s.codeBits = s'.codeBits)
    (codes : List (Symbol × List Bit)) :
    (s.setCodes codes).codeLen = (s'.setCodes codes).codeLen ∧
      (s.setCodes codes).codeBits = (s'.setCodes codes).codeBits := by
  induction codes generalizing s s' with
  | nil => exact ⟨len, bits⟩
  | cons e codes ih =>
    refine ih ?_ ?_
    · rw [State.setCode_codeLen, State.setCode_codeLen, len]
    · rw [State.setCode_codeBits, State.setCode_codeBits, bits]

/-- A command that ends outside `FAULT` ends where its procedure ends. -/
theorem body_of_exec {i : Instr} (hi : expansionOf i = [i]) (running : s.phase ≠ .fault) (ran : exec i s = .next t)
    (running' : t.phase ≠ .fault) : bodyOf i s = .ok () t := by
  rw [exec_eq_runCommand hi] at ran
  obtain ⟨fault, -, -⟩ | ⟨-, rfl⟩ | ⟨-, ok⟩ | ⟨-, e, v, -, rfl⟩ := runCommand_next_cases ran
  · exact absurd fault running
  · exact absurd rfl running'
  · exact ok
  · exact absurd rfl running'

/-- Settles O29: the choices of the merges depend on the active nodes and their weights alone, and the codes on the
tree. -/
theorem buildDependsOnTheTableOnly : Obligations.BuildDependsOnTheTableOnly := by
  unfold Obligations.BuildDependsOnTheTableOnly
  intro s s' t t' ok ok' pres counts ran ran' built built' other other'
  have completed {v w : State} (ran : exec .build v = .next w) (built : w.phase = .built) (other : v.phase ≠ .built) :
      legalWhen .build v.phase v.mode v.nsyms.toNat ∧ (v.TableOk → v.nsyms ≠ 0) := by
    obtain ⟨-, -, rfl⟩ | ⟨-, rfl⟩ | ⟨isLegal, body⟩ | ⟨-, e, x, -, rfl⟩ := runCommand_next_cases ran
    · exact absurd built other
    · exact absurd built nofun
    · refine ⟨(legal_iff_legalWhen v .build).mp isLegal, fun _ none => ?_⟩
      rw [buildBody, Proc.get_bind_run, if_pos none, Proc.throw_run] at body
      exact absurd body nofun
    · exact absurd built nofun
  obtain ⟨isLegal, some⟩ := completed ran built other
  obtain ⟨isLegal', -⟩ := completed ran' built' other'
  obtain ⟨v, v', tree, tree', ranV, ranV', builtV, builtV', same, roots⟩ :=
    exec_build_same ok ok' pres counts (some ok) isLegal isLegal'
  obtain rfl : v = t := by simpa [ranV] using ran
  obtain rfl : v' = t' := by simpa [ranV'] using ran'
  have next := builtV.merging.forest.next
  have next' := builtV'.merging.forest.next
  rw [presentSymbols_congr pres.symm] at next'
  refine ⟨⟨BitVec.eq_of_toNat_eq (next.trans next'.symm), roots, fun k hk => same.inner k (by omega)⟩,
    fun u u' derived derived' phase phase' => ?_⟩
  have low := builtV.height_le builtV.root_made
  have body := body_of_exec (i := .derive) rfl (by simp [built]) derived (by simp [phase])
  have body' := body_of_exec (i := .derive) rfl (by simp [built']) derived' (by simp [phase'])
  rw [bodyOf, deriveBody_of_has builtV.has low] at body
  rw [bodyOf, deriveBody_of_has (same.has builtV roots) low] at body'
  obtain ⟨-, rfl⟩ := EStateM.Result.ok.inj body
  obtain ⟨-, rfl⟩ := EStateM.Result.ok.inj body'
  exact State.setCodes_congr (s := v.noCodes) (s' := v'.noCodes) rfl rfl _

end Sys2Proof.Machine
end

section
/-!
PROOFS. The lengths of the codes (spec/44_codetable.md R134 (c) and (e)).
-/

namespace Sys2Proof.Machine

variable {s t : State} {m : Nat} {j k : Fin 255} {c d : Bit} {tree : NodeId → CodeTree}

/-! ### Keys of children and parents -/

theorem State.nodeW_le_of_lt {x y : NodeId} (h : s.weightThenId x < s.weightThenId y) : s.nodeW[x] ≤ s.nodeW[y] := by
  obtain less | ⟨same, -⟩ := (s.weightThenId_lt_iff x y).mp h
  · exact less.le
  · exact same.le

section Ordered
variable (h : State.Ordered m t)
include h

theorem State.Ordered.left_le_child (hk : k.val < m) (c : Bit) :
    t.weightThenId t.nodeL[k] ≤ t.weightThenId (t.stepDown (innerId k) c) := by
  rw [t.stepDown_innerId]
  cases c
  · exact le_rfl
  · exact (h.pair k hk).le

theorem State.Ordered.child_le_right (hk : k.val < m) (c : Bit) :
    t.weightThenId (t.stepDown (innerId k) c) ≤ t.weightThenId t.nodeR[k] := by
  rw [t.stepDown_innerId]
  cases c
  · exact (h.pair k hk).le
  · exact le_rfl

/-- The children of an earlier node come before those of a later one. -/
theorem State.Ordered.child_lt_child (hjk : j < k) (hk : k.val < m) (c d : Bit) :
    t.weightThenId (t.stepDown (innerId j) c) < t.weightThenId (t.stepDown (innerId k) d) :=
  (h.child_le_right (hk.trans' hjk) c).trans_lt ((h.later j k hjk hk).trans_le (h.left_le_child hk d))

/-- An earlier internal node comes before a later one. -/
theorem State.Ordered.inner_lt_inner (hjk : j < k) (hk : k.val < m) :
    t.weightThenId (innerId j) < t.weightThenId (innerId k) := by
  have left := State.nodeW_le_of_lt ((h.pair j (hk.trans' hjk)).trans (h.later j k hjk hk))
  have right := State.nodeW_le_of_lt ((h.later j k hjk hk).trans (h.pair k hk))
  have sum := h.sum j (hk.trans' hjk)
  have sum' := h.sum k hk
  have less : innerId j < innerId k := Nat.add_lt_add_left hjk 256
  rw [t.weightThenId_lt_iff]
  obtain lighter | same := Nat.lt_or_eq_of_le (show t.nodeW[innerId j] ≤ t.nodeW[innerId k] by omega)
  · exact .inl lighter
  · exact .inr ⟨same, less⟩

end Ordered

/-! ### Paths -/

/-- Every node on the way but the last is internal. -/
def State.Interior (s : State) (n : NodeId) (p : List Bit) : Prop :=
  ∀ i < p.length, isLeaf (s.follow n (p.take i)) = false

theorem State.follow_concat (s : State) (n : NodeId) (p : List Bit) (c : Bit) :
    s.follow n (p ++ [c]) = s.stepDown (s.follow n p) c := by
  simp [State.follow]

theorem State.Interior.of_concat {n : NodeId} {p : List Bit} (h : s.Interior n (p ++ [c])) :
    s.Interior n p ∧ isLeaf (s.follow n p) = false := by
  refine ⟨fun i hi => ?_, ?_⟩
  · have inner := h i (by simp; omega)
    rwa [List.take_append_of_le_length hi.le] at inner
  · have inner := h p.length (by simp)
    rwa [List.take_left] at inner

section Built
variable (h : s.Built tree t)
include h

theorem State.Built.follow_made {p : List Bit} (interior : t.Interior t.root p) :
    s.made (s.presentSymbols.length - 1) (t.follow t.root p) := by
  induction p using List.reverseRecOn with
  | nil => exact h.root_made
  | append_singleton p c ih =>
    obtain ⟨interior, inner⟩ := interior.of_concat
    obtain ⟨b, -, same⟩ | ⟨k, hk, same⟩ := ih interior
    · simp [same] at inner
    · obtain ⟨left, right⟩ := h.merging.forest.children k hk
      rw [t.follow_concat, same, t.stepDown_innerId]
      cases c
      · exact left.mono hk.le
      · exact right.mono hk.le

theorem State.Built.follow_inner {p : List Bit} (interior : t.Interior t.root p)
    (inner : isLeaf (t.follow t.root p) = false) :
    ∃ k : Fin 255, k.val < s.presentSymbols.length - 1 ∧ t.follow t.root p = innerId k := by
  obtain ⟨b, -, same⟩ | found := h.follow_made interior
  · simp [same] at inner
  · exact found

/-- A node that does not come before another is not deeper in the tree. -/
theorem State.Built.length_le_of_key_le {p q : List Bit} (interiorP : t.Interior t.root p)
    (interiorQ : t.Interior t.root q)
    (le : t.weightThenId (t.follow t.root p) ≤ t.weightThenId (t.follow t.root q)) : q.length ≤ p.length := by
  have ordered := h.merging.ordered
  induction q using List.reverseRecOn generalizing p with
  | nil => exact Nat.zero_le _
  | append_singleton q d ih =>
    obtain ⟨interiorQ, innerQ⟩ := interiorQ.of_concat
    obtain ⟨k, hk, atK⟩ := h.follow_inner interiorQ innerQ
    rw [t.follow_concat, atK] at le
    obtain rfl | ⟨p, c, rfl⟩ := List.eq_nil_or_concat p
    · have active : t.nodeAct[t.root] = true := (mem_activeIds t t.root).mp (by simp [h.active])
      have after := (ordered.child_le_right hk d).trans_lt (ordered.after k t.root hk active)
      exact absurd le (not_le_of_gt after)
    · rw [List.concat_eq_append] at interiorP le ⊢
      obtain ⟨interiorP, innerP⟩ := interiorP.of_concat
      obtain ⟨j, hj, atJ⟩ := h.follow_inner interiorP innerP
      rw [t.follow_concat, atJ] at le
      have order : j ≤ k := by
        by_contra later
        exact absurd le (not_le_of_gt (ordered.child_lt_child (lt_of_not_ge later) hj d c))
      have shorter := ih interiorP interiorQ (by
        rw [atJ, atK]
        obtain less | rfl := order.lt_or_eq
        · exact (ordered.inner_lt_inner less hk).le
        · exact le_rfl)
      simpa using shorter

theorem State.Built.weight_leaf {b : Symbol} (present : atSym s.ftPres b = true) :
    t.nodeW[leafId b] = atSym s.ftCnt b := by
  rw [h.merging.untouched.leaf, seedWeight_leafId, if_pos present]

/-- `DERIVE` after `BUILD`. -/
theorem State.Built.exec_derive (enc : s.mode = .enc) :
    exec .derive t = .next (t.derivedWith (tree t.root)) :=
  exec_derive_of_has h.has (h.height_le h.root_made) (by rw [h.frame]) (by rw [h.frame]; exact enc)

theorem State.Built.code_mem {b : Symbol} (present : atSym s.ftPres b = true) :
    (b, (t.derivedWith (tree t.root)).codeOf b) ∈ (tree t.root).rootCodes :=
  (h.has.code_of_leaf (h.height_le h.root_made) h.leaves_nodup ((h.mem_leaves b).mpr present)).1

theorem State.Built.code_isPath {b : Symbol} (present : atSym s.ftPres b = true) (inner : isLeaf t.root = false) :
    t.isPath t.root ((t.derivedWith (tree t.root)).codeOf b) b :=
  (h.has.code_of_leaf (h.height_le h.root_made) h.leaves_nodup ((h.mem_leaves b).mpr present)).2 inner

/-- A sum over the present symbols and their codes is one over the codes of the tree. -/
theorem State.Built.sum_codes (f : Symbol → List Bit → Nat) :
    (s.presentSymbols.map fun b => f b ((t.derivedWith (tree t.root)).codeOf b)).sum =
      ((tree t.root).rootCodes.map fun e => f e.1 e.2).sum := by
  have symbols := (tree t.root).rootCodes_symbols
  rw [← (h.leaves_perm.map _).sum_eq, ← symbols, List.map_map]
  refine congrArg List.sum (List.map_congr_left fun e mem => ?_)
  have code : (t.derivedWith (tree t.root)).codeOf e.1 = e.2 := State.codeOf_setCodes (symbols ▸ h.leaves_nodup) mem
    (CodeTree.length_rootCodes_le mem (h.height_le h.root_made))
  rw [Function.comp_apply, code]

end Built

/-- Settles O33: the nodes of a greater key were extracted later, and a node that was extracted later is not deeper. -/
theorem heavierSymbolsHaveNoLongerCodes : Obligations.HeavierSymbolsHaveNoLongerCodes := by
  unfold Obligations.HeavierSymbolsHaveNoLongerCodes
  intro s t u ok some persisted enc ran derived a b presA presB lighter
  obtain ⟨v, r, tree, -, ran', built⟩ := exec_build_of_table ok some (.inl ⟨persisted, enc⟩)
  obtain rfl : v.rootedAt r = t := by simpa [ran'] using ran
  generalize v.rootedAt r = t at *
  obtain rfl : t.derivedWith (tree t.root) = u := by simpa [built.exec_derive enc] using derived
  have root := built.has
  cases shape : tree t.root with
  | leaf c =>
    have leaf (b : Symbol) (present : atSym s.ftPres b = true) : b = c := by
      have mem := (built.mem_leaves b).mpr present
      rw [shape] at mem
      exact List.mem_singleton.mp mem
    rw [leaf a presA, leaf b presB] at lighter
    exact absurd lighter (lt_irrefl _)
  | node l r =>
    rw [shape] at root
    rw [← shape]
    have pathA := built.code_isPath presA root.isLeaf_node
    have pathB := built.code_isPath presB root.isLeaf_node
    refine built.length_le_of_key_le pathB.2 pathA.2 ?_
    rw [pathA.1, pathB.1]
    refine ((t.weightThenId_lt_iff _ _).mpr (.inl ?_)).le
    rwa [built.weight_leaf presA, built.weight_leaf presB]

/-- Settles O34: the costs of the trees of the active nodes are the weights of the nodes made, and the cost of the last
tree is the sum of the counts times the code lengths. -/
theorem payloadBitsAreTheInternalWeights : Obligations.PayloadBitsAreTheInternalWeights := by
  unfold Obligations.PayloadBitsAreTheInternalWeights
  intro s t u ok some persisted enc ran derived
  obtain ⟨v, r, tree, -, ran', built⟩ := exec_build_of_table ok some (.inl ⟨persisted, enc⟩)
  obtain rfl : v.rootedAt r = t := by simpa [ran'] using ran
  generalize v.rootedAt r = t at *
  obtain rfl : t.derivedWith (tree t.root) = u := by simpa [built.exec_derive enc] using derived
  rw [← sum_presentSymbols_eq (s := s) fun b => atSym s.ftCnt b * ((t.derivedWith (tree t.root)).codeOf b).length,
    built.sum_codes fun b p => atSym s.ftCnt b * p.length]
  have leaves := built.leaves_perm
  cases shape : tree t.root with
  | leaf c =>
    rw [shape] at leaves
    have only : s.presentSymbols = [c] := (List.singleton_perm.mp leaves).symm
    have one : s.nsyms = 1 := BitVec.eq_of_toNat_eq (by rw [ok.nsyms, only]; rfl)
    rw [if_pos one, ← ok.sum_counts, only]
    simp [CodeTree.rootCodes]
  | node l r =>
    have several : s.nsyms ≠ 1 := by
      intro one
      have length := leaves.length_eq
      have left := l.length_leaves_pos
      have right := r.length_leaves_pos
      rw [← ok.nsyms, one, shape, CodeTree.leaves, List.length_append] at length
      change _ = 1 at length
      omega
    have cost := built.merging.weighed.cost
    rw [built.active, List.map_singleton, List.sum_singleton, shape] at cost
    rw [if_neg several, CodeTree.rootCodes, CodeTree.sum_codes, cost]
    have created (k : Fin 255) : 256 + k.val < t.nextId.toNat ↔ k.val < s.presentSymbols.length - 1 := by
      have next := built.merging.forest.next
      omega
    simp only [created]

end Sys2Proof.Machine
end

section
/-!
PROOFS. `WALK` of a tree whose root is internal, and where it ends in `TruncatedStreamError` (spec/46_decoder.md R162
to R164).
-/

namespace Sys2Proof.Machine

variable {s t u : State} {bits more p : List Bit} {c : Bit} {b : Symbol} {m n : Nat} {out out' : List Byte}

/-! ### The tree under updates that leave the children alone -/

theorem State.stepDown_congr (left : t.nodeL = s.nodeL) (right : t.nodeR = s.nodeR) : t.stepDown = s.stepDown := by
  funext id c
  rw [State.stepDown, State.stepDown, State.left, State.left, State.right, State.right, left, right]

theorem State.follow_congr (left : t.nodeL = s.nodeL) (right : t.nodeR = s.nodeR) : t.follow = s.follow := by
  funext id p
  rw [State.follow, State.follow, State.stepDown_congr left right]

/-- A child is below its parent (R17). -/
theorem State.stepDown_lt (below : s.childrenBelow) {id : NodeId} (inner : isLeaf id = false) (c : Bit) :
    s.stepDown id c < id := by
  obtain ⟨b, rfl⟩ | ⟨k, rfl⟩ := eq_leafId_or_eq_innerId id
  · simp at inner
  · rw [s.stepDown_innerId]
    cases c
    · exact (below k).1
    · exact (below k).2

theorem State.follow_le (below : s.childrenBelow) {id : NodeId} (interior : s.Interior id p) : s.follow id p ≤ id := by
  induction p generalizing id with
  | nil => exact le_rfl
  | cons c p ih =>
    have less := State.stepDown_lt below (interior 0 (by simp)) c
    exact (ih fun i hi => interior (i + 1) (Nat.succ_lt_succ hi)).trans less.le

/-- A way of some bits through internal nodes leads away from its beginning. -/
theorem State.follow_ne (below : s.childrenBelow) {id : NodeId} (interior : s.Interior id p) (some : p ≠ []) :
    s.follow id p ≠ id := by
  cases p with
  | nil => exact absurd rfl some
  | cons c p =>
    have less := State.stepDown_lt below (interior 0 (by simp)) c
    exact ((State.follow_le below fun i hi => interior (i + 1) (Nat.succ_lt_succ hi)).trans_lt less).ne

/-! ### One payload bit -/

/-- The walk can go on: these bits are left to read, and `OSINK` takes what is put. -/
structure State.Walker (s : State) (bits : List Bit) : Prop where
  reader : s.Reader bits
  held   : s.held 5 = true
  go     : neverFails s.osink.fails

/-- `t` is `s` after `n` payload bits have been walked and `out` has been emitted. -/
structure State.Walked (s : State) (n : Nat) (out : List Byte) (t : State) : Prop where
  read : State.Read { s with cur := t.cur, osink := t.osink } n t
  out  : t.osink.data = s.osink.data ++ out

theorem State.Walked.refl (s : State) : s.Walked 0 [] s := ⟨.refl s, (List.append_nil _).symm⟩

theorem State.Walked.trans (first : s.Walked m out t) (rest : t.Walked n out' u) :
    s.Walked (m + n) (out ++ out') u where
  read := by
    have begins : State.Read { s with cur := u.cur, osink := u.osink } m { t with cur := u.cur, osink := u.osink } :=
      ⟨congrArg (fun v : State => { v with cur := u.cur, osink := u.osink }) first.read.frame, first.read.moved,
        first.read.few⟩
    exact begins.trans rest.read
  out := by rw [rest.out, first.out, List.append_assoc]

section Walked
variable (h : s.Walked n out t)
include h

theorem State.Walked.root : t.root = s.root := by rw [h.read.frame]

theorem State.Walked.follow : t.follow = s.follow :=
  State.follow_congr (by rw [h.read.frame]) (by rw [h.read.frame])

end Walked

theorem State.Walker.of_read (h : s.Walker (c :: bits)) (ready : t.Reader bits) (read : s.Read 1 t) :
    t.Walker bits ∧ t.root = s.root ∧ t.cur = s.cur ∧ t.stepDown = s.stepDown ∧ t.osink = s.osink := by
  have osink : t.osink = s.osink := by rw [read.frame]
  refine ⟨⟨ready, ?_, osink ▸ h.go⟩, by rw [read.frame], by rw [read.frame],
    State.stepDown_congr (by rw [read.frame]) (by rw [read.frame]), osink⟩
  rw [read.frame]
  exact h.held

theorem walkStep_of_inner (root : isLeaf s.root = false) (inner : isLeaf (s.stepDown s.cur c) = false) :
    walkStep c s = .ok () (s.moveTo (s.stepDown s.cur c)) := by
  rw [walkStep, Proc.get_bind_run, if_neg (by simp [root]), arriveAt, Proc.modify_bind_run, if_neg (by simp [inner]),
    Proc.pure_run]

theorem walkStep_of_leaf (root : isLeaf s.root = false) (leaf : isLeaf (s.stepDown s.cur c) = true)
    (held : s.held 5 = true) (go : neverFails s.osink.fails) :
    walkStep c s = .ok () ((s.setSink .osink
      ⟨s.osink.data ++ [symbolOf (s.stepDown s.cur c)], s.osink.fails.tail⟩).moveTo s.root) := by
  have put := putByte_of_go (q := .osink) (b := symbolOf (s.stepDown s.cur c)) (s := s.moveTo (s.stepDown s.cur c)) held
    (failsNext_of_neverFails go)
  rw [walkStep, Proc.get_bind_run, if_neg (by simp [root]), arriveAt, Proc.modify_bind_run, if_pos leaf,
    Proc.bind_of_ok put]
  rfl

/-- A bit that leads to an internal node moves the cursor there (R163). -/
theorem State.Walker.step_inner (h : s.Walker (c :: bits)) (root : isLeaf s.root = false)
    (inner : isLeaf (s.stepDown s.cur c) = false) :
    ∃ t, (getBit >>= walkStep) s = .ok () t ∧ t.Walker bits ∧ s.Walked 1 [] t ∧ t.cur = s.stepDown s.cur c := by
  obtain ⟨t, got, ready, read⟩ := h.reader.getBit
  obtain ⟨walker, sameRoot, cur, step, osink⟩ := h.of_read ready read
  have next : t.stepDown t.cur c = s.stepDown s.cur c := by rw [step, cur]
  refine ⟨_, (Proc.bind_of_ok got).trans (walkStep_of_inner (sameRoot ▸ root) (next.symm ▸ inner)), ?_, ⟨?_, ?_⟩, next⟩
  · exact ⟨⟨ready.held, ready.go, ready.ahead⟩, walker.held, walker.go⟩
  · refine ⟨?_, read.moved, read.few⟩
    exact congrArg (fun v : State => { v with cur := t.stepDown t.cur c, osink := t.osink }) read.frame
  · exact (congrArg Sink.data osink).trans (List.append_nil _).symm

/-- A bit that leads to a leaf emits its symbol and moves the cursor back to the root (R163). -/
theorem State.Walker.step_leaf (h : s.Walker (c :: bits)) (root : isLeaf s.root = false)
    (leaf : isLeaf (s.stepDown s.cur c) = true) :
    ∃ t, (getBit >>= walkStep) s = .ok () t ∧ t.Walker bits ∧ s.Walked 1 [symbolOf (s.stepDown s.cur c)] t ∧
      t.cur = s.root := by
  obtain ⟨t, got, ready, read⟩ := h.reader.getBit
  obtain ⟨walker, sameRoot, cur, step, osink⟩ := h.of_read ready read
  have next : t.stepDown t.cur c = s.stepDown s.cur c := by rw [step, cur]
  refine ⟨_, (Proc.bind_of_ok got).trans
    (walkStep_of_leaf (sameRoot ▸ root) (next.symm ▸ leaf) walker.held walker.go), ?_, ⟨?_, ?_⟩, sameRoot⟩
  · exact ⟨⟨ready.held, ready.go, ready.ahead⟩, walker.held, neverFails_tail walker.go⟩
  · refine ⟨?_, read.moved, read.few⟩
    exact congrArg (fun v => (State.setSink v .osink ⟨t.osink.data ++ [symbolOf (t.stepDown t.cur c)],
      t.osink.fails.tail⟩).moveTo t.root) read.frame
  · rw [← next, ← osink]
    rfl

/-- Whatever the bit and the tree are, the walk goes on after it. -/
theorem State.Walker.step (h : s.Walker (c :: bits)) : ∃ t, (getBit >>= walkStep) s = .ok () t ∧ t.Walker bits := by
  cases root : isLeaf s.root with
  | true =>
    obtain ⟨t, got, ready, read⟩ := h.reader.getBit
    obtain ⟨walker, sameRoot, -, -, -⟩ := h.of_read ready read
    exact ⟨_, (Proc.bind_of_ok got).trans (walkStep_of_leafRoot (sameRoot ▸ root) walker.held walker.go c),
      ⟨ready.held, ready.go, ready.ahead⟩, walker.held, neverFails_tail walker.go⟩
  | false =>
    cases next : isLeaf (s.stepDown s.cur c) with
    | true =>
      obtain ⟨t, ran, walker, -⟩ := h.step_leaf root next
      exact ⟨t, ran, walker⟩
    | false =>
      obtain ⟨t, ran, walker, -⟩ := h.step_inner root next
      exact ⟨t, ran, walker⟩

/-! ### The loop -/

theorem walkLoop_succ (n : Nat) (s : State) :
    walkLoop (n + 1) s = ((getBit >>= walkStep) >>= fun _ => walkLoop n) s := by
  rw [walkLoop, bind_assoc]

/-- With fewer bits than announced the loop ends in `TruncatedStreamError` (R164). -/
theorem State.Walker.walkLoop_short (h : s.Walker bits) (short : bits.length < n) :
    ∃ t, walkLoop n s = .error (.raised .truncatedStreamError) t := by
  obtain ⟨n, rfl⟩ : ∃ k, n = k + 1 := ⟨n - 1, by omega⟩
  induction bits generalizing n s with
  | nil =>
    obtain ⟨t, ended⟩ := h.reader.getBit_end
    exact ⟨t, (walkLoop_succ n s).trans (Proc.bind_of_error (Proc.bind_of_error ended))⟩
  | cons c bits ih =>
    obtain ⟨t, ran, walker⟩ := h.step
    rw [List.length_cons] at short
    obtain ⟨n, rfl⟩ : ∃ k, n = k + 1 := ⟨n - 1, by omega⟩
    obtain ⟨u, ended⟩ := ih walker n (by omega)
    exact ⟨u, (walkLoop_succ (n + 1) s).trans ((Proc.bind_of_ok ran).trans ended)⟩

/-- Bits that lead through internal nodes move the cursor along. -/
theorem State.Walker.walkLoop_inner (h : s.Walker (p ++ more)) (root : isLeaf s.root = false)
    (inner : ∀ i < p.length, isLeaf (s.follow s.cur (p.take (i + 1))) = false) (k : Nat) :
    ∃ t, walkLoop (p.length + k) s = walkLoop k t ∧ t.Walker more ∧ s.Walked p.length [] t ∧
      t.cur = s.follow s.cur p := by
  induction p generalizing s with
  | nil => exact ⟨s, by rw [List.length_nil, Nat.zero_add], h, .refl s, rfl⟩
  | cons c p ih =>
    obtain ⟨t, ran, walker, walked, cur⟩ := h.step_inner root (inner 0 (by simp))
    obtain ⟨u, looped, walker', walked', cur'⟩ := ih walker (walked.root ▸ root) fun i hi => by
      rw [walked.follow, cur]
      exact inner (i + 1) (Nat.succ_lt_succ hi)
    refine ⟨u, ?_, walker', ?_, ?_⟩
    · rw [List.length_cons, Nat.add_right_comm, walkLoop_succ, Proc.bind_of_ok ran, looped]
    · rw [List.length_cons, Nat.add_comm]
      exact walked.trans walked'
    · rw [cur', walked.follow, cur]
      rfl

/-- The path of a symbol emits the symbol and brings the cursor back to the root. -/
theorem State.Walker.walkLoop_path (h : s.Walker (p ++ more)) (root : isLeaf s.root = false) (atRoot : s.cur = s.root)
    (path : s.isPath s.root p b) (k : Nat) :
    ∃ t, walkLoop (p.length + k) s = walkLoop k t ∧ t.Walker more ∧ s.Walked p.length [b] t ∧ t.cur = s.root := by
  obtain rfl | ⟨q, c, rfl⟩ := List.eq_nil_or_concat p
  · exact absurd (path.length_pos root) (by simp)
  rw [List.concat_eq_append] at h path ⊢
  rw [List.append_assoc] at h
  obtain ⟨t, looped, walker, walked, cur⟩ := h.walkLoop_inner root (fun i hi => by
    have inner := path.2 (i + 1) (by simp; omega)
    rwa [List.take_append_of_le_length (by omega), ← atRoot] at inner) (k + 1)
  have next : t.stepDown t.cur c = leafId b := by
    have step : t.stepDown (t.follow t.root q) c = s.stepDown (s.follow s.root q) c := by
      rw [← t.follow_concat, ← s.follow_concat, walked.follow, walked.root]
    rw [cur, atRoot, ← walked.follow, ← walked.root, step, ← s.follow_concat]
    exact path.1
  obtain ⟨u, ran, walker', walked', cur'⟩ := walker.step_leaf (walked.root ▸ root) (next ▸ isLeaf_leafId b)
  rw [next, symbolOf_leafId] at walked'
  refine ⟨u, ?_, walker', ?_, cur'.trans walked.root⟩
  · rw [List.length_append, List.length_singleton, Nat.add_assoc, Nat.add_comm 1 k, looped, walkLoop_succ,
      Proc.bind_of_ok ran]
  · rw [List.length_append, List.length_singleton]
    exact walked.trans walked'

/-- The paths of symbols emit the symbols (R163). -/
theorem State.Walker.walkLoop_paths {path : Symbol → List Bit} {syms : List Symbol}
    (h : s.Walker (syms.flatMap path ++ more)) (root : isLeaf s.root = false) (atRoot : s.cur = s.root)
    (paths : ∀ b ∈ syms, s.isPath s.root (path b) b) (k : Nat) :
    ∃ t, walkLoop ((syms.flatMap path).length + k) s = walkLoop k t ∧ t.Walker more ∧
      s.Walked (syms.flatMap path).length syms t ∧ t.cur = s.root := by
  induction syms generalizing s with
  | nil => exact ⟨s, by rw [List.flatMap_nil, List.length_nil, Nat.zero_add], h, .refl s, atRoot⟩
  | cons b syms ih =>
    rw [List.flatMap_cons, List.append_assoc] at h
    obtain ⟨t, looped, walker, walked, cur⟩ := h.walkLoop_path root atRoot (paths b List.mem_cons_self)
      ((syms.flatMap path).length + k)
    obtain ⟨u, looped', walker', walked', cur'⟩ := ih walker (walked.root ▸ root) (cur.trans walked.root.symm)
      fun a mem => by
        have path := paths a (List.mem_cons_of_mem b mem)
        rwa [State.isPath, walked.follow, walked.root]
    refine ⟨u, ?_, walker', ?_, cur'.trans walked.root⟩
    · rw [List.flatMap_cons, List.length_append, Nat.add_assoc, looped, looped']
    · rw [List.flatMap_cons, List.length_append]
      exact walked.trans walked'

/-! ### The command -/

theorem State.atWalk_walker (tree : s.treeValid = true) (reader : s.Reader bits) (go : neverFails s.osink.fails) :
    s.atWalk.Walker bits := by
  rw [State.atWalk_of_tree tree]
  exact ⟨⟨(held_hold_ne s (by decide)).trans reader.held, reader.go, reader.ahead⟩, held_hold_sink s .osink,
    neverFails_tail go⟩

/-- Settles O45: each path emits its symbol and leads back to the root, where the walk ends. -/
theorem walkDecodesThePaths : Obligations.WalkDecodesThePaths := by
  unfold Obligations.WalkDecodesThePaths
  intro s path syms before after hdr dec held tree root paths bits empty none data pos readGo putGo
  obtain ⟨more, reader⟩ := State.Reader.of_payload held readGo empty data pos
  have walker := State.atWalk_walker tree reader putGo
  have begins := State.atWalk_of_tree tree
  have count : s.hdrBits.toNat - s.brTotal.toNat = (syms.flatMap path).length + 0 := by
    rw [none, bits]
    rfl
  obtain ⟨t, looped, -, walked, cur⟩ := walker.walkLoop_paths (path := path) (syms := syms) (by rw [begins]; exact root)
    (by rw [begins]) (fun b mem => by rw [begins]; exact paths b mem) 0
  have walks : walkBody s = .ok () t.endSession := by
    rw [walkBody_of_go (.inr tree) putGo, count, Proc.bind_of_ok looped, endWalk_of_atRoot fun _ => cur.trans walked.root.symm]
  have frame := walked.read.frame
  have moved := walked.read.pos_eq (by rw [begins]; exact empty)
  have out := walked.out
  have total : s.brTotal + BitVec.ofNat 64 (syms.flatMap path).length = s.hdrBits := by
    rw [none, ← bits, BitVec.ofNat_toNat, BitVec.setWidth_eq]
    exact BitVec.zero_add _
  rw [begins] at frame moved out cur
  refine ⟨_, exec_walk_of_ok hdr dec walks, ?_⟩
  have ends : t = { s with
      portHeld := setBit s.portHeld 5 true, cur := s.root
      brBuf := t.brBuf, brLeft := t.brLeft, brTotal := s.hdrBits
      esrc := { s.esrc with pos := before.length + ((syms.flatMap path).length + 7) / 8, fails := t.esrc.fails }
      osink := ⟨syms, t.osink.fails⟩ } := by
    have sink : t.osink = ⟨syms, t.osink.fails⟩ := by
      rw [List.nil_append] at out
      rw [← out]
    conv_lhs => rw [frame]
    rw [← sink, ← total, ← pos, moved, cur]
  exact congrArg State.endSession ends

/-- Settles O48: the loop meets the end of the stream, or it ends away from the root. -/
theorem walkDetectsTruncation : Obligations.WalkDetectsTruncation := by
  unfold Obligations.WalkDetectsTruncation
  intro s hdr dec held tree readGo putGo truncated
  have ends {t : State} (raised : walkBody s = .error (.raised .truncatedStreamError) t) : truncated :=
    ⟨_, exec_walk_of_raised hdr dec raised, rfl, rfl, rfl, rfl⟩
  have begins := State.atWalk_of_tree tree
  refine ⟨fun short => ?short, fun path syms cut before after below paths some inner bits empty none data pos =>
    ?inside⟩
  case short =>
    have walker := State.atWalk_walker tree ⟨held, readGo, rfl⟩ putGo
    obtain ⟨t, ended⟩ := walker.walkLoop_short (s.length_aheadBits.trans_lt short)
    exact ends ((walkBody_of_go (.inr tree) putGo).trans (Proc.bind_of_error ended))
  case inside =>
    have root : isLeaf s.root = false := inner 0 (Nat.zero_le _)
    obtain ⟨more, reader⟩ := State.Reader.of_payload held readGo empty data pos
    rw [List.append_assoc] at reader
    have walker := State.atWalk_walker tree reader putGo
    have count : s.hdrBits.toNat - s.brTotal.toNat = (syms.flatMap path).length + (cut.length + 0) := by
      rw [none, bits, List.length_append]
      rfl
    obtain ⟨t, looped, walker', walked, cur⟩ := walker.walkLoop_paths (path := path) (syms := syms)
      (by rw [begins]; exact root) (by rw [begins]) (fun b mem => by rw [begins]; exact paths b mem) (cut.length + 0)
    have sameRoot : t.root = s.root := walked.root.trans (by rw [begins])
    have sameFollow : t.follow = s.follow := walked.follow.trans (by rw [begins]; rfl)
    have atRoot : t.cur = s.root := cur.trans (by rw [begins])
    obtain ⟨u, looped', -, walked', cur'⟩ := walker'.walkLoop_inner (sameRoot ▸ root)
      (fun i hi => by rw [sameFollow, atRoot]; exact inner (i + 1) hi) 0
    rw [sameFollow, atRoot] at cur'
    have away : u.cur ≠ u.root := by
      rw [cur', walked'.root, sameRoot]
      exact State.follow_ne below (fun i hi => inner i hi.le) some
    have valid : u.treeValid = true := by
      rw [walked'.read.frame, walked.read.frame, begins]
      exact tree
    refine ends (t := u) ?_
    rw [walkBody_of_go (.inr tree) putGo, count, Proc.bind_of_ok (looped.trans looped'), endWalk, Proc.get_bind_run,
      if_pos ⟨valid, away⟩, Proc.throw_run]

end Sys2Proof.Machine
end

section
/-!
PROOFS. A session of `ENCODE` (spec/45_encoder.md R150, R151).
-/

namespace Sys2Proof.Machine

variable {s t v : State} {i : Instr} {b : Symbol}

/-! ### What every session needs -/

/-- Where no access to a port fails, none fails after a command either. -/
theorem neverFails_of_exec {p : Nat} (ran : exec i s = .next t) (go : neverFails (s.failsOf p)) :
    neverFails (t.failsOf p) := by
  obtain ⟨used, uses, -⟩ := exec_usedAnswers ran
  exact fun b mem => go b (uses p ▸ List.mem_append_right _ mem)

theorem neverFails_of_runAll {p : Nat} {is : List Instr} (ran : runAll is s = .next t) (go : neverFails (s.failsOf p)) :
    neverFails (t.failsOf p) := by
  induction is generalizing s with
  | nil =>
    obtain rfl : s = t := by simpa [runAll] using ran
    exact go
  | cons i is ih =>
    rw [runAll] at ran
    split at ran
    · next u first => exact ih ran (neverFails_of_exec first go)
    · exact absurd ran nofun
    · exact absurd ran nofun

theorem length_codeOf (s : State) (b : Symbol) : (s.codeOf b).length = (atSym s.codeLen b).toNat := by
  simp [State.codeOf, takeCode]

/-- The codes of a byte sequence together have a code's length for each occurrence of its byte. -/
theorem length_flatMap_eq_sum (f : Symbol → List Bit) (S : List Byte) :
    (S.flatMap f).length = (allSymbols.map fun b => S.count b * (f b).length).sum := by
  induction S with
  | nil =>
    have zero : (allSymbols.map fun b => ([] : List Byte).count b * (f b).length).sum = 0 := by
      refine List.sum_eq_zero fun x mem => ?_
      obtain ⟨b, -, rfl⟩ := List.mem_map.mp mem
      rw [List.count_nil, Nat.zero_mul]
    rw [zero]
    rfl
  | cons a S ih =>
    have grows (b : Symbol) : (a :: S).count b * (f b).length =
        S.count b * (f b).length + if b = a then (f a).length else 0 := by
      rw [List.count_cons, Nat.add_mul]
      by_cases same : b = a
      · simp [same]
      · simp [same, Ne.symm same]
    rw [List.flatMap_cons, List.length_append, ih, funext grows, sum_allSymbols_add_ite, Nat.add_comm]

/-! ### The table and its record -/

/-- `v` is `s` after its source has been scanned and persisted. -/
structure State.Persisted (s v : State) : Prop where
  table   : v.TableOk
  entries : ∀ b, atSym v.ftPres b = s.src.data.contains b ∧ atSym v.ftCnt b = s.src.data.count b
  phase   : v.isAt .persisted .enc
  err     : v.err = none
  src     : v.src.data = s.src.data
  width   : v.cntW = s.cntW
  record  : v.fsink.data = v.tableLines.flatMap lineOf

theorem runAll_scan_persist_of_fits (fits : s.src.data.length ≤ s.maxCnt) (readGo : neverFails s.src.fails)
    (putGo : neverFails s.fsink.fails) : ∃ v, runAll [.clear, .scan, .persist] s = .next v ∧ s.Persisted v := by
  obtain ⟨t, scanned, ok, entries, frame⟩ := exec_scan_of_fits s.cleared_cleared fits readGo
  have table : t.phase = .table ∧ t.mode = .enc := by rw [frame]; exact ⟨rfl, rfl⟩
  have sink : t.fsink = s.fsink := by rw [frame]; rfl
  obtain ⟨v, persisted, frame'⟩ := persistWritesTheRecord t table.1 table.2 (sink ▸ putGo)
  refine ⟨v, ?_, ⟨?_, ?_, ?_, ?_, ?_, ?_, ?_⟩⟩
  · rw [runAll_of_next (exec_clear s), runAll_of_next scanned, runAll_singleton, persisted]
  · rw [frame']
    exact ⟨ok.absent, ok.nsyms, ok.total, ok.fits⟩
  · rw [frame']
    exact entries
  · rw [frame']
    exact ⟨rfl, table.2⟩
  · rw [frame', frame]
    rfl
  · rw [frame', frame]
    rfl
  · rw [frame', frame]
    rfl
  · rw [frame', State.tableLines, presentSymbols_eq_filter, List.flatMap_map]
    rfl

theorem State.Persisted.recordOf (h : s.Persisted v) : v.fsink.data = recordOf s.src.data := by
  rw [h.record, State.tableLines, presentSymbols_eq_filter, List.flatMap_map, Machine.recordOf]
  simp only [fun b => (h.entries b).1, fun b => (h.entries b).2]
  rfl

/-- A source of more than `MAXCNT` bytes ends the scan, and so the session, in `CapacityError` (R101, R151). -/
theorem exec_encode_of_exceeds (exceeds : s.maxCnt < s.src.data.length) (go : neverFails s.src.fails) :
    ∃ t, exec .encode s = .next t ∧ t.phase = .fault ∧ t.err = some .capacityError ∧ t.errCmd = 0x10 := by
  obtain ⟨t, scanned, fault, err, cmd, -⟩ := scanOverCapacityFaults s.cleared s.cleared_cleared exceeds go
  have persisted : runAll [.clear, .scan, .persist] s = .next t := by
    rw [runAll_of_next (exec_clear s), runAll_of_next scanned, runAll_of_ignored (by decide) fault]
  refine ⟨t, ?_, fault, err, cmd⟩
  rw [exec_encode_of_persisted persisted]
  exact runAll_of_ignored (by split <;> decide) fault

/-! ### The stream -/

/-- From a state with codes for the bytes of the source, the rest of the session writes the header and the payload
(R141, R142, R144). -/
theorem runAll_encodeTail (isLegal : legalWhen .wrhdr v.phase v.mode v.nsyms.toNat)
    (coded : ∀ b ∈ v.src.data, atSym v.codeLen b ≠ 0) (bits : v.payloadBits = (v.src.data.flatMap v.codeOf).length)
    (readGo : neverFails v.src.fails) (putGo : neverFails v.esink.fails) :
    ∃ t, runAll [.wrhdr, .emit, .flush] v = .next t ∧
      t.esink.data = bytesBE 8 (v.src.data.flatMap v.codeOf).length ++ payloadOf (v.src.data.flatMap v.codeOf) ∧
      t = { v with
        hdrBits := t.hdrBits, phase := .done, portHeld := 0, bwAcc := t.bwAcc, bwN := t.bwN, bwTotal := t.bwTotal
        src := t.src, esink := t.esink } := by
  have announced := exec_wrhdr_of_go isLegal putGo
  generalize hw : ({ v with
    hdrBits := BitVec.ofNat 64 v.payloadBits, phase := .hdr, portHeld := v.portHeld ||| 0b000100
    bwAcc := 0, bwN := 0, bwTotal := 0
    esink := ⟨bytesBE 8 v.payloadBits, v.esink.fails.tail.drop 8⟩ } : State) = w at announced
  have held : w.held 2 = true := by simp [← hw, State.held]
  have atHdr : w.phase = .hdr ∧ w.mode = .enc := by rw [← hw]; exact ⟨rfl, isLegal.1⟩
  have src : w.src = v.src := by rw [← hw]
  have codeOf : w.codeOf = v.codeOf := by rw [← hw]; rfl
  have codeLen : w.codeLen = v.codeLen := by rw [← hw]
  have go : neverFails w.esink.fails := by rw [← hw]; exact neverFails_drop (neverFails_tail putGo) 8
  obtain ⟨x, emitted, wrote, moved⟩ := exec_emit_of_coded atHdr.1 atHdr.2 held (by rw [src, codeLen]; exact coded)
    (src ▸ readGo) go
  rw [codeOf, src] at wrote
  have held' : State.held { w with phase := .streamed, portHeld := w.portHeld ||| 0b000001, src := x.src } 2 =
      true := by
    have h : w.portHeld.getLsbD 2 = true := held
    simp [State.held, h]
  obtain ⟨y, flushed, out, frame⟩ := wrote.flushed held' (by rw [← hw]) (by rw [← hw])
  have total : y.bwTotal = y.hdrBits := by
    rw [frame, wrote.frame, ← hw]
    change 0 + BitVec.ofNat 64 _ = BitVec.ofNat 64 _
    rw [bits]
    exact BitVec.zero_add _
  have streamed : x.phase = .streamed := by rw [wrote.frame]
  have ended : exec .flush x = .next y.endSession :=
    exec_of_ok (i := .flush) rfl streamed ((flushBody_of_flushed flushed).trans (if_pos total))
  refine ⟨y.endSession, ?_, ?_, ?_⟩
  · rw [runAll_of_next announced, runAll_of_next emitted, runAll_singleton, ended]
  · refine out.trans ?_
    rw [← hw, bits]
  · have whole : y = { v with
        hdrBits := y.hdrBits, phase := .streamed, portHeld := y.portHeld, bwAcc := y.bwAcc, bwN := y.bwN
        bwTotal := y.bwTotal, src := y.src, esink := y.esink } := by
      rw [frame, wrote.frame, ← hw]
    exact congrArg State.endSession whole

/-! ### The session -/

/-- `t` is the end of a session that encodes the source of `s`, whose table and record are those of `v`. -/
structure State.Encoded (s v t : State) : Prop where
  phase  : t.isAt .done .enc
  err    : t.err = none
  free   : t.portHeld = 0
  record : t.fsink.data = v.fsink.data
  stream : t.esink.data = bytesBE 8 (s.src.data.flatMap t.codeOf).length ++ payloadOf (s.src.data.flatMap t.codeOf)
  codes  : s.src.data ≠ [] → v.nsyms ≠ 0 ∧ ∃ w tree, exec .build v = .next w ∧ v.Built tree w ∧
    t.codeOf = (w.derivedWith (tree w.root)).codeOf

theorem State.Persisted.present (h : s.Persisted v) : b ∈ s.src.data ↔ atSym v.ftPres b = true := by
  rw [(h.entries b).1, List.contains_iff_mem]

theorem State.Persisted.nsyms_eq_zero_iff (h : s.Persisted v) : v.nsyms = 0 ↔ s.src.data = [] := by
  have symbols : v.nsyms = 0 ↔ v.presentSymbols = [] := by
    rw [← List.length_eq_zero_iff, ← h.table.nsyms, ← BitVec.toNat_inj]
    rfl
  rw [symbols, List.eq_nil_iff_forall_not_mem, List.eq_nil_iff_forall_not_mem]
  simp only [mem_presentSymbols, h.present]

theorem State.Built.codeLen_ne_zero {tree : NodeId → CodeTree} (h : s.Built tree t)
    (present : atSym s.ftPres b = true) :
    atSym (t.derivedWith (tree t.root)).codeLen b ≠ 0 := by
  intro zero
  have positive := CodeTree.length_rootCodes_pos (h.code_mem present)
  rw [length_codeOf, zero] at positive
  exact absurd positive (by decide)

/-- The announced bits are those of the codes of the source (R141). -/
theorem State.Persisted.payloadBits (h : s.Persisted v) (pres : t.ftPres = v.ftPres) (counts : t.ftCnt = v.ftCnt) :
    t.payloadBits = (s.src.data.flatMap t.codeOf).length := by
  have sum := sum_presentSymbols (s := v) (fun b => s.src.data.count b * (t.codeOf b).length) fun b absent => by
    rw [← (h.entries b).2, h.table.absent b absent, Nat.zero_mul]
  rw [length_flatMap_eq_sum, ← sum, State.payloadBits, presentSymbols_congr pres, counts]
  simp only [length_codeOf, fun b => (h.entries b).2]

/-- The rest of the session, from the state in which the codes of the table are there. -/
theorem State.Persisted.runAll_tail (h : s.Persisted v) {x : State}
    (isLegal : legalWhen .wrhdr x.phase x.mode x.nsyms.toNat) (pres : x.ftPres = v.ftPres) (counts : x.ftCnt = v.ftCnt)
    (src : x.src = v.src) (err : x.err = none) (record : x.fsink = v.fsink)
    (coded : ∀ b ∈ s.src.data, atSym x.codeLen b ≠ 0) (readGo : neverFails x.src.fails)
    (putGo : neverFails x.esink.fails)
    (codes : s.src.data ≠ [] → v.nsyms ≠ 0 ∧ ∃ w tree, exec .build v = .next w ∧ v.Built tree w ∧
      x.codeOf = (w.derivedWith (tree w.root)).codeOf) :
    ∃ t, runAll [.wrhdr, .emit, .flush] x = .next t ∧ s.Encoded v t := by
  have data : x.src.data = s.src.data := (congrArg Source.data src).trans h.src
  have bits := h.payloadBits pres counts
  rw [← data] at coded bits
  obtain ⟨t, tail, stream, frame⟩ := runAll_encodeTail isLegal coded bits readGo putGo
  have codeOf : t.codeOf = x.codeOf := by rw [frame]; rfl
  have phase : t.isAt .done .enc := by rw [frame]; exact ⟨rfl, isLegal.1⟩
  have sink : t.fsink = x.fsink := by rw [frame]
  rw [data, ← codeOf] at stream
  exact ⟨t, tail, phase, by rw [frame]; exact err, by rw [frame], by rw [sink, record], stream, codeOf ▸ codes⟩

/-- A session whose source fits writes the record of its table and the codes of its tree (R150). -/
theorem exec_encode_of_fits (fits : s.src.data.length ≤ s.maxCnt) (readGo : neverFails s.src.fails)
    (recordGo : neverFails s.fsink.fails) (streamGo : neverFails s.esink.fails) :
    ∃ v t, s.Persisted v ∧ exec .encode s = .next t ∧ s.Encoded v t := by
  obtain ⟨v, persisted, h⟩ := runAll_scan_persist_of_fits fits readGo recordGo
  have ran := exec_encode_of_persisted persisted
  have readGo' : neverFails v.src.fails := neverFails_of_runAll (p := 0) persisted readGo
  have streamGo' : neverFails v.esink.fails := neverFails_of_runAll (p := 2) persisted streamGo
  by_cases none : v.nsyms = 0
  · have empty := h.nsyms_eq_zero_iff.mp none
    obtain ⟨t, tail, encoded⟩ := h.runAll_tail (x := v) ⟨h.phase.2, .inr ⟨h.phase.1,
      by rw [none]; rfl⟩⟩ rfl rfl rfl h.err
      rfl (by simp [empty]) readGo' streamGo' fun some => absurd empty some
    rw [if_pos none, tail] at ran
    exact ⟨v, t, h, ran, encoded⟩
  · obtain ⟨y, r, tree, -, built, tree_built⟩ := exec_build_of_table h.table none (.inl h.phase)
    generalize y.rootedAt r = w at built tree_built
    have derived := tree_built.exec_derive h.phase.2
    have w_frame := tree_built.frame
    have x_frame := w.derivedWith_frame (tree w.root)
    generalize hx : w.derivedWith (tree w.root) = x at derived x_frame
    have codes : runAll [.build, .derive] v = .next x := by rw [runAll_of_next built, runAll_singleton, derived]
    obtain ⟨t, tail, encoded⟩ := h.runAll_tail (x := x)
      (by rw [x_frame, w_frame]; exact ⟨h.phase.2, .inl rfl⟩) (by rw [x_frame, w_frame]) (by rw [x_frame, w_frame])
      (by rw [x_frame, w_frame]) (by rw [x_frame, w_frame]; exact h.err) (by rw [x_frame, w_frame])
      (fun b mem => hx ▸ tree_built.codeLen_ne_zero (h.present.mp mem))
      (neverFails_of_runAll (p := 0) codes readGo') (neverFails_of_runAll (p := 2) codes streamGo')
      fun _ => ⟨none, w, tree, built, tree_built, by rw [hx]⟩
    rw [if_neg none, runAll_of_next built, runAll_of_next derived, tail] at ran
    exact ⟨v, t, h, ran, encoded⟩

/-- Two sessions of the same input have the same codes of its bytes. -/
theorem State.Encoded.codeOf_eq {s' v' t' : State} (h : s.Persisted v) (h' : s'.Persisted v') (encoded : s.Encoded v t)
    (encoded' : s'.Encoded v' t') (data : s.src.data = s'.src.data) (input : s.src.data ≠ []) :
    t.codeOf = t'.codeOf := by
  obtain ⟨-, w, tree, built, tree_built, codes⟩ := encoded.codes input
  obtain ⟨-, w', tree', built', tree_built', codes'⟩ := encoded'.codes (data ▸ input)
  have pres : v.ftPres = v'.ftPres := vector_ext_atSym fun b => by rw [(h.entries b).1, (h'.entries b).1, data]
  have counts : v.ftCnt = v'.ftCnt := vector_ext_atSym fun b => by rw [(h.entries b).2, (h'.entries b).2, data]
  obtain ⟨-, same⟩ := buildDependsOnTheTableOnly v v' w w' h.table h'.table pres counts built built'
    (by rw [tree_built.frame]) (by rw [tree_built'.frame]) (by simp [h.phase.1]) (by simp [h'.phase.1])
  obtain ⟨len, bits⟩ := same _ _ (tree_built.exec_derive h.phase.2) (tree_built'.exec_derive h'.phase.2)
    (by rw [State.derivedWith_frame]) (by rw [State.derivedWith_frame])
  rw [codes, codes']
  funext b
  rw [State.codeOf, State.codeOf, len, bits]

/-- Settles O43: the steps of the expansion one after another; the table depends on the input alone, and the codes on
the table. -/
theorem encodeOfAnyInput : Obligations.EncodeOfAnyInput := by
  unfold Obligations.EncodeOfAnyInput
  refine ⟨fun s _ readGo recordGo streamGo => ⟨fun fits => ?fits, fun exceeds => exec_encode_of_exceeds exceeds readGo⟩,
    fun s s' t t' data ran ran' done done' => ?same⟩
  case fits =>
    obtain ⟨v, t, h, ran, encoded⟩ := exec_encode_of_fits fits readGo recordGo streamGo
    exact ⟨t, ran, encoded.phase.1, encoded.phase.2, encoded.err, encoded.free, encoded.record.trans h.recordOf,
      encoded.stream⟩
  case same =>
    have calm {s t : State} (ran : exec .encode s = .next t) (done : t.phase = .done) :
        ∃ v, s.calm.Persisted v ∧ s.calm.Encoded v t.calm := by
      have ran := Calms.encode s t ran (by simp [done])
      by_cases fits : s.calm.src.data.length ≤ s.calm.maxCnt
      · obtain ⟨v, u, h, ran', encoded⟩ := exec_encode_of_fits (s := s.calm) fits nofun nofun nofun
        obtain rfl : u = t.calm := by simpa [ran'] using ran
        exact ⟨v, h, encoded⟩
      · obtain ⟨u, ran', fault, -⟩ := exec_encode_of_exceeds (s := s.calm) (Nat.lt_of_not_le fits) nofun
        obtain rfl : u = t.calm := by simpa [ran'] using ran
        exact absurd (fault.symm.trans done) nofun
    obtain ⟨v, h, encoded⟩ := calm ran done
    obtain ⟨v', h', encoded'⟩ := calm ran' done'
    have data' : s.calm.src.data = s'.calm.src.data := data
    have bits : s.calm.src.data.flatMap t.calm.codeOf = s'.calm.src.data.flatMap t'.calm.codeOf := by
      by_cases empty : s.calm.src.data = []
      · rw [← data', empty]
        rfl
      · rw [encoded.codeOf_eq h h' encoded' data' empty, data']
    exact ⟨(encoded.record.trans h.recordOf).trans ((congrArg recordOf data').trans
      (encoded'.record.trans h'.recordOf).symm), encoded.stream.trans (by rw [bits]; exact encoded'.stream.symm)⟩

end Sys2Proof.Machine
end

section
/-!
PROOFS. A session of `DECODE` (spec/46_decoder.md R170), and the round trip (R171).
-/

namespace Sys2Proof.Machine

variable {r s t w x y : State} {bits more : List Bit} {b : Symbol} {n : Nat} {payload after : List Byte}
  {out syms : List Symbol} {path : Symbol → List Bit} {T : CodeTree} {tree : NodeId → CodeTree}

/-! ### The walk of a leaf-root -/

/-- Each bit emits the symbol of a leaf-root, whatever the bit is (R165). -/
theorem State.Walker.walkLoop_leafRoot (h : s.Walker (bits ++ more)) (root : s.root = leafId b) :
    ∃ t, walkLoop bits.length s = .ok () t ∧ s.Walked bits.length (List.replicate bits.length b) t ∧ t.cur = s.cur := by
  induction bits generalizing s with
  | nil => exact ⟨s, rfl, .refl s, rfl⟩
  | cons c bits ih =>
    obtain ⟨t, got, ready, read⟩ := h.reader.getBit
    obtain ⟨walker, sameRoot, cur, -, osink⟩ := h.of_read ready read
    have root' := sameRoot.trans root
    have put := walkStep_of_leafRoot (root' ▸ isLeaf_leafId b) walker.held walker.go c
    rw [root', symbolOf_leafId] at put
    have walked : s.Walked 1 [b] (t.setSink .osink ⟨t.osink.data ++ [b], t.osink.fails.tail⟩) :=
      ⟨⟨congrArg
        (fun v : State => { v with cur := t.cur, osink := ⟨t.osink.data ++ [b], t.osink.fails.tail⟩ }) read.frame,
        read.moved, read.few⟩, congrArg (fun q : Sink => q.data ++ [b]) osink⟩
    have walker' : (t.setSink .osink ⟨t.osink.data ++ [b], t.osink.fails.tail⟩).Walker (bits ++ more) :=
      ⟨⟨ready.held, ready.go, ready.ahead⟩, walker.held, neverFails_tail walker.go⟩
    obtain ⟨u, looped, walked', cur'⟩ := ih walker' (walked.root.trans root)
    refine ⟨u, ?_, ?_, cur'.trans cur⟩
    · rw [List.length_cons, walkLoop_succ, Proc.bind_of_ok ((Proc.bind_of_ok got).trans put), looped]
    · rw [List.length_cons, List.replicate_succ, Nat.add_comm]
      exact walked.trans walked'

/-! ### From the header to the end of the session -/

/-- The header has announced `n` bits, and the payload is next (R161). -/
structure State.AtPayload (s : State) (n : Nat) (payload : List Byte) : Prop where
  phase  : s.isAt .hdr .dec
  err    : s.err = none
  held   : s.held 4 = true
  fresh  : s.brLeft = 0 ∧ s.brTotal = 0
  bits   : s.hdrBits.toNat = n
  data   : ∃ header, s.esrc.data = header ++ payload ∧ header.length = 8
  pos    : s.esrc.pos = 8
  readGo : neverFails s.esrc.fails
  putGo  : neverFails s.osink.fails

/-- `t` is the end of a session that has read `n` bits and emitted `out`; the table and the tree are those of `s`. -/
structure State.Decoded (s : State) (n : Nat) (out : List Symbol) (t : State) : Prop where
  phase : t.isAt .done .dec
  err   : t.err = none
  free  : t.portHeld = 0
  out   : t.osink.data = out
  pos   : t.esrc.pos = 8 + (n + 7) / 8
  nsyms : t.nsyms = s.nsyms
  tree  : t.root = s.root ∧ t.nodeL = s.nodeL ∧ t.nodeR = s.nodeR

theorem exec_rdhdr_atPayload (isLegal : legalWhen .rdhdr s.phase s.mode s.nsyms.toNat) (err : s.err = none)
    (data : s.esrc.data = bytesBE 8 n ++ payload) (fits : n < 2 ^ 64) (readGo : neverFails s.esrc.fails)
    (putGo : neverFails s.osink.fails) :
    ∃ t, exec .rdhdr s = .next t ∧ t.AtPayload n payload ∧ t.nsyms = s.nsyms ∧ t.treeValid = s.treeValid ∧
      t.root = s.root ∧ t.nodeL = s.nodeL ∧ t.nodeR = s.nodeR := by
  obtain ⟨t, ran, bits, frame⟩ := exec_rdhdr_of_enough isLegal readGo data (length_bytesBE 8 n)
  rw [bytesValue_bytesBE, Nat.mod_eq_of_lt (show n < 256 ^ 8 from fits)] at bits
  have go := neverFails_of_exec (p := 4) ran readGo
  refine ⟨t, ran, ⟨?_, ?_, ?_, ?_, bits, ⟨_, ?_, length_bytesBE 8 n⟩, ?_, go, ?_⟩, ?_, ?_, ?_, ?_, ?_⟩
  · rw [frame]
    exact ⟨rfl, isLegal.1⟩
  · rw [frame, err]
  · rw [frame]
    simp [State.held]
  · rw [frame]
    exact ⟨rfl, rfl⟩
  · rw [frame]
    exact data
  all_goals rw [frame]
  exact putGo

section AtPayload
variable (h : s.AtPayload n payload)
include h

theorem State.AtPayload.walker (valid : s.treeValid = true) : s.atWalk.Walker s.aheadBits :=
  State.atWalk_walker valid ⟨h.held, h.readGo, rfl⟩ h.putGo

/-- A loop that walks the announced bits and ends at the root ends the session. -/
theorem State.AtPayload.exec_walk (valid : s.treeValid = true) (looped : walkLoop n s.atWalk = .ok () t)
    (walked : s.atWalk.Walked n out t) (cur : t.cur = s.root) :
    ∃ u, exec .walk s = .next u ∧ s.Decoded n out u := by
  have begins := State.atWalk_of_tree valid
  have walks : walkBody s = .ok () t.endSession := by
    have count : s.hdrBits.toNat - s.brTotal.toNat = n := by
      rw [h.fresh.2, h.bits]
      rfl
    rw [walkBody_of_go (.inr valid) h.putGo, count, Proc.bind_of_ok looped, endWalk_of_atRoot fun _ => ?_]
    rw [cur, walked.root, begins]
  have frame := walked.read.frame
  have moved := walked.read.pos_eq (by rw [begins]; exact h.fresh.1)
  have emitted := walked.out
  rw [begins] at frame moved emitted
  have kept : t.mode = s.mode ∧ t.err = s.err ∧ t.nsyms = s.nsyms ∧ t.root = s.root ∧ t.nodeL = s.nodeL ∧
      t.nodeR = s.nodeR := by
    rw [frame]
    exact ⟨rfl, rfl, rfl, rfl, rfl, rfl⟩
  obtain ⟨mode, err, nsyms, tree⟩ := kept
  exact ⟨_, exec_walk_of_ok h.phase.1 h.phase.2 walks, ⟨rfl, mode.trans h.phase.2⟩, err.trans h.err, rfl, emitted,
    moved.trans (congrArg (· + _) h.pos), nsyms, tree⟩

/-- The paths of symbols in a tree with an internal root (R163). -/
theorem State.AtPayload.walk_paths (valid : s.treeValid = true) (inner : isLeaf s.root = false)
    (paths : ∀ b ∈ syms, s.isPath s.root (path b) b) (length : n = (syms.flatMap path).length)
    (begins : payload = payloadOf (syms.flatMap path) ++ after) :
    ∃ t, exec .walk s = .next t ∧ s.Decoded n syms t := by
  obtain ⟨header, data, eight⟩ := h.data
  rw [begins, ← List.append_assoc] at data
  obtain ⟨more, reader⟩ := State.Reader.of_payload h.held h.readGo h.fresh.1 data (h.pos.trans eight.symm)
  have walker := State.atWalk_walker valid reader h.putGo
  have begins := State.atWalk_of_tree valid
  obtain ⟨t, looped, -, walked, cur⟩ := walker.walkLoop_paths (path := path) (syms := syms)
    (by rw [begins]; exact inner) (by rw [begins]) (fun b mem => by rw [begins]; exact paths b mem) 0
  rw [← length] at looped walked
  exact h.exec_walk valid looped walked (cur.trans (by rw [begins]))

/-- Any bits in a tree that is one leaf (R165). -/
theorem State.AtPayload.walk_leafRoot (valid : s.treeValid = true) (root : s.root = leafId b)
    (enough : n ≤ 8 * payload.length) : ∃ t, exec .walk s = .next t ∧ s.Decoded n (List.replicate n b) t := by
  have begins := State.atWalk_of_tree valid
  have length : n ≤ s.aheadBits.length := by
    obtain ⟨header, data, eight⟩ := h.data
    rw [State.length_aheadBits, Source.unread, data, List.length_append, eight, h.pos]
    omega
  have walker := h.walker valid
  rw [← List.take_append_drop n s.aheadBits] at walker
  obtain ⟨t, looped, walked, cur⟩ := walker.walkLoop_leafRoot (b := b) (by rw [begins]; exact root)
  rw [List.length_take_of_le length] at looped walked
  exact h.exec_walk valid looped walked (cur.trans (by rw [begins]))

/-- Without a tree and without bits nothing is emitted (R162). -/
theorem State.AtPayload.walk_nothing (noTree : s.treeValid = false) (none : n = 0) :
    ∃ t, exec .walk s = .next t ∧ s.Decoded n [] t := by
  have noBits : s.hdrBits = 0 := BitVec.eq_of_toNat_eq (h.bits.trans none)
  obtain ⟨empty, -⟩ := walkWithoutATree s h.phase.1 h.phase.2 noTree
  refine ⟨_, empty noBits h.putGo, ⟨rfl, h.phase.2⟩, h.err, rfl, rfl, ?_, rfl, rfl, rfl, rfl⟩
  rw [none]
  exact h.pos

/-- The codes of symbols in the tree at the root, be it a leaf or not. -/
theorem State.AtPayload.walk_codes (valid : s.treeValid = true) (has : s.Has s.root T)
    (codes : ∀ b ∈ syms, (b, path b) ∈ T.rootCodes) (length : n = (syms.flatMap path).length)
    (begins : payload = payloadOf (syms.flatMap path) ++ after) : ∃ t, exec .walk s = .next t ∧ s.Decoded n syms t := by
  cases T with
  | leaf c =>
    have code (b : Symbol) (mem : b ∈ syms) : b = c ∧ path b = [false] :=
      Prod.mk.inj (List.mem_singleton.mp (codes b mem))
    have all : syms = List.replicate syms.length c := List.eq_replicate_of_mem fun b mem => (code b mem).1
    have one : n = syms.length := by
      rw [length, List.length_flatMap, List.map_congr_left fun b mem => by rw [(code b mem).2], List.map_const',
        List.sum_replicate]
      exact Nat.mul_one _
    have enough : n ≤ 8 * payload.length := by
      rw [begins, List.length_append, length_payloadOf, ← length]
      omega
    rw [all, ← one]
    exact h.walk_leafRoot valid has.eq_leafId enough
  | node l r => exact h.walk_paths valid has.isLeaf_node (fun b mem => has.isPath (codes b mem)) length begins

end AtPayload

/-! ### The session -/

/-- Two states that hold the same table build the same tree (R126). -/
theorem State.Built.exec_build_like (h : r.Built tree w) (ran : exec .build r = .next w) (ok : r.TableOk)
    (some : r.nsyms ≠ 0) (isLegal : legalWhen .build r.phase r.mode r.nsyms.toNat) (ok' : x.TableOk)
    (isLegal' : legalWhen .build x.phase x.mode x.nsyms.toNat) (pres : x.ftPres = r.ftPres)
    (counts : x.ftCnt = r.ftCnt) :
    ∃ y tree', exec .build x = .next y ∧ x.Built tree' y ∧ y.Has y.root (tree w.root) := by
  obtain ⟨v, y, -, tree', built, built', -, like, same, roots⟩ :=
    exec_build_same ok ok' pres.symm counts.symm some isLegal isLegal'
  obtain rfl : v = w := by simpa [built] using ran
  exact ⟨y, tree', built', like, same.has h roots⟩

/-- `DECODE` has loaded the table and goes on from `x`; the streams it has not reached are those of `s`. -/
structure State.Loaded (s x : State) : Prop where
  ran     : runAll [.clear, .load] s = .next x
  table   : x.TableOk
  phase   : x.isAt .table .dec
  noTree  : x.treeValid = false
  err     : x.err = none
  streams : x.esrc = s.esrc ∧ x.osink = s.osink

theorem loaded_of_exec (ran : exec .load s.cleared = .next x) (ok : x.TableOk)
    (frame : x = { s.cleared with
      mode := .dec, phase := .table, portHeld := 0b001000
      ftPres := x.ftPres, ftCnt := x.ftCnt, nsyms := x.nsyms, total := x.total, fsrc := x.fsrc }) : s.Loaded x := by
  refine ⟨by rw [runAll_of_next (exec_clear s), runAll_singleton, ran], ok, ?_, ?_, ?_, ?_⟩
  all_goals rw [frame]
  · exact ⟨rfl, rfl⟩
  · rfl
  · rfl
  · exact ⟨rfl, rfl⟩

section Loaded
variable (h : s.Loaded x) (data : s.esrc.data = bytesBE 8 n ++ payload) (fits : n < 2 ^ 64)
  (readGo : neverFails s.esrc.fails) (putGo : neverFails s.osink.fails)
include h data fits readGo putGo

/-- With a symbol the session builds the tree of the table and reads the header. -/
theorem State.Loaded.exec_decode (h' : r.Built tree w) (ran : exec .build r = .next w) (ok : r.TableOk)
    (some : r.nsyms ≠ 0) (isLegal : legalWhen .build r.phase r.mode r.nsyms.toNat) (pres : x.ftPres = r.ftPres)
    (counts : x.ftCnt = r.ftCnt) :
    ∃ y, exec .decode s = exec .walk y ∧ y.AtPayload n payload ∧ y.treeValid = true ∧ y.Has y.root (tree w.root) ∧
      y.nsyms = x.nsyms := by
  have some' : x.nsyms ≠ 0 := (ok.totals_eq h.table pres counts).1 ▸ some
  obtain ⟨v, tree', built, like, has⟩ := h'.exec_build_like ran ok some isLegal h.table (.inr h.phase) pres counts
  have kept : v.isAt .built .dec ∧ v.err = none ∧ v.esrc = s.esrc ∧ v.osink = s.osink ∧ v.nsyms = x.nsyms ∧
      v.treeValid = true := by
    rw [like.frame]
    exact ⟨⟨rfl, h.phase.2⟩, h.err, h.streams.1, h.streams.2, rfl, rfl⟩
  obtain ⟨phase, err, esrc, osink, nsyms, valid⟩ := kept
  obtain ⟨y, header, ready, nsyms', valid', root, left, right⟩ := exec_rdhdr_atPayload (s := v) ⟨phase.2,
    .inl phase.1⟩ err
    (by rw [esrc]; exact data) fits (esrc ▸ readGo) (osink ▸ putGo)
  refine ⟨y, ?_, ready, valid'.trans valid, root ▸ has.of_children left right, nsyms'.trans nsyms⟩
  rw [exec_decode_of_loaded h.ran, if_neg some', runAll_of_next built, runAll_of_next header, runAll_singleton]

/-- Without a symbol the session reads the header. -/
theorem State.Loaded.exec_decode_of_empty (none : x.nsyms = 0) :
    ∃ y, exec .decode s = exec .walk y ∧ y.AtPayload n payload ∧ y.treeValid = false ∧ y.nsyms = 0 := by
  obtain ⟨esrc, osink⟩ := h.streams
  obtain ⟨y, header, ready, nsyms, valid, -⟩ := exec_rdhdr_atPayload (s := x)
    ⟨h.phase.2, .inr ⟨h.phase.1, by rw [none]; rfl⟩⟩ h.err (by rw [esrc]; exact data) fits (esrc ▸ readGo)
    (osink ▸ putGo)
  refine ⟨y, ?_, ready, valid.trans h.noTree, nsyms.trans none⟩
  rw [exec_decode_of_loaded h.ran, if_pos none, runAll_of_next header, runAll_singleton]

end Loaded

end Sys2Proof.Machine
end

section
/-!
PROOFS. `DECODE` of an accepted record, and the round trip (spec/46_decoder.md R171).
-/

namespace Sys2Proof.Machine

variable {r s t w x y : State} {n : Nat} {payload : List Byte} {syms : List Symbol} {T : CodeTree}
  {tree : NodeId → CodeTree} {lines : List (Symbol × List Byte)}

/-- The table is that of the record. -/
structure State.HoldsRecord (s : State) (lines : List (Symbol × List Byte)) : Prop where
  pres   : ∀ b, atSym s.ftPres b = (lines.map (·.1)).contains b
  counts : ∀ l ∈ lines, atSym s.ftCnt l.1 = digitsValue l.2

theorem State.HoldsRecord.same (h : s.HoldsRecord lines) (h' : t.HoldsRecord lines) (ok : s.TableOk) (ok' : t.TableOk) :
    t.ftPres = s.ftPres ∧ t.ftCnt = s.ftCnt := by
  have pres (b : Symbol) : atSym t.ftPres b = atSym s.ftPres b := (h'.pres b).trans (h.pres b).symm
  refine ⟨vector_ext_atSym pres, vector_ext_atSym fun b => ?_⟩
  cases present : (lines.map (·.1)).contains b with
  | false => rw [ok'.absent b ((h'.pres b).trans present), ok.absent b ((h.pres b).trans present)]
  | true =>
    obtain ⟨l, mem, rfl⟩ := List.mem_map.mp (List.contains_iff_mem.mp present)
    rw [h'.counts l mem, h.counts l mem]

theorem State.HoldsRecord.perm (h : s.HoldsRecord lines) (distinct : (lines.map (·.1)).Nodup) :
    s.presentSymbols.Perm (lines.map (·.1)) := by
  refine (List.perm_ext_iff_of_nodup (presentSymbols_nodup s) distinct).mpr fun b => ?_
  rw [mem_presentSymbols, h.pres, List.contains_iff_mem]

theorem loaded_of_record (record : RecordOk s.maxCnt lines) (data : s.fsrc.data = lines.flatMap lineOf)
    (go : neverFails s.fsrc.fails) :
    ∃ x, s.Loaded x ∧ x.HoldsRecord lines ∧ x.nsyms.toNat = lines.length := by
  obtain ⟨x, ran, ok, pres, counts, frame⟩ := exec_load_of_record s.cleared_cleared record data go
  have holds : x.HoldsRecord lines := ⟨pres, counts⟩
  refine ⟨x, loaded_of_exec ran ok ?_, holds, ?_⟩
  · rw [frame]
  · rw [ok.nsyms, (holds.perm record.distinct).length_eq, List.length_map]

/-- The tree that every session with this record builds. -/
theorem exists_built_of_record {k : Nat} (record : RecordOk (Config.maxCntOf k) lines) (some : lines ≠ []) :
    ∃ r w tree, r.TableOk ∧ r.HoldsRecord lines ∧ r.nsyms ≠ 0 ∧ legalWhen .build r.phase r.mode r.nsyms.toNat ∧
      exec .build r = .next w ∧ r.Built tree w := by
  obtain ⟨r, loaded, holds, nsyms⟩ := loaded_of_record
    (s := { State.reset with cntW := k, fsrc := ⟨lines.flatMap lineOf, 0, []⟩ }) record rfl nofun
  have some' : r.nsyms ≠ 0 := fun none => some (List.length_eq_zero_iff.mp (nsyms.symm.trans (by rw [none]; rfl)))
  obtain ⟨u, q, tree, -, built, tree_built⟩ := exec_build_of_table loaded.table some' (.inr loaded.phase)
  exact ⟨r, _, tree, loaded.table, holds, some', .inr loaded.phase, built, tree_built⟩

/-- A record of one line has the tree that is one leaf, and the code of the one bit 0 (R132). -/
theorem State.Built.tree_of_single (h : s.Built tree t) (holds : s.HoldsRecord [l]) : tree t.root = .leaf l.1 := by
  have perm := h.leaves_perm.trans (holds.perm (List.nodup_singleton _))
  cases shape : tree t.root with
  | leaf c =>
    rw [shape] at perm
    rw [List.singleton_inj.mp (List.perm_singleton.mp perm)]
  | node a b =>
    have length := perm.length_eq
    have left := a.length_leaves_pos
    have right := b.length_leaves_pos
    rw [shape, CodeTree.leaves, List.length_append, List.map_singleton, List.length_singleton] at length
    omega

/-- A record of more lines has a tree with an internal root. -/
theorem State.Built.isLeaf_root (h : s.Built tree t) (holds : s.HoldsRecord lines) (distinct : (lines.map (·.1)).Nodup)
    (several : 1 < lines.length) (has : y.Has y.root (tree t.root)) : isLeaf y.root = false := by
  have perm := h.leaves_perm.trans (holds.perm distinct)
  cases shape : tree t.root with
  | leaf c =>
    have length := perm.length_eq
    rw [shape, List.length_map] at length
    exact absurd several (by rw [← length]; exact Nat.lt_irrefl 1)
  | node a b => exact (shape ▸ has).isLeaf_node

theorem State.Has.isPath_of_rootCodes {id : NodeId} {e : Symbol × List Bit} (h : s.Has id T) (inner : isLeaf id = false)
    (mem : e ∈ T.rootCodes) : s.isPath id e.2 e.1 := by
  cases T with
  | leaf c => simp [h.eq_leafId] at inner
  | node l r => exact h.isPath mem

/-- The header that a session writes counts its bits (R141). -/
theorem State.Persisted.length_codes_lt {v : State} (h : s.Persisted v) (width : cntWOk s.cntW = true)
    (built : v.Built tree w) : (s.src.data.flatMap (w.derivedWith (tree w.root)).codeOf).length < 2 ^ 64 := by
  have frame := (w.derivedWith_frame (tree w.root)).trans (by rw [built.frame])
  have ok := h.table
  generalize w.derivedWith (tree w.root) = u at frame
  have table : u.TableOk ∧ u.ftPres = v.ftPres ∧ u.ftCnt = v.ftCnt ∧ u.cntW = v.cntW := by
    rw [frame]
    exact ⟨⟨ok.absent, ok.nsyms, ok.total, ok.fits⟩, rfl, rfl, rfl⟩
  obtain ⟨ok', pres, counts, sameWidth⟩ := table
  rw [← h.payloadBits pres counts]
  exact ok'.payloadBits_lt (by rw [sameWidth, h.width, width])

/-- Settles O49: a session builds the tree of any state that holds the record's table, and the codes of that tree are
the paths. -/
theorem decodeGivesTheSymbols : Obligations.DecodeGivesTheSymbols := by
  unfold Obligations.DecodeGivesTheSymbols
  intro k lines record
  have record_fits {s : State} (width : s.cntW = k) : RecordOk s.maxCnt lines := by
    rw [State.maxCnt, width]
    exact record
  by_cases empty : lines = []
  case pos =>
    subst empty
    refine ⟨fun _ => [false], nofun, fun s n payload width data fits stream recordGo readGo putGo =>
      ⟨fun syms after mem length _ => ?_, nofun⟩⟩
    obtain rfl : syms = [] := List.eq_nil_iff_forall_not_mem.mpr fun b inside => absurd (mem b inside) List.not_mem_nil
    obtain ⟨x, loaded, -, nsyms⟩ := loaded_of_record (record_fits width) data recordGo
    obtain ⟨y, session, ready, noTree, none⟩ := loaded.exec_decode_of_empty stream fits readGo putGo
      (BitVec.eq_of_toNat_eq nsyms)
    obtain ⟨t, walked, decoded⟩ := ready.walk_nothing noTree length
    exact ⟨t, session.trans walked, decoded.phase.1, decoded.phase.2, decoded.err, decoded.free, decoded.out,
      decoded.pos,
      by rw [decoded.nsyms, none]; rfl, nofun⟩
  case neg =>
    obtain ⟨r, w, tree, ok, holds, some, isLegal, built, tree_built⟩ := exists_built_of_record record empty
    have code (b : Symbol) (mem : b ∈ lines.map (·.1)) :
        (b, (w.derivedWith (tree w.root)).codeOf b) ∈ (tree w.root).rootCodes :=
      tree_built.code_mem ((holds.pres b).trans (List.contains_iff_mem.mpr mem))
    refine ⟨(w.derivedWith (tree w.root)).codeOf, ?single,
      fun s n payload width data fits stream recordGo readGo putGo => ?session⟩
    case single =>
      rintro l rfl
      have mem := code l.1 (by simp)
      have rootCodes : (tree w.root).rootCodes = [(l.1, [false])] := by
        rw [tree_built.tree_of_single holds]
        rfl
      rw [rootCodes] at mem
      exact (Prod.mk.inj (List.mem_singleton.mp mem)).2
    case session =>
      obtain ⟨x, loaded, holds', nsyms⟩ := loaded_of_record (record_fits width) data recordGo
      obtain ⟨pres, counts⟩ := holds.same holds' ok loaded.table
      obtain ⟨y, session, ready, valid, has, nsyms'⟩ :=
        loaded.exec_decode stream fits readGo putGo tree_built built ok some isLegal pres counts
      have gives {syms : List Symbol} (walk : ∃ t, exec .walk y = .next t ∧ y.Decoded n syms t) :
          ∃ t, exec .decode s = .next t ∧ t.phase = .done ∧ t.mode = .dec ∧ t.err = none ∧ t.portHeld = 0 ∧
            t.osink.data = syms ∧ t.esrc.pos = 8 + (n + 7) / 8 ∧ t.nsyms.toNat = lines.length ∧
            (1 < lines.length → ∀ b ∈ lines.map (·.1), t.isPath t.root ((w.derivedWith (tree w.root)).codeOf b) b) := by
        obtain ⟨t, walked, decoded⟩ := walk
        obtain ⟨root, left, right⟩ := decoded.tree
        refine ⟨t, session.trans walked, decoded.phase.1, decoded.phase.2, decoded.err, decoded.free, decoded.out,
          decoded.pos, by rw [decoded.nsyms, nsyms', nsyms], fun several b mem => ?_⟩
        have inner := tree_built.isLeaf_root holds record.distinct several has
        have path := has.isPath_of_rootCodes inner (code b mem)
        rwa [State.isPath, State.follow_congr left right, root]
      refine ⟨fun syms after mem length begins => gives ?symbols, fun l single enough => gives ?bits⟩
      case symbols => exact ready.walk_codes valid has (fun b inside => code b (mem b inside)) length begins
      case bits =>
        subst single
        rw [tree_built.tree_of_single holds] at has
        exact ready.walk_leafRoot valid has.eq_leafId enough

/-- Settles O50: the record gives the table back, the table the tree, and the tree's codes the input. -/
theorem roundTrip : Obligations.RoundTrip := by
  unfold Obligations.RoundTrip
  intro s t d width fits go ran width' record stream go'
  obtain ⟨⟨srcGo, -, -⟩, fsinkGo, esinkGo, -⟩ := go
  obtain ⟨⟨-, recordGo, readGo⟩, -, -, putGo⟩ := go'
  obtain ⟨v, t', h, ran', encoded⟩ := exec_encode_of_fits fits srcGo fsinkGo esinkGo
  obtain rfl : t' = t := by simpa [ran'] using ran
  obtain ⟨x, load, ok, pres, counts, frame⟩ := exec_load_of_tableLines h.table d.cleared_cleared
    (width'.trans h.width.symm) (record.trans (encoded.record.trans h.record)) recordGo
  have loaded : d.Loaded x := loaded_of_exec load ok (by
    conv_lhs => rw [frame]
    rw [show x.fsrc = _ from congrArg State.fsrc frame])
  have data := stream.trans encoded.stream
  by_cases empty : s.src.data = []
  · have none : x.nsyms = 0 := (h.table.totals_eq ok pres counts).1.trans (h.nsyms_eq_zero_iff.mpr empty)
    rw [empty] at data
    obtain ⟨y, session, ready, noTree, -⟩ := loaded.exec_decode_of_empty data (by simp) readGo putGo none
    obtain ⟨u, walked, decoded⟩ := ready.walk_nothing noTree rfl
    exact ⟨u, session.trans walked, decoded.phase.1, decoded.out.trans empty.symm⟩
  · obtain ⟨some, w, tree, built, tree_built, codes⟩ := encoded.codes empty
    rw [codes] at data
    obtain ⟨y, session, ready, valid, has, -⟩ := loaded.exec_decode data
      (h.length_codes_lt width tree_built) readGo putGo
      tree_built built h.table some (.inl h.phase) pres counts
    obtain ⟨u, walked, decoded⟩ := ready.walk_codes valid has
      (fun b mem => tree_built.code_mem (h.present.mp mem)) rfl (List.append_nil _).symm
    exact ⟨u, session.trans walked, decoded.phase.1, decoded.out⟩

end Sys2Proof.Machine
end

section
/-!
PROOFS. What holds throughout a command, its errors included: the width, the table, and children below their parents
(spec/10_state.md section 2, R17).
-/

namespace Sys2Proof.Machine

variable {i : Instr} {s t : State} {P : State → Prop}

/-- What every point of a command keeps of the session invariant, so that an error may be raised there. -/
structure State.Sound (s : State) : Prop where
  width : cntWOk s.cntW = true
  table : s.TableOk
  below : s.childrenBelow

theorem State.Inv.sound (inv : s.Inv) : s.Sound := ⟨inv.width, inv.table, inv.below⟩

theorem State.TableOk.congr (ok : s.TableOk) (width : t.cntW = s.cntW)
    (same : (t.ftPres, t.ftCnt, t.nsyms, t.total) = (s.ftPres, s.ftCnt, s.nsyms, s.total)) : t.TableOk := by
  simp only [Prod.mk.injEq] at same
  obtain ⟨pres, counts, nsyms, total⟩ := same
  refine ⟨?_, ?_, ?_, ?_⟩
  · rw [pres, counts]
    exact ok.absent
  · rw [nsyms, presentSymbols_congr pres]
    exact ok.nsyms
  · rw [total, counts]
    exact ok.total
  · rw [total, State.maxCnt, width]
    exact ok.fits

theorem State.Sound.congr (sound : s.Sound) (width : t.cntW = s.cntW)
    (table : (t.ftPres, t.ftCnt, t.nsyms, t.total) = (s.ftPres, s.ftCnt, s.nsyms, s.total))
    (children : t.nodeL = s.nodeL ∧ t.nodeR = s.nodeR) : t.Sound where
  width := by rw [width, sound.width]
  table := sound.table.congr width table
  below k := by
    rw [children.1, children.2]
    exact sound.below k

/-- An error leaves a state that meets the invariant (R183, R184). -/
theorem State.Sound.raiseError (sound : s.Sound) (e : ErrorKind) (cmd : Byte) : (s.raiseError e cmd).Inv where
  width := by rw [State.raiseError_cntW, sound.width]
  table := sound.table.congr (by simp) (by simp)
  ports := by simp [heldIn]
  modes := by simp [phaseOfMode]
  below := (sound.congr (t := s.raiseError e cmd) (by simp) (by simp) (by simp)).below
  idle := nofun
  error := (s.raiseError_settled e cmd).error
  quiet := (s.raiseError_settled e cmd).quiet
  unfilled running := absurd rfl running
  tree := ⟨by simp, by simp⟩
  codes := ⟨by simp, by simp⟩

theorem Update.sound (h : Update i s t) (scan : i ≠ .scan) (load : i ≠ .load) (build : i ≠ .build) (clear : i ≠ .clear)
    (sound : s.Sound) : t.Sound := by
  have width := h.model_eq
  have tree := h.tree_eq build clear
  simp only [Prod.mk.injEq] at width tree
  exact sound.congr width.1 (h.table_eq scan load clear) ⟨tree.2.1, tree.2.2.1⟩

/-! ### The loops of `SCAN` and `LOAD` -/

/-- What counting a byte below capacity keeps, the loop of `SCAN` keeps. -/
theorem keeps_scanLoop (read : ∀ s st, P s → P (s.setSource .src st))
    (count : ∀ s b, s.total ≠ s.maxCnt → P s → P (s.countByte b)) (n : Nat) :
    Keeps P (forEachByte .src scanStep n) := by
  refine Keeps.forEachByte n read fun b => Keeps.get_bind fun s hs => ?_
  split
  · exact hs
  · next room => exact count s b room hs

/-- What entering a new key within capacity keeps, the loop of `LOAD` keeps. -/
theorem keeps_loadLines (read : ∀ s st, P s → P (s.setSource .fsrc st))
    (enter : ∀ s b n, atSym s.ftPres b = false → s.total + n ≤ s.maxCnt → P s → P (s.enterKey b n)) (fuel : Nat) :
    Keeps P (loadLines fuel) := by
  have entry (b : Symbol) (n : Nat) : Keeps P (loadEntry b n) := by
    refine Keeps.get_bind fun s hs => ?_
    split
    · exact hs
    · next absent =>
      split
      · exact hs
      · next room => exact enter s b n (by simpa using absent) (by omega) hs
  have colon : Keeps P loadColon := (Keeps.getByte read).bind fun _ => .ite (.pure ()) (.throw _)
  have line (c : Byte) : Keeps P (loadLine c) :=
    (Keeps.loadSymbol 7 _ 0 read).bind fun _ => colon.bind fun _ => Keeps.get.bind fun _ =>
      (Keeps.loadCount _ 0 0 read).bind fun _ => entry _ _
  induction fuel with
  | zero => exact .throw _
  | succ fuel ih =>
    refine (Keeps.getByte read).bind fun r => ?_
    cases r with
    | none => exact .pure ()
    | some c => exact (line c).bind fun _ => ih

theorem State.Sound.countByte (sound : s.Sound) (room : s.total ≠ s.maxCnt) (b : Symbol) : (s.countByte b).Sound where
  width := sound.width
  table := sound.table.countByte (Nat.lt_of_le_of_ne sound.table.fits room) b
  below := sound.below

theorem State.Sound.enterKey {b : Symbol} {n : Nat} (sound : s.Sound) (absent : atSym s.ftPres b = false)
    (room : s.total + n ≤ s.maxCnt) : (s.enterKey b n).Sound where
  width := sound.width
  table := sound.table.enterKey absent room
  below := sound.below

theorem State.Sound.setSource (sound : s.Sound) (p : SourcePort) (st : Source) : (s.setSource p st).Sound :=
  sound.congr (by simp) (by simp) (by simp)

theorem State.Sound.hold (sound : s.Sound) (n : Nat) : (s.hold n).Sound := sound.congr rfl rfl ⟨rfl, rfl⟩

theorem State.Sound.setMode (sound : s.Sound) (m : Mode) : (s.setMode m).Sound := sound.congr rfl rfl ⟨rfl, rfl⟩

theorem State.Sound.enter (sound : s.Sound) (p : Phase) : (s.enter p).Sound := sound.congr rfl rfl ⟨rfl, rfl⟩

/-- Every procedure but that of `BUILD` keeps the table and the children sound throughout. -/
theorem keeps_sound_bodyOf (build : i ≠ .build) : Keeps State.Sound (bodyOf i) := by
  have read (p : SourcePort) : ∀ s st, State.Sound s → (s.setSource p st).Sound := fun _ st sound =>
    sound.setSource p st
  cases i with
  | build => contradiction
  | clear => exact Keeps.modify fun s sound => (State.cleared_inv sound.width).sound
  | scan =>
    exact (Keeps.modify fun s sound => sound.setMode _).bind fun _ =>
      (Keeps.openSource (read _) fun s sound => sound.hold _).bind fun _ => Keeps.get.bind fun _ =>
        (keeps_scanLoop (read _) (fun s b room sound => sound.countByte room b) _).bind fun _ =>
          Keeps.modify fun s sound => sound.enter _
  | load =>
    exact (Keeps.modify fun s sound => sound.setMode _).bind fun _ =>
      (Keeps.openSource (read _) fun s sound => sound.hold _).bind fun _ => Keeps.get.bind fun _ =>
        (keeps_loadLines (read _) (fun s b n absent room sound => sound.enterKey absent room) _).bind fun _ =>
          Keeps.modify fun s sound => sound.enter _
  | _ => exact keeps_bodyOf fun _ _ h => h.sound nofun nofun nofun nofun

end Sys2Proof.Machine
end

section
/-!
PROOFS. The ports that a command holds at its end (spec/10_state.md R29).
-/

namespace Sys2Proof.Machine

variable {i : Instr} {s t : State} {n : Nat}

/-- A procedure that completes with this port held beside those held before. -/
def Opens (n : Nat) (x : Proc Unit) : Prop := ∀ s t, x s = .ok () t → t.portHeld = setBit s.portHeld n true

theorem Opens.of_source (p : SourcePort) {x : Proc Unit} (keeps : ∀ v, Keeps (·.portHeld = v) x) :
    Opens p.num (openSource p >>= fun _ => x) := by
  intro s t ok
  cases fails : failsNext (s.source p).fails with
  | true =>
    rw [Proc.bind_of_error (openSource_of_fail fails)] at ok
    exact nomatch ok
  | false =>
    rw [Proc.bind_of_ok (openSource_of_go fails)] at ok
    exact (keeps (setBit s.portHeld p.num true)).ok (by cases p <;> rfl) ok

theorem Opens.of_sink (q : SinkPort) {x : Proc Unit} (keeps : ∀ v, Keeps (·.portHeld = v) x) :
    Opens q.num (openSink q >>= fun _ => x) := by
  intro s t ok
  cases fails : failsNext (s.sink q).fails with
  | true =>
    rw [Proc.bind_of_error (openSink_of_fail fails)] at ok
    exact nomatch ok
  | false =>
    rw [Proc.bind_of_ok (openSink_of_go fails)] at ok
    exact (keeps (setBit s.portHeld q.num true)).ok (by cases q <;> rfl) ok

theorem Opens.modify_bind {f : State → State} {x : Proc Unit} (h : Opens n x)
    (same : ∀ s, (f s).portHeld = s.portHeld) :
    Opens n (modify f >>= fun _ => x) := fun s t ok => (h (f s) t ok).trans (by rw [same])

theorem opens_scanBody : Opens 0 scanBody :=
  (Opens.of_source .src fun _ => Keeps.get.bind fun _ =>
    (keeps_scanLoop (by simp) (by simp) _).bind fun _ => Keeps.modify (by simp)).modify_bind fun _ => rfl

theorem opens_loadBody : Opens 3 loadBody :=
  (Opens.of_source .fsrc fun _ => Keeps.get.bind fun _ =>
    (keeps_loadLines (by simp) (by simp) _).bind fun _ => Keeps.modify (by simp)).modify_bind fun _ => rfl

theorem opens_persistBody : Opens 1 persistBody := by
  refine Opens.of_sink .fsink fun v => Keeps.get.bind fun _ => Keeps.bind ?_ fun _ => Keeps.modify (by simp)
  generalize State.presentSymbols _ = bs
  induction bs with
  | nil => exact .pure ()
  | cons b bs ih => exact Keeps.get.bind fun _ => (Keeps.putBytes _ (by simp)).bind fun _ => ih

theorem opens_wrhdrBody : Opens 2 wrhdrBody :=
  (Opens.of_sink .esink fun _ => Keeps.get.bind fun _ =>
    (Keeps.putBytes _ (by simp)).bind fun _ => Keeps.modify (by simp)).modify_bind fun _ => rfl

theorem opens_rdhdrBody : Opens 4 rdhdrBody := by
  refine Opens.of_source .esrc fun v => (Keeps.memReadFrom _ 0 (by simp)).bind fun r => ?_
  cases r with
  | none => exact .throw _
  | some v => exact Keeps.modify (by simp)

end Sys2Proof.Machine
end

section
/-!
PROOFS. The commands of the bitstream never stop without an effect: the ports that they do not open are held before,
and the payload's bits are counted down (spec/45_encoder.md R141 to R144, spec/46_decoder.md R161 to R164).
-/

namespace Sys2Proof.Machine

variable {α : Type} {P R : State → Prop} {Q : α → State → Prop} {n : Nat}

/-! ### The port operations -/

/-- What a procedure keeps holds of its result too. -/
theorem Runs.keeping {x : Proc α} (hx : Runs P x Q) (keeps : Keeps R x) :
    Runs (fun s => P s ∧ R s) x fun a s => Q a s ∧ R s :=
  fun s hs => (hx s hs.1).imp_left fun ⟨a, t, ok, ht⟩ => ⟨a, t, ok, ht, keeps.ok hs.2 ok⟩

theorem Runs.putByte {q : SinkPort} (held : ∀ s, P s → s.held q.num = true)
    (keeps : ∀ s st, P s → P (s.setSink q st)) (b : Byte) : Runs P (putByte q b) fun _ => P := by
  intro s hs
  cases fails : failsNext (s.sink q).fails with
  | true => exact .inr ⟨_, _, putByte_of_fail (held s hs) fails⟩
  | false => exact .inl ⟨_, _, putByte_of_go (held s hs) fails, keeps s _ hs⟩

theorem Runs.getHeldByte {p : SourcePort} (held : ∀ s, P s → s.held p.num = true)
    (keeps : ∀ s st, P s → P (s.setSource p st)) : Runs P (Machine.getByte p) fun _ => P := by
  intro s hs
  obtain ⟨r, t, ok, -⟩ | raised := Runs.getByte p _ s (State.reading_of_held (held s hs))
  · exact .inl ⟨r, t, ok, (Keeps.getByte keeps).ok hs ok⟩
  · exact .inr raised

theorem Runs.memReadFrom {p : SourcePort} (held : ∀ s, P s → s.held p.num = true)
    (keeps : ∀ s st, P s → P (s.setSource p st)) (n acc : Nat) : Runs P (memReadFrom p n acc) fun _ => P := by
  induction n generalizing acc with
  | zero => exact .pure fun _ h => h
  | succ n ih =>
    refine (Runs.getHeldByte held keeps).bind fun r => ?_
    cases r with
    | none => exact .pure fun _ h => h
    | some b => exact ih _

/-- A loop over a source ends within its bound if its body reads nothing of the source; `R` is what the body needs. -/
theorem Runs.forEachByteKeeping {p : SourcePort} {f : Byte → Proc Unit} (keeps : ∀ s st, R s → R (s.setSource p st))
    (hf : ∀ b n, Runs (fun s => s.reading p n ∧ R s) (f b) fun _ s => s.reading p n ∧ R s) (n : Nat) :
    Runs (fun s => s.reading p n ∧ R s) (Machine.forEachByte p f n) fun _ => R := by
  induction n with
  | zero =>
    refine ((Runs.getByte p 0).keeping (Keeps.getByte keeps)).bind fun r => ?_
    cases r with
    | none => exact .pure fun _ h => h.2
    | some b => exact fun s h => absurd h.1.2 (by simp)
  | succ n ih =>
    refine ((Runs.getByte p (n + 1)).keeping (Keeps.getByte keeps)).bind fun r => ?_
    cases r with
    | none => exact .pure fun _ h => h.2
    | some b =>
      exact ((hf b n).bind fun _ => ih).of_pre fun s h => ⟨⟨h.1.1, Nat.le_of_succ_le_succ h.1.2⟩, h.2⟩

/-! ### `WRHDR` and `RDHDR` -/

theorem runs_wrhdrBody : Runs (fun _ => True) wrhdrBody fun _ _ => True :=
  (Runs.modify (Q := fun _ _ => True) fun _ _ => trivial).bind fun _ => (Runs.openSink .esink).bind fun _ =>
    .get_bind fun _ hs => ((Runs.putBytes .esink _).bind fun _ => .modify fun _ _ => trivial).at hs

theorem runs_rdhdrBody : Runs (fun _ => True) rdhdrBody fun _ _ => True := by
  refine (Runs.openSource .esrc).bind fun _ =>
    (Runs.memReadFrom (p := .esrc) (fun _ h => h) (fun _ _ h => by simpa using h) _ 0).bind fun r => ?_
  cases r with
  | none => exact .raise _
  | some v => exact .modify fun _ _ => trivial

/-! ### `EMIT` and `FLUSH` -/

/-- `ESINK` is held, and the positions of `BW_ACC` that are not filled are 0. -/
def State.Writer (s : State) : Prop := s.held 2 = true ∧ s.Unfilled

theorem State.Writer.congr {s t : State} (h : s.Writer) (held : t.portHeld = s.portHeld)
    (acc : t.bwAcc = s.bwAcc ∧ t.bwN = s.bwN) : t.Writer := by
  rw [State.Writer, State.held, State.Unfilled, held, acc.1, acc.2]
  exact h

theorem runs_putBit (b : Bit) : Runs (fun s => s.reading .src n ∧ s.Writer) (putBit b)
    fun _ s => s.reading .src n ∧ s.Writer := by
  rintro s ⟨reading, held, unfilled⟩
  by_cases full : s.bwN = 7
  · rw [putBit_of_full full]
    cases fails : failsNext s.esink.fails with
    | true => exact .inr ⟨_, _, putAcc_of_fail (s := s.placeBit b) held fails⟩
    | false =>
      exact .inl ⟨_, _, putAcc_of_go (s := s.placeBit b) held fails, reading, held, State.emptyAcc_unfilled _⟩
  · have room : s.bwN.val < 7 := Nat.lt_of_le_of_ne (Nat.le_of_lt_succ s.bwN.isLt) fun h => full (Fin.ext h)
    exact .inl ⟨_, _, putBit_of_room room b, reading, held, unfilled.placeBit room⟩

theorem runs_emitStep (b : Symbol) : Runs (fun s => s.reading .src n ∧ s.Writer) (emitStep b)
    fun _ s => s.reading .src n ∧ s.Writer := by
  have bits (bs : List Bit) : Runs (fun s => s.reading .src n ∧ s.Writer) (putBits bs)
      fun _ s => s.reading .src n ∧ s.Writer := by
    induction bs with
    | nil => exact .pure fun _ h => h
    | cons c bs ih => exact (runs_putBit c).bind fun _ => ih
  exact .get_bind fun _ hs => .ite (.raise _) (.get_bind fun _ ht => (bits _).at (ht ▸ hs))

/-- `EMIT` completes with the positions of `BW_ACC` that are not filled at 0 (R91), or raises an error. -/
theorem runs_emitBody : Runs State.Writer emitBody fun _ => State.Unfilled := by
  have opened : Runs State.Writer (openSource .src) fun _ s => s.held 0 = true ∧ s.Writer :=
    ((Runs.openSource (P := fun _ => True) .src).keeping (Keeps.openSource
      (fun s st h => h.congr rfl ⟨rfl, rfl⟩) fun s h => ⟨(held_hold_ne s (by decide)).trans h.1, h.2⟩)).of_pre
      fun _ h => ⟨trivial, h⟩
  refine opened.bind fun _ => .get_bind fun s hs => ?_
  have loop := Runs.forEachByteKeeping (p := .src) (R := State.Writer) (fun s st h => h.congr rfl ⟨rfl, rfl⟩)
    (fun b _ => runs_emitStep b) s.src.unread
  exact (loop.bind fun _ => .modify fun _ h => h.2).at ⟨State.reading_of_held (p := .src) hs.1, hs.2⟩

theorem runs_putAcc : Runs (·.held 2 = true) putAcc fun _ _ => True :=
  .get_bind fun _ hs => ((Runs.putByte (q := .esink) (fun _ h => h) (fun _ _ h => by simpa using h) _).bind fun _ =>
    .modify fun _ _ => trivial).at hs

theorem runs_flushBody : Runs (·.held 2 = true) flushBody fun _ _ => True := by
  have flush : Runs (·.held 2 = true) flushBits fun _ _ => True :=
    .get_bind fun _ hs => .ite (.pure fun _ _ => trivial) (runs_putAcc.at hs)
  exact flush.bind fun _ => .get_bind fun _ _ => .ite (.modify fun _ _ => trivial) (.raise _)

/-! ### `WALK` -/

/-- Both ports of the walk are held. -/
def State.WalkPorts (s : State) : Prop := s.held 4 = true ∧ s.held 5 = true

theorem runs_getBit : Runs State.WalkPorts getBit fun _ => State.WalkPorts := by
  have fetch : Runs State.WalkPorts fetchByte fun _ => State.WalkPorts := by
    refine .get_bind fun s hs => .ite ?_ (.pure fun _ h => h ▸ hs)
    refine ((Runs.getHeldByte (p := .esrc) (P := State.WalkPorts) (fun _ h => h.1)
      fun _ _ h => by simpa [State.WalkPorts] using h).bind fun r => ?_).at hs
    cases r with
    | none => exact .raise _
    | some r => exact .modify fun _ h => h
  exact fetch.bind fun _ => .get_bind fun s hs => Runs.bind (Q := fun _ => State.WalkPorts)
    (fun _ _ => .inl ⟨_, _, rfl, hs⟩)
    fun _ => .pure fun _ h => h

theorem runs_walkStep (b : Bit) : Runs State.WalkPorts (walkStep b) fun _ => State.WalkPorts := by
  have put (b : Byte) : Runs State.WalkPorts (putByte .osink b) fun _ => State.WalkPorts :=
    Runs.putByte (q := .osink) (fun _ h => h.2) (fun _ _ h => by simpa [State.WalkPorts] using h) b
  have arrive (id : NodeId) : Runs State.WalkPorts (arriveAt id) fun _ => State.WalkPorts :=
    Runs.bind (Q := fun _ => State.WalkPorts) (.modify fun _ h => h) fun _ =>
      .ite ((put _).bind fun _ => .modify fun _ h => h) (.pure fun _ h => h)
  exact .get_bind fun _ hs => .ite ((put _).at hs) ((arrive _).at hs)

theorem runs_walkBody : Runs (·.held 4 = true) walkBody fun _ _ => True := by
  have loop (n : Nat) : Runs State.WalkPorts (walkLoop n) fun _ => State.WalkPorts := by
    induction n with
    | zero => exact .pure fun _ h => h
    | succ n ih => exact runs_getBit.bind fun b => (runs_walkStep b).bind fun _ => ih
  have opened : Runs (·.held 4 = true) (openSink .osink) fun _ => State.WalkPorts :=
    (((Runs.openSink (P := fun _ => True) .osink).keeping (Keeps.openSink (P := (·.held 4 = true))
      (fun _ _ h => by simpa using h) fun s h => (held_hold_ne s (by decide)).trans h)).of_pre
      fun _ h => ⟨trivial, h⟩).weaken fun _ _ h => ⟨h.2, h.1⟩
  have toRoot : Runs State.WalkPorts (modify State.toRoot) fun _ => State.WalkPorts := .modify fun s h => by
    unfold State.toRoot
    split
    · exact h
    · exact h
  refine .get_bind fun s hs => .ite (.raise _)
    ((opened.bind fun _ => toRoot.bind fun _ => (loop _).bind fun _ => ?_).at hs)
  exact .get_bind fun _ _ => .ite (.raise _) (fun _ _ => .inl ⟨_, _, rfl, trivial⟩)

end Sys2Proof.Machine
end

section
/-!
PROOFS. Every step keeps the session invariant (spec/10_state.md sections 2 to 6, spec/40_control.md R86).
-/

namespace Sys2Proof.Machine

variable {i : Instr} {s t : State}

/-! ### A command that completes -/

/-- No row of R81 leads to a phase that its mode does not reach (R26). -/
theorem phaseOfMode_after {p : Phase} {m : Mode} {n : Nat} (hi : expansionOf i = [i]) (modes : phaseOfMode p m = true)
    (isLegal : legalWhen i p m n) : phaseOfMode (phaseAfter i p) (modeAfter i m) = true := by
  cases i with
  | encode | decode => exact nomatch hi
  | nop => exact modes
  | clear | scan | load => rfl
  | persist | derive | emit | walk =>
    obtain ⟨-, rfl⟩ := isLegal
    rfl
  | build => obtain ⟨-, rfl⟩ | ⟨-, rfl⟩ := isLegal <;> rfl
  | wrhdr | rdhdr =>
    obtain ⟨rfl, -⟩ := isLegal
    rfl
  | flush =>
    obtain rfl : p = .streamed := isLegal
    revert modes
    cases m <;> decide

section Completed
variable (inv : s.Inv) (hi : expansionOf i = [i]) (isLegal : legalWhen i s.phase s.mode s.nsyms.toNat)
  (ok : bodyOf i s = .ok () t)
include inv hi isLegal ok

/-- Exactly the ports of the next phase are held (R29). -/
theorem State.Inv.ports_after : t.portHeld = heldIn (phaseAfter i s.phase) (modeAfter i s.mode) := by
  have held := inv.ports
  cases i with
  | encode | decode => exact nomatch hi
  | nop =>
    obtain rfl : s = t := by simpa [bodyOf] using ok
    exact held
  | clear =>
    obtain rfl : s.cleared = t := by simpa [bodyOf] using ok
    rfl
  | scan =>
    rw [opens_scanBody s t ok, held, show s.phase = .idle from isLegal]
    cases s.mode <;> decide
  | load =>
    rw [opens_loadBody s t ok, held, show s.phase = .idle from isLegal]
    cases s.mode <;> decide
  | persist =>
    rw [opens_persistBody s t ok, held, isLegal.1, isLegal.2]
    decide
  | wrhdr =>
    rw [opens_wrhdrBody s t ok, held, isLegal.1]
    obtain phase | ⟨phase, -⟩ := isLegal.2 <;> rw [phase] <;> decide
  | rdhdr =>
    rw [opens_rdhdrBody s t ok, held, isLegal.1]
    obtain phase | ⟨phase, -⟩ := isLegal.2 <;> rw [phase] <;> decide
  | build =>
    have kept : Keeps (·.portHeld = s.portHeld) buildBody := by apply Keeps.buildBody <;> simp
    rw [kept.ok rfl ok, held]
    obtain ⟨phase, mode⟩ | ⟨phase, mode⟩ := isLegal <;> rw [phase, mode] <;> rfl
  | derive =>
    have kept : Keeps (·.portHeld = s.portHeld) deriveBody := by apply Keeps.deriveBody <;> simp
    rw [kept.ok rfl ok, held, isLegal.1, isLegal.2]
    rfl
  | emit =>
    rw [isLegal.1, isLegal.2] at held ⊢
    have already (v : State) (h : v.portHeld = heldIn .hdr .enc) : (v.hold 0).portHeld = heldIn .hdr .enc := by
      change setBit v.portHeld 0 true = _
      rw [h]
      decide
    have kept : Keeps (·.portHeld = heldIn .hdr .enc) emitBody := Keeps.emitBody already (by simp) (by simp) (by simp)
      (by simp) (by simp) (by simp)
    exact kept.ok held ok
  | flush =>
    rw [portHeld_of_flushBody_ok s () t ok]
    cases s.mode <;> rfl
  | walk =>
    rw [portHeld_of_walkBody_ok s () t ok, isLegal.2]
    rfl

/-- The positions of `BW_ACC` that are not filled are 0 (R91). -/
theorem State.Inv.unfilled_after (running : t.phase ≠ .fault) : t.Unfilled := by
  have before (ignored : runsInFault i = false) : s.Unfilled :=
    inv.unfilled (phase_ne_fault_of_legalWhen ignored isLegal)
  have kept (unfilled : s.Unfilled) (wrhdr : i ≠ .wrhdr) (emit : i ≠ .emit) (flush : i ≠ .flush)
      (clear : i ≠ .clear) : t.Unfilled := by
    have same := (keeps_bodyOf (P := fun t => (t.bwAcc, t.bwN) = (s.bwAcc, s.bwN)) fun _ _ hu hs =>
      (hu.acc_eq wrhdr emit flush clear).trans hs).ok rfl ok
    obtain ⟨acc, count⟩ := Prod.mk.inj same
    rw [State.Unfilled, acc, count]
    exact unfilled
  cases i with
  | encode | decode => exact nomatch hi
  | nop =>
    obtain rfl : s = t := by simpa [bodyOf] using ok
    exact inv.unfilled running
  | clear =>
    obtain rfl : s.cleared = t := by simpa [bodyOf] using ok
    exact fun _ _ => BitVec.getLsbD_zero
  | wrhdr =>
    have fresh : ResultsIn State.Unfilled wrhdrBody :=
      .bind fun _ => .bind fun _ => .bind fun _ => .bind fun _ => .modify fun _ _ _ => BitVec.getLsbD_zero
    exact fresh s () t ok
  | emit =>
    have held : s.held 2 = true := by
      rw [State.held, inv.ports, isLegal.1, isLegal.2]
      rfl
    obtain ⟨a, u, emitted, done⟩ | ⟨e, u, raised⟩ := runs_emitBody s ⟨held, before rfl⟩
    · obtain ⟨-, rfl⟩ := EStateM.Result.ok.inj (emitted.symm.trans ok)
      exact done
    · exact nomatch raised.symm.trans ok
  | flush => exact (Keeps.flushBody (fun _ _ h => h) (fun v _ => v.emptyAcc_unfilled) fun _ h => h).ok (before rfl) ok
  | _ => exact kept (before rfl) nofun nofun nofun nofun

/-- The table and the children are sound, and after `BUILD` there is a tree (R17, R20). -/
theorem State.Inv.sound_after : t.Sound ∧ (i = .build → t.treeValid = true) := by
  by_cases build : i = .build
  · subst build
    have some : s.nsyms ≠ 0 := fun none => by
      rw [bodyOf, buildBody, Proc.get_bind_run, if_pos none, Proc.throw_run] at ok
      exact nomatch ok
    obtain ⟨u, r, tree, -, ran, built⟩ := exec_build_of_table inv.table some isLegal
    obtain rfl : t = u.rootedAt r := Host.Outcome.next.inj ((exec_of_ok (i := .build) rfl isLegal ok).symm.trans ran)
    have below := (built.treeOk inv.below).below
    refine ⟨⟨?_, inv.table.congr ?_ ?_, below⟩, fun _ => rfl⟩
    all_goals rw [built.frame]
    exact inv.width
  · exact ⟨(keeps_sound_bodyOf build).ok inv.sound ok, fun h => absurd h build⟩

/-- A command that needs the tree or the codes has them (R86). -/
theorem State.Inv.trees_after :
    ((t.phase = .built ∨ t.phase = .derived → t.treeValid = true) ∧
      (t.phase = .hdr → t.mode = .dec → t.treeValid = true ∨ t.nsyms = 0)) ∧
    ((t.phase = .derived → t.ctValid = true) ∧
      (t.phase = .hdr ∨ t.phase = .streamed → t.mode = .enc → t.ctValid = true ∨ t.nsyms = 0)) := by
  have phase := phase_of_bodyOf_ok hi ok
  have mode := mode_of_bodyOf_ok hi ok
  have tree (build : i ≠ .build) (clear : i ≠ .clear) : t.treeValid = s.treeValid :=
    (keeps_bodyOf (P := (·.treeValid = s.treeValid)) fun _ _ hu hs => by
      have same := hu.tree_eq build clear
      simp only [Prod.mk.injEq] at same
      exact same.2.2.2.2.2.2.trans hs).ok rfl ok
  have codes (derive : i ≠ .derive) (build : i ≠ .build) (clear : i ≠ .clear) : t.ctValid = s.ctValid :=
    (keeps_bodyOf (P := (·.ctValid = s.ctValid)) fun _ _ hu hs => (hu.ctValid_eq derive build clear).trans hs).ok rfl ok
  have nsyms (scan : i ≠ .scan) (load : i ≠ .load) (clear : i ≠ .clear) : t.nsyms = s.nsyms :=
    (keeps_bodyOf (P := (·.nsyms = s.nsyms)) fun _ _ hu hs => by
      have same := hu.table_eq scan load clear
      simp only [Prod.mk.injEq] at same
      exact same.2.2.1.trans hs).ok rfl ok
  rw [phase, mode]
  cases i with
  | encode | decode => exact nomatch hi
  | nop =>
    obtain rfl : s = t := by simpa [bodyOf] using ok
    exact ⟨inv.tree, inv.codes⟩
  | clear | scan | load | persist | flush | walk => simp [phaseAfter]
  | build =>
    have valid := (inv.sound_after hi isLegal ok).2 rfl
    simp [phaseAfter, valid]
  | derive =>
    have valid : t.treeValid = true := (tree nofun nofun).trans (inv.tree.1 (.inl isLegal.1))
    have derived : t.ctValid = true := by
      have ends : ResultsIn (·.ctValid = true) deriveBody := .bind fun _ => .bind fun _ => .modify fun _ => rfl
      exact ends s () t ok
    simp [phaseAfter, valid, derived]
  | wrhdr =>
    have coded : t.ctValid = true ∨ t.nsyms = 0 := by
      rw [codes nofun nofun nofun, nsyms nofun nofun nofun]
      exact isLegal.2.imp inv.codes.1 fun h => BitVec.eq_of_toNat_eq h.2
    exact ⟨⟨by simp [phaseAfter], fun _ dec => nomatch isLegal.1.symm.trans dec⟩, by simp [phaseAfter], fun _ _ =>
      coded⟩
  | emit =>
    have coded : t.ctValid = true ∨ t.nsyms = 0 := by
      rw [codes nofun nofun nofun, nsyms nofun nofun nofun]
      exact inv.codes.2 (.inl isLegal.1) isLegal.2
    exact ⟨⟨by simp [phaseAfter], by simp [phaseAfter]⟩, by simp [phaseAfter], fun _ _ => coded⟩
  | rdhdr =>
    have valid : t.treeValid = true ∨ t.nsyms = 0 := by
      rw [tree nofun nofun, nsyms nofun nofun nofun]
      exact isLegal.2.imp (fun h => inv.tree.1 (.inl h)) fun h => BitVec.eq_of_toNat_eq h.2
    exact ⟨⟨by simp [phaseAfter], fun _ _ => valid⟩, by simp [phaseAfter], fun _ enc =>
      nomatch isLegal.1.symm.trans enc⟩

end Completed

/-! ### Commands -/

theorem State.Inv.settled (inv : s.Inv) : s.Settled where
  error := inv.error
  quiet := inv.quiet
  free ended := by
    rw [inv.ports]
    obtain phase | phase := ended <;> rw [phase] <;> cases s.mode <;> rfl

/-- Where a procedure raises an error, the table and the children are sound. -/
theorem State.Inv.sound_raised {e : ErrorKind} (inv : s.Inv) (isLegal : legalWhen i s.phase s.mode s.nsyms.toNat)
    (raised : bodyOf i s = .error (.raised e) t) : t.Sound := by
  by_cases build : i = .build
  · subst build
    by_cases none : s.nsyms = 0
    · rw [bodyOf, buildBody, Proc.get_bind_run, if_pos none, Proc.throw_run] at raised
      obtain ⟨-, rfl⟩ := EStateM.Result.error.inj raised
      exact inv.sound
    · obtain ⟨u, r, tree, -, ran, -⟩ := exec_build_of_table inv.table none isLegal
      have same := Host.Outcome.next.inj ((exec_of_raised (i := .build) rfl isLegal raised).symm.trans ran)
      exact nomatch congrArg State.phase same
  · exact (keeps_sound_bodyOf build).error inv.sound raised

/-- A primitive command keeps the invariant. -/
theorem exec_keeps_inv_primitive (hi : expansionOf i = [i]) : KeepsNext State.Inv (exec i) := by
  intro s t inv ran
  have settled := exec_keeps_settled hi s t inv.settled ran
  rw [exec_eq_runCommand hi] at ran
  obtain ⟨-, -, rfl⟩ | ⟨-, rfl⟩ | ⟨isLegal, ok⟩ | ⟨isLegal, e, u, raised, rfl⟩ := runCommand_next_cases ran
  · exact inv
  · exact inv.sound.raiseError _ _
  · have isLegal := (legal_iff_legalWhen s i).mp isLegal
    have phase := phase_of_bodyOf_ok hi ok
    have mode := mode_of_bodyOf_ok hi ok
    obtain ⟨tree, codes⟩ := inv.trees_after hi isLegal ok
    obtain ⟨sound, -⟩ := inv.sound_after hi isLegal ok
    refine {
      width := sound.width
      table := sound.table
      ports := by rw [inv.ports_after hi isLegal ok, phase, mode]
      modes := by rw [phase, mode, phaseOfMode_after hi inv.modes isLegal]
      below := sound.below
      idle := ?idle
      error := settled.error
      quiet := settled.quiet
      unfilled := inv.unfilled_after hi isLegal ok
      tree := tree
      codes := codes }
    case idle =>
      intro idle
      rw [phase] at idle
      cases i with
      | nop =>
        obtain rfl : s = t := by simpa [bodyOf] using ok
        exact inv.idle idle
      | clear =>
        obtain rfl : s.cleared = t := by simpa [bodyOf] using ok
        exact s.cleared_cleared
      | _ => exact nomatch idle
  · exact (inv.sound_raised ((legal_iff_legalWhen s i).mp isLegal) raised).raiseError _ _

theorem exec_keeps_inv (i : Instr) : KeepsNext State.Inv (exec i) :=
  exec_keepsNext_of_steps fun _ _ hj => exec_keeps_inv_primitive hj

/-! ### Host moves -/

/-- The host's moves and what was read are no part of the session, and neither are the streams. -/
theorem State.Inv.of_frame (inv : s.Inv) (frame : t = { s with
    hostMoves := t.hostMoves, readData := t.readData, src := t.src, fsrc := t.fsrc, esrc := t.esrc
    fsink := t.fsink, esink := t.esink, osink := t.osink }) : t.Inv := by
  rw [frame]
  exact { inv with
    table := inv.table.congr rfl rfl
    idle := fun idle => congrArg (fun v : State => { v with
      hostMoves := t.hostMoves, readData := t.readData, src := t.src, fsrc := t.fsrc, esrc := t.esrc
      fsink := t.fsink, esink := t.esink, osink := t.osink }) (inv.idle idle) }

theorem State.Inv.reserved (inv : s.Inv) {v : Byte} (ran : reservedCommand v s = .next t) : t.Inv := by
  rw [reservedCommand] at ran
  split at ran
  · obtain rfl := Host.Outcome.next.inj ran
    exact inv
  · obtain rfl := Host.Outcome.next.inj ran
    exact inv.sound.raiseError _ _

/-- Every move of the host keeps the invariant. -/
theorem State.Inv.hostMove (inv : s.Inv) {m : HostMove} (ran : Machine.hostMove m s = .next t) : t.Inv := by
  cases m with
  | write reg v =>
    rw [Machine.hostMove, writeRegister] at ran
    split at ran
    · rw [writeCmd] at ran
      split at ran
      · exact exec_keeps_inv _ s t inv ran
      · exact inv.reserved ran
    · obtain rfl := Host.Outcome.next.inj ran
      exact inv
  | read reg =>
    obtain rfl := Host.Outcome.next.inj ran
    exact inv.of_frame rfl
  | reset =>
    obtain rfl := Host.Outcome.next.inj ran
    exact State.cleared_inv inv.width
  | bindSource p data fails =>
    rw [Machine.hostMove, bindSource] at ran
    split at ran
    · exact nomatch ran
    · obtain rfl := Host.Outcome.next.inj ran
      exact inv.of_frame (by cases p <;> rfl)
  | bindSink q data fails =>
    rw [Machine.hostMove, bindSink] at ran
    split at ran
    · exact nomatch ran
    · obtain rfl := Host.Outcome.next.inj ran
      exact inv.of_frame (by cases q <;> rfl)

/-- Settles O52: a step is a move of the host, and a command that completes leaves what its row says, sound where an
error is raised. -/
theorem stepKeepsTheInvariant : Obligations.StepKeepsTheInvariant := by
  unfold Obligations.StepKeepsTheInvariant
  intro s t inv ran
  cases moves : s.hostMoves with
  | nil =>
    obtain rfl := Host.Outcome.next.inj ((step_of_noMove moves).symm.trans ran)
    exact inv
  | cons m ms =>
    rw [step_of_move moves] at ran
    exact State.Inv.hostMove (inv.of_frame (t := { s with hostMoves := ms }) rfl) ran

end Sys2Proof.Machine
end

section
/-!
PROOFS. No command stops the machine (spec/60_exceptions.md R181, spec/20_memory.md section 1).
-/

namespace Sys2Proof.Machine

variable {i : Instr} {s t : State} {P : State → Prop}

/-- A primitive command whose procedure runs wherever it is legal answers a next state. -/
theorem exec_next_of_runs {Q : Unit → State → Prop} (hi : expansionOf i = [i]) (runs : Runs P (bodyOf i) Q)
    (ready : legalWhen i s.phase s.mode s.nsyms.toNat → P s) : ∃ t, exec i s = .next t := by
  rw [exec_eq_runCommand hi, runCommand]
  split
  · exact ⟨s, rfl⟩
  · split
    · exact ⟨_, rfl⟩
    · next isLegal =>
      obtain ⟨a, t, ok, -⟩ | ⟨e, t, raised⟩ := runs s (ready ((legal_iff_legalWhen s i).mp (by simpa using isLegal)))
      · exact ⟨t, by rw [ok, finish]⟩
      · exact ⟨t.raiseError e (opcode i), by rw [raised, finish]⟩

/-- `BUILD` of a table whose registers agree makes its tree, or raises the error of R125. -/
theorem runs_buildBody : Runs (fun s => s.TableOk ∧ legalWhen .build s.phase s.mode s.nsyms.toNat) buildBody
    fun _ _ => True := by
  rintro s ⟨ok, isLegal⟩
  by_cases none : s.nsyms = 0
  · refine .inr ⟨.internalInvariantError, s, ?_⟩
    rw [buildBody, Proc.get_bind_run, if_pos none, Proc.throw_run]
  · obtain ⟨u, r, tree, -, ran, built⟩ := exec_build_of_table ok none isLegal
    exact .inl ⟨(), _, body_of_exec (i := .build) rfl (phase_ne_fault_of_legalWhen rfl isLegal) ran nofun, trivial⟩

/-- `DERIVE` of a store whose children are below their parents ends (R17, R130). -/
theorem runs_deriveBody : Runs State.childrenBelow deriveBody fun _ _ => True := by
  intro s below
  obtain ⟨T, has⟩ := State.exists_has below s.root
  exact .inl ⟨(), _, deriveBody_of_has has (below.height_le has), trivial⟩

/-- Of the ports of a phase, those that the command does not open itself are held. -/
theorem State.Inv.held (inv : s.Inv) (n : Nat) : s.held n = (heldIn s.phase s.mode).getLsbD n := by
  rw [State.held, inv.ports]

theorem State.Inv.exec_next_primitive (inv : s.Inv) (hi : expansionOf i = [i]) : ∃ t, exec i s = .next t := by
  cases i with
  | encode | decode => exact nomatch hi
  | nop => exact ⟨s, exec_nop s⟩
  | clear => exact ⟨_, exec_clear s⟩
  | scan => exact exec_next_of_runs hi runs_scanBody fun _ => trivial
  | persist => exact exec_next_of_runs hi runs_persistBody fun _ => trivial
  | load => exact exec_next_of_runs hi runs_loadBody fun _ => trivial
  | build => exact exec_next_of_runs hi runs_buildBody fun isLegal => ⟨inv.table, isLegal⟩
  | derive => exact exec_next_of_runs hi runs_deriveBody fun _ => inv.below
  | wrhdr => exact exec_next_of_runs hi runs_wrhdrBody fun _ => trivial
  | rdhdr => exact exec_next_of_runs hi runs_rdhdrBody fun _ => trivial
  | emit =>
    refine exec_next_of_runs hi runs_emitBody fun isLegal => ⟨?_, inv.unfilled
      (phase_ne_fault_of_legalWhen rfl isLegal)⟩
    rw [inv.held, isLegal.1, isLegal.2]
    rfl
  | flush =>
    refine exec_next_of_runs hi runs_flushBody fun isLegal => ?_
    have modes := inv.modes
    rw [show s.phase = .streamed from isLegal] at modes
    rw [inv.held, show s.phase = .streamed from isLegal]
    revert modes
    cases s.mode <;> decide
  | walk =>
    refine exec_next_of_runs hi runs_walkBody fun isLegal => ?_
    rw [inv.held, isLegal.1, isLegal.2]
    rfl

/-! ### Composites -/

/-- From the invariant this answers a next state that meets it. -/
def Proceeds (f : State → Answer) : Prop := ∀ s, s.Inv → ∃ t, f s = .next t ∧ t.Inv

theorem Proceeds.primitive (hi : expansionOf i = [i]) : Proceeds (exec i) := fun s inv =>
  have ⟨t, ran⟩ := inv.exec_next_primitive hi
  ⟨t, ran, exec_keeps_inv i s t inv ran⟩

theorem Proceeds.andThen {f g : State → Answer} (hf : Proceeds f) (hg : Proceeds g) :
    Proceeds fun s => Machine.andThen (f s) g := by
  intro s inv
  obtain ⟨t, ran, inv'⟩ := hf s inv
  dsimp only
  rw [ran]
  by_cases fault : t.phase = .fault
  · exact ⟨t, andThen_of_fault fault, inv'⟩
  · rw [andThen_of_next fault]
    exact hg t inv'

theorem Proceeds.ite {c : State → Prop} [DecidablePred c] {f g : State → Answer} (hf : Proceeds f) (hg : Proceeds g) :
    Proceeds fun s => if c s then f s else g s := by
  intro s inv
  dsimp only
  split
  · exact hf s inv
  · exact hg s inv

theorem Proceeds.stay : Proceeds fun s => .next s := fun s inv => ⟨s, rfl, inv⟩

theorem proceeds_exec (i : Instr) : Proceeds (exec i) := by
  cases i with
  | encode =>
    rw [exec_encode_eq, buildAndDerive_eq]
    exact ((((((Proceeds.primitive rfl).andThen (.primitive rfl)).andThen (.primitive rfl)).andThen
      (.ite (.andThen (.primitive rfl) (.primitive rfl)) .stay)).andThen (.primitive rfl)).andThen
      (.primitive rfl)).andThen (.primitive rfl)
  | decode =>
    rw [exec_decode_eq, buildIfAny_eq]
    exact ((((Proceeds.primitive rfl).andThen (.primitive rfl)).andThen (.ite (.primitive rfl) .stay)).andThen
      (.primitive rfl)).andThen (.primitive rfl)
  | _ => exact .primitive rfl

/-! ### Host moves -/

/-- Only a binding of a held stream is refused (R57, R204). -/
theorem State.Inv.hostMove_next (inv : s.Inv) (m : HostMove) :
    (∃ t, Machine.hostMove m s = .next t) ∨ Machine.hostMove m s = .refused .streamHeld := by
  cases m with
  | write reg v =>
    left
    rw [Machine.hostMove, writeRegister]
    split
    · rw [writeCmd]
      split
      · obtain ⟨t, ran, -⟩ := proceeds_exec _ s inv
        exact ⟨t, ran⟩
      · rw [reservedCommand]
        split
        · exact ⟨_, rfl⟩
        · exact ⟨_, rfl⟩
    · exact ⟨s, rfl⟩
  | read reg => exact .inl ⟨_, rfl⟩
  | reset => exact .inl ⟨_, rfl⟩
  | bindSource p data fails =>
    rw [Machine.hostMove, bindSource]
    split
    · exact .inr rfl
    · exact .inl ⟨_, rfl⟩
  | bindSink q data fails =>
    rw [Machine.hostMove, bindSink]
    split
    · exact .inr rfl
    · exact .inl ⟨_, rfl⟩

/-- Settles O53: every procedure runs where its command is legal in the invariant, and the steps of a composite keep the
invariant. -/
theorem noCommandStops : Obligations.NoCommandStops := by
  unfold Obligations.NoCommandStops
  refine fun s inv => ⟨fun i => ?command, ?step⟩
  case command =>
    obtain ⟨t, ran, -⟩ := proceeds_exec i s inv
    exact ⟨t, ran⟩
  case step =>
    cases moves : s.hostMoves with
    | nil => exact .inl ⟨s, step_of_noMove moves⟩
    | cons m ms =>
      rw [step_of_move moves]
      exact State.Inv.hostMove_next (inv.of_frame (t := { s with hostMoves := ms }) rfl) m

end Sys2Proof.Machine
end
